-- ==== Sys2Proof/Word.lean ====
section
/-! DEFINITION. The words of the host port: bytes, 16-bit words and 32-bit double words (chapter 11). -/

namespace Sys2Proof

/-- One byte of the window. -/
abbrev Byte := BitVec 8

/-- One word of the window or of a register: what one bus access moves (R180). -/
abbrev Word := BitVec 16

/-- A 32-bit field: two words, low word first (chapter 11). -/
abbrev DWord := BitVec 32

end Sys2Proof
end

