-- ==== Sys2Proof/Config.lean ====
section
/-! DEFINITION. What the part fixes for every run (the parameter tables of the chapters), and the
free values: constants without a body, standing for values the manual leaves open. -/

namespace Sys2Proof.Config

/-- Admission queue capacity (R19). -/
def queueCapacity : Nat := 3
/-- Capacity of the notice unit's submission list (R171). -/
def listCapacity : Nat := 16
/-- Entries of the notice log (R170). -/
def logEntries : Nat := 64
/-- Trace ring capacity (R91). -/
def ringCapacity : Nat := 128
/-- Interval of periodic look points and of the withdraw watch, ms (R5, R22). -/
def lookInterval : Nat := 250
/-- Length of a late period of a weigh link, ms (R75). -/
def latePeriod : Nat := 50
/-- Late periods to SCALE FAULT with cause LOST (R75). -/
def lateLimit : Nat := 3
/-- Length of a missing period of the temperature link, ms (R137). -/
def missingPeriod : Nat := 300
/-- Missing periods to NO FRAMES, and good frames to leave SENSOR FAULT (R137, R138). -/
def frameCount : Nat := 4
/-- Samples averaged by a tare (R77). -/
def tareSamples : Nat := 8
/-- Consecutive still samples that end a settle (R82). -/
def settleSamples : Nat := 10
/-- Samples of a stall window after its first (R86). -/
def stallSamples : Nat := 25
/-- Stall windows that end a dose (R86). -/
def stallLimit : Nat := 3
/-- Shortest STOP# pulse that is a pause toggle, ms (R158). -/
def togglePulse : Nat := 40
/-- Pulse length at which STOP# is a plant stop, ms (R158). -/
def stopPulse : Nat := 400
/-- Layout version the header must hold at the configuration check (R184, chapter 11). -/
def layoutVersion : Nat := 3
/-- The last batch sequence number; after it the counter is exhausted (R51). -/
def lastSequence : Nat := 4294967295

/-- What a byte of the window that nothing has written reads as in the state after reset.
DESIGN CHOICE (log 1), unsafe: the manual calls this content undefined (R30, R186). -/
def unwrittenByte : Byte := 0

/-- FREE VALUE (log 2): the content of the window RAM after a power-on reset, where the part does
not write it (R186: "The rest of the window is undefined"). The argument numbers the resets. -/
opaque powerOnWindow : Nat → List (Nat × Byte)

/-- FREE VALUE (log 14): the one byte a notice detail carries for a slot state word above 255. -/
opaque wideStateByte : Word → Byte

/-- FREE VALUE (log 15): for a tank reading beyond both ends of an empty binder window (MIN above
MAX), whether the limit crossed is MIN. The arguments are the reading, MIN and MAX. -/
opaque bothEndsMin : Int → Int → Int → Bool

/-- FREE VALUE (log 16): the dry total written in the ticket summary of SLOT SEIZED for a batch whose
dry total was never formed. The argument is the batch sequence number. -/
opaque unformedDryTotal : Nat → Word

/-- FREE VALUE (log 51): how many part accesses of a plant stop's tickets and closings are made before a
soft reset classed at the same moment cuts them short (R187). The argument numbers the free values. -/
opaque stopAccesses : Nat → Nat

end Sys2Proof.Config
end

