-- ==== Sys2Proof/Syntax.lean ====
section
/-! DEFINITION. The commands of the part: one constructor of `Instr` per row of
spec/opcode_table.json, and the names their operands use. -/

namespace Sys2Proof

/-- The four weigh scales and their channels. -/
inductive Scale
  | agg | rap | fil | bit
  deriving DecidableEq, Repr

/-- The twelve feed sources (section 2.3). -/
inductive Source
  | hb1 | hb2 | hb3 | hb4 | hb5 | hb6 | rb1 | rb2 | fs1 | fs2 | bt1 | bt2
  deriving DecidableEq, Repr

/-- The five routes and receivers (chapter 6); an order's destination is one of the first four. -/
inductive Route
  | truck | silo1 | silo2 | silo3 | reject
  deriving DecidableEq, Repr

/-- The status of a weigh frame (section 4.1); `other` is a value outside the three (R76). -/
inductive FrameStatus
  | ok | overload | converterFault | other
  deriving DecidableEq, Repr

/-- One reading of a temperature frame: its valid marker and its value, signed 0.1 °C (R136). -/
structure TempReading where
  valid : Bool
  value : Word
  deriving DecidableEq, Repr

/-- One item for each temperature channel T1 to T7. -/
structure PerTemp (α : Type) where
  t1 : α
  t2 : α
  t3 : α
  t4 : α
  t5 : α
  t6 : α
  t7 : α
  deriving DecidableEq, Repr

/-- A temperature frame: seven readings (R136). -/
abbrev TempFrame := PerTemp TempReading

/-- The commands and events of the part. -/
inductive Instr
  /-- HOST_WINDOW_ACCESS (R180): a host read or write of one window word. `behind` is the number of
  part accesses that are served before it (0: the arbiter is free). -/
  | hostWindowAccess (write : Bool) (addr : Word) (data : Word) (behind : Nat)
  /-- LOAD (R184). -/
  | load
  /-- CHECK_COMPLETE (R185): the configuration check runs to its end. -/
  | checkComplete
  /-- RUN (R163, R169). -/
  | run
  /-- FINISH (R169). -/
  | finish
  /-- PAUSE (R159). -/
  | pause
  /-- RESUME (R159). -/
  | resume
  /-- RESTART (R14). -/
  | restart
  /-- REARM (R99). -/
  | rearm
  /-- BURNER_RESET (R144). -/
  | burnerReset
  /-- SOFT_RESET (R187). -/
  | softReset
  /-- VECTOR_READ (R177). -/
  | vectorRead
  /-- VECTOR_WRITE (R177). -/
  | vectorWrite (data : Word)
  /-- MASK_WRITE (R175, R181). -/
  | maskWrite (data : Word)
  /-- REGISTER_WRITE (R181): a write to STATUS. -/
  | registerWrite (data : Word)
  /-- RESET_ASSERTED (R186): RESET# falls. -/
  | resetAsserted
  /-- POWER_ON_RESET (R186): RESET# rises and the reset completes. -/
  | powerOnReset
  /-- SECONDS_TICK (R186). -/
  | secondsTick
  /-- IDLE_TIMER_EXPIRY (R147). -/
  | idleTimerExpiry
  /-- LOOK_POINT (R5): the periodic look point. -/
  | lookPoint
  /-- WITHDRAW_WATCH (R22). -/
  | withdrawWatch
  /-- WEIGH_START (R52). -/
  | weighStart
  /-- CHARGE_DECISION (R59). -/
  | chargeDecision
  /-- THERMAL_TIMEOUT (R61). -/
  | thermalTimeout
  /-- WEIGH_FRAME (R73): the signed count and the status of a frame of one scale. -/
  | weighFrame (scale : Scale) (count : Int) (status : FrameStatus)
  /-- LATE_PERIOD (R75). -/
  | latePeriod (scale : Scale)
  /-- SETTLE_TIMEOUT (R82). -/
  | settleTimeout (scale : Scale)
  /-- JOG_PULSE_END (R81, R82). -/
  | jogPulseEnd (scale : Scale)
  /-- DISCHARGE_TIMEOUT (R96). -/
  | dischargeTimeout (scale : Scale)
  /-- BIN_LOW_INPUT (R87): the level of a bin's low-level input. -/
  | binLowInput (source : Source) (active : Bool)
  /-- PURGE_TIMER_EXPIRY (R102). -/
  | purgeTimerExpiry
  /-- FILLER_DELAY_EXPIRY (R120). -/
  | fillerDelayExpiry
  /-- DRY_MIX_EXPIRY (R122). -/
  | dryMixExpiry
  /-- WET_MIX_EXPIRY (R123). -/
  | wetMixExpiry
  /-- RECEIVER_READY_CHANGE (R124). -/
  | receiverReadyChange (receiver : Route) (active : Bool)
  /-- OVERMIX (R125). -/
  | overmix
  /-- CYCLE_MARK (R130). -/
  | cycleMark
  /-- DOOR_OPEN_EXPIRY (R126). -/
  | doorOpenExpiry
  /-- DOOR_CLOSED (R127): the level of the door-closed input. -/
  | doorClosed (active : Bool)
  /-- DOOR_CLOSE_TIMEOUT (R128). -/
  | doorCloseTimeout
  /-- CLEAR_MIX_EXPIRY (R134). -/
  | clearMixExpiry
  /-- STOP_LINE_FALL (R158). -/
  | stopLineFall
  /-- STOP_LINE_RISE (R158): `lowFor` is how long the line was low by the sender's clock, ms. -/
  | stopLineRise (lowFor : Nat)
  /-- PLANT_STOP (R161, R162): the pulse reaches 400 ms. -/
  | plantStop
  /-- TEMPERATURE_FRAME (R136). -/
  | temperatureFrame (frame : TempFrame)
  /-- MISSING_PERIOD (R137). -/
  | missingPeriod
  /-- BURNER_PERMIT_CHANGE (R140). -/
  | burnerPermitChange (active : Bool)
  /-- FLAME_PROVEN_CHANGE (R141). -/
  | flameProvenChange (active : Bool)
  /-- IGNITION_TIMEOUT (R141). -/
  | ignitionTimeout
  /-- LOW_FIRE_HOLD_EXPIRY (R142). -/
  | lowFireHoldExpiry
  /-- REGULATOR_UPDATE (R149). -/
  | regulatorUpdate
  /-- NOTICE_WRITE (R172). -/
  | noticeWrite
  /-- CAPTURE_WRITE (R178). -/
  | captureWrite
  /-- CONTROL_WRITE_NAMING_NO_COMMAND (R182): the word written to CONTROL. -/
  | controlWriteNamingNoCommand (data : Word)
  deriving DecidableEq, Repr

end Sys2Proof
end

