-- ==== Sys2Proof/WellFormed.lean ====
section
/-! DEFINITION. Which commands are well formed: operand values the spec gives the event. -/

namespace Sys2Proof

/-- A CONTROL word that names one command: exactly one of bits 0 to 8, and no other bit (R182). -/
def namesCommand (w : Word) : Bool :=
  w == 0x0001 || w == 0x0002 || w == 0x0004 || w == 0x0008 || w == 0x0010 || w == 0x0020 ||
  w == 0x0040 || w == 0x0080 || w == 0x0100

/-- The sources that have a low-level input: HB1 to HB6, RB1 and RB2 (R45). -/
def Source.hasLowInput : Source → Bool
  | .fs1 | .fs2 | .bt1 | .bt2 => false
  | _ => true

/-- The operands a row admits. A CONTROL write that names a command is that command's own row; a
low-level input exists for hot bins and reclaimed bins only (R45). -/
def Instr.wellFormed : Instr → Bool
  | .controlWriteNamingNoCommand w => !namesCommand w
  | .binLowInput src _ => src.hasLowInput
  | .hostWindowAccess _ _ _ _ => true
  | .load | .checkComplete | .run | .finish | .pause | .resume | .restart | .rearm | .burnerReset
  | .softReset | .vectorRead => true
  | .vectorWrite _ | .maskWrite _ | .registerWrite _ => true
  | .resetAsserted | .powerOnReset | .secondsTick | .idleTimerExpiry | .lookPoint | .withdrawWatch
  | .weighStart | .chargeDecision | .thermalTimeout => true
  | .weighFrame _ _ _ | .latePeriod _ | .settleTimeout _ | .jogPulseEnd _ | .dischargeTimeout _ => true
  | .purgeTimerExpiry | .fillerDelayExpiry | .dryMixExpiry | .wetMixExpiry => true
  | .receiverReadyChange _ _ => true
  | .overmix | .cycleMark | .doorOpenExpiry | .doorCloseTimeout | .clearMixExpiry => true
  | .doorClosed _ => true
  | .stopLineFall | .plantStop => true
  | .stopLineRise _ => true
  | .temperatureFrame _ => true
  | .missingPeriod | .ignitionTimeout | .lowFireHoldExpiry | .regulatorUpdate | .noticeWrite
  | .captureWrite => true
  | .burnerPermitChange _ | .flameProvenChange _ => true

end Sys2Proof
end

