-- ==== Sys2Proof/Decode.lean ====
section
/-! DEFINITION. The commands that a word spells by the bits of spec/opcode_table.json. The part is a
block: no row of the table gives bits ("fields": [] and no "fixed" in every row), so no word spells a
command. Log 35. -/

namespace Sys2Proof

/-- The command spelled by a word of the table's bits: none, since no row gives bits. -/
def decodeTableWord (_nbits _w : Nat) : Option Instr := none

end Sys2Proof
end

