-- ==== Sys2Proof/Machine/State.lean ====
section
/-! DEFINITION. The state of the part: every register, queue, timer, flag, memory and pin the manual
gives it, block by block (chapter 0, functional block diagram), and the state after reset. -/

namespace Sys2Proof.Machine

/-! ### Names -/

/-- Part states (R157, R183). -/
inductive PartState
  | unconfigured | checking | standby | run | stopped | halted
  deriving DecidableEq, Repr

/-- The two bitumen tanks. -/
inductive Tank
  | bt1 | bt2
  deriving DecidableEq, Repr

/-- Walker states (section 1.2). -/
inductive Walker
  | noEntry | walking | broken | lost
  deriving DecidableEq, Repr

/-- Withdraw levels, in rising order (R22). -/
inductive Level
  | none | withdraw | discard
  deriving DecidableEq, Repr

/-- Outcomes of an order (section 11.7). -/
inductive OrderOutcome
  | complete | partialDone | withdrawn | refused | aborted
  deriving DecidableEq, Repr

/-- Refusal codes of admission, in the order of the checks of R15. -/
inductive RefusalCode
  | none | orderNumber | formulaRange | formulaNotReady | componentCount | duplicateSource
  | sourceDisabled | shareSum | batchCount | massRange | scaleCapacity | destination
  deriving DecidableEq, Repr

/-- Outcomes of a component (R56). -/
inductive DoseOutcome
  | inTol | short | overTol | overReject | stall | skipped | notDosed
  deriving DecidableEq, Repr

/-- Verdicts of a batch (R64). -/
inductive Verdict
  | good | flagged | reject | aborted
  deriving DecidableEq, Repr

/-- What a held dose goes back to (R88): FAST, FINE, a jog pulse that was cut, or a jog pulse asked
for and not begun. -/
inductive Remembered
  | fast | fine | jogCut | jogDue
  deriving DecidableEq, Repr

/-- Dose sub-phases (section 4.4). -/
inductive SubPhase
  | fast | fine | settling | jogging | held (back : Remembered)
  deriving DecidableEq, Repr

/-- Scale channel states (section 4.2). -/
inductive ChanState
  | idle | taring | dosing (p : SubPhase) | prefed | changeover | weighed | discharging | fault
  deriving DecidableEq, Repr

/-- Scale fault causes (R76, R77, R75). -/
inductive ScaleCause
  | lost | overload | converterFault | capacity | zero
  deriving DecidableEq, Repr

/-- Feed outputs of a source (section 4.2). -/
inductive Feed
  | fast | fine
  deriving DecidableEq, Repr

/-- What BIT holds of the coordinator's answer (section 5.1). -/
inductive HeldTarget
  | none | bc (mass : Int) | noDose
  deriving DecidableEq, Repr

/-- Mixer phases (chapter 6). -/
inductive Phase
  | empty | charging | dry | wet | dischargeWait | doorOpen | doorClosing | clearMix
  deriving DecidableEq, Repr

/-- Phases a cycle mark can name (R130); NONE is the absence of one. -/
inductive MarkPhase
  | charging | dry | wet | dischargeWait | doorOpen | doorClosing
  deriving DecidableEq, Repr

/-- How a discharge ended (R120). -/
inductive EndKind
  | empty | timedOut | faulted
  deriving DecidableEq, Repr

/-- Discharge status of a scale in a batch (chapter 6). -/
inductive Disch
  | notAsked | asked | ended (kind : EndKind)
  deriving DecidableEq, Repr

/-- The T6 reading of a batch: not yet taken, taken absent, or taken present (R126). -/
inductive T6Reading
  | notTaken | absent | present (value : Int)
  deriving DecidableEq, Repr

/-- Clear steps (section 8.7). -/
inductive ClearStep
  | none | waitFaults | take | waitReceiver | discharge | mix
  deriving DecidableEq, Repr

/-- STOP# decoder states (R158). -/
inductive Decoder
  | high | timing | held
  deriving DecidableEq, Repr

/-- Sources of a pause (R160). -/
inductive PauseSource
  | line | control
  deriving DecidableEq, Repr

/-- Causes of HALTED (R168). -/
inductive HaltCause
  | doorFault | scaleFaultInClear
  deriving DecidableEq, Repr

/-- Write sequences that can be seized, and NOT QUEUED (R173). -/
inductive SeizedSeq
  | activate | ticket | close | notQueued
  deriving DecidableEq, Repr

/-- Burner states (section 7.3). -/
inductive Burner
  | off | requested | lowFire | modulating | fault
  deriving DecidableEq, Repr

/-- Burner fault causes (R143). -/
inductive BurnerCause
  | ignition | flameLost
  deriving DecidableEq, Repr

/-- Causes of a temperature channel's SENSOR FAULT (R136, R137). -/
inductive TempCause
  | start | invalid | noFrames
  deriving DecidableEq, Repr

/-- Conditions of the thermal permit (R155). -/
inductive PermitCond
  | aggregate | tank | line
  deriving DecidableEq, Repr

/-- The temperature channels. -/
inductive TempChan
  | t1 | t2 | t3 | t4 | t5 | t6 | t7
  deriving DecidableEq, Repr

/-! ### Families of like things -/

/-- One item for each scale. -/
structure PerScale (α : Type) where
  agg : α
  rap : α
  fil : α
  bit : α
  deriving DecidableEq, Repr

/-- One item for each receiver. -/
structure PerRoute (α : Type) where
  truck : α
  silo1 : α
  silo2 : α
  silo3 : α
  reject : α
  deriving DecidableEq, Repr

/-! ### Memory -/

/-- The window RAM: (address, byte) pairs, addresses strictly rising, no entry equal to
`Config.unwrittenByte`. -/
abbrev Memory := List Host.Cell

/-! ### Host port -/

/-- A host window access that waits behind part accesses (R180). -/
structure HostAccess where
  write : Bool
  addr : Nat
  data : Word
  behind : Nat
  deriving DecidableEq, Repr

/-- Host port (chapter 10). -/
structure Port where
  /-- RESET# is low (R186). -/
  resetLow : Bool
  /-- Accesses held behind part accesses, oldest first (R180). -/
  waiting : List HostAccess
  /-- Host commands held while RESET# is low, oldest first (R180). -/
  held : List Instr
  /-- Data lines as last driven by a read. -/
  hostData : Word
  /-- COMMAND REFUSED (R182). -/
  refused : Bool
  /-- Check error record (R183). -/
  checkRecord : Nat
  deriving DecidableEq, Repr

/-! ### Run control -/

/-- The clear record (chapter 8). -/
structure ClearRec where
  start : PerScale Int
  ends : PerScale (Option EndKind)
  rwPosted : Bool
  began : DWord
  deriving DecidableEq, Repr

/-- Run control (chapter 8). -/
structure RunCtl where
  part : PartState
  paused : Bool
  finishing : Bool
  clearRequired : Bool
  clearStep : ClearStep
  clearRec : ClearRec
  decoder : Decoder
  /-- Pulse timer, ms (R158). -/
  pulse : Nat
  /-- Seconds counter when PAUSED was set (R160). -/
  pausedAt : DWord
  deriving DecidableEq, Repr

/-! ### Batches and tickets -/

/-- The nine ticket flags (R65). -/
structure TicketFlags where
  paused : Bool
  binLow : Bool
  unsettled : Bool
  sampleGap : Bool
  thermalWait : Bool
  changeover : Bool
  overmix : Bool
  discarded : Bool
  receiverWait : Bool
  deriving DecidableEq, Repr

/-- Mixer results of a batch (R135). -/
structure MixResults where
  dry : Nat
  wet : Nat
  overTime : Nat
  t6 : Option Int
  deriving DecidableEq, Repr

/-- One component entry of a batch record (R50). -/
structure CompEntry where
  source : Source
  target : Int
  actual : Int
  outcome : Option DoseOutcome
  deriving DecidableEq, Repr

/-- A finished ticket (section 3.6). -/
structure Ticket where
  slot : Nat
  order : Word
  load : List Byte
  seq : Nat
  index : Nat
  verdict : Verdict
  flags : TicketFlags
  comps : List CompEntry
  results : MixResults
  stamp : DWord
  dryTotal : Option Int
  deriving DecidableEq, Repr

/-- A batch record (R50). -/
structure Batch where
  seq : Nat
  slot : Nat
  order : Word
  load : List Byte
  index : Nat
  dest : Route
  tAgg : Int
  tank : Tank
  winMin : Int
  winMax : Int
  dryTime : Nat
  wetTime : Nat
  overLimit : Nat
  dn : Int
  pn : Int
  b : Nat
  r : Nat
  comps : List CompEntry
  /-- Which channels have reported WEIGHED (R56). -/
  reported : PerScale Bool
  /-- Cumulative nets reported. -/
  nets : PerScale Int
  dryTotal : Option Int
  /-- The dry shortfall test found the batch short (R57). -/
  short : Bool
  flags : TicketFlags
  discard : Bool
  aborted : Bool
  /-- In thermal wait (R60). -/
  waiting : Bool
  /-- Wait time, 0.1 s. -/
  wait : Nat
  /-- Thermal wait limit used, s (R61). -/
  waitLimit : Nat
  timeoutPosted : Bool
  route : Option Route
  results : MixResults
  /-- The order has left the queue by seizure while the batch was in a stage: its ticket ends as SLOT
  SEIZED, and a later order of that slot and number is not its order (R26, R55). -/
  orderLeft : Bool
  deriving DecidableEq, Repr

/-- The batch coordinator (chapter 3). -/
structure Coord where
  /-- The number the next batch will take (R51). -/
  counter : Nat
  weigh : Option Batch
  mix : Option Batch
  deriving DecidableEq, Repr

/-! ### Order engine -/

/-- One component of a formula snapshot with its computed target (R34, R37). -/
structure Component where
  source : Source
  share : Nat
  tol : Nat
  reject : Nat
  target : Int
  deriving DecidableEq, Repr

/-- A formula snapshot (R33, R34). -/
structure Snapshot where
  revision : Word
  mixTemp : Int
  superheat : Int
  b : Nat
  r : Nat
  tank : Tank
  binderTol : Nat
  binderReject : Nat
  winMin : Int
  winMax : Int
  dryTime : Nat
  wetTime : Nat
  overLimit : Nat
  comps : List Component
  deriving DecidableEq, Repr

/-- An order context (section 1.4). -/
structure Order where
  slot : Nat
  number : Word
  load : List Byte
  count : Nat
  mass : Nat
  dest : Route
  snap : Snapshot
  dn : Int
  s : Nat
  pn : Int
  bn : Int
  tAgg : Int
  tAggRaw : Int
  clamped : Bool
  started : Nat
  charged : Nat
  finished : Nat
  tickets : Nat
  abortedTickets : Nat
  level : Level
  /-- Tickets held until a lower batch index has its ticket (R25). -/
  held : List Ticket
  deriving DecidableEq, Repr

/-- The walker's position (R4, R13). -/
structure Position where
  slot : Nat
  number : Word
  deriving DecidableEq, Repr

/-- The order engine (chapter 1). -/
structure OrderEngine where
  walker : Walker
  pos : Option Position
  linkEarly : Option Nat
  queue : List Order
  /-- Look points still to take in this step because orders left the queue (R5). -/
  lookOwed : Nat
  /-- Milliseconds since the last periodic look point, and withdraw watch. -/
  lookMs : Nat
  watchMs : Nat
  deriving DecidableEq, Repr

/-! ### Scale channels -/

/-- Working scale parameters (R74). -/
structure ScaleParams where
  calZero : Int
  span : Nat
  capacity : Nat
  zeroLimit : Nat
  motionBand : Nat
  settleTimeout : Nat
  emptyThreshold : Nat
  dischargeTimeout : Nat
  deriving DecidableEq, Repr

/-- One entry of a dose list (R34). -/
structure DoseEntry where
  source : Source
  target : Int
  tol : Nat
  reject : Nat
  deriving DecidableEq, Repr

/-- One entry of a scale verdict (R79). -/
structure EntryResult where
  source : Source
  actual : Int
  outcome : DoseOutcome
  deriving DecidableEq, Repr

/-- The batch a channel's material belongs to (S04, R171). -/
structure Attach where
  seq : Nat
  slot : Nat
  order : Word
  deriving DecidableEq, Repr

/-- The dose record (section 4): the component, the values read from its source record, and what the
dose has done so far. For BIT the target of the part of the dose under way is `entry.target`. -/
structure Dose where
  entry : DoseEntry
  fine : Int
  allow : Int
  gain : Nat
  minFlow : Nat
  jogPulse : Nat
  jogLimit : Nat
  lowUsed : Bool
  /-- Cutoff mass of the dose's latest cutoff, if it had one (R80). -/
  cutoff : Option Int
  jogsUsed : Nat
  settleCount : Nat
  /-- Observed in-flight mass of the first settle after a cutoff (R84). -/
  observed : Option Int
  held : Bool
  unsettled : Bool
  sampleGap : Bool
  /-- The dose is ending by stall; the mass is d at the sample of the third stall window (R86). -/
  stallAt : Option Int
  deriving DecidableEq, Repr

/-- Flags raised on a channel during its batch (R79). -/
structure ChanFlags where
  binLow : Bool
  unsettled : Bool
  sampleGap : Bool
  deriving DecidableEq, Repr

/-- A scale channel (chapter 4). -/
structure Channel where
  state : ChanState
  gapHold : Bool
  pauseHold : Bool
  work : Option ScaleParams
  tare : Int
  gross : Int
  net : Int
  /-- The last frame that arrived had status OK and a gross not above the capacity (R99). -/
  frameGood : Bool
  /-- Entries of the dose list not yet begun. -/
  todo : List DoseEntry
  results : List EntryResult
  base : Int
  dose : Dose
  stall : Nat
  winStart : Int
  /-- Samples taken since the window's first; none before a window has begun (R86). -/
  winCount : Option Nat
  late : Nat
  /-- Milliseconds since the last frame or the end of the last late period (R75). -/
  age : Nat
  /-- Trace ring, oldest first (R91). -/
  ring : List Int
  batch : Option Attach
  tareSum : Int
  tareCount : Nat
  settleTimer : Nat
  jogTimer : Nat
  dischTimer : Nat
  /-- A stop order met the channel in TARING (R93). -/
  stopOrder : Bool
  flags : ChanFlags
  /-- The feed output that is energized, if any (R78). -/
  feed : Option (Source × Feed)
  /-- The discharge gate is commanded open. -/
  gate : Bool
  deriving DecidableEq, Repr

/-- Working binder values (R100). -/
structure BinderVals where
  percent : Nat
  purge : Nat
  deriving DecidableEq, Repr

/-- The BIT channel's own state (section 5.1). -/
structure BitState where
  tankLast : Option Tank
  /-- De-energized: line from BT1; energized: line from BT2. -/
  tankSelect : Bool
  circulate : Bool
  purge : Nat
  work : Option BinderVals
  q : Int
  prefed : Int
  notDosed : Bool
  preStalled : Bool
  target : HeldTarget
  /-- The dose under way is the continuation (R109), not the pre-feed. -/
  continuing : Bool
  deriving DecidableEq, Repr

/-! ### Mixer controller -/

/-- The mixer batch: the charge request of R63. -/
structure MixBatch where
  seq : Nat
  slot : Nat
  order : Word
  route : Route
  dryTime : Nat
  wetTime : Nat
  overLimit : Nat
  deriving DecidableEq, Repr

/-- Working mixer values (R118). -/
structure MixVals where
  fillerDelay : Nat
  doorOpenTime : Nat
  doorCloseTimeout : Nat
  markPhase : Option MarkPhase
  markOffset : Nat
  clearMixTime : Nat
  deriving DecidableEq, Repr

/-- The mixer controller (chapter 6). -/
structure Mixer where
  phase : Phase
  batch : Option MixBatch
  disch : PerScale Disch
  dryT : Nat
  fillT : Nat
  wetT : Nat
  overT : Nat
  clock : Nat
  doorT : Nat
  rwPosted : Bool
  omPosted : Bool
  cmPosted : Bool
  cmPhase : Option MarkPhase
  cmOffset : Nat
  t6 : T6Reading
  suspect : Bool
  clearHold : Bool
  work : Option MixVals
  door : Bool
  routeOut : Option Route
  deriving DecidableEq, Repr

/-! ### Heat controller -/

/-- A temperature channel (R136): GOOD when `fault` is none. -/
structure TempCh where
  fault : Option TempCause
  reading : Option Int
  good : Nat
  deriving DecidableEq, Repr

/-- The setpoints and high limit of one tank (R139). -/
structure TankVals where
  hold : Int
  work : Int
  high : Int
  deriving DecidableEq, Repr

/-- Working heat values (R139). -/
structure HeatVals where
  standby : Int
  maximum : Int
  idleTime : Nat
  ramp : Nat
  /-- Update period, counts of 0.25 s. -/
  period : Nat
  kp : Nat
  ki : Nat
  kd : Nat
  deadband : Nat
  minFire : Nat
  maxFire : Nat
  ignitionTimeout : Nat
  lowFireHold : Nat
  baghouse : Int
  bt1 : TankVals
  bt2 : TankVals
  hysteresis : Nat
  lowBand : Nat
  highBand : Nat
  lineMin : Int
  deriving DecidableEq, Repr

/-- One tank heater (R152, R153). -/
structure TankState where
  heater : Bool
  /-- The active setpoint is WORK. -/
  work : Bool
  /-- TANK HIGH latch. -/
  latch : Bool
  deriving DecidableEq, Repr

/-- A refusal of the thermal permit with what is reported (R155, R173). -/
structure PermitAnswer where
  cond : PermitCond
  reading : Option Int
  limit : Int
  deriving DecidableEq, Repr

/-- A held permit request with its latest answer (R156). -/
structure PermitReq where
  tAgg : Int
  tank : Tank
  winMin : Int
  winMax : Int
  answer : PermitAnswer
  deriving DecidableEq, Repr

/-- What the regulator holds in MODULATING (R148, R149). -/
structure Regulator where
  /-- Working setpoint at full precision: counts of 1/24 of 0.1 °C. -/
  sp : Int
  /-- Integral at full precision: counts of 1/1000 ‰. -/
  integral : Int
  prevPV : Option Int
  deriving DecidableEq, Repr

/-- The heat controller (chapter 7). -/
structure Heat where
  tc : PerTemp TempCh
  missing : Nat
  /-- Milliseconds since the last frame or the end of the last missing period. -/
  age : Nat
  vals : Option HeatVals
  burner : Burner
  /-- Burner-request output. -/
  request : Bool
  /-- Firing output, ‰. -/
  firing : Int
  ignition : Nat
  lowFire : Nat
  update : Nat
  /-- Update period in progress, counts of 0.25 s (R139). -/
  period : Nat
  target : Option Int
  idle : Nat
  /-- The idle timer has reached the idle time: the target is the standby setpoint until a head order
  appears (R147). -/
  atStandby : Bool
  reg : Option Regulator
  t1Hold : Bool
  t7Clamp : Bool
  bt1 : TankState
  bt2 : TankState
  permit : Option PermitReq
  deriving DecidableEq, Repr

/-! ### Notice unit -/

/-- What a notice carries, kind by kind (R173). -/
inductive Detail
  | scaleFault (sc : Scale) (cause : ScaleCause) (left : ChanState) (gross : Int)
  | sensorFault (cause : TempCause) (entered : Bool) (channels : PerTemp Bool) (readings : PerTemp (Option Int))
  | burnerFault (cause : BurnerCause) (left : Burner) (firing : Int) (t1 : Option Int)
  | doorFault (doorT : Nat)
  | halt (cause : HaltCause) (step : ClearStep) (weigh : Nat)
  | chainBroken (value : Word) (entry : Bool)
  | chainLost (state : Word) (order : Word)
  | slotSeizedActivate (state : Word) (order : Word)
  | slotSeizedTicket (state : Word) (order : Word) (t : Ticket)
  | slotSeizedClose (state : Word) (order : Word) (outcome : OrderOutcome)
  | slotSeizedNotQueued (t : Ticket)
  | paused (source : PauseSource) (step : ClearStep) (finishing : Bool) (weigh : Nat)
  | resumed (source : PauseSource) (seconds : Nat)
  | plantStop (left : PartState) (paused : Bool) (step : ClearStep) (weigh : Nat) (orders : Nat)
  | orderClosed (load : List Byte) (outcome : OrderOutcome) (code : RefusalCode) (tickets : Nat)
  | captureTaken (sc : Scale) (source : Source) (outcome : DoseOutcome) (count : Nat)
  | batchDone (load : List Byte) (index : Nat) (verdict : Verdict) (flags : TicketFlags) (tickets : Nat)
  | linkEarly (value : Word) (state : Word)
  | binLow (sc : Scale) (source : Source) (d : Int)
  | feedStall (sc : Scale) (source : Source) (target : Int) (actual : Int)
  | scaleResidue (sc : Scale) (residue : Int)
  | thermalHold (load : List Byte) (answer : PermitAnswer) (tAgg : Int)
  | thermalTimeout (load : List Byte) (answer : PermitAnswer) (seconds : Nat)
  | receiverWait (route : Route)
  | overmix (route : Route) (limit : Nat) (time : Nat)
  | clearDone (start : PerScale Int) (ends : PerScale (Option EndKind)) (began : DWord)
  | cycleMark (phase : MarkPhase) (offset : Nat) (clock : Nat) (late : Bool)
  | setpointClamp (load : List Byte) (computed : Int) (maximum : Int)
  | tankHigh (tank : Tank) (reading : Int) (limit : Int) (setpoint : Int)
  deriving DecidableEq, Repr

/-- A submission to the notice unit (R171): slot 255, order number 0 and batch 0 for none. -/
structure Notice where
  slot : Nat
  order : Word
  batch : Nat
  detail : Detail
  deriving DecidableEq, Repr

/-- A trace offered by a channel (R92). -/
structure Offer where
  scale : Scale
  source : Source
  batch : Nat
  order : Word
  target : Int
  cutoff : Int
  actual : Int
  outcome : DoseOutcome
  samples : List Int
  deriving DecidableEq, Repr

/-- The notice unit (chapter 9). -/
structure NoticeUnit where
  pos : Nat
  fill : Nat
  list : List Notice
  /-- Pending bits, bit n for class n (R175). -/
  pend : BitVec 5
  /-- MASK, bit n for class n, 1 masking (section 10.2). -/
  mask : BitVec 5
  base : Byte
  /-- Offers not yet judged, oldest first (R178). -/
  offers : List Offer
  deriving DecidableEq, Repr

/-! ### Inputs and clock -/

/-- Plant inputs (section 10.5). -/
structure Inputs where
  /-- Low-level inputs, bit n for source record n, n = 0 to 7. -/
  binLow : BitVec 8
  doorClosed : Bool
  ready : PerRoute Bool
  flame : Bool
  permit : Bool
  deriving DecidableEq, Repr

/-- Phase of the part's free-running clock, ms. -/
structure Clk where
  tenthMs : Nat
  secMs : Nat
  deriving DecidableEq, Repr

/-! ### The part -/

/-- The state of the part. -/
structure State where
  port : Port
  rc : RunCtl
  oe : OrderEngine
  co : Coord
  ch : PerScale Channel
  bit : BitState
  mixer : Mixer
  heat : Heat
  nu : NoticeUnit
  inp : Inputs
  seconds : DWord
  clk : Clk
  mem : Memory
  freeSeed : Nat
  pending : List Instr
  deriving DecidableEq, Repr

/-- Reasons a step can stop with a fault: none. The manual gives every command an effect in every
state, and every 16-bit address of the window exists (R180). -/
inductive Fault
  deriving DecidableEq, Repr

/-- Reasons a step can be refused. -/
inductive Refusal
  /-- Raised by `exec` for a command that has no meaning yet; safe. No arm raises it now. -/
  | notModelled (mnemonic : String)
  deriving DecidableEq, Repr

/-! ### Reset values -/

/-- No flag set. -/
def TicketFlags.clear : TicketFlags :=
  ⟨false, false, false, false, false, false, false, false, false⟩

/-- A dose record with nothing in it (log 23). -/
def Dose.clear : Dose where
  entry := ⟨.hb1, 0, 0, 0⟩
  fine := 0
  allow := 0
  gain := 0
  minFlow := 0
  jogPulse := 0
  jogLimit := 0
  lowUsed := false
  cutoff := none
  jogsUsed := 0
  settleCount := 0
  observed := none
  held := false
  unsettled := false
  sampleGap := false
  stallAt := none

/-- A scale channel after either reset (R77; log 9 and log 23 for what R77 does not name). -/
def Channel.reset : Channel where
  state := .idle
  gapHold := false
  pauseHold := false
  work := none
  tare := 0
  gross := 0
  net := 0
  frameGood := false
  todo := []
  results := []
  base := 0
  dose := Dose.clear
  stall := 0
  winStart := 0
  winCount := none
  late := 0
  age := 0
  ring := []
  batch := none
  tareSum := 0
  tareCount := 0
  settleTimer := 0
  jogTimer := 0
  dischTimer := 0
  stopOrder := false
  flags := ⟨false, false, false⟩
  feed := none
  gate := false

/-- BIT's own state after either reset (R100). -/
def BitState.reset : BitState where
  tankLast := none
  tankSelect := false
  circulate := false
  purge := 0
  work := none
  q := 0
  prefed := 0
  notDosed := false
  preStalled := false
  target := .none
  continuing := false

/-- The mixer controller after either reset (R116). -/
def Mixer.reset : Mixer where
  phase := .empty
  batch := none
  disch := ⟨.notAsked, .notAsked, .notAsked, .notAsked⟩
  dryT := 0
  fillT := 0
  wetT := 0
  overT := 0
  clock := 0
  doorT := 0
  rwPosted := false
  omPosted := false
  cmPosted := false
  cmPhase := none
  cmOffset := 0
  t6 := .notTaken
  suspect := true
  clearHold := false
  work := none
  door := false
  routeOut := none

/-- A temperature channel after either reset: SENSOR FAULT with cause START (R136). -/
def TempCh.reset : TempCh := ⟨some .start, none, 0⟩

/-- A tank heater after either reset (R154). -/
def TankState.reset : TankState := ⟨false, false, false⟩

/-- The heat controller after either reset (R136, R139, R140, R154, R156). -/
def Heat.reset : Heat where
  tc := ⟨.reset, .reset, .reset, .reset, .reset, .reset, .reset⟩
  missing := 0
  age := 0
  vals := none
  burner := .off
  request := false
  firing := 0
  ignition := 0
  lowFire := 0
  update := 0
  period := 0
  target := none
  idle := 0
  atStandby := false
  reg := none
  t1Hold := false
  t7Clamp := false
  bt1 := .reset
  bt2 := .reset
  permit := none

/-- An empty clear record (R157). -/
def ClearRec.empty : ClearRec := ⟨⟨0, 0, 0, 0⟩, ⟨none, none, none, none⟩, false, 0⟩

/-- Run control after either reset, with the STOP# line high (R157). -/
def RunCtl.reset : RunCtl where
  part := .unconfigured
  paused := false
  finishing := false
  clearRequired := false
  clearStep := .none
  clearRec := .empty
  decoder := .high
  pulse := 0
  pausedAt := 0

/-- The order engine after either reset (R4, R19). -/
def OrderEngine.reset : OrderEngine where
  walker := .noEntry
  pos := none
  linkEarly := none
  queue := []
  lookOwed := 0
  lookMs := 0
  watchMs := 0

/-- The coordinator after power-on reset (R49, R51). -/
def Coord.reset : Coord := ⟨1, none, none⟩

/-- The notice unit after power-on reset (R170). -/
def NoticeUnit.reset : NoticeUnit where
  pos := 0
  fill := 1
  list := []
  pend := 0
  mask := 0
  base := 0
  offers := []

/-- The host port after power-on reset (R182, R183). -/
def Port.reset : Port where
  resetLow := false
  waiting := []
  held := []
  hostData := 0
  refused := false
  checkRecord := 0

/-- Plant inputs in the state after reset: inactive. DESIGN CHOICE (log 3), unsafe: the plant sets
them. -/
def Inputs.reset : Inputs where
  binLow := 0
  doorClosed := false
  ready := ⟨false, false, false, false, false⟩
  flame := false
  permit := false

/-- The window after power-on reset (R170, R186): the part identification 0x00B0, 0x0612 and chain
position 255; every other word the part writes there is 0, and the rest is undefined and read as
`Config.unwrittenByte` (log 1). -/
def Memory.reset : Memory := [(0, 0xB0), (2, 0x12), (3, 0x06), (10, 0xFF)]

/-- The part right after power-on reset. -/
def State.reset : State where
  port := .reset
  rc := .reset
  oe := .reset
  co := .reset
  ch := ⟨.reset, .reset, .reset, .reset⟩
  bit := .reset
  mixer := .reset
  heat := .reset
  nu := .reset
  inp := .reset
  seconds := 0
  clk := ⟨0, 0⟩
  mem := Memory.reset
  freeSeed := 0
  pending := []

end Sys2Proof.Machine
end

