-- ==== Sys2Proof/Machine/Operands.lean ====
section
/-! DEFINITION. How values are read, ranged, rounded and coded: the conventions of chapter 0, the
window map and the encodings of chapter 11. -/

namespace Sys2Proof

/-! ### Scales, sources and routes (section 11.7) -/

/-- Scale codes (section 11.7). -/
def Scale.code : Scale → Nat
  | .agg => 0 | .rap => 1 | .fil => 2 | .bit => 3

/-- Source codes, the source record indices (section 11.7). -/
def Source.code : Source → Nat
  | .hb1 => 0 | .hb2 => 1 | .hb3 => 2 | .hb4 => 3 | .hb5 => 4 | .hb6 => 5
  | .rb1 => 6 | .rb2 => 7 | .fs1 => 8 | .fs2 => 9 | .bt1 => 10 | .bt2 => 11

/-- The source a code names. -/
def Source.ofCode : Nat → Option Source
  | 0 => some .hb1 | 1 => some .hb2 | 2 => some .hb3 | 3 => some .hb4 | 4 => some .hb5
  | 5 => some .hb6 | 6 => some .rb1 | 7 => some .rb2 | 8 => some .fs1 | 9 => some .fs2
  | 10 => some .bt1 | 11 => some .bt2
  | _ => none

/-- The scale each source is fixed to (R42, section 2.3). -/
def Source.scale : Source → Scale
  | .hb1 | .hb2 | .hb3 | .hb4 | .hb5 | .hb6 => .agg
  | .rb1 | .rb2 => .rap
  | .fs1 | .fs2 => .fil
  | .bt1 | .bt2 => .bit

/-- The component sources: the ten that are not tanks (R34). -/
def Source.isComponent (src : Source) : Bool := decide (src.scale ≠ .bit)

/-- Route codes (section 11.7). -/
def Route.code : Route → Nat
  | .truck => 0 | .silo1 => 1 | .silo2 => 2 | .silo3 => 3 | .reject => 4

/-- The destination a header word names, codes 0 to 3 (R15 check 11). -/
def Route.ofDest : Nat → Option Route
  | 0 => some .truck | 1 => some .silo1 | 2 => some .silo2 | 3 => some .silo3 | _ => none

/-- All four scales, in the order of the scale table. -/
def Scale.all : List Scale := [.agg, .rap, .fil, .bit]

end Sys2Proof

namespace Sys2Proof.Machine

/-! ### Numbers -/

/-- Division rounded half-up: a value exactly halfway rounds to the greater step (chapter 0). -/
def roundDiv (num den : Int) : Int := (2 * num + den) / (2 * den)

/-- The nearest value of `lo` to `hi`. -/
def clampTo (lo hi v : Int) : Int := if v < lo then lo else if hi < v then hi else v

/-- A value within a stated range, both ends included. -/
def inRange (lo hi v : Int) : Bool := lo ≤ v && v ≤ hi

/-- A mass as an unsigned word: below 0 as 0.0 kg, above 6553.5 kg as 6553.5 kg (R188). -/
def massWord (v : Int) : Word := BitVec.ofInt 16 (clampTo 0 65535 v)

/-- A signed mass or temperature as a word, limited to the signed word (R188). -/
def signedWord (v : Int) : Word := BitVec.ofInt 16 (clampTo (-32768) 32767 v)

/-- A count, time or duration as a word; one above 65535 is written as 65535 (R188, R135). -/
def natWord (n : Nat) : Word := BitVec.ofNat 16 (min n 65535)

/-- A signed mass as a 32-bit sample of the capture record, limited to its range (log 18). -/
def sampleDWord (v : Int) : DWord := BitVec.ofInt 32 (clampTo (-2147483648) 2147483647 v)

/-- The low and the high word of a 32-bit field. -/
def DWord.lowWord (d : DWord) : Word := d.setWidth 16
def DWord.highWord (d : DWord) : Word := (d >>> 16).setWidth 16

/-- The low and the high byte of a word. -/
def Word.lowByte (w : Word) : Byte := w.setWidth 8
def Word.highByte (w : Word) : Byte := (w >>> 8).setWidth 8

/-- A word from its low and its high byte. -/
def joinBytes (lo hi : Byte) : Word := hi ++ lo

/-- A batch sequence number or count of seconds as a 32-bit field. -/
def natDWord (n : Nat) : DWord := BitVec.ofNat 32 n

/-- A one-byte code or count. -/
def natByte (n : Nat) : Byte := BitVec.ofNat 8 n

/-- A marker. -/
def boolByte (b : Bool) : Byte := if b then 1 else 0

/-- A slot state word as one detail byte (R188); a word above 255 does not fit (log 14). -/
def stateByte (w : Word) : Byte := if w ≤ 255 then Word.lowByte w else Config.wideStateByte w

/-! ### Scales, sources, tanks, routes -/

/-- The tank a source is. -/
def tankOf : Source → Option Tank
  | .bt1 => some .bt1 | .bt2 => some .bt2 | _ => none

/-- The source a tank is. -/
def Tank.source : Tank → Source
  | .bt1 => .bt1 | .bt2 => .bt2

/-! ### Codes of the other value sets (section 11.7) -/

/-- Part state codes (R183). -/
def PartState.code : PartState → Nat
  | .unconfigured => 0 | .checking => 1 | .standby => 2 | .run => 3 | .stopped => 4 | .halted => 5

/-- Walker state codes (R183). -/
def Walker.code : Walker → Nat
  | .noEntry => 0 | .walking => 1 | .broken => 2 | .lost => 3

/-- Order outcome codes. -/
def OrderOutcome.code : OrderOutcome → Nat
  | .complete => 0 | .partialDone => 1 | .withdrawn => 2 | .refused => 3 | .aborted => 4

/-- Refusal codes. -/
def RefusalCode.code : RefusalCode → Nat
  | .none => 0 | .orderNumber => 1 | .formulaRange => 2 | .formulaNotReady => 3
  | .componentCount => 4 | .duplicateSource => 5 | .sourceDisabled => 6 | .shareSum => 7
  | .batchCount => 8 | .massRange => 9 | .scaleCapacity => 10 | .destination => 11

/-- Component outcome codes. -/
def DoseOutcome.code : DoseOutcome → Nat
  | .inTol => 0 | .short => 1 | .overTol => 2 | .overReject => 3 | .stall => 4 | .skipped => 5
  | .notDosed => 6

/-- Verdict codes. -/
def Verdict.code : Verdict → Nat
  | .good => 0 | .flagged => 1 | .reject => 2 | .aborted => 3

/-- Scale channel state codes. -/
def ChanState.code : ChanState → Nat
  | .idle => 0 | .taring => 1 | .dosing _ => 2 | .prefed => 3 | .changeover => 4 | .weighed => 5
  | .discharging => 6 | .fault => 7

/-- Scale fault cause codes. -/
def ScaleCause.code : ScaleCause → Nat
  | .lost => 0 | .overload => 1 | .converterFault => 2 | .capacity => 3 | .zero => 4

/-- Mixer phases as cycle mark phase codes; 0 is NONE. -/
def MarkPhase.code : MarkPhase → Nat
  | .charging => 1 | .dry => 2 | .wet => 3 | .dischargeWait => 4 | .doorOpen => 5 | .doorClosing => 6

/-- The cycle mark phase a configuration word names; 0 is NONE. -/
def MarkPhase.ofCode : Nat → Option MarkPhase
  | 1 => some .charging | 2 => some .dry | 3 => some .wet | 4 => some .dischargeWait
  | 5 => some .doorOpen | 6 => some .doorClosing | _ => none

/-- The mixer phase a cycle mark names. -/
def MarkPhase.phase : MarkPhase → Phase
  | .charging => .charging | .dry => .dry | .wet => .wet | .dischargeWait => .dischargeWait
  | .doorOpen => .doorOpen | .doorClosing => .doorClosing

/-- Discharge end kind codes of CLEAR DONE; a faulted end halts the cycle and is not reported. -/
def EndKind.code : EndKind → Nat
  | .empty => 0 | .timedOut => 1 | .faulted => 1

/-- Clear step codes. -/
def ClearStep.code : ClearStep → Nat
  | .none => 0 | .waitFaults => 1 | .take => 2 | .waitReceiver => 3 | .discharge => 4 | .mix => 5

/-- Pause source codes. -/
def PauseSource.code : PauseSource → Nat
  | .line => 0 | .control => 1

/-- Halt cause codes. -/
def HaltCause.code : HaltCause → Nat
  | .doorFault => 0 | .scaleFaultInClear => 1

/-- Seized sequence codes. -/
def SeizedSeq.code : SeizedSeq → Nat
  | .activate => 0 | .ticket => 1 | .close => 2 | .notQueued => 3

/-- Burner state codes. -/
def Burner.code : Burner → Nat
  | .off => 0 | .requested => 1 | .lowFire => 2 | .modulating => 3 | .fault => 4

/-- Burner fault cause codes. -/
def BurnerCause.code : BurnerCause → Nat
  | .ignition => 0 | .flameLost => 1

/-- Sensor fault cause codes; START is not reported (R136). -/
def TempCause.code : TempCause → Nat
  | .invalid => 0 | .noFrames => 1 | .start => 0

/-- Permit condition codes. -/
def PermitCond.code : PermitCond → Nat
  | .aggregate => 0 | .tank => 1 | .line => 2

/-- Slot state codes. -/
def slotFree : Word := 0
def slotPosted : Word := 1
def slotTaken : Word := 2
def slotActive : Word := 3
def slotClosed : Word := 4

/-- Formula state VALID. -/
def formulaValid : Word := 2

/-- Capture state codes. -/
def captureEmpty : Word := 0
def captureFull : Word := 1

/-- The withdraw level a request word asks for; a value outside the three is NONE (R22). -/
def Level.ofWord (w : Word) : Level :=
  if w = 1 then .withdraw else if w = 2 then .discard else .none

/-- The order NONE, WITHDRAW, DISCARD (R22). -/
def Level.rank : Level → Nat
  | .none => 0 | .withdraw => 1 | .discard => 2

/-! ### Window map (chapter 11), byte offsets -/

namespace Win

/-- Header fields (section 11.2). -/
def partId : Nat := 0x00
def layoutVersion : Nat := 0x04
def partState : Nat := 0x06
def chainEntry : Nat := 0x08
def chainPosition : Nat := 0x0A
def lastFill : Nat := 0x0C
def overrun : Nat := 0x0E
def captureState : Nat := 0x10
def checkField : Nat := 0x12
def seconds : Nat := 0x14

/-- Scale record of a scale. -/
def scale (sc : Scale) : Nat := 0x100 + 64 * sc.code
/-- Source record of a source. -/
def source (src : Source) : Nat := 0x200 + 64 * src.code
/-- Heat and mixer configuration. -/
def config : Nat := 0x500
/-- Formula record n. -/
def formula (n : Nat) : Nat := 0x600 + 128 * n
/-- Notice log entry n. -/
def log (n : Nat) : Nat := 0x1200 + 32 * n
/-- Capture record. -/
def capture : Nat := 0x1A00
/-- Order slot n. -/
def slot (n : Nat) : Nat := 0x2000 + 640 * n
/-- Ticket record k (1 to 8) of slot n. -/
def ticket (n k : Nat) : Nat := slot n + 128 + (k - 1) * 64

/-- Slot header fields (section 11.3), from the slot's first byte. -/
def slotState : Nat := 0x00
def slotNumber : Nat := 0x02
def slotLink : Nat := 0x04
def slotFormula : Nat := 0x06
def slotCount : Nat := 0x08
def slotMass : Nat := 0x0A
def slotDest : Nat := 0x0C
def slotWithdraw : Nat := 0x0E
def slotLoad : Nat := 0x10
def slotOutcome : Nat := 0x40
def slotRefusal : Nat := 0x42
def slotRevision : Nat := 0x44
def slotTickets : Nat := 0x46
def slotTakenAt : Nat := 0x48
def slotClosedAt : Nat := 0x4C

/-- The thermal wait limit of the heat and mixer configuration (R61). -/
def thermalLimit : Nat := config + 0x30
/-- The dryer setpoint maximum (R40). -/
def dryerMax : Nat := config + 0x02
/-- Pre-feed percent and purge time (R100). -/
def preFeedPercent : Nat := config + 0x32
def purgeTime : Nat := config + 0x34
/-- The mixer fields (R118). -/
def fillerDelay : Nat := config + 0x36
def doorOpenTime : Nat := config + 0x38
def doorCloseTimeout : Nat := config + 0x3A
def markPhase : Nat := config + 0x3C
def markOffset : Nat := config + 0x3E
def clearMixTime : Nat := config + 0x40

end Win

end Sys2Proof.Machine
end

