-- ==== Sys2Proof/Machine/Ops.lean ====
section
/-! DEFINITION. The shared operations: the window RAM and its arbiter, reading and writing fields,
guarded write sequences, one home for what is kept per scale, route, tank and temperature channel. -/

namespace Sys2Proof.Machine

/-! ### The window RAM -/

/-- Read one byte. -/
def Memory.getByte : Memory → Nat → Byte
  | [], _ => Config.unwrittenByte
  | (k, v) :: m, a => if k = a then v else Memory.getByte m a

/-- Write one byte, keeping the canonical form. -/
def Memory.setByte : Memory → Nat → Byte → Memory
  | [], a, b => if b = Config.unwrittenByte then [] else [(a, b)]
  | (k, v) :: m, a, b =>
    if a < k then
      if b = Config.unwrittenByte then (k, v) :: m else (a, b) :: (k, v) :: m
    else if a = k then
      if b = Config.unwrittenByte then m else (a, b) :: m
    else (k, v) :: Memory.setByte m a b

/-- Every listed address is at least `lo`, addresses rise strictly, and no entry holds what an
unlisted address reads as. -/
def Memory.wfFrom : Nat → Memory → Bool
  | _, [] => true
  | lo, (a, v) :: m => decide (lo ≤ a) && decide (v ≠ Config.unwrittenByte) && Memory.wfFrom (a + 1) m

/-- The canonical form of the window RAM. -/
def Memory.wf (m : Memory) : Bool := Memory.wfFrom 0 m

/-- The window RAM that holds the cells of a list (the first cell of an address wins), those with an
address inside the 64 KiB window. -/
def Memory.ofCells : List Host.Cell → Memory
  | [] => []
  | (a, b) :: cs =>
    if a < 0x10000 then Memory.setByte (Memory.ofCells cs) a b else Memory.ofCells cs

/-- Read one byte of the window. -/
def State.byteAt (s : State) (a : Nat) : Byte := Memory.getByte s.mem a

/-- Read one word: low byte at the lower address (chapter 11). -/
def State.rd (s : State) (a : Nat) : Word := joinBytes (s.byteAt a) (s.byteAt (a + 1))

/-- Write one word. -/
def State.wr (s : State) (a : Nat) (w : Word) : State :=
  { s with mem := Memory.setByte (Memory.setByte s.mem a (Word.lowByte w)) (a + 1) (Word.highByte w) }

/-- Read a 32-bit field, low word first. -/
def State.rd32 (s : State) (a : Nat) : DWord := s.rd (a + 2) ++ s.rd a

/-- Write a 32-bit field in one access. -/
def State.wr32 (s : State) (a : Nat) (d : DWord) : State :=
  (s.wr a (DWord.lowWord d)).wr (a + 2) (DWord.highWord d)

/-- Write words at rising addresses in one access. -/
def State.wrWords (s : State) (a : Nat) : List Word → State
  | [] => s
  | w :: ws => (s.wr a w).wrWords (a + 2) ws

/-! ### The RAM arbiter (R180) -/

/-- Serve one host window access: a read drives the data lines, a write stores all 16 bits. -/
def serveAccess (h : HostAccess) (s : State) : State :=
  if h.write then s.wr h.addr h.data else { s with port.hostData := s.rd h.addr }

/-- Serve, in order, the waiting host accesses that are due; the first that is not is one part access
nearer its turn. -/
def serveDue : List HostAccess → State → State
  | [], s => { s with port.waiting := [] }
  | h :: hs, s =>
    match h.behind with
    | 0 => serveDue hs (serveAccess h s)
    | n + 1 => { s with port.waiting := { h with behind := n } :: hs }

/-- The moment before a part access, at which host accesses may fall (R180, log 7). -/
def gap (s : State) : State := serveDue s.port.waiting s

/-- Serve every waiting host access in order. -/
def serveAll : List HostAccess → State → State
  | [], s => { s with port.waiting := [] }
  | h :: hs, s => serveAll hs (serveAccess h s)

/-- One part access that writes one word. -/
def put (a : Nat) (w : Word) (s : State) : State := (gap s).wr a w

/-- Part accesses that write one word each, in order. -/
def putAll : List (Nat × Word) → State → State
  | [], s => s
  | (a, w) :: r, s => putAll r (put a w s)

/-- Part accesses that read the words at the given addresses, one access each, in order. -/
def readAll : List Nat → State → List Word × State
  | [], s => ([], s)
  | a :: as, s =>
    let s := gap s
    let w := s.rd a
    let (ws, s) := readAll as s
    (w :: ws, s)

/-- One part access that reads a field of `n` words, low word first. -/
def readField (a n : Nat) (s : State) : List Word × State :=
  let s := gap s
  ((List.range n).map fun i => s.rd (a + 2 * i), s)

/-- The n-th word of a list of words read. -/
def nthWord (ws : List Word) (n : Nat) : Word := ws.getD n 0

/-! ### Guarded write sequences (R2) -/

/-- What a guard reads, as a single access: slot state and order number. -/
def guardRead (n : Nat) (s : State) : Word × Word :=
  (s.rd (Win.slot n + Win.slotState), s.rd (Win.slot n + Win.slotNumber))

/-- A guard passes if the slot state is one of those expected and the order number is the expected
one. -/
def guardOk (states : List Word) (number : Word) (g : Word × Word) : Bool :=
  states.contains g.1 && g.2 == number

/-- A write sequence into slot `n`: the opening guard, the writes between, the closing guarded write.
The second answer is none when the closing write was made, and otherwise the slot state and order
number that the failed guard read. -/
def guardedSeq (n : Nat) (states : List Word) (number : Word) (between : List (Nat × Word))
    (last : Nat × Word) (s : State) : State × Option (Word × Word) :=
  let s := gap s
  let g := guardRead n s
  if guardOk states number g then
    let s := gap (putAll between s)
    let g := guardRead n s
    if guardOk states number g then (s.wr last.1 last.2, none) else (s, some g)
  else (s, some g)

/-- The two words of a 32-bit time stamp, as writes of a sequence. -/
def stampWrites (a : Nat) (d : DWord) : List (Nat × Word) :=
  [(a, DWord.lowWord d), (a + 2, DWord.highWord d)]

/-! ### One home for what is kept per scale, route, tank and temperature channel -/

/-- The item of a scale. -/
def PerScale.get {α : Type} (p : PerScale α) : Scale → α
  | .agg => p.agg | .rap => p.rap | .fil => p.fil | .bit => p.bit

/-- Replace the item of a scale. -/
def PerScale.set {α : Type} (p : PerScale α) (sc : Scale) (v : α) : PerScale α :=
  match sc with
  | .agg => { p with agg := v }
  | .rap => { p with rap := v }
  | .fil => { p with fil := v }
  | .bit => { p with bit := v }

/-- Apply a function to every scale's item. -/
def PerScale.map {α β : Type} (f : α → β) (p : PerScale α) : PerScale β :=
  ⟨f p.agg, f p.rap, f p.fil, f p.bit⟩

/-- Whether every scale's item passes a test. -/
def PerScale.all {α : Type} (f : α → Bool) (p : PerScale α) : Bool :=
  f p.agg && f p.rap && f p.fil && f p.bit

/-- Whether some scale's item passes a test. -/
def PerScale.any {α : Type} (f : α → Bool) (p : PerScale α) : Bool :=
  f p.agg || f p.rap || f p.fil || f p.bit

/-- The item of a receiver. -/
def PerRoute.get {α : Type} (p : PerRoute α) : Route → α
  | .truck => p.truck | .silo1 => p.silo1 | .silo2 => p.silo2 | .silo3 => p.silo3 | .reject => p.reject

/-- Replace the item of a receiver. -/
def PerRoute.set {α : Type} (p : PerRoute α) (r : Route) (v : α) : PerRoute α :=
  match r with
  | .truck => { p with truck := v }
  | .silo1 => { p with silo1 := v }
  | .silo2 => { p with silo2 := v }
  | .silo3 => { p with silo3 := v }
  | .reject => { p with reject := v }

/-- All temperature channels in order. -/
def TempChan.all : List TempChan := [.t1, .t2, .t3, .t4, .t5, .t6, .t7]

/-- The item of a temperature channel. -/
def tempGet {α : Type} (p : PerTemp α) : TempChan → α
  | .t1 => p.t1 | .t2 => p.t2 | .t3 => p.t3 | .t4 => p.t4 | .t5 => p.t5 | .t6 => p.t6 | .t7 => p.t7

/-- Apply a function to every temperature channel's item. -/
def tempMap {α β : Type} (f : α → β) (p : PerTemp α) : PerTemp β :=
  ⟨f p.t1, f p.t2, f p.t3, f p.t4, f p.t5, f p.t6, f p.t7⟩

/-- Combine the items of two families channel by channel. -/
def tempZip {α β γ : Type} (f : α → β → γ) (p : PerTemp α) (q : PerTemp β) : PerTemp γ :=
  ⟨f p.t1 q.t1, f p.t2 q.t2, f p.t3 q.t3, f p.t4 q.t4, f p.t5 q.t5, f p.t6 q.t6, f p.t7 q.t7⟩

/-- Whether some temperature channel's item passes a test. -/
def tempAny {α : Type} (f : α → Bool) (p : PerTemp α) : Bool :=
  f p.t1 || f p.t2 || f p.t3 || f p.t4 || f p.t5 || f p.t6 || f p.t7

/-- One scale channel. -/
def State.chan (s : State) (sc : Scale) : Channel := s.ch.get sc

/-- Replace one scale channel. -/
def State.setChan (s : State) (sc : Scale) (c : Channel) : State := { s with ch := s.ch.set sc c }

/-- Update one scale channel. -/
def State.modChan (s : State) (sc : Scale) (f : Channel → Channel) : State :=
  s.setChan sc (f (s.chan sc))

end Sys2Proof.Machine
end

