-- ==== Sys2Proof/Machine/Flags.lean ====
section
/-! DEFINITION. Words and levels formed from flags: ticket flags and verdicts (R64, R65), the STATUS,
MASK and CONTROL words (R181, R183) and the INT# level (R176). -/

namespace Sys2Proof.Machine

/-- A number from bits, bit 0 first. -/
def natOfBits : List Bool → Nat
  | [] => 0
  | b :: bs => (if b then 1 else 0) + 2 * natOfBits bs

/-- The ticket flag word (section 11.7). -/
def flagsWord (f : TicketFlags) : Word :=
  BitVec.ofNat 16 (natOfBits [f.paused, f.binLow, f.unsettled, f.sampleGap, f.thermalWait,
    f.changeover, f.overmix, f.discarded, f.receiverWait])

/-- A warning flag is set (R65). -/
def warningFlag (f : TicketFlags) : Bool :=
  f.binLow || f.unsettled || f.sampleGap || f.overmix || f.paused

/-- The outcome an entry has at ticket assembly: one that never received a report is NOT_DOSED (R67). -/
def entryOutcome (e : CompEntry) : DoseOutcome := e.outcome.getD .notDosed

/-- The causes of REJECT (R64); they fix the route at charge start (R63, R66). -/
def batchReject (b : Batch) : Bool :=
  b.comps.any (fun e => entryOutcome e == .overReject) || b.short || b.discard

/-- The verdict of a batch: the first row of R64 that applies. -/
def verdictOf (b : Batch) : Verdict :=
  if b.aborted then .aborted
  else if batchReject b then .reject
  else if warningFlag b.flags || b.comps.any (fun e => entryOutcome e != .inTol) then .flagged
  else .good

/-- INT# is asserted while any pending bit is set (R176). -/
def intAsserted (s : State) : Bool := s.nu.pend != 0

/-- The word a CONTROL read returns (section 10.2). -/
def controlWord (_ : State) : Word := 0

/-- The word a MASK read returns (section 10.2). -/
def maskWord (s : State) : Word := s.nu.mask.setWidth 16

/-- The word a STATUS read returns (R183). -/
def statusWord (s : State) : Word :=
  BitVec.ofNat 16 (s.rc.part.code
    + 8 * natOfBits [s.rc.paused, s.rc.finishing, decide (s.rc.clearStep ≠ .none)]
    + 64 * s.oe.walker.code
    + 256 * natOfBits [intAsserted s, s.port.refused]
    + 1024 * s.port.checkRecord)

/-- RDY is low: a host access waits behind part accesses or behind a reset (R180). -/
def rdyLow (s : State) : Bool := !s.port.waiting.isEmpty || !s.port.held.isEmpty

end Sys2Proof.Machine
end

