-- ==== Sys2Proof/Machine/Notices.lean ====
section
/-! DEFINITION. The notice unit (chapter 9): details, submissions, the entry write, the capture write,
MASK and VECTOR. -/

namespace Sys2Proof.Machine

/-! ### Laying out a detail (R188) -/

/-- Append one byte. -/
def addByte (b : Byte) (d : List Byte) : List Byte := d ++ [b]

/-- Append a code, marker or count of one byte. -/
def addCode (n : Nat) (d : List Byte) : List Byte := addByte (natByte n) d

/-- Append a word at an even byte, after a pad byte where one falls due. -/
def addWord (w : Word) (d : List Byte) : List Byte :=
  (if d.length % 2 = 1 then d ++ [0] else d) ++ [Word.lowByte w, Word.highByte w]

/-- Append two words, low word first. -/
def addDWord (w : DWord) (d : List Byte) : List Byte :=
  addWord (DWord.highWord w) (addWord (DWord.lowWord w) d)

/-- Append a temperature or mass that may be none: a present byte, in the place of a pad byte where
one falls due, and the value, 0 when none (R173, R188, log 13). -/
def addOptional (o : Option Word) (d : List Byte) : List Byte :=
  addWord (o.getD 0) (addByte (boolByte o.isSome) d)

/-- The 16 bytes of a detail: unused bytes are 0. -/
def detail16 (d : List Byte) : List Byte := (d ++ List.replicate 16 0).take 16

/-- Bits of the seven temperature channels, T1 in bit 0, and one more in bit 7. -/
def tempBits (p : PerTemp Bool) (bit7 : Bool) : Byte :=
  natByte (natOfBits [p.t1, p.t2, p.t3, p.t4, p.t5, p.t6, p.t7, bit7])

/-- The reading of a channel in the set of a SENSOR FAULT. -/
def inSet (member : Bool) (r : Option Int) : Option Int := if member then r else none

/-- The summary of a ticket in SLOT SEIZED (R68): batch index, verdict, flags, dry total, binder
actual. A dry total that was never formed is free (log 16). -/
def ticketSummary (t : Ticket) (d : List Byte) : List Byte :=
  let dry := match t.dryTotal with
    | some v => massWord v
    | none => Config.unformedDryTotal t.seq
  let binder := match t.comps.getLast? with
    | some e => massWord e.actual
    | none => 0
  addWord binder (addWord dry (addWord (flagsWord t.flags) (addCode t.verdict.code (addCode t.index d))))

/-- The four scales' items of a family as a list, in scale order. -/
def scaleList {α : Type} (p : PerScale α) : List α := [p.agg, p.rap, p.fil, p.bit]

/-- A thermal notice's detail up to its last field: failed condition, reading or none, limit. -/
def thermalDetail (load : List Byte) (a : PermitAnswer) : List Byte :=
  addWord (signedWord a.limit) (addOptional (a.reading.map signedWord) (addCode a.cond.code load))

/-- The detail of a kind, its fields in the order of the kinds table (R173, R188). A field that a kind's form
does not carry takes no place: in SLOT SEIZED the outcome of a CLOSE stands right behind the order number,
where a ticket has its summary. DEDUCED (log 13), unsafe. -/
def detailBytes : Detail → List Byte
  | .scaleFault sc cause left gross =>
    addWord (massWord gross) (addCode left.code (addCode cause.code (addCode sc.code [])))
  | .sensorFault cause entered set rd =>
    let shown := tempZip inSet set rd
    let words := TempChan.all.map fun t => ((tempGet shown t).map signedWord).getD 0
    words.foldl (fun d w => addWord w d)
      [tempBits set (cause.code == 1), tempBits (tempMap Option.isSome shown) entered]
  | .burnerFault cause left firing t1 =>
    addOptional (t1.map signedWord) (addWord (signedWord firing)
      (addCode left.code (addCode cause.code [])))
  | .doorFault doorT => addWord (natWord doorT) (addCode MarkPhase.doorClosing.code [])
  | .halt cause step weigh =>
    addDWord (natDWord weigh) (addCode step.code (addCode cause.code []))
  | .chainBroken value entry => addByte (boolByte entry) (addWord value [])
  | .chainLost state order => addWord order (addByte (stateByte state) [])
  | .slotSeizedActivate state order =>
    addWord order (addByte (stateByte state) (addCode SeizedSeq.activate.code []))
  | .slotSeizedTicket state order t =>
    ticketSummary t (addWord order (addByte (stateByte state) (addCode SeizedSeq.ticket.code [])))
  | .slotSeizedClose state order outcome =>
    addCode outcome.code
      (addWord order (addByte (stateByte state) (addCode SeizedSeq.close.code [])))
  | .slotSeizedNotQueued t =>
    ticketSummary t (addWord 0 (addByte 255 (addCode SeizedSeq.notQueued.code [])))
  | .paused source step finishing weigh =>
    addDWord (natDWord weigh)
      (addByte (boolByte finishing) (addCode step.code (addCode source.code [])))
  | .resumed source seconds => addWord (natWord seconds) (addCode source.code [])
  | .plantStop left paused step weigh orders =>
    addCode orders (addDWord (natDWord weigh)
      (addCode step.code (addByte (boolByte paused) (addCode left.code []))))
  | .orderClosed load outcome code tickets =>
    addCode tickets (addCode code.code (addCode outcome.code load))
  | .captureTaken sc source outcome count =>
    addCode count (addCode outcome.code (addCode source.code (addCode sc.code [])))
  | .batchDone load index verdict flags tickets =>
    addCode tickets (addWord (flagsWord flags) (addCode verdict.code (addCode index load)))
  | .linkEarly value state => addByte (stateByte state) (addWord value [])
  | .binLow sc source d => addWord (massWord d) (addCode source.code (addCode sc.code []))
  | .feedStall sc source target actual =>
    addWord (massWord actual) (addWord (massWord target)
      (addCode source.code (addCode sc.code [])))
  | .scaleResidue sc residue => addWord (massWord residue) (addCode sc.code [])
  | .thermalHold load answer tAgg => addWord (signedWord tAgg) (thermalDetail load answer)
  | .thermalTimeout load answer seconds => addWord (natWord seconds) (thermalDetail load answer)
  | .receiverWait route => addCode route.code []
  | .overmix route limit time => addWord (natWord time) (addWord (natWord limit) (addCode route.code []))
  | .clearDone start ends began =>
    addDWord began ((scaleList ends).foldl
      (fun d e => addCode ((e.map EndKind.code).getD 0) d)
      ((scaleList start).foldl (fun d m => addWord (massWord m) d) []))
  | .cycleMark phase offset clock late =>
    addByte (boolByte late) (addWord (natWord clock) (addWord (natWord offset) (addCode phase.code [])))
  | .setpointClamp load computed maximum => addWord (signedWord maximum) (addWord (signedWord computed) load)
  | .tankHigh tank reading limit setpoint =>
    addWord (signedWord setpoint) (addWord (signedWord limit) (addWord (signedWord reading)
      (addCode tank.source.code [])))

/-- Kind codes (section 11.7). -/
def kindCode : Detail → Nat
  | .scaleFault .. => 0
  | .sensorFault .. => 1
  | .burnerFault .. => 2
  | .doorFault .. => 3
  | .halt .. => 4
  | .chainBroken .. => 5
  | .chainLost .. => 6
  | .slotSeizedActivate .. | .slotSeizedTicket .. | .slotSeizedClose .. | .slotSeizedNotQueued .. => 7
  | .paused .. => 8
  | .resumed .. => 9
  | .plantStop .. => 10
  | .orderClosed .. => 11
  | .captureTaken .. => 12
  | .batchDone .. => 13
  | .linkEarly .. => 14
  | .binLow .. => 15
  | .feedStall .. => 16
  | .scaleResidue .. => 17
  | .thermalHold .. => 18
  | .thermalTimeout .. => 19
  | .receiverWait .. => 20
  | .overmix .. => 21
  | .clearDone .. => 22
  | .cycleMark .. => 23
  | .setpointClamp .. => 24
  | .tankHigh .. => 25

/-- The class a kind belongs to: FAULT 0, STOP 1, CLOSE 2, CAPTURE 3, NOTICE 4 (R173). -/
def classCode (d : Detail) : Nat :=
  let k := kindCode d
  if k ≤ 7 then 0 else if k ≤ 10 then 1 else if k = 11 then 2 else if k = 12 then 3 else 4

/-! ### Writing entries -/

/-- The words of a list of bytes, two bytes each. -/
def wordsOfBytes : List Byte → List Word
  | lo :: hi :: r => joinBytes lo hi :: wordsOfBytes r
  | [lo] => [joinBytes lo 0]
  | [] => []

/-- The 16 words of a log entry (section 11.6). -/
def entryWords (fill : Nat) (seconds : DWord) (n : Notice) : List Word :=
  [BitVec.ofNat 16 fill,
   joinBytes (natByte (kindCode n.detail + 32 * classCode n.detail)) (natByte n.slot),
   1, n.order,
   DWord.lowWord (natDWord n.batch), DWord.highWord (natDWord n.batch),
   DWord.lowWord seconds, DWord.highWord seconds]
  ++ wordsOfBytes (detail16 (detailBytes n.detail))

/-- The fill sequence after `n`: by 1, from 65535 to 1 (R172). -/
def nextFill (n : Nat) : Nat := if n = 65535 then 1 else n + 1

/-- The write position after `n`: by 1, from 63 to 0 (R172). -/
def nextPos (n : Nat) : Nat := if n = Config.logEntries - 1 then 0 else n + 1

/-- Step 1 of R172: an unseen entry at the write position raises the overrun count, up to 65535. -/
def countOverrun (s : State) : State :=
  if s.rd (Win.log s.nu.pos + 4) ≠ 0 ∧ s.rd Win.overrun ≠ 65535 then
    s.wr Win.overrun (s.rd Win.overrun + 1)
  else s

/-- The pending bits after an entry of a class under a mask (R175). -/
def pendAfter (mask pend : BitVec 5) (cls : Nat) : BitVec 5 :=
  if mask.getLsbD cls then pend else pend ||| (1#5 <<< cls)

/-- Write one entry in a single part access (R172, R175). -/
def writeEntry (n : Notice) (s : State) : State :=
  let s := countOverrun s
  let s := s.wrWords (Win.log s.nu.pos) (entryWords s.nu.fill s.seconds n)
  let s := s.wr Win.lastFill (BitVec.ofNat 16 s.nu.fill)
  { s with nu.fill := nextFill s.nu.fill, nu.pos := nextPos s.nu.pos,
           nu.pend := pendAfter s.nu.mask s.nu.pend (classCode n.detail) }

/-- Write the oldest submission, if any (R171, R172). -/
def writeOldest (s : State) : State :=
  match s.nu.list with
  | [] => s
  | n :: r => writeEntry n (gap { s with nu.list := r })

/-- Submit a notice; a full list first writes its oldest (R171, log 26). -/
def submit (n : Notice) (s : State) : State :=
  let s := if s.nu.list.length < Config.listCapacity then s else writeOldest s
  { s with nu.list := s.nu.list ++ [n] }

/-- A notice with slot, order number and batch none (R173). -/
def bareNotice (d : Detail) : Notice := ⟨255, 0, 0, d⟩

/-- A notice of a channel's attached batch, or none (R171). -/
def attachedNotice (a : Option Attach) (d : Detail) : Notice :=
  match a with
  | some a => ⟨a.slot, a.order, a.seq, d⟩
  | none => bareNotice d

/-- A notice of the mixer batch, or none. -/
def mixNotice (a : Option MixBatch) (d : Detail) : Notice :=
  match a with
  | some a => ⟨a.slot, a.order, a.seq, d⟩
  | none => bareNotice d

/-! ### The capture area (R178) -/

/-- A sample as its two words. -/
def sampleWords (v : Int) : List Word :=
  [DWord.lowWord (sampleDWord v), DWord.highWord (sampleDWord v)]

/-- The words of a capture record (section 11.6). -/
def captureWords (o : Offer) : List Word :=
  [joinBytes (natByte o.scale.code) (natByte o.source.code),
   DWord.lowWord (natDWord o.batch), DWord.highWord (natDWord o.batch),
   o.order, massWord o.target, massWord o.cutoff, massWord o.actual,
   joinBytes (natByte o.outcome.code) (natByte o.samples.length)]
  ++ o.samples.flatMap sampleWords

/-- Judge one offer in a single part access, and post CAPTURE TAKEN if it was written (R178). -/
def judgeOffer (o : Offer) (s : State) : State :=
  let s := gap s
  if s.rd Win.captureState = captureEmpty then
    let s := s.wrWords Win.capture (captureWords o)
    let s := s.wr Win.captureState captureFull
    submit ⟨255, o.order, o.batch, .captureTaken o.scale o.source o.outcome o.samples.length⟩ s
  else s

/-- Judge the oldest offer, if any. -/
def judgeOldest (s : State) : State :=
  match s.nu.offers with
  | [] => s
  | o :: r => judgeOffer o { s with nu.offers := r }

/-! ### MASK and VECTOR -/

/-- Take a MASK write: bits 4 to 0, the rest ignored (R181). -/
def maskTake (w : Word) (s : State) : State := { s with nu.mask := w.setWidth 5 }

/-- The highest pending class, or none (R177). -/
def highestPending (p : BitVec 5) : Option Nat :=
  if p.getLsbD 0 then some 0 else if p.getLsbD 1 then some 1 else if p.getLsbD 2 then some 2
  else if p.getLsbD 3 then some 3 else if p.getLsbD 4 then some 4 else none

/-- What a VECTOR read returns (R177). -/
def vectorWord (s : State) : Word :=
  joinBytes (natByte ((highestPending s.nu.pend).getD 7)) s.nu.base

/-- The pending bits after a VECTOR read (R177). -/
def pendAfterRead (p : BitVec 5) : BitVec 5 :=
  match highestPending p with
  | some c => p &&& ~~~(1#5 <<< c)
  | none => p

/-- A host read of VECTOR: one access (R177). -/
def vectorTake (s : State) : State :=
  { s with port.hostData := vectorWord s, nu.pend := pendAfterRead s.nu.pend }

/-- A host write of VECTOR takes the high byte as base (R177). -/
def vectorBase (w : Word) (s : State) : State := { s with nu.base := Word.highByte w }

end Sys2Proof.Machine
end

