-- ==== Sys2Proof/Machine/Channels.lean ====
section
/-! DEFINITION. The scale channels, one at a time (chapters 4 and 5): working parameters, source
records, feeds and sub-phases, holds, the scale verdict, stop orders, discharge, and the binder
dose. What a sample, a late period or a fault does stands in Dose.lean. -/

namespace Sys2Proof.Machine

/-! ### Flags, working parameters, source records -/

/-- Set ticket flags in the record of the batch with a sequence number, in either stage (R65, log 12). -/
def flagBatch (seq : Nat) (f : TicketFlags → TicketFlags) (s : State) : State :=
  let upd := fun b : Batch => if b.seq = seq then { b with flags := f b.flags } else b
  { s with co.weigh := s.co.weigh.map upd, co.mix := s.co.mix.map upd }

/-- Set ticket flags of the batch a channel is attached to. -/
def flagAttached (sc : Scale) (f : TicketFlags → TicketFlags) (s : State) : State :=
  match (s.chan sc).batch with
  | some a => flagBatch a.seq f s
  | none => s

/-- The empty threshold of a channel. -/
def emptyThr (c : Channel) : Int := ((c.work.map ScaleParams.emptyThreshold).getD 0 : Nat)

/-- The channel holds material: its net is not below its empty threshold. -/
def holdsMaterial (c : Channel) : Bool := emptyThr c ≤ c.net

/-- The word offsets, lows and highs of the judged one-word fields of a scale record, in layout order
(section 4.1, section 11.4). Span and capacity pass to 65535, as their table has it, though R189 calls an
unsigned field of 0x8000 or more above its range: DEDUCED (log 62), safe. -/
def scaleRanges : List (Nat × Nat × Nat) :=
  [(0x04, 1, 65535), (0x06, 1, 65535), (0x08, 0, 5000), (0x0A, 1, 500), (0x0C, 5, 100),
   (0x0E, 1, 2000), (0x10, 2, 60)]

/-- Byte addresses of the seven one-word fields of a scale record, in layout order. -/
def scaleAddrs (sc : Scale) : List Nat :=
  [0x04, 0x06, 0x08, 0x0A, 0x0C, 0x0E, 0x10].map (Win.scale sc + ·)

/-- Take a word if it lies within the range of its field; otherwise keep the value held (R74). -/
def takeRanged (lo hi : Nat) (w : Word) (old : Nat) : Nat :=
  if lo ≤ w.toNat ∧ w.toNat ≤ hi then w.toNat else old

/-- Working parameters from the nine words of a scale record, each out-of-range field keeping the
value of `old` (R74); span and capacity to 65535 (log 62). -/
def scaleParamsFrom (ws : List Word) (old : ScaleParams) : ScaleParams where
  calZero := (nthWord ws 1 ++ nthWord ws 0 : DWord).toInt
  span := takeRanged 1 65535 (nthWord ws 2) old.span
  capacity := takeRanged 1 65535 (nthWord ws 3) old.capacity
  zeroLimit := takeRanged 0 5000 (nthWord ws 4) old.zeroLimit
  motionBand := takeRanged 1 500 (nthWord ws 5) old.motionBand
  settleTimeout := takeRanged 5 100 (nthWord ws 6) old.settleTimeout
  emptyThreshold := takeRanged 1 2000 (nthWord ws 7) old.emptyThreshold
  dischargeTimeout := takeRanged 2 60 (nthWord ws 8) old.dischargeTimeout

/-- Refresh a channel's working parameters from its scale record, field by field, each field one part
access: the two words of the calibration zero are one field (R74, R77). The calibration zero is read first and
the rest in layout order: DESIGN CHOICE (log 58), safe, the manual names no order. -/
def refreshScale (sc : Scale) (s : State) : State :=
  let (zero, s) := readField (Win.scale sc) 2 s
  let (ws, s) := readAll (scaleAddrs sc) s
  s.modChan sc fun c => { c with work := c.work.map (scaleParamsFrom (zero ++ ws)) }

/-- Byte addresses of the eight words a dose reads from a source record (R43): one access each, in
layout order, the allowance last. DESIGN CHOICE (log 42), safe: the manual names no order. -/
def sourceAddrs (src : Source) : List Nat :=
  [0x00, 0x02, 0x04, 0x06, 0x08, 0x0A, 0x0C, 0x0E].map (Win.source src + ·)

/-- The source reads enabled: YES and nothing else (R43). -/
def sourceEnabled (ws : List Word) : Bool := nthWord ws 0 == 1

/-- A dose record at the start of a dose, from the eight words read, each brought into range (R43,
R46). -/
def doseFrom (e : DoseEntry) (ws : List Word) : Dose :=
  let fine : Int := min (nthWord ws 1).toNat 5000
  { Dose.clear with
    entry := e
    fine := fine
    gain := min (nthWord ws 2).toNat 8
    minFlow := (nthWord ws 3).toNat
    jogPulse := max 1 (min (nthWord ws 4).toNat 20)
    jogLimit := min (nthWord ws 5).toNat 5
    lowUsed := nthWord ws 6 == 1
    allow := clampTo 0 fine (nthWord ws 7).toNat }

/-- The learned allowance written at the end of a dose (R84, R47). -/
def newAllowance (d : Dose) : Int :=
  match d.observed with
  | some o =>
    if d.gain = 0 ∨ d.held = true ∨ d.unsettled = true ∨ d.sampleGap = true then d.allow
    else clampTo 0 d.fine (roundDiv (8 * d.allow + (o - d.allow) * d.gain) 8)
  | none => d.allow

/-- The accumulated error written at the end of a dose: the sum, saturating, or 0 with learn gain 0
(R47). -/
def newAccumulated (gain : Nat) (old : DWord) (e : Int) : DWord :=
  if gain = 0 then 0 else BitVec.ofInt 32 (clampTo (-2147483648) 2147483647 (old.toInt + e))

/-- Write the part-owned fields of a source record, each word one part access, in the order of R47; the
update count is raised in the access that writes it, from the value it holds then (R47, R48). The two words of
the accumulated error are read one access each, low word first, between the write of the allowance and that of
the error: DESIGN CHOICE (log 7), safe, the manual does not place the reads. -/
def writeSource (d : Dose) (e : Int) (s : State) : State :=
  let a := Win.source d.entry.source
  let s := put (a + 0x0E) (BitVec.ofInt 16 (newAllowance d)) s
  let (ws, s) := readAll [a + 0x10, a + 0x12] s
  let acc := newAccumulated d.gain (nthWord ws 1 ++ nthWord ws 0) e
  let s := put (a + 0x10) (DWord.lowWord acc) s
  let s := gap (put (a + 0x12) (DWord.highWord acc) s)
  s.wr (a + 0x14) (s.rd (a + 0x14) + 1)

/-! ### Sub-phases and feeds -/

/-- The dosed mass d of the latest sample. -/
def dosed (c : Channel) : Int := c.net - c.base

/-- Enter SETTLING: no feed, settle count and timer at 0 (R82). -/
def enterSettling (c : Channel) : Channel :=
  { c with state := .dosing .settling, feed := none, gate := false, gapHold := false, pauseHold := false,
           settleTimer := 0, winCount := none, dose.settleCount := 0 }

/-- Enter FAST: the fast output of the source alone (R78, R80). -/
def enterFast (c : Channel) : Channel :=
  { c with state := .dosing .fast, feed := some (c.dose.entry.source, .fast),
           gate := false, gapHold := false, pauseHold := false }

/-- Enter FINE: the fine output of the source alone. -/
def enterFine (c : Channel) : Channel :=
  { c with state := .dosing .fine, feed := some (c.dose.entry.source, .fine),
           gate := false, gapHold := false, pauseHold := false }

/-- Enter JOGGING: one pulse of the fine output (R81, R82). -/
def enterJogging (c : Channel) : Channel :=
  { c with state := .dosing .jogging, feed := some (c.dose.entry.source, .fine), jogTimer := 0,
           gate := false, gapHold := false, pauseHold := false }

/-- Enter HELD: no feed, the window in progress dropped, the dose marked HELD (R86, R88). -/
def enterHeld (back : Remembered) (c : Channel) : Channel :=
  { c with state := .dosing (.held back), feed := none, gate := false, winCount := none, dose.held := true }

/-- Enter HELD with the pause cause (R90). -/
def enterPauseHeld (back : Remembered) (c : Channel) : Channel :=
  { enterHeld back c with pauseHold := true }

/-- Cutoff: the cutoff mass is d of the latest sample (R80). -/
def cutOff (c : Channel) : Channel := enterSettling { c with dose.cutoff := some (dosed c) }

/-- d has reached the cutoff threshold T − L. -/
def atCutoff (c : Channel) : Bool := c.dose.entry.target - c.dose.allow ≤ dosed c

/-- d has reached the fine threshold T − F. -/
def atFine (c : Channel) : Bool := c.dose.entry.target - c.dose.fine ≤ dosed c

/-- Go on from HELD to the remembered sub-phase (R88). -/
def returnHeld (back : Remembered) (c : Channel) : Channel :=
  match back with
  | .fast => if atCutoff c then cutOff c else if atFine c then enterFine c else enterFast c
  | .fine => if atCutoff c then cutOff c else enterFine c
  | .jogCut => enterSettling c
  | .jogDue => enterJogging c

/-- Leave HELD if neither cause holds the dose. -/
def releaseIfFree (c : Channel) : Channel :=
  match c.state with
  | .dosing (.held back) => if c.gapHold || c.pauseHold then c else returnHeld back c
  | _ => c

/-- No feed output may be energized: the part is not in RUN, PAUSED is set, or a clear cycle runs
(R78). A dose meets this by PAUSED alone: it begins and runs in RUN, and no clear cycle starts over one
(R78, R94). -/
def feedsBarred (s : State) : Bool :=
  s.rc.part != .run || s.rc.paused || s.rc.clearStep != .none

/-- Begin to feed in a first sub-phase, or hold it while the feeds are barred (R79, R90). -/
def beginFeed (barred : Bool) (first : Remembered) (c : Channel) : Channel :=
  let c := { c with stall := 0, winCount := none, gapHold := false, pauseHold := false }
  if barred then enterPauseHeld first c else
    match first with
    | .fast => enterFast c
    | .fine => enterFine c
    | .jogCut | .jogDue => enterJogging c

/-- The sub-phase a dose from mass `from0` to target `t` begins in: a single pulse if T − L is
reached, FINE if T − F is reached, and FAST otherwise (R79 step 4, R104, R109). -/
def firstSub (t from0 : Int) (d : Dose) : Remembered :=
  if t - d.allow ≤ from0 then .jogDue else if t - d.fine ≤ from0 then .fine else .fast

/-! ### Scale verdict (R56, R79) -/

/-- Enter one result into the component entry of its source. -/
def enterResult (comps : List CompEntry) (r : EntryResult) : List CompEntry :=
  comps.map fun e => if e.source = r.source then { e with actual := r.actual, outcome := some r.outcome } else e

/-- Enter a channel's scale verdict into the record of the batch in the weigh stage (R56). -/
def enterVerdict (sc : Scale) (net : Int) (s : State) : State :=
  let c := s.chan sc
  let upd := fun b : Batch =>
    { b with comps := c.results.foldl enterResult b.comps,
             reported := b.reported.set sc true,
             nets := b.nets.set sc net,
             flags := { b.flags with
               binLow := b.flags.binLow || c.flags.binLow,
               unsettled := b.flags.unsettled || c.flags.unsettled,
               sampleGap := b.flags.sampleGap || c.flags.sampleGap } }
  { s with co.weigh := s.co.weigh.map upd }

/-- The channel enters WEIGHED with its feeds off and reports its verdict with a cumulative net. -/
def reachWeighed (sc : Scale) (net : Int) (s : State) : State :=
  let s := s.modChan sc fun c =>
    { c with state := .weighed, feed := none, gate := false, todo := [], gapHold := false, pauseHold := false,
             stopOrder := false }
  enterVerdict sc net s

/-- Record one entry's result on the channel. -/
def addResult (sc : Scale) (r : EntryResult) (s : State) : State :=
  s.modChan sc fun c => { c with results := c.results ++ [r] }

/-! ### Bin low (R87) -/

/-- The level of a source's low-level input; a source without one reads inactive. -/
def binLowLevel (s : State) (src : Source) : Bool :=
  src.hasLowInput && s.inp.binLow.getLsbD src.code

/-- Post BIN LOW with the dosed mass. -/
def binLowNotice (sc : Scale) (s : State) : State :=
  let c := s.chan sc
  submit (attachedNotice c.batch (.binLow sc c.dose.entry.source (dosed c))) s

/-- Post BIN LOW with the dosed mass and report the flag. -/
def postBinLow (sc : Scale) (s : State) : State :=
  let s := binLowNotice sc s
  let s := s.modChan sc fun c => { c with flags.binLow := true }
  flagAttached sc (fun f => { f with binLow := true }) s

/-- The channel watches a source's low-level input: a dose of it is in progress whose low-level
setting was read YES. -/
def watches (c : Channel) (src : Source) : Bool :=
  match c.state with
  | .dosing _ => c.dose.entry.source == src && c.dose.lowUsed && src.hasLowInput
  | _ => false

/-- An input already active when the watch begins counts as going active (R87). -/
def beginWatch (sc : Scale) (s : State) : State :=
  let src := (s.chan sc).dose.entry.source
  if watches (s.chan sc) src && binLowLevel s src then postBinLow sc s else s

/-! ### The dose list (R79) -/

/-- Start the components of a list, one after another, until one feeds or the list ends. `first` marks
the first component after a tare, whose base is 0.0 kg. -/
def startComponents (sc : Scale) (first : Bool) : List DoseEntry → State → State
  | [], s => reachWeighed sc (s.chan sc).base s
  | e :: rest, s =>
    let s := s.modChan sc fun c =>
      { c with ring := [], base := if first then 0 else c.net, dose := { Dose.clear with entry := e }, stall := 0, winCount := none,
               todo := rest }
    if e.target = 0 then
      startComponents sc false rest (addResult sc ⟨e.source, 0, .skipped⟩ s)
    else
      let (ws, s) := readAll (sourceAddrs e.source) s
      if sourceEnabled ws then
        let s := s.modChan sc fun c =>
          let c := { c with dose := doseFrom e ws }
          beginFeed (feedsBarred s) (firstSub e.target 0 c.dose) c
        beginWatch sc s
      else startComponents sc false rest (addResult sc ⟨e.source, 0, .notDosed⟩ s)

/-- Offer the trace of the component that ended (R92). CAPTURE_WRITE judges it, so what the channel posts in the
present step comes before CAPTURE TAKEN: DESIGN CHOICE (log 72), safe, R171 lets notices of two blocks come in
either order. -/
def offerTrace (sc : Scale) (target cutoff actual : Int) (outcome : DoseOutcome) (s : State) : State :=
  let c := s.chan sc
  let o : Offer :=
    { scale := sc, source := c.dose.entry.source,
      batch := (c.batch.map Attach.seq).getD 0, order := (c.batch.map Attach.order).getD 0,
      target := target, cutoff := cutoff, actual := actual, outcome := outcome, samples := c.ring }
  { s with nu.offers := s.nu.offers ++ [o] }

/-- The outcome of a verify with error `e`; none asks for a jog (R82). -/
def verifyOutcome (d : Dose) (e : Int) : Option DoseOutcome :=
  if -(d.entry.tol : Int) ≤ e ∧ e ≤ d.entry.tol then some .inTol
  else if e < 0 then (if d.jogsUsed < d.jogLimit then none else some .short)
  else if e > d.entry.reject then some .overReject
  else some .overTol

/-- The end of a component by a final verify, up to its trace offer (R83 steps 1 to 3). -/
def finalVerify (sc : Scale) (actual : Int) (outcome : DoseOutcome) (s : State) : State :=
  let d := (s.chan sc).dose
  let s := addResult sc ⟨d.entry.source, actual, outcome⟩ s
  let s := writeSource d (actual - d.entry.target) s
  if outcome = .short ∨ outcome = .overReject then
    offerTrace sc d.entry.target (d.cutoff.getD 0) actual outcome s
  else s

/-! ### The binder dose (chapter 5) -/

/-- Cut a changeover short (R103). -/
def cutChangeover (s : State) : State :=
  { s with bit.circulate := false, bit.tankLast := none }

/-- BIT reports WEIGHED with one entry, the binder (R113). -/
def bitReport (actual : Int) (outcome : DoseOutcome) (s : State) : State :=
  let src := (s.chan .bit).dose.entry.source
  let s := s.modChan .bit fun c => { c with results := [⟨src, actual, outcome⟩] }
  reachWeighed .bit actual { s with bit.target := .none }

/-- The binder entry's target in the batch and on BIT. -/
def setBinderTarget (t : Int) (s : State) : State := s.modChan .bit fun c => { c with dose.entry.target := t }

/-- The direct verify of a pre-fed actual not below Bc (R108). -/
def bitDirectVerify (bc : Int) (s : State) : State :=
  let s := setBinderTarget bc s
  let pf := s.bit.prefed
  let outcome := (verifyOutcome (s.chan .bit).dose (pf - bc)).getD .short
  let s := finalVerify .bit pf outcome s
  bitReport pf outcome s

/-- The continuation to Bc (R109). -/
def bitContinue (bc : Int) (s : State) : State :=
  let s := setBinderTarget bc { s with bit.target := .none, bit.continuing := true }
  s.modChan .bit fun c =>
    let c := { c with dose.jogsUsed := 0 }
    beginFeed (feedsBarred s) (firstSub bc s.bit.prefed c.dose) c

/-- Act on a held target in PREFED (R106, R108, R111). -/
def bitActTarget (s : State) : State :=
  if (s.chan .bit).state = .prefed then
    match s.bit.target with
    | .none => s
    | .noDose => bitReport s.bit.prefed .notDosed s
    | .bc bc =>
      if s.bit.notDosed then bitReport 0 .notDosed s
      else if s.bit.preStalled then bitReport s.bit.prefed .stall s
      else if bc = 0 then bitReport s.bit.prefed .skipped s
      else if bc ≤ s.bit.prefed then bitDirectVerify bc s
      else bitContinue bc s
  else s

/-- BIT enters PREFED with a pre-fed actual, and acts on a target already held (R104, R106). -/
def bitEnterPrefed (actual : Int) (s : State) : State :=
  let s := s.modChan .bit fun c =>
    { c with state := .prefed, feed := none, gate := false, gapHold := false, pauseHold := false }
  bitActTarget { s with bit.prefed := actual }

/-- The pre-feed level Q = Bn × percent / 100, rounded half-up (R104). -/
def prefeedLevel (bn : Int) (percent : Nat) : Int := roundDiv (bn * percent) 100

/-- Begin the pre-feed (R104). -/
def bitBeginPrefeed (s : State) : State :=
  let bn := (s.chan .bit).dose.entry.target
  let q := prefeedLevel bn ((s.bit.work.map BinderVals.percent).getD 0)
  let s := setBinderTarget q { s with bit.q := q, bit.continuing := false }
  let s := s.modChan .bit fun c => { c with ring := [], stall := 0 }
  if q = 0 then bitEnterPrefed 0 s
  else s.modChan .bit fun c => beginFeed (feedsBarred s) (firstSub q 0 c.dose) c

/-- A changeover ends: circulate off, tank last used set, pre-feed begun (R102). -/
def bitEndChangeover (s : State) : State :=
  bitBeginPrefeed { s with bit.circulate := false, bit.tankLast := tankOf (s.chan .bit).dose.entry.source }

/-- Begin a changeover; a purge time of 0 ends it at once (R102). -/
def bitBeginChangeover (tank : Tank) (s : State) : State :=
  let s := flagAttached .bit (fun f => { f with changeover := true }) s
  let s := { s with bit.tankSelect := decide (tank = .bt2), bit.purge := 0 }
  if (s.bit.work.map BinderVals.purge).getD 0 = 0 then bitEndChangeover s
  else { s.modChan .bit (fun c => { c with state := .changeover, feed := none, gate := false }) with bit.circulate := true }

/-- The binder dose of a batch begins at the end of the tare (R101). -/
def bitAfterTare (e : DoseEntry) (s : State) : State :=
  let (ws, s) := readAll (sourceAddrs e.source) s
  let s := s.modChan .bit fun c => { c with todo := [], dose := doseFrom e ws }
  if sourceEnabled ws then
    match tankOf e.source with
    | some t => if s.bit.tankLast = some t then bitBeginPrefeed s else bitBeginChangeover t s
    | none => bitBeginPrefeed s
  else bitEnterPrefed 0 { s with bit.notDosed := true }

/-- BIT's binder entry is reported without a dose: the tare ended under an instruction (R111). -/
def bitUndosed (e : DoseEntry) (s : State) : State :=
  bitReport 0 .notDosed (s.modChan .bit fun c => { c with dose := { Dose.clear with entry := e } })

/-- The coordinator hands BIT the corrected target Bc (R106, R107). -/
def bitHandBc (bc : Int) (s : State) : State := bitActTarget { s with bit.target := .bc bc }

/-- The coordinator hands BIT the instruction not to dose (R111). -/
def bitHandNoDose (s : State) : State :=
  match (s.chan .bit).state with
  | .dosing _ => bitReport (s.chan .bit).net .notDosed s
  | .changeover => bitReport 0 .notDosed (cutChangeover s)
  | _ => bitActTarget { s with bit.target := .noDose }

/-! ### Weigh start on a channel (R77, R100) -/

/-- Begin the tare of a batch with its dose list. -/
def startTare (a : Attach) (sc : Scale) (todo : List DoseEntry) (s : State) : State :=
  let s := s.modChan sc fun c =>
    { c with state := .taring, feed := none, gate := false, batch := some a, ring := [], todo := todo, results := [],
             tareSum := 0, tareCount := 0, stopOrder := false, flags := ⟨false, false, false⟩,
             gapHold := false, pauseHold := false }
  refreshScale sc s

/-- BIT clears what it held of the batch before and refreshes its working binder values (R100). -/
def refreshBinder (s : State) : State :=
  let (ws, s) := readAll [Win.preFeedPercent, Win.purgeTime] s
  { s with
    bit.q := 0, bit.prefed := 0, bit.notDosed := false, bit.preStalled := false, bit.target := .none,
    bit.continuing := false,
    bit.work := s.bit.work.map fun v =>
      { percent := takeRanged 50 95 (nthWord ws 0) v.percent
        purge := takeRanged 0 600 (nthWord ws 1) v.purge } }

/-! ### Stop orders of the coordinator (R93, R112) -/

/-- Results NOT_DOSED at 0.0 kg for entries never begun. -/
def undosed (es : List DoseEntry) : List EntryResult := es.map fun e => ⟨e.source, 0, .notDosed⟩

/-- BIT drops a target held but not yet acted on, whatever its state (R112). -/
def dropTarget (sc : Scale) (s : State) : State :=
  if sc = .bit then { s with bit.target := .none } else s

/-- A channel told to stop where it stands (R93, R112). -/
def stopChannel (sc : Scale) (s : State) : State :=
  let s := dropTarget sc s
  let c := s.chan sc
  match c.state with
  | .taring => s.modChan sc fun c => { c with stopOrder := true }
  | .dosing _ =>
    let s := s.modChan sc fun c =>
      { c with results := c.results ++ ⟨c.dose.entry.source, dosed c, .notDosed⟩ :: undosed c.todo }
    reachWeighed sc c.net s
  | .prefed => if sc = .bit then bitReport s.bit.prefed .notDosed s else s
  | .changeover => if sc = .bit then bitReport 0 .notDosed (cutChangeover s) else s
  | .idle | .weighed | .discharging | .fault => s

/-- All four channels told to stop where they stand. -/
def stopAllChannels (s : State) : State := Scale.all.foldl (fun s sc => stopChannel sc s) s

/-! ### Stops of the part (R94) -/

/-- A channel's outputs off and its batch detached; it holds material in WEIGHED or goes to IDLE. -/
def settleMaterial (c : Channel) : Channel :=
  { c with state := if holdsMaterial c then .weighed else .idle, batch := none, feed := none,
           gate := false, gapHold := false, pauseHold := false, stopOrder := false, todo := [] }

/-- A channel at entry into STOPPED (R94). -/
def stoppedChannel (c : Channel) : Channel :=
  if c.state = .fault then { c with feed := none, gate := false } else settleMaterial c

/-- A channel that would feed holds its dose with every feed off: what R78 asks of a change away from
RUN that finds no dose and of a clear cycle that starts over none. -/
def holdFeed (c : Channel) : Channel :=
  match c.state with
  | .dosing .fast => enterPauseHeld .fast c
  | .dosing .fine => enterPauseHeld .fine c
  | .dosing .jogging => enterPauseHeld .jogCut c
  | _ => { c with feed := none }

/-- A channel's outputs off, all else kept, as at entry into HALTED (R94, R168). -/
def quietChannel (c : Channel) : Channel := { c with feed := none, gate := false }

/-! ### Pause (R90, R97) -/

/-- A channel when PAUSED is set. -/
def pauseChannel (c : Channel) : Channel :=
  match c.state with
  | .dosing .fast => enterPauseHeld .fast c
  | .dosing .fine => enterPauseHeld .fine c
  | .dosing .jogging => enterPauseHeld .jogCut c
  | .dosing (.held _) => { c with pauseHold := true }
  | .discharging => { c with gate := false }
  | _ => c

/-- A discharging channel when PAUSED is cleared: its gate opens again (R97). -/
def reopenGate (c : Channel) : Channel :=
  if c.state = .discharging then { c with gate := true } else c

/-- A channel when PAUSED is cleared in RUN (R90, R97). -/
def resumeChannel (c : Channel) : Channel :=
  match c.state with
  | .dosing (.held _) => releaseIfFree { c with pauseHold := false }
  | .discharging => { c with gate := true }
  | _ => c

/-! ### Discharge (R95, R96) -/

/-- Report the end of a scale's discharge to the one who asked: the clear cycle in its step DISCHARGE,
the mixer controller otherwise. -/
def reportDischarge (sc : Scale) (k : EndKind) (s : State) : State :=
  if s.rc.clearStep = .discharge then
    { s with rc.clearRec.ends := s.rc.clearRec.ends.set sc (some k) }
  else if s.mixer.disch.get sc = .asked then
    { s with mixer.disch := s.mixer.disch.set sc (.ended k) }
  else s

/-- A discharge ends: gate closed, reported, batch detached, IDLE. -/
def endDischarge (sc : Scale) (k : EndKind) (s : State) : State :=
  reportDischarge sc k
    (s.modChan sc fun c => { c with state := .idle, feed := none, gate := false, batch := none })

/-- A discharge request reaches a channel (R95); IDLE acts on it for the clear cycle only. A channel
below its empty threshold reports empty at once and detaches its batch as at any other end of a discharge:
DESIGN CHOICE (log 45), unsafe: the rule names the detach for an ended discharge only. -/
def requestDischarge (sc : Scale) (s : State) : State :=
  let c := s.chan sc
  let acts := c.state == .weighed || (c.state == .idle && s.rc.clearStep == .discharge)
  if acts then
    if holdsMaterial c then
      s.modChan sc fun c => { c with state := .discharging, feed := none, gate := !s.rc.paused, dischTimer := 0 }
    else endDischarge sc .empty s
  else s

end Sys2Proof.Machine
end

