-- ==== Sys2Proof/Machine/Queue.lean ====
section
/-! DEFINITION. The admission queue as the blocks read it (chapter 1): finding and updating a context,
and the views of R20. -/

namespace Sys2Proof.Machine

/-! ### The admission queue (R19, R20) -/

/-- The context of an order: same slot and order number. -/
def isOrder (slot : Nat) (number : Word) (o : Order) : Bool := o.slot == slot && o.number == number

/-- Find a queued order. -/
def findOrder (s : State) (slot : Nat) (number : Word) : Option Order :=
  s.oe.queue.find? (isOrder slot number)

/-- Update a queued order. -/
def modOrder (slot : Nat) (number : Word) (f : Order → Order) (s : State) : State :=
  { s with oe.queue := s.oe.queue.map fun o => if isOrder slot number o then f o else o }

/-- The order has batches to start and no withdraw seen (R20). -/
def startable (o : Order) : Bool := decide (o.started < o.count) && o.level == .none

/-- The order whose batch the coordinator may start next (R20). -/
def nextOrder (s : State) : Option Order := s.oe.queue.find? startable

/-- The head order: the oldest with batches not yet charged and no withdraw seen (R20). -/
def headOrder (s : State) : Option Order :=
  s.oe.queue.find? fun o => decide (o.charged < o.count) && o.level == .none

/-- Some queued order's snapshot names a tank as binder source (R20). -/
def tankInUse (s : State) (t : Tank) : Bool := s.oe.queue.any fun o => o.snap.tank == t

end Sys2Proof.Machine
end

