-- ==== Sys2Proof/Machine/Heat.lean ====
section
/-! DEFINITION. The heat controller (chapter 7): temperature channels, working values, the burner, the
dryer target and regulator, the tank heaters and the judgement of the thermal permit. -/

namespace Sys2Proof.Machine

/-! ### Temperature channels (R136 to R138) -/

/-- Replace the item of a temperature channel. -/
def tempSet {α : Type} (p : PerTemp α) (t : TempChan) (v : α) : PerTemp α :=
  match t with
  | .t1 => { p with t1 := v }
  | .t2 => { p with t2 := v }
  | .t3 => { p with t3 := v }
  | .t4 => { p with t4 := v }
  | .t5 => { p with t5 := v }
  | .t6 => { p with t6 := v }
  | .t7 => { p with t7 := v }

/-- The latest reading of a channel that is GOOD; none in SENSOR FAULT. -/
def goodReading (c : TempCh) : Option Int := if c.fault = none then c.reading else none

/-- The same item for every temperature channel. -/
def tempAll {α : Type} (v : α) : PerTemp α := ⟨v, v, v, v, v, v, v⟩

/-- A SENSOR FAULT notice of one channel. -/
def postSensor (cause : TempCause) (entered : Bool) (t : TempChan) (reading : Option Int) (s : State) :
    State :=
  submit (bareNotice (.sensorFault cause entered (tempSet (tempAll false) t true)
    (tempSet (tempAll none) t reading))) s

/-- Judge one channel of a frame (R136, R138). The good-frame count rises to 4 with the return to GOOD and
stands there until the channel enters fault again. -/
def judgeTemp (t : TempChan) (r : TempReading) (s : State) : State :=
  let c := tempGet s.heat.tc t
  let upd := fun (c : TempCh) => { s with heat.tc := tempSet s.heat.tc t c }
  match c.fault with
  | none =>
    if r.valid then upd { c with reading := some r.value.toInt }
    else postSensor .invalid true t c.reading (upd { c with fault := some .invalid, good := 0 })
  | some cause =>
    if r.valid then
      if c.good + 1 < Config.frameCount then
        upd { c with reading := some r.value.toInt, good := c.good + 1 }
      else
        let s := upd ⟨none, some r.value.toInt, Config.frameCount⟩
        if cause = .start then s else postSensor cause false t (some r.value.toInt) s
    else upd { c with good := 0 }

/-- The end of a missing period (R137). -/
def countMissing (s : State) : State :=
  let m := min Config.frameCount (s.heat.missing + 1)
  let reachesLimit := decide (m = Config.frameCount ∧ s.heat.missing ≠ Config.frameCount)
  let entering := tempMap (fun c : TempCh => reachesLimit && c.fault == none) s.heat.tc
  let readings := tempMap (fun c : TempCh => c.reading) s.heat.tc
  let tc := tempMap (fun c : TempCh =>
    match c.fault with
    | some _ => { c with good := 0 }
    | none => if reachesLimit then { c with fault := some .noFrames, good := 0 } else c) s.heat.tc
  let s := { s with heat.tc := tc, heat.missing := m }
  if tempAny id entering then submit (bareNotice (.sensorFault .noFrames true entering readings)) s
  else s

/-! ### Firing limits and overrides (R145, R150, R151) -/

/-- Upper limit of the regulator: max fire, or min fire under the T7 clamp. -/
def upperFire (v : HeatVals) (h : Heat) : Int := if h.t7Clamp then v.minFire else v.maxFire

/-- Bring output and integral within the limits in force (R145, R150, R151). The integral is brought
within new limits under the T1 hold too: DESIGN CHOICE (log 48), unsafe: R145 and R151 clamp it, R150 says
it does not change. -/
def clampFire (v : HeatVals) (h : Heat) : Heat :=
  match h.burner with
  | .lowFire => { h with firing := v.minFire }
  | .modulating =>
    let up := upperFire v h
    { h with
      firing := if h.t1Hold then (v.minFire : Int) else clampTo v.minFire up h.firing
      reg := h.reg.map fun r => { r with integral := clampTo (1000 * v.minFire) (1000 * up) r.integral } }
  | .off | .requested | .fault => h

/-- The T7 clamp as T7 and the baghouse limit stand (R151). -/
def t7Test (h : Heat) : Bool :=
  match goodReading h.tc.t7 with
  | none => true
  | some t => match h.vals with
    | some v => decide (v.baghouse < t)
    | none => false

/-- Set the T7 clamp as tested; one that becomes set confines the fire at once (R151). -/
def testClamp (h : Heat) : Heat :=
  let h' := { h with t7Clamp := t7Test h }
  match h.vals with
  | some v => if h'.t7Clamp then clampFire v h' else h'
  | none => h'

/-- A regulator with no previous PV: D is 0 at the next update (R149, R150). -/
def dropPV (r : Regulator) : Regulator := { r with prevPV := none }

/-- Set or clear the T1 hold as T1 stands; the hold leaves no previous PV, so that the update after T1
returns has D = 0 (R150). -/
def testHold (h : Heat) : Heat :=
  match h.burner, h.vals with
  | .modulating, some v =>
    if (goodReading h.tc.t1).isNone then
      { h with t1Hold := true, firing := v.minFire, reg := h.reg.map dropPV }
    else { h with t1Hold := false }
  | _, _ => { h with t1Hold := false }

/-! ### Tank heaters (R152 to R154) -/

/-- A tank's heater state. -/
def tankOfHeat (h : Heat) : Tank → TankState
  | .bt1 => h.bt1 | .bt2 => h.bt2

/-- Replace a tank's heater state. -/
def setTank (h : Heat) (t : Tank) (v : TankState) : Heat :=
  match t with
  | .bt1 => { h with bt1 := v }
  | .bt2 => { h with bt2 := v }

/-- A tank's working values. -/
def tankVals (v : HeatVals) : Tank → TankVals
  | .bt1 => v.bt1 | .bt2 => v.bt2

/-- A tank's temperature channel: T3 for BT1, T4 for BT2. -/
def tankChan (h : Heat) : Tank → TempCh
  | .bt1 => h.tc.t3 | .bt2 => h.tc.t4

/-- The active setpoint's value. -/
def setpointOf (v : TankVals) (k : TankState) : Int := if k.work then v.work else v.hold

/-- The heaters run in this part state (R154). -/
def heatersRun (p : PartState) : Bool :=
  p == .standby || p == .run || p == .stopped || p == .halted

/-- Cases 2 to 4 of R152. -/
def heaterCases (sp : Int) (hyst : Nat) (t : Int) (k : TankState) : TankState :=
  if sp ≤ t then { k with heater := false }
  else if t < sp - hyst then { k with heater := true }
  else k

/-- The heater test at a frame, latch test included (R152, R153). -/
def heaterAtFrame (sp : Int) (hyst : Nat) (t : Int) (k : TankState) : TankState :=
  if k.latch && !decide (t < sp - hyst) then { k with heater := false }
  else heaterCases sp hyst t { k with latch := false }

/-- The heater test between frames: a latch keeps the heater off (R152, R153). -/
def heaterBetween (sp : Int) (hyst : Nat) (t : Int) (k : TankState) : TankState :=
  if k.latch then { k with heater := false } else heaterCases sp hyst t k

/-- One tank at a frame with a valid reading in a GOOD channel (R152, R153). -/
def tankFrame (tank : Tank) (t : Int) (v : HeatVals) (s : State) : State :=
  let k := tankOfHeat s.heat tank
  let tv := tankVals v tank
  let sp := setpointOf tv k
  let s :=
    if tv.high ≤ t ∧ k.latch = false then
      submit (bareNotice (.tankHigh tank t tv.high sp))
        { s with heat := setTank s.heat tank { k with heater := false, latch := true } }
    else s
  { s with heat := setTank s.heat tank (heaterAtFrame sp v.hysteresis t (tankOfHeat s.heat tank)) }

/-- The heater test of one tank at a frame; a channel in fault keeps the heater off (R154). -/
def testTankFrame (tank : Tank) (valid : Bool) (s : State) : State :=
  match s.heat.vals, goodReading (tankChan s.heat tank) with
  | some v, some t =>
    if valid && heatersRun s.rc.part then tankFrame tank t v s else s
  | _, none => { s with heat := setTank s.heat tank { tankOfHeat s.heat tank with heater := false } }
  | none, some _ => s

/-- The heater test of one tank between frames. -/
def testTankBetween (tank : Tank) (s : State) : State :=
  match s.heat.vals, goodReading (tankChan s.heat tank) with
  | some v, some t =>
    if heatersRun s.rc.part then
      let k := tankOfHeat s.heat tank
      { s with heat := setTank s.heat tank (heaterBetween (setpointOf (tankVals v tank) k) v.hysteresis t k) }
    else s
  | _, _ => s

/-- The active setpoint follows the queue (R152). -/
def followTank (tank : Tank) (s : State) : State :=
  let k := tankOfHeat s.heat tank
  let w := tankInUse s tank
  if k.work = w then s
  else testTankBetween tank { s with heat := setTank s.heat tank { k with work := w } }

/-- Both heater outputs off (R154, R184). -/
def heatersOff (s : State) : State := { s with heat.bt1.heater := false, heat.bt2.heater := false }

/-! ### The dryer target (R146, R147) -/

/-- The dryer target and the idle timer are kept up to date in this part state (R147). -/
def dryerRuns (p : PartState) : Bool := p == .standby || p == .run || p == .stopped

/-- Both stages of the coordinator are empty. -/
def stagesEmpty (s : State) : Bool := s.co.weigh.isNone && s.co.mix.isNone

/-- The conditions under which the idle timer counts (R147). -/
def idleCounts (s : State) : Bool :=
  dryerRuns s.rc.part && s.heat.vals.isSome && (headOrder s).isNone && stagesEmpty s

/-- Bring the dryer target up to date (R146, R147): the head order's, or, once the idle timer has reached
the idle time, the working standby setpoint until a head order appears. -/
def followDryer (s : State) : State :=
  match s.heat.vals with
  | none => s
  | some v =>
    if dryerRuns s.rc.part then
      match headOrder s with
      | some o =>
        { s with heat.target := some (min o.tAgg v.maximum), heat.idle := 0, heat.atStandby := false }
      | none =>
        if stagesEmpty s then
          if s.heat.atStandby || decide (v.idleTime ≤ s.heat.idle) then
            { s with heat.target := some v.standby, heat.atStandby := true }
          else s
        else
          { s with heat.idle := 0,
                   heat.target := if s.heat.atStandby then some v.standby else s.heat.target }
    else s

/-- The heat controller follows the queue and the stages (R146, R147, R152). -/
def followQueue (s : State) : State := followTank .bt2 (followTank .bt1 (followDryer s))

/-- The idle timer reaches the idle time (R147). -/
def idleExpired (s : State) : State :=
  match s.heat.vals with
  | some v =>
    if idleCounts s then
      { s with heat.idle := max s.heat.idle v.idleTime, heat.target := some v.standby,
               heat.atStandby := true }
    else s
  | none => s

/-! ### The burner (R140 to R144) -/

/-- The min fire in force. -/
def minFire (h : Heat) : Int := ((h.vals.map HeatVals.minFire).getD 0 : Nat)

/-- Enter LOW_FIRE (R142). -/
def enterLowFire (h : Heat) : Heat := { h with burner := .lowFire, firing := minFire h, lowFire := 0 }

/-- Enter REQUESTED; flame proven is tested at entry (R141). -/
def enterRequested (flame : Bool) (h : Heat) : Heat :=
  let h := { h with burner := .requested, request := true, firing := 0, ignition := 0 }
  if flame then enterLowFire h else h

/-- The test of R140: OFF to REQUESTED in RUN with the permit active. -/
def burnerTest (s : State) : State :=
  if s.heat.burner = .off ∧ s.rc.part = .run ∧ s.inp.permit = true then
    { s with heat := enterRequested s.inp.flame s.heat }
  else s

/-- Enter MODULATING (R148, R150). -/
def enterModulating (h : Heat) : Heat :=
  let pv := goodReading h.tc.t1
  { h with
    burner := .modulating, firing := minFire h, update := 0,
    period := (h.vals.map HeatVals.period).getD 0,
    t1Hold := pv.isNone,
    reg := some { sp := 24 * (pv.getD (h.target.getD 0)), integral := 1000 * minFire h, prevPV := pv } }

/-- The burner goes out: firing 0, request off, regulator dropped. -/
def burnerOut (next : Burner) (h : Heat) : Heat :=
  { h with burner := next, request := false, firing := 0, reg := none, t1Hold := false }

/-- The burner asks for, or holds, flame. -/
def burnerLit : Burner → Bool
  | .requested | .lowFire | .modulating => true
  | .off | .fault => false

/-- REQUESTED, LOW_FIRE and MODULATING go to OFF: permit lost, or the part leaves RUN (R141 to R144). -/
def burnerDrop (s : State) : State :=
  if burnerLit s.heat.burner then { s with heat := burnerOut .off s.heat } else s

/-- Enter FAULT and post BURNER FAULT (R143). -/
def burnerFault (cause : BurnerCause) (s : State) : State :=
  let d := Detail.burnerFault cause s.heat.burner s.heat.firing (goodReading s.heat.tc.t1)
  submit (bareNotice d) { s with heat := burnerOut .fault s.heat }

/-- The burner-permit input takes a level (R140 to R143). -/
def permitInput (active : Bool) (s : State) : State :=
  let s := { s with inp.permit := active }
  if active then burnerTest s else burnerDrop s

/-- The flame-proven input takes a level (R141 to R143). -/
def flameInput (active : Bool) (s : State) : State :=
  let s := { s with inp.flame := active }
  match s.heat.burner, active with
  | .requested, true => { s with heat := enterLowFire s.heat }
  | .lowFire, false | .modulating, false => burnerFault .flameLost s
  | _, _ => s

/-- The ignition timer reaches the ignition timeout (R141). -/
def ignitionExpired (s : State) : State :=
  if s.heat.burner = .requested then burnerFault .ignition s else s

/-- The low-fire timer reaches the low-fire hold (R142). -/
def lowFireExpired (s : State) : State :=
  if s.heat.burner = .lowFire then { s with heat := enterModulating s.heat } else s

/-- BURNER RESET: FAULT to OFF, then the test of R140 (R144). -/
def burnerReset (s : State) : State :=
  if s.heat.burner = .fault then burnerTest { s with heat := burnerOut .off s.heat } else s

/-! ### The regulator (R148, R149) -/

/-- Move a value toward a target by at most a step. -/
def moveToward (target step v : Int) : Int :=
  if v < target then min target (v + step) else max target (v - step)

/-- One update with a process value (R149): setpoint already moved. -/
def regulate (v : HeatVals) (up pv : Int) (r : Regulator) (firing : Int) : Regulator × Int :=
  let e := roundDiv r.sp 24 - pv
  if e.natAbs ≤ v.deadband then ({ r with prevPV := some pv }, firing)
  else
    let integral := clampTo (1000 * v.minFire) (1000 * up) (r.integral + v.ki * e)
    let out := 10 * v.kp * e + integral - 10 * v.kd * (pv - r.prevPV.getD pv)
    ({ r with integral := integral, prevPV := some pv }, clampTo v.minFire up (roundDiv out 1000))

/-- A regulator update (R148 to R151): the setpoint moves by the ramp of the period that ran (log 30),
then the error is formed unless T1 is held. -/
def regulatorUpdate (h : Heat) : Heat :=
  match h.burner, h.vals, h.reg with
  | .modulating, some v, some r =>
    let r := { r with sp := moveToward (24 * h.target.getD 0) (v.ramp * h.period) r.sp }
    let h := { h with update := 0, period := v.period }
    match goodReading h.tc.t1, h.t1Hold with
    | some pv, false =>
      let (r, f) := regulate v (upperFire v h) pv r h.firing
      { h with reg := some r, firing := f }
    | _, _ => { h with reg := some (dropPV r) }
  | _, _, _ => h

/-! ### Working heat values (R139) -/

/-- Byte addresses of the 24 heat fields. A refresh reads them in layout order, one access each, and takes none
before the last is read (R139): DESIGN CHOICE (log 61), safe, the manual names no order for a refresh. -/
def heatAddrs : List Nat := (List.range 24).map fun i => Win.config + 2 * i

/-- Take a signed word within a range; otherwise keep the value held. -/
def takeSigned (lo hi : Int) (w : Word) (old : Int) : Int :=
  if inRange lo hi w.toInt then w.toInt else old

/-- One tank's three values, whole or not at all. -/
def takeTank (a b c : Word) (old : TankVals) : TankVals :=
  if inRange 1000 2200 a.toInt && inRange 1000 2200 b.toInt && decide (c.toInt ≤ 2500)
      && decide (a.toInt < c.toInt) && decide (b.toInt < c.toInt) then
    ⟨a.toInt, b.toInt, c.toInt⟩
  else old

/-- The working values from the 24 words read, each out-of-range field and each inconsistent group
keeping its old values (R139). -/
def heatValsFrom (ws : List Word) (old : HeatVals) : HeatVals :=
  let w := nthWord ws
  let setpoints := inRange 200 2500 (w 0).toInt && inRange 1000 2500 (w 1).toInt
    && decide ((w 0).toInt ≤ (w 1).toInt)
  let fires := inRange 50 300 (w 9).toNat && decide ((w 10).toNat ≤ 1000)
    && decide ((w 9).toNat ≤ (w 10).toNat)
  { standby := if setpoints then (w 0).toInt else old.standby
    maximum := if setpoints then (w 1).toInt else old.maximum
    idleTime := takeRanged 0 900 (w 2) old.idleTime
    ramp := takeRanged 1 30 (w 3) old.ramp
    period := takeRanged 1 40 (w 4) old.period
    kp := takeRanged 0 1000 (w 5) old.kp
    ki := takeRanged 0 1000 (w 6) old.ki
    kd := takeRanged 0 1000 (w 7) old.kd
    deadband := takeRanged 0 100 (w 8) old.deadband
    minFire := if fires then (w 9).toNat else old.minFire
    maxFire := if fires then (w 10).toNat else old.maxFire
    ignitionTimeout := takeRanged 10 120 (w 11) old.ignitionTimeout
    lowFireHold := takeRanged 30 300 (w 12) old.lowFireHold
    baghouse := takeSigned 1000 3000 (w 13) old.baghouse
    bt1 := takeTank (w 14) (w 15) (w 16) old.bt1
    bt2 := takeTank (w 17) (w 18) (w 19) old.bt2
    hysteresis := takeRanged 5 200 (w 20) old.hysteresis
    lowBand := takeRanged 0 300 (w 21) old.lowBand
    highBand := takeRanged 0 300 (w 22) old.highBand
    lineMin := takeSigned 1000 2000 (w 23) old.lineMin }

/-- The values the permit uses differ. -/
def permitValsDiffer (a b : HeatVals) : Bool :=
  a.lowBand != b.lowBand || a.highBand != b.highBand || a.lineMin != b.lineMin

/-- A tank's working values differ. -/
def tankValsDiffer (a b : HeatVals) (t : Tank) : Bool :=
  tankVals a t != tankVals b t || a.hysteresis != b.hysteresis

/-- Take new working values while the controller runs (R139): fires, clamp, target, tanks follow. New
firing limits act first, under the clamp as it stood, and then the clamp is tested with the new baghouse
limit (R145, R151): DESIGN CHOICE (log 55), unsafe, the manual names no order. -/
def adoptVals (old v : HeatVals) (s : State) : State :=
  let s := { s with heat := testClamp (clampFire v { s.heat with vals := some v }) }
  let s := followDryer s
  let s := if tankValsDiffer old v .bt1 then testTankBetween .bt1 s else s
  if tankValsDiffer old v .bt2 then testTankBetween .bt2 s else s

/-! ### The thermal permit (R155) -/

/-- AGGREGATE: T2 within the band round T_agg, both ends included. -/
def judgeAggregate (v : HeatVals) (t2 : Option Int) (tAgg : Int) : Option PermitAnswer :=
  let lo := tAgg - v.lowBand
  let hi := tAgg + v.highBand
  match t2 with
  | none => some ⟨.aggregate, none, lo⟩
  | some t =>
    if t < lo then some ⟨.aggregate, some t, lo⟩
    else if hi < t then some ⟨.aggregate, some t, hi⟩ else none

/-- TANK: the tank's reading within the binder window. A reading beyond both ends of an empty window
crosses an end that is free (log 15). -/
def judgeTank (reading : Option Int) (winMin winMax : Int) : Option PermitAnswer :=
  match reading with
  | none => some ⟨.tank, none, winMin⟩
  | some t =>
    if t < winMin ∧ winMax < t then
      some ⟨.tank, some t, if Config.bothEndsMin t winMin winMax then winMin else winMax⟩
    else if t < winMin then some ⟨.tank, some t, winMin⟩
    else if winMax < t then some ⟨.tank, some t, winMax⟩ else none

/-- LINE: T5 at or above the line minimum. -/
def judgeLine (v : HeatVals) (t5 : Option Int) : Option PermitAnswer :=
  match t5 with
  | none => some ⟨.line, none, v.lineMin⟩
  | some t => if t < v.lineMin then some ⟨.line, some t, v.lineMin⟩ else none

/-- Evaluate a permit: none grants it; otherwise the first condition that fails (R155). -/
def judgePermit (v : HeatVals) (h : Heat) (tAgg : Int) (tank : Tank) (winMin winMax : Int) :
    Option PermitAnswer :=
  match judgeAggregate v (goodReading h.tc.t2) tAgg with
  | some a => some a
  | none =>
    match judgeTank (goodReading (tankChan h tank)) winMin winMax with
    | some a => some a
    | none => judgeLine v (goodReading h.tc.t5)

end Sys2Proof.Machine
end

