-- ==== Sys2Proof/Machine/Orders.lean ====
section
/-! DEFINITION. The order engine (chapters 1 and 2): the queue, tickets and closings, withdraw and
discard, admission with its snapshot and derived values, and the chain walker. -/

namespace Sys2Proof.Machine

/-! ### Changes of the queue (R19, R20, R24) -/

/-- A batch is of the order queued with this slot and number: its own order has not left the queue (R26,
R55). -/
def ofOrder (slot : Nat) (number : Word) (b : Batch) : Bool :=
  b.slot == slot && b.order == number && !b.orderLeft

/-- A batch in a stage as its order leaves the queue (R26, R55). -/
def loseOrder (slot : Nat) (number : Word) (b : Batch) : Batch :=
  if ofOrder slot number b then { b with orderLeft := true } else b

/-- A queued order leaves, and its batches in the stages lose it; the heat controller sees the queue
without it, and a look point follows (R5, R24, R26, R146, R152). -/
def dropOrder (slot : Nat) (number : Word) (s : State) : State :=
  followQueue
    { s with oe.queue := s.oe.queue.filter (fun o => !isOrder slot number o),
             oe.lookOwed := s.oe.lookOwed + 1,
             co.weigh := s.co.weigh.map (loseOrder slot number),
             co.mix := s.co.mix.map (loseOrder slot number) }

/-- A batch begins its charge, or will not charge: its order's batches charged rises, if the order is still
queued, and the heat controller sees the head order that leaves (R20, R55, R146). -/
def countCharged (b : Batch) (s : State) : State :=
  followQueue
    (if b.orderLeft then s
     else modOrder b.slot b.order (fun o => { o with charged := o.charged + 1 }) s)

/-! ### Seizure (R26, R27) -/

/-- A ticket of a batch whose order has left the queue (R26). -/
def seizeUnqueued (t : Ticket) (s : State) : State :=
  submit ⟨t.slot, t.order, t.seq, .slotSeizedNotQueued t⟩ s

/-- An order is seized: the notice, the context out of the queue, and its held tickets handled as
tickets of an order that has left (R25, R27). -/
def seizeOrder (o : Order) (batch : Nat) (d : Detail) (s : State) : State :=
  let s := dropOrder o.slot o.number (submit ⟨o.slot, o.number, batch, d⟩ s)
  o.held.foldl (fun s t => seizeUnqueued t s) s

/-! ### Closing (R24) -/

/-- The outcome of the first row of R24, but for ABORTED, that applies. -/
def closeOutcome (o : Order) : Option OrderOutcome :=
  if o.started = 0 then (if o.level ≠ .none then some .withdrawn else none)
  else if o.finished = o.started ∧
      ((o.level ≠ .none ∧ o.started < o.count) ∨ (o.started = o.count ∧ 0 < o.abortedTickets)) then
    some .partialDone
  else if o.finished = o.count ∧ o.abortedTickets = 0 then some .complete
  else none

/-- The writes between the guards of a Close sequence (R2), in the order R2 lists them (log 57). -/
def closeWrites (o : Order) (outcome : OrderOutcome) (s : State) : List (Nat × Word) :=
  let a := Win.slot o.slot
  [(a + Win.slotOutcome, BitVec.ofNat 16 outcome.code), (a + Win.slotRefusal, (0 : Word))]
    ++ stampWrites (a + Win.slotClosedAt) s.seconds

/-- The Close sequence and what follows it (R2, R24, R27). -/
def closeOrder (o : Order) (outcome : OrderOutcome) (s : State) : State :=
  let (s, failed) := guardedSeq o.slot [slotTaken, slotActive] o.number (closeWrites o outcome s)
    (Win.slot o.slot + Win.slotState, slotClosed) s
  match failed with
  | none => dropOrder o.slot o.number
      (submit ⟨o.slot, o.number, 0, .orderClosed o.load outcome .none o.tickets⟩ s)
  | some g => seizeOrder o 0 (.slotSeizedClose g.1 g.2 outcome) s

/-- Close a queued order if a row of R24 applies; in STOPPED the queue closes ABORTED instead (R28,
log 33). -/
def closeTest (slot : Nat) (number : Word) (s : State) : State :=
  match findOrder s slot number with
  | none => s
  | some o =>
    match closeOutcome o with
    | none => s
    | some outcome => if s.rc.part = .stopped then s else closeOrder o outcome s

/-- Close every queued order ABORTED, oldest first (R28). -/
def closeAllAborted (s : State) : State :=
  s.oe.queue.foldl (fun s o => closeOrder o .aborted s) s

/-! ### Tickets (R25, R67, R68) -/

/-- The eleven actuals of a ticket record: entries beyond the count are 0. -/
def ticketActuals (cs : List CompEntry) : List Word :=
  ((cs.map fun e : CompEntry => massWord e.actual) ++ List.replicate 11 0).take 11

/-- The last 20 bytes of a ticket record: eleven outcomes and nine bytes of 0. -/
def ticketOutcomes (cs : List CompEntry) : List Byte :=
  ((cs.map fun e => natByte (entryOutcome e).code).take 11 ++ List.replicate 20 0).take 20

/-- The 32 words of a ticket record (section 11.3). -/
def ticketWords (t : Ticket) : List Word :=
  [DWord.lowWord (natDWord t.seq), DWord.highWord (natDWord t.seq),
   joinBytes (natByte t.index) (natByte t.verdict.code), flagsWord t.flags,
   joinBytes (natByte t.comps.length) (boolByte t.results.t6.isSome),
   (t.results.t6.map signedWord).getD 0,
   natWord t.results.dry, natWord t.results.wet, natWord t.results.overTime,
   DWord.lowWord t.stamp, DWord.highWord t.stamp]
  ++ ticketActuals t.comps ++ wordsOfBytes (ticketOutcomes t.comps)

/-- Words as writes to rising addresses, one part access each: the order in which the words of a ticket record
are written between the guards (R25). DESIGN CHOICE (log 57), safe: the manual names no order. -/
def writesAt (a : Nat) : List Word → List (Nat × Word)
  | [] => []
  | w :: ws => (a, w) :: writesAt (a + 2) ws

/-- The Ticket sequence of a queued order and what follows it (R25, R27, R68). -/
def writeTicket (o : Order) (t : Ticket) (s : State) : State :=
  let (s, failed) := guardedSeq o.slot [slotTaken, slotActive] o.number
    (writesAt (Win.ticket o.slot t.index) (ticketWords t))
    (Win.slot o.slot + Win.slotTickets, natWord (o.tickets + 1)) s
  match failed with
  | some g => seizeOrder o t.seq (.slotSeizedTicket g.1 g.2 t) s
  | none =>
    let s := submit ⟨o.slot, o.number, t.seq,
      .batchDone o.load t.index t.verdict t.flags (o.tickets + 1)⟩ s
    let s := modOrder o.slot o.number (fun o =>
      { o with tickets := o.tickets + 1, finished := o.finished + 1,
               abortedTickets := o.abortedTickets + if t.verdict = .aborted then 1 else 0 }) s
    closeTest o.slot o.number s

/-- A batch of the same order with a lower index is still in the mixer stage (R25). -/
def lowerInMixer (s : State) (t : Ticket) : Bool :=
  match s.co.mix with
  | some b => ofOrder t.slot t.order b && decide (b.index < t.index)
  | none => false

/-- Write the tickets an order holds back, in the order they came, once nothing holds them. -/
def releaseHeld (slot : Nat) (number : Word) : Nat → State → State
  | 0, s => s
  | n + 1, s =>
    match findOrder s slot number with
    | none => s
    | some o =>
      match o.held with
      | [] => s
      | t :: r =>
        if lowerInMixer s t then s
        else
          let o := { o with held := r }
          releaseHeld slot number n (writeTicket o t (modOrder slot number (fun _ => o) s))

/-- The queued order a ticket belongs to: none once the batch's order has left the queue, whatever order of
its slot and number is queued since (R26, R55). -/
def ticketOrder (left : Bool) (t : Ticket) (s : State) : Option Order :=
  if left then none else findOrder s t.slot t.order

/-- The coordinator hands a ticket to the order engine, of a batch whose order has left the queue or not
(R25, R26). -/
def handTicket (left : Bool) (t : Ticket) (s : State) : State :=
  match ticketOrder left t s with
  | none => seizeUnqueued t s
  | some o =>
    if lowerInMixer s t then modOrder t.slot t.order (fun o => { o with held := o.held ++ [t] }) s
    else releaseHeld t.slot t.order 2 (writeTicket o t s)

/-! ### Withdraw and discard (R22, R23, R62) -/

/-- The batch in the weigh stage is discarded (R62): marks, the end of a thermal wait, and the stop of
all four channels. -/
def discardBatch (s : State) : State :=
  match s.co.weigh with
  | none => s
  | some b =>
    if b.aborted then s
    else
      let b := { b with discard := true, waiting := false, flags.discarded := true }
      stopAllChannels { s with co.weigh := some b, heat.permit := none }

/-- Tell the coordinator to discard the weigh-stage batch if it is of this order (R23a). -/
def discardIfWeighing (o : Order) (s : State) : State :=
  match s.co.weigh with
  | some b => if ofOrder o.slot o.number b then discardBatch s else s
  | none => s

/-- Take a reading of an order's withdraw request (R22, R23, R23a). -/
def raiseLevel (o : Order) (w : Word) (s : State) : State :=
  let l := Level.ofWord w
  if o.level.rank < l.rank then
    let s := followQueue (modOrder o.slot o.number (fun o => { o with level := l }) s)
    let s := if l = .discard then discardIfWeighing o s else s
    closeTest o.slot o.number s
  else s

/-- Read the withdraw request of one queued order: one part access. -/
def readWithdraw (o : Order) (s : State) : State :=
  let s := gap s
  raiseLevel o (s.rd (Win.slot o.slot + Win.slotWithdraw)) s

/-- The withdraw watch reads every queued order (R22), oldest first, and acts on each reading before the
next: DESIGN CHOICE (log 40), unsafe, the manual names no order. -/
def watchWithdraw (s : State) : State := s.oe.queue.foldl (fun s o => readWithdraw o s) s

/-! ### The formula snapshot and the derived values (R32 to R41) -/

/-- A component entry as copied: source code, share, tolerance, reject limit. -/
def rawComponents (ws : List Word) (n : Nat) : List (Nat × Nat × Nat × Nat) :=
  (List.range n).map fun i =>
    let w := fun k => (nthWord ws (24 + 4 * i + k)).toNat
    (w 0, w 1, w 2, max (w 2) (w 3))

/-- A source code appears twice. -/
def hasDuplicate : List Nat → Bool
  | [] => false
  | x :: r => r.contains x || hasDuplicate r

/-- The nominal dry mass (R36). -/
def dryMass (mass : Nat) (b : Nat) : Int := roundDiv ((mass : Int) * (1000 - b)) 1000

/-- A component's target (R37), and Pn from the reclaimed share (R38). -/
def shareMass (dn : Int) (share : Nat) : Int := roundDiv (dn * share) 1000

/-- Binder mass for a dry mass, less the binder the reclaimed mass brings, floored at 0 (R39, R107). -/
def binderMass (b r : Nat) (dry reclaimed : Int) : Int :=
  max 0 (roundDiv (b * dry * 1000 - reclaimed * r * (1000 - b)) ((1000 - b) * 1000))

/-- The target aggregate temperature before the clamp (R40). -/
def aggTemp (mixTemp superheat : Int) (s : Nat) : Int := roundDiv (100 * mixTemp + s * superheat) 100

/-- A component with its target. -/
def componentOf (dn : Int) (src : Source) (c : Nat × Nat × Nat × Nat) : Component :=
  ⟨src, c.2.1, c.2.2.1, c.2.2.2, shareMass dn c.2.1⟩

/-- The snapshot formed from the 64 words copied, its fields brought into range (R33). -/
def snapshotOf (revision : Word) (ws : List Word) (tank : Tank) (comps : List Component) : Snapshot where
  revision := revision
  mixTemp := clampTo 1000 1900 (nthWord ws 2).toInt
  superheat := clampTo 0 300 (nthWord ws 3).toInt
  b := (clampTo 20 90 (nthWord ws 4).toInt).toNat
  r := min (nthWord ws 5).toNat 80
  tank := tank
  binderTol := (nthWord ws 7).toNat
  binderReject := max (nthWord ws 7).toNat (nthWord ws 8).toNat
  winMin := (nthWord ws 9).toInt
  winMax := (nthWord ws 10).toInt
  dryTime := min (nthWord ws 11).toNat 300
  wetTime := max 50 (min (nthWord ws 12).toNat 900)
  overLimit := min (nthWord ws 13).toNat 600
  comps := comps

/-- Sum of the targets of the components of a scale. -/
def scaleLoad (comps : List Component) (sc : Scale) : Int :=
  (comps.filter (fun c => c.source.scale == sc)).foldl (fun n c => n + c.target) 0

/-- The reclaimed share s: the shares of RB1 and RB2 (R38). -/
def reclaimedShare (comps : List Component) : Nat :=
  (comps.filter (fun c => c.source.scale == .rap)).foldl (fun n c => n + c.share) 0

/-- The load identifier in the header words read. -/
def loadOf (hdr : List Word) : List Byte :=
  ((List.range 4).map fun i =>
    [Word.lowByte (nthWord hdr (6 + i)), Word.highByte (nthWord hdr (6 + i))]).flatten

/-- The order context of an order that passed its checks, with the derived values (R36 to R40). -/
def orderOf (slot : Nat) (hdr : List Word) (snap : Snapshot) (dest : Route) (dn : Int) (maximum : Int) :
    Order :=
  let s := reclaimedShare snap.comps
  let pn := shareMass dn s
  let raw := aggTemp snap.mixTemp snap.superheat s
  { slot := slot, number := nthWord hdr 0,
    load := loadOf hdr,
    count := (nthWord hdr 2).toNat, mass := (nthWord hdr 3).toNat, dest := dest, snap := snap,
    dn := dn, s := s, pn := pn, bn := binderMass snap.b snap.r dn pn,
    tAgg := min raw maximum, tAggRaw := raw, clamped := decide (maximum < raw),
    started := 0, charged := 0, finished := 0, tickets := 0, abortedTickets := 0,
    level := .none, held := [] }

/-! ### Admission (R15 to R18) -/

/-- The header words an examination reads behind the order number, which it has from the read of R10
step 1 (R19): formula index, batch count, batch mass, destination, withdraw request and the load
identifier, one access each at rising addresses. DESIGN CHOICE (log 39), safe: the manual names no order. -/
def headerAddrs (n : Nat) : List Nat :=
  [0x06, 0x08, 0x0A, 0x0C, 0x0E, 0x10, 0x12, 0x14, 0x16].map (Win.slot n + ·)

/-- The sources of check 6: all ten components' codes and the binder's name sources that fit. -/
def checkSources (codes : List Nat) (binder : Nat) : Option (List Source × Tank) :=
  match codes.mapM (fun c => if c < 10 then Source.ofCode c else none) with
  | none => none
  | some srcs =>
    if binder = 10 then some (srcs, .bt1) else if binder = 11 then some (srcs, .bt2) else none

/-- How an examination's checks end: a refusal with its code and recorded revision, or an accepted
order. -/
abbrev Examined := (RefusalCode × Word) ⊕ Order

/-- Checks 8 to 11 (R15, R40, R41): the derived values, the maximum and the capacities read from the
window. The capacities are read AGG, RAP, FIL, BIT, all before any is judged: DESIGN CHOICE (log 44), safe,
the manual names no order. A mass of 0x8000 and above counts by the range of R15, to 6000.0 kg: DEDUCED (log 62),
safe. -/
def examineLoads (slot : Nat) (hdr : List Word) (snap : Snapshot) (dn : Int) (s : State) :
    Examined × State :=
  let count := (nthWord hdr 2).toNat
  let mass := (nthWord hdr 3).toNat
  if count < 1 ∨ 8 < count then (.inl (.batchCount, snap.revision), s)
  else if mass < 5000 ∨ 60000 < mass then (.inl (.massRange, snap.revision), s)
  else
    let (mx, s) := readAll [Win.dryerMax] s
    let o := orderOf slot hdr snap .truck dn (nthWord mx 0).toInt
    let (caps, s) := readAll (Scale.all.map fun sc => Win.scale sc + 6) s
    let fits := fun (i : Nat) (load : Int) => decide (load ≤ (nthWord caps i).toNat)
    if fits 0 (scaleLoad snap.comps .agg) && fits 1 o.pn && fits 2 (scaleLoad snap.comps .fil)
        && fits 3 o.bn then
      match Route.ofDest (nthWord hdr 4).toNat with
      | some d => (.inr { o with dest := d }, s)
      | none => (.inl (.destination, snap.revision), s)
    else (.inl (.scaleCapacity, snap.revision), s)

/-- Checks 4 to 11 on a copied record (R15). Check 6 reads the enabled words of all components in
formula order and then the tank's, all before any is judged: DESIGN CHOICE (log 43), safe, the manual
names no order. -/
def examineFormula (slot : Nat) (hdr : List Word) (revision : Word) (ws : List Word) (s : State) :
    Examined × State :=
  let n := (nthWord ws 14).toNat
  if n < 1 ∨ 10 < n then (.inl (.componentCount, revision), s)
  else
    let raw := rawComponents ws n
    let codes := raw.map fun c => c.1
    if hasDuplicate codes then (.inl (.duplicateSource, revision), s)
    else
      match checkSources codes (nthWord ws 6).toNat with
      | none => (.inl (.sourceDisabled, revision), s)
      | some (srcs, tank) =>
        let (en, s) := readAll ((srcs ++ [tank.source]).map Win.source) s
        if en.all (fun w => w == 1) then
          if raw.foldl (fun k c => k + c.2.1) 0 = 1000 then
            let b := (clampTo 20 90 (nthWord ws 4).toInt).toNat
            let dn := dryMass (nthWord hdr 3).toNat b
            let comps := (srcs.zip raw).map fun p => componentOf dn p.1 p.2
            examineLoads slot hdr (snapshotOf revision ws tank comps) dn s
          else (.inl (.shareSum, revision), s)
        else (.inl (.sourceDisabled, revision), s)

/-- The snapshot copy and the checks after it (R32, check 3). The snapshot's revision is the word read
before the copy, which the word after it must equal; a word changed and changed back inside the copy leaves
it so: DESIGN CHOICE (log 41), safe. -/
def examineCopy (slot : Nat) (hdr : List Word) (f : Nat) (s : State) : Examined × State :=
  let a := Win.formula f
  let (g, s) := readAll [a, a + 2] s
  let revision := nthWord g 1
  if nthWord g 0 = formulaValid then
    let (ws, s) := readAll ((List.range 64).map fun i => a + 2 * i) s
    let (g, s) := readAll [a, a + 2] s
    if nthWord g 0 = formulaValid ∧ nthWord g 1 = revision then examineFormula slot hdr revision ws s
    else (.inl (.formulaNotReady, revision), s)
  else (.inl (.formulaNotReady, revision), s)

/-- The checks of an examination on the header read (R15). -/
def examineChecks (slot : Nat) (hdr : List Word) (s : State) : Examined × State :=
  if nthWord hdr 0 = 0 then (.inl (.orderNumber, 0), s)
  else if 23 < (nthWord hdr 1).toNat then (.inl (.formulaRange, 0), s)
  else examineCopy slot hdr (nthWord hdr 1).toNat s

/-- The walker takes a position: header field written, link-early memory emptied (R4). -/
def takePosition (slot : Nat) (number : Word) (s : State) : State :=
  let s := put Win.chainPosition (BitVec.ofNat 16 slot) s
  { s with oe.walker := .walking, oe.pos := some ⟨slot, number⟩, oe.linkEarly := none }

/-- The Close at admission sequence (R2, R16, R17): REFUSED, or WITHDRAWN; behind it ORDER CLOSED, then the
position, in the order of R16's text: DEDUCED (log 71), safe. -/
def closeAtAdmission (slot : Nat) (hdr : List Word) (outcome : OrderOutcome) (code : RefusalCode)
    (revision : Word) (s : State) : State :=
  let a := Win.slot slot
  let number := nthWord hdr 0
  let writes := [(a + Win.slotOutcome, BitVec.ofNat 16 outcome.code),
      (a + Win.slotRefusal, BitVec.ofNat 16 code.code), (a + Win.slotRevision, revision),
      (a + Win.slotTickets, 0)]
    ++ stampWrites (a + Win.slotTakenAt) s.seconds ++ stampWrites (a + Win.slotClosedAt) s.seconds
  let (s, failed) := guardedSeq slot [slotPosted] number writes (a + Win.slotState, slotClosed) s
  match failed with
  | some _ => s
  | none => takePosition slot number
      (submit ⟨slot, number, 0, .orderClosed (loadOf hdr) outcome code 0⟩ s)

/-- The Take sequence and the new context (R2, R17); behind them the position, then SETPOINT CLAMP, in the order
of R17's text: DEDUCED (log 71), safe. -/
def takeOrder (o : Order) (s : State) : State :=
  let a := Win.slot o.slot
  let writes := [(a + Win.slotRevision, o.snap.revision), (a + Win.slotTickets, 0)]
    ++ stampWrites (a + Win.slotTakenAt) s.seconds
  let (s, failed) := guardedSeq o.slot [slotPosted] o.number writes (a + Win.slotState, slotTaken) s
  match failed with
  | some _ => s
  | none =>
    let s := followQueue (takePosition o.slot o.number { s with oe.queue := s.oe.queue ++ [o] })
    if o.clamped then submit ⟨o.slot, o.number, 0, .setpointClamp o.load o.tAggRaw o.tAgg⟩ s else s

/-- Examine a POSTED slot (section 1.3) whose order number the walker read together with the state it
found there: the duplicate test and the Take guard are made on one number (R10, R19). -/
def examine (slot : Nat) (number : Word) (s : State) : State :=
  let (ws, s) := readAll (headerAddrs slot) s
  let hdr := number :: ws
  let (r, s) := examineChecks slot hdr s
  match r with
  | .inl (code, revision) => closeAtAdmission slot hdr .refused code revision s
  | .inr o =>
    if Level.ofWord (nthWord hdr 5) = .none then takeOrder o s
    else closeAtAdmission slot hdr .withdrawn .none o.snap.revision s

/-! ### The chain walker (R5 to R14) -/

/-- The walker's position slot and order number as a notice gives them: 255 and 0 for none (R173). -/
def posNotice (s : State) (d : Detail) : Notice :=
  match s.oe.pos with
  | some p => ⟨p.slot, p.number, 0, d⟩
  | none => bareNotice d

/-- LINK EARLY for a linked slot that is not POSTED (R9). -/
def linkEarly (n : Nat) (state : Word) (s : State) : State :=
  if s.oe.linkEarly = some n then s
  else submit (posNotice s (.linkEarly (BitVec.ofNat 16 n) state)) { s with oe.linkEarly := some n }

/-- A linked slot that matches no queued context, as the walker read its state and order number (R10
steps 2 to 4). -/
def meetSlot (n : Nat) (g : Word × Word) (s : State) : State :=
  if g.1 = slotPosted then
    if s.oe.queue.length < Config.queueCapacity then examine n g.2 s else s
  else linkEarly n g.1 s

/-- The position slot is this one. -/
def atSlot (s : State) (n : Nat) : Bool :=
  match s.oe.pos with
  | some p => p.slot == n
  | none => false

/-- Act on a link or chain entry value (R6, R8, R10). `visited` are the slots moved to in this look
point; the fuel bounds the moves, of which there are at most as many as queued orders. The linked slot's state
and order number are read as one part access, as R7 has it for the position slot: DESIGN CHOICE (log 65), safe,
R10 does not say so of its step 1. -/
def followLink : Nat → Bool → Word → List Nat → State → State
  | 0, _, _, _, s => s
  | fuel + 1, fromEntry, v, visited, s =>
    if v = 255 then s
    else if 32 ≤ v.toNat then
      submit (posNotice s (.chainBroken v fromEntry)) { s with oe.walker := .broken }
    else
      let n := v.toNat
      let s := gap s
      let g := guardRead n s
      if (findOrder s n g.2).isSome then
        if atSlot s n || visited.contains n then s
        else
          let s := gap (takePosition n g.2 s)
          followLink fuel false (s.rd (Win.slot n + Win.slotLink)) (n :: visited) s
      else meetSlot n g s

/-- The walker's part of a look point (R6, R7, R11). -/
def walk (s : State) : State :=
  match s.oe.walker with
  | .noEntry =>
    let s := gap s
    followLink (s.oe.queue.length + 1) true (s.rd Win.chainEntry) [] s
  | .walking =>
    match s.oe.pos with
    | none => s
    | some p =>
      let s := gap s
      let g := guardRead p.slot s
      if guardOk [slotTaken, slotActive, slotClosed] p.number g then
        let s := gap s
        followLink (s.oe.queue.length + 1) false (s.rd (Win.slot p.slot + Win.slotLink)) [] s
      else
        submit ⟨p.slot, p.number, 0, .chainLost g.1 g.2⟩ { s with oe.walker := .lost }
  | .broken | .lost => s

/-- Look points are taken: RUN with FINISHING clear (R5). -/
def looksAllowed (s : State) : Bool := s.rc.part == .run && !s.rc.finishing

/-- One look point: the withdraw watch and the walk (R5). -/
def lookPoint (s : State) : State := if looksAllowed s then walk (watchWithdraw s) else s

/-- Take the look points owed because orders left the queue (R5). -/
def drainLooks : Nat → State → State
  | 0, s => { s with oe.lookOwed := 0 }
  | n + 1, s =>
    if s.oe.lookOwed = 0 then s
    else drainLooks n (lookPoint { s with oe.lookOwed := s.oe.lookOwed - 1 })

/-- RESTART at the order engine (R14). -/
def restartWalker (s : State) : State :=
  let s := put Win.chainPosition 255 s
  lookPoint { s with oe.walker := .noEntry, oe.pos := none, oe.linkEarly := none }

end Sys2Proof.Machine
end

