-- ==== Sys2Proof/Machine/Batch.lean ====
section
/-! DEFINITION. The batch coordinator's weigh side (chapter 3): weigh start, the dry shortfall test and
the corrected binder target, tickets, and the abort of the weigh-stage batch. -/

namespace Sys2Proof.Machine

/-! ### Tickets (R67) -/

/-- Assemble the ticket of a batch that ends at a stamp. -/
def assembleTicket (b : Batch) (stamp : DWord) : Ticket where
  slot := b.slot
  order := b.order
  load := b.load
  seq := b.seq
  index := b.index
  verdict := verdictOf b
  flags := b.flags
  comps := b.comps.map fun e => { e with outcome := some (entryOutcome e) }
  results := b.results
  stamp := stamp
  dryTotal := b.dryTotal

/-- The batch in the mixer stage ends: its ticket is handed over as it leaves the stage. -/
def endMixBatch (s : State) : State :=
  match s.co.mix with
  | none => s
  | some b => handTicket b.orderLeft (assembleTicket b s.seconds) { s with co.mix := none }

/-- The batch in the weigh stage ends ABORTED: its ticket is handed over as it leaves the stage. -/
def endWeighAborted (s : State) : State :=
  match s.co.weigh with
  | none => s
  | some b =>
    handTicket b.orderLeft (assembleTicket { b with aborted := true, waiting := false } s.seconds)
      { s with co.weigh := none, heat.permit := none }

/-! ### The dry shortfall test and the corrected target (R57, R107) -/

/-- All three dry scales have reported. -/
def dryReported (b : Batch) : Bool := b.reported.agg && b.reported.rap && b.reported.fil

/-- All four scales have reported: the batch is READY (R58). -/
def batchReady (b : Batch) : Bool := dryReported b && b.reported.bit

/-- Short when ten times the dry total is less than nine times Dn (R57). -/
def isShort (total dn : Int) : Bool := decide (10 * total < 9 * dn)

/-- Replace the target of the last entry, the binder. -/
def setLastTarget (t : Int) : List CompEntry → List CompEntry
  | [] => []
  | [e] => [{ e with target := t }]
  | e :: r => e :: setLastTarget t r

/-- The dry shortfall test is due: the third dry report is in, and the batch is neither discarded nor
ABORTED. -/
def dryTestDue (b : Batch) : Bool := dryReported b && b.dryTotal.isNone && !b.discard && !b.aborted

/-- Form the dry total, make the test once, and hand BIT its target or the instruction not to dose. -/
def dryTest (s : State) : State :=
  match s.co.weigh with
  | none => s
  | some b =>
    if dryTestDue b then
      let total := b.nets.agg + b.nets.rap + b.nets.fil
      if isShort total b.dn then
        bitHandNoDose { s with co.weigh := some { b with dryTotal := some total, short := true } }
      else
        let bc := binderMass b.b b.r total b.nets.rap
        bitHandBc bc { s with co.weigh := some { b with
          dryTotal := some total, comps := setLastTarget bc b.comps } }
    else s

/-! ### Weigh start (R52 to R54) -/

/-- All four channels report IDLE. -/
def allIdle (s : State) : Bool := s.ch.all fun c => c.state == .idle

/-- The conditions of R52, but for the order. -/
def weighMayStart (s : State) : Bool :=
  s.rc.part == .run && !s.rc.paused && !s.rc.finishing && !s.rc.clearRequired
    && s.rc.clearStep == .none && s.co.weigh.isNone && allIdle s
    && decide (s.co.counter ≤ Config.lastSequence)

/-- A weigh start is due (R52). -/
def weighStartDue (s : State) : Bool := weighMayStart s && (nextOrder s).isSome

/-- A component as an entry of a dose list (R34). -/
def doseEntryOf (c : Component) : DoseEntry := ⟨c.source, c.target, c.tol, c.reject⟩

/-- The dose list of a scale (R34, R54): for BIT the binder entry. -/
def doseList (o : Order) (sc : Scale) : List DoseEntry :=
  match sc with
  | .bit => [⟨o.snap.tank.source, o.bn, o.snap.binderTol, o.snap.binderReject⟩]
  | _ => (o.snap.comps.filter fun c => c.source.scale == sc).map doseEntryOf

/-- A component entry not yet reported (R50). -/
def freshEntry (src : Source) (target : Int) : CompEntry := ⟨src, target, 0, none⟩

/-- The batch record formed at weigh start (R50). -/
def newBatch (seq : Nat) (o : Order) : Batch where
  seq := seq
  slot := o.slot
  order := o.number
  load := o.load
  index := o.started + 1
  dest := o.dest
  tAgg := o.tAgg
  tank := o.snap.tank
  winMin := o.snap.winMin
  winMax := o.snap.winMax
  dryTime := o.snap.dryTime
  wetTime := o.snap.wetTime
  overLimit := o.snap.overLimit
  dn := o.dn
  pn := o.pn
  b := o.snap.b
  r := o.snap.r
  comps := (o.snap.comps.map fun c => freshEntry c.source c.target) ++ [freshEntry o.snap.tank.source o.bn]
  reported := ⟨false, false, false, false⟩
  nets := ⟨0, 0, 0, 0⟩
  dryTotal := none
  short := false
  flags := TicketFlags.clear
  discard := false
  aborted := false
  waiting := false
  wait := 0
  waitLimit := 0
  timeoutPosted := false
  route := none
  results := ⟨0, 0, 0, none⟩
  orderLeft := false

/-- The Activate sequence of an order (R2, R21, R27). -/
def activateOrder (o : Order) (s : State) : State :=
  let (s, failed) := guardedSeq o.slot [slotTaken] o.number []
    (Win.slot o.slot + Win.slotState, slotActive) s
  match failed with
  | none => s
  | some g => seizeOrder o 0 (.slotSeizedActivate g.1 g.2) s

/-- Hand the four channels their parts of a batch (R54 step 3): each channel in scale order reads its
scale record, and BIT its pre-feed percent and purge time after all four. DESIGN CHOICE (log 46), safe: the
manual names no order among the channels' reads. -/
def handLists (a : Attach) (o : Order) (s : State) : State :=
  refreshBinder (Scale.all.foldl (fun s sc => startTare a sc (doseList o sc) s) s)

/-- A weigh start that proceeds (R54). -/
def startBatch (o : Order) (s : State) : State :=
  let seq := s.co.counter
  let s := { s with co.weigh := some (newBatch seq o), co.counter := seq + 1 }
  let s := modOrder o.slot o.number (fun o => { o with started := o.started + 1 }) s
  let s := if o.started = 0 then activateOrder { o with started := 1 } s else s
  handLists ⟨seq, o.slot, o.number⟩ o s

/-- Try a weigh start, order after order: each is chosen, its withdraw request read, and it starts if
its level stays NONE (R52, R53). -/
def tryWeighStart : Nat → State → State
  | 0, s => s
  | n + 1, s =>
    if weighMayStart s then
      match nextOrder s with
      | none => s
      | some o =>
        let s := readWithdraw o s
        match findOrder s o.slot o.number with
        | some o' => if startable o' then startBatch o' s else tryWeighStart n s
        | none => tryWeighStart n s
    else s

/-! ### Abort of the weigh-stage batch (R59a) -/

/-- The coordinator detaches a channel of an aborted batch (R93): one still taring keeps its stop
order (log 36). -/
def detachChannel (c : Channel) : Channel :=
  match c.state with
  | .fault => { c with batch := none }
  | .taring => { c with batch := none }
  | _ => settleMaterial c

/-- A SCALE FAULT ends the weigh-stage batch: the other channels stop, the ticket is handed over, the
order counts the batch as charged (R20), and the channels are detached. -/
def abortWeigh (s : State) : State :=
  match s.co.weigh with
  | none => s
  | some b =>
    let s := stopAllChannels { s with co.weigh := some { b with aborted := true, waiting := false } }
    let s := countCharged b s
    let s := endWeighAborted s
    { s with ch := s.ch.map detachChannel, rc.clearRequired := true }

end Sys2Proof.Machine
end

