-- ==== Sys2Proof/Machine/Mixer.lean ====
section
/-! DEFINITION. The mixer controller (chapter 6): charge, phases, door, cycle mark, stop and halt, the
clear cycle's use of the mixer; and the charge decision of the coordinator (R59 to R63). -/

namespace Sys2Proof.Machine

/-- The mixer controller reports EMPTY (R116). -/
def mixerEmpty (s : State) : Bool := s.mixer.phase == .empty && !s.mixer.clearHold

/-- A mixer controller that counts and acts: RUN with PAUSED clear (R117). -/
def mixerRuns (s : State) : Bool := s.rc.part == .run && !s.rc.paused

/-! ### Cycle mark and phases (R130) -/

/-- Post CYCLE MARK for the batch. -/
def postMark (p : MarkPhase) (late : Bool) (s : State) : State :=
  submit (mixNotice s.mixer.batch (.cycleMark p s.mixer.cmOffset s.mixer.clock late))
    { s with mixer.cmPosted := true }

/-- The mark of the batch if it names the present phase and is still to be posted. -/
def markHere (s : State) : Option MarkPhase :=
  match s.mixer.cmPhase with
  | some p =>
    if p.phase = s.mixer.phase ∧ s.mixer.cmPosted = false ∧ s.mixer.batch.isSome then some p else none
  | none => none

/-- The present phase ends: a mark it names and has not posted is posted, late if its clock is short
of the offset. -/
def leavePhase (s : State) : State :=
  match markHere s with
  | some p => postMark p (decide (s.mixer.clock < s.mixer.cmOffset)) s
  | none => s

/-- Enter a phase with its clock at 0; a mark with offset 0 is posted at entry (R130), before the RECEIVER WAIT
that the entry into DISCHARGE_WAIT may post (R125): DESIGN CHOICE (log 60), safe, the manual names no order. -/
def enterPhase (p : Phase) (s : State) : State :=
  let s := { s with mixer.phase := p, mixer.clock := 0 }
  match markHere s with
  | some q => if s.mixer.cmOffset = 0 then postMark q false s else s
  | none => s

/-- Go from the present phase to another. -/
def changePhase (p : Phase) (s : State) : State := enterPhase p (leavePhase s)

/-! ### Charge (R118 to R120) -/

/-- Ask a scale to discharge for the batch, unless its discharge already reads ENDED (R121, R123). -/
def askScale (sc : Scale) (s : State) : State :=
  if s.mixer.disch.get sc = .notAsked then
    requestDischarge sc { s with mixer.disch := s.mixer.disch.set sc .asked }
  else s

/-- Working mixer values from the five words a charge start reads (R118). -/
def mixValsFrom (ws : List Word) (old : MixVals) : MixVals :=
  { old with
    fillerDelay := takeRanged 0 100 (nthWord ws 0) old.fillerDelay
    doorOpenTime := takeRanged 20 150 (nthWord ws 1) old.doorOpenTime
    doorCloseTimeout := takeRanged 20 100 (nthWord ws 2) old.doorCloseTimeout
    markPhase := if (nthWord ws 3).toNat ≤ 6 then MarkPhase.ofCode (nthWord ws 3).toNat else old.markPhase
    markOffset := takeRanged 0 600 (nthWord ws 4) old.markOffset }

/-- Refresh the working mixer values at a charge start (R118): filler delay, door open time, door close
timeout, cycle mark phase, cycle mark offset, one access each. DESIGN CHOICE (log 53), safe: the manual names
no order. -/
def refreshMixer (s : State) : State :=
  let (ws, s) := readAll [Win.fillerDelay, Win.doorOpenTime, Win.doorCloseTimeout, Win.markPhase,
    Win.markOffset] s
  { s with mixer.work := s.mixer.work.map (mixValsFrom ws) }

/-- The mixer controller takes a charge request (R119). -/
def mixerCharge (m : MixBatch) (s : State) : State :=
  let s := refreshMixer s
  let s := { s with
    mixer.batch := some m, mixer.disch := ⟨.notAsked, .notAsked, .notAsked, .notAsked⟩,
    mixer.dryT := 0, mixer.fillT := 0, mixer.wetT := 0, mixer.overT := 0, mixer.doorT := 0,
    mixer.rwPosted := false, mixer.omPosted := false, mixer.cmPosted := false, mixer.t6 := .notTaken,
    mixer.cmPhase := s.mixer.work.bind MixVals.markPhase,
    mixer.cmOffset := (s.mixer.work.map MixVals.markOffset).getD 0 }
  let s := askScale .rap (askScale .agg (enterPhase .charging s))
  if (s.mixer.work.map MixVals.fillerDelay).getD 0 = 0 then askScale .fil s else s

/-- The timers that count in the present phase go on together by the same count (R117): the phase clock
in every phase, and with it the timers of the phase. The filler delay timer counts in CHARGING until FIL is
asked, as the state table has it, or has ended without a request (R120, R121): DEDUCED (log 63), safe. -/
def advanceMixer (count : Nat → Nat) (m : Mixer) : Mixer :=
  let m := { m with clock := count m.clock }
  match m.phase with
  | .empty | .clearMix => m
  | .charging =>
    { m with dryT := count m.dryT, fillT := if m.disch.fil = .notAsked then count m.fillT else m.fillT }
  | .dry => { m with dryT := count m.dryT }
  | .wet => { m with wetT := count m.wetT }
  | .dischargeWait => { m with overT := count m.overT }
  | .doorOpen | .doorClosing => { m with doorT := count m.doorT }

/-- An event that a timer's reaching a limit brings: every timer that counts with it has moved on by what
the timer lacked (log 5). -/
def reachLimit (timer limit : Nat) (s : State) : State :=
  { s with mixer := advanceMixer (· + (limit - timer)) s.mixer }

/-- FILLER_DELAY_EXPIRY at the mixer, while the timer counts (R120, log 63). -/
def fillerDue (s : State) : State :=
  if s.mixer.phase = .charging ∧ s.mixer.disch.fil = .notAsked ∧ mixerRuns s = true then
    askScale .fil (reachLimit s.mixer.fillT ((s.mixer.work.map MixVals.fillerDelay).getD 0) s)
  else s

/-! ### The phases after CHARGING (R122 to R128) -/

/-- A scale's discharge reads ENDED. -/
def hasEnded : Disch → Bool
  | .ended _ => true
  | _ => false

/-- Some scale channel is in DISCHARGING. -/
def anyDischarging (s : State) : Bool := s.ch.any fun c => c.state == .discharging

/-- Enter WET: the spray is asked for (R123). -/
def enterWet (s : State) : State := askScale .bit { changePhase .wet s with mixer.wetT := 0 }

/-- The route of the batch in the mixer. -/
def mixRoute (s : State) : Route := (s.mixer.batch.map MixBatch.route).getD .reject

/-- Enter DISCHARGE_WAIT: the route output is energized (R124). -/
def enterDischargeWait (s : State) : State :=
  { changePhase .dischargeWait s with mixer.overT := 0, mixer.routeOut := some (mixRoute s) }

/-- Enter DOOR_OPEN: the door is commanded open (R126). -/
def enterDoorOpen (s : State) : State :=
  { changePhase .doorOpen s with mixer.doorT := 0, mixer.door := true }

/-- Leave DOOR_OPEN: the T6 reading of a batch, door commanded closed, DOOR_CLOSING (R126). -/
def leaveDoorOpen (s : State) : State :=
  let t6 := match s.mixer.batch, goodReading s.heat.tc.t6 with
    | some _, some v => T6Reading.present v
    | some _, none => T6Reading.absent
    | none, _ => s.mixer.t6
  changePhase .doorClosing { s with mixer.t6 := t6, mixer.door := false, mixer.doorT := 0 }

/-- RECEIVER WAIT of the batch: flag, mark and notice (R125). -/
def receiverWait (s : State) : State :=
  let s := match s.mixer.batch with
    | some m => flagBatch m.seq (fun f => { f with receiverWait := true }) s
    | none => s
  submit (mixNotice s.mixer.batch (.receiverWait (mixRoute s))) { s with mixer.rwPosted := true }

/-- The overmix timer exceeds the overmix limit (R125). -/
def overmixDue (s : State) : State :=
  match s.mixer.batch with
  | some m =>
    if s.mixer.phase = .dischargeWait ∧ s.mixer.omPosted = false ∧ mixerRuns s = true then
      let s := reachLimit s.mixer.overT (10 * m.overLimit + 1) s
      let s := { s with mixer.omPosted := true }
      let s := flagBatch m.seq (fun f => { f with overmix := true }) s
      submit (mixNotice s.mixer.batch (.overmix m.route m.overLimit s.mixer.overT)) s
    else s
  | none => s

/-- The phase clock reaches the cycle mark's offset (R130). -/
def markDue (s : State) : State :=
  match markHere s with
  | some p =>
    if mixerRuns s then postMark p false (reachLimit s.mixer.clock s.mixer.cmOffset s) else s
  | none => s

/-- The reading of T6 as a ticket carries it. -/
def t6Result : T6Reading → Option Int
  | .present v => some v
  | .absent | .notTaken => none

/-- The mixer results of a batch as the timers stand (R135). -/
def mixResults (m : Mixer) : MixResults := ⟨m.dryT, m.wetT, m.overT, t6Result m.t6⟩

/-- Put mixer results into the mixer-stage record. -/
def reportResults (r : MixResults) (s : State) : State :=
  { s with co.mix := s.co.mix.map fun b => { b with results := r } }

/-- The door of a batch has closed (R127). A CYCLE MARK that falls due at this phase end (R130) is posted
before the notices of the ticket: DESIGN CHOICE (log 54), safe, the manual names no order. -/
def closeBatchDoor (s : State) : State :=
  let s := reportResults (mixResults s.mixer) (leavePhase s)
  endMixBatch { s with mixer.routeOut := none, mixer.batch := none, mixer.phase := .empty, mixer.clock := 0 }

/-- One phase change of the mixer that falls due at once, if any (R120, R122 to R129). -/
def mixerStep (s : State) : Option State :=
  match s.mixer.phase with
  | .charging =>
    if hasEnded s.mixer.disch.agg && hasEnded s.mixer.disch.rap && hasEnded s.mixer.disch.fil then
      some (changePhase .dry s) else none
  | .dry =>
    if !s.rc.paused && decide ((s.mixer.batch.map MixBatch.dryTime).getD 0 ≤ s.mixer.dryT) then
      some (enterWet s) else none
  | .wet =>
    if hasEnded s.mixer.disch.bit && decide ((s.mixer.batch.map MixBatch.wetTime).getD 0 ≤ s.mixer.wetT) then
      some (enterDischargeWait s) else none
  | .dischargeWait =>
    if s.rc.paused then none
    else if s.inp.ready.get (mixRoute s) then
      if anyDischarging s then none else some (enterDoorOpen s)
    else if s.mixer.rwPosted then none else some (receiverWait s)
  | .doorClosing =>
    if s.inp.doorClosed && !s.mixer.clearHold then some (closeBatchDoor s) else none
  | .empty | .doorOpen | .clearMix => none

/-- The mixer controller at entry into STOPPED (R131): the suspect flag, the results as the timers
stand, outputs off, EMPTY; what the rule does not name is kept. -/
def stopMixer (s : State) : State :=
  let m := s.mixer
  let s := reportResults { mixResults m with t6 := none } s
  { s with mixer := { Mixer.reset with
      suspect := m.suspect || m.phase != .empty || m.clearHold, work := m.work
      t6 := m.t6, cmPhase := m.cmPhase, cmOffset := m.cmOffset } }

/-- The mixer controller at entry into HALTED (R132). -/
def haltMixer (m : Mixer) : Mixer := { m with door := false, routeOut := none, suspect := true }

/-! ### The charge decision (R59 to R63) -/

/-- Charge start (R63). -/
def chargeStart (b : Batch) (s : State) : State :=
  let route := if batchReject b then Route.reject else b.dest
  let s := { s with co.weigh := none, heat.permit := none,
                    co.mix := some { b with route := some route, waiting := false } }
  let s := countCharged b s
  mixerCharge ⟨b.seq, b.slot, b.order, route, b.dryTime, b.wetTime, b.overLimit⟩ s

/-- The thermal wait limit as used: 10 to 900 s (R61). -/
def usedWaitLimit (w : Word) : Nat := max 10 (min w.toNat 900)

/-- The first refusal of a batch: thermal wait, flag and THERMAL HOLD (R60, R61). The thermal wait limit is read
before THERMAL HOLD is submitted: DESIGN CHOICE (log 69), safe, R60 and R61 name no order. -/
def enterThermalWait (b : Batch) (a : PermitAnswer) (s : State) : State :=
  let (ws, s) := readAll [Win.thermalLimit] s
  let s := { s with
    co.weigh := some { b with waiting := true, wait := 0, waitLimit := usedWaitLimit (nthWord ws 0),
                              flags.thermalWait := true }
    heat.permit := some ⟨b.tAgg, b.tank, b.winMin, b.winMax, a⟩ }
  submit ⟨b.slot, b.order, b.seq, .thermalHold b.load a b.tAgg⟩ s

/-- The conditions of R59 for a batch not already waiting. -/
def chargeDue (s : State) : Bool :=
  mixerRuns s && mixerEmpty s &&
    (match s.co.weigh with
     | some b => batchReady b && !b.waiting
     | none => false)

/-- The charge decision (R59, R60, R62). -/
def chargeDecision (s : State) : State :=
  match s.co.weigh, s.heat.vals with
  | some b, some v =>
    if chargeDue s then
      if b.discard then chargeStart b s
      else
        match judgePermit v s.heat b.tAgg b.tank b.winMin b.winMax with
        | none => chargeStart b s
        | some a => enterThermalWait b a s
    else s
  | _, _ => s

/-- Evaluate the held permit request; the first grant charges the batch (R60, R156), which enters the
mixer stage only while the mixer controller reports EMPTY (R49). -/
def evalHeld (s : State) : State :=
  match s.heat.permit, s.heat.vals, s.co.weigh with
  | some r, some v, some b =>
    if mixerRuns s && mixerEmpty s then
      match judgePermit v s.heat r.tAgg r.tank r.winMin r.winMax with
      | none => chargeStart b s
      | some a => { s with heat.permit := some { r with answer := a } }
    else s
  | _, _, _ => s

/-- The wait time reaches the thermal wait limit (R61). -/
def thermalTimeout (s : State) : State :=
  match s.co.weigh, s.heat.permit with
  | some b, some r =>
    if b.waiting = true ∧ b.timeoutPosted = false ∧ mixerRuns s = true then
      let b := { b with wait := max b.wait (10 * b.waitLimit), timeoutPosted := true }
      submit ⟨b.slot, b.order, b.seq, .thermalTimeout b.load r.answer (b.wait / 10)⟩
        { s with co.weigh := some b }
    else s
  | _, _ => s

end Sys2Proof.Machine
end

