-- ==== Sys2Proof/Machine/RunControl.lean ====
section
/-! DEFINITION. Run control (chapter 8): part state, pause, plant stop, HALTED, FINISHING and the clear
cycle; and the steps that follow at once from what a command did. -/

namespace Sys2Proof.Machine

/-- Set the part state and its copy in the header (R157). -/
def setPart (p : PartState) (s : State) : State :=
  put Win.partState (BitVec.ofNat 16 p.code) { s with rc.part := p }

/-- The weigh-stage batch sequence number, 0 for none. -/
def weighSeq (s : State) : Nat := (s.co.weigh.map Batch.seq).getD 0

/-- The mixer-stage batch sequence number, 0 for none. -/
def mixSeq (s : State) : Nat := (s.co.mix.map Batch.seq).getD 0

/-- A notice whose batch is the mixer-stage batch, with no slot (R173). -/
def stageNotice (s : State) (d : Detail) : Notice := ⟨255, 0, mixSeq s, d⟩

/-! ### Pause (R159, R160) -/

/-- Set the flag PAUSED on each batch in either stage (R65, R71). -/
def flagPaused (s : State) : State :=
  let upd := fun b : Batch => { b with flags.paused := true }
  { s with co.weigh := s.co.weigh.map upd, co.mix := s.co.mix.map upd }

/-- PAUSED is set (R160). -/
def setPaused (src : PauseSource) (s : State) : State :=
  let s := { s with rc.paused := true, rc.pausedAt := s.seconds, ch := s.ch.map pauseChannel }
  flagPaused (submit (stageNotice s (.paused src s.rc.clearStep s.rc.finishing (weighSeq s))) s)

/-- PAUSED is cleared by a toggle or RESUME (R160): RESUMED, the channels go on, and a held permit
request is evaluated at once (R156). -/
def clearPaused (src : PauseSource) (s : State) : State :=
  let s := { s with rc.paused := false }
  let s := submit (bareNotice (.resumed src (s.seconds - s.rc.pausedAt).toNat)) s
  evalHeld { s with ch := s.ch.map (if feedsBarred s then reopenGate else resumeChannel) }

/-- A pause toggle classed by the decoder (R159). -/
def pauseToggle (s : State) : State :=
  if s.rc.part = .run then
    if s.rc.paused then clearPaused .line s else setPaused .line s
  else s

/-! ### Plant stop (R161, R162) -/

/-- The PLANT STOP notice of the present moment. -/
def plantStopNotice (s : State) : Notice :=
  stageNotice s (.plantStop s.rc.part s.rc.paused s.rc.clearStep (weighSeq s) s.oe.queue.length)

/-- BIT at entry into STOPPED: circulate off, a changeover cut short (R103). -/
def stopBinder (s : State) : State :=
  if (s.chan .bit).state = .changeover then cutChangeover s else { s with bit.circulate := false }

/-- A channel reports that it holds material at entry into STOPPED (R161). -/
def reportsMaterial (c : Channel) : Bool := c.state == .weighed || (c.state == .fault && holdsMaterial c)

/-- The mixer-stage batch is ABORTED by a stop (R69). -/
def abortMix (s : State) : State :=
  { s with co.mix := s.co.mix.map fun b => { b with aborted := true } }

/-- The blocks at entry into STOPPED, up to the tickets and closings the entry starts (R161). PLANT STOP is
submitted before the part state copy of the header is written: DESIGN CHOICE (log 70), safe, R157 and R161 name no
order of these two. -/
def stopBlocks (s : State) : State :=
  let s := submit (plantStopNotice s) s
  let s := stopBinder s
  let s := { s with ch := s.ch.map stoppedChannel }
  let s := setPart .stopped { s with rc.paused := false, rc.finishing := false, rc.clearStep := .none }
  let s := { s with rc.clearRequired := s.rc.clearRequired || s.ch.any reportsMaterial }
  abortMix (burnerDrop (stopMixer s))

/-- The two stages' tickets and every queued order's closing (R28, R69). -/
def stopWrites (s : State) : State := closeAllAborted (endWeighAborted (endMixBatch s))

/-! ### A plant stop that a soft reset cuts short (R187, log 51) -/

/-- The part accesses a write sequence makes: the opening guard alone where it fails. -/
def sequenceCost (n : Nat) (states : List Word) (number : Word) (between : List (Nat × Word)) (s : State) :
    Nat :=
  if guardOk states number (guardRead n (gap s)) then between.length + 2 else 1

/-- The accesses a sequence makes before it is cut: of `k`, the first is the opening guard. -/
def cutSequence (k n : Nat) (states : List Word) (number : Word) (between : List (Nat × Word))
    (s : State) : State :=
  match k with
  | 0 => s
  | k + 1 => if guardOk states number (guardRead n (gap s)) then putAll (between.take k) (gap s) else gap s

/-- One ticket or closing with `k` accesses left: whole if it needs no more, and otherwise cut. The first
answer is what is left, none after a cut. -/
def withinCut (n : Nat) (number : Word) (between : List (Nat × Word)) (whole : State → State)
    (p : Option Nat × State) : Option Nat × State :=
  match p.1 with
  | none => p
  | some k =>
    let cost := sequenceCost n [slotTaken, slotActive] number between p.2
    if cost ≤ k then (some (k - cost), whole p.2)
    else (none, cutSequence k n [slotTaken, slotActive] number between p.2)

/-- One ticket of the stop, of a batch whose order has left the queue or not: if it has, it needs no access
(R26). -/
def ticketWithin (p : Option Nat × State) (lt : Bool × Ticket) : Option Nat × State :=
  let t := lt.2
  match p.1, ticketOrder lt.1 t p.2 with
  | none, _ => p
  | some k, none => (some k, seizeUnqueued t p.2)
  | some _, some o =>
    let o := { o with held := [] }
    withinCut o.slot o.number (writesAt (Win.ticket o.slot t.index) (ticketWords t)) (writeTicket o t) p

/-- One closing of the stop (R28). -/
def closeWithin (p : Option Nat × State) (o : Order) : Option Nat × State :=
  let o := { o with held := [] }
  withinCut o.slot o.number (closeWrites o .aborted p.2) (closeOrder o .aborted) p

/-- The tickets of the stop in the order they are handed over: the mixer-stage batch's, those its order
held back for it, the weigh-stage batch's (R25, R28, R69). -/
def stopTickets (s : State) : List (Bool × Ticket) :=
  let mix := s.co.mix.toList.map fun b => (b.orderLeft, assembleTicket b s.seconds)
  mix ++ (s.oe.queue.flatMap Order.held).map (fun t => (false, t))
    ++ s.co.weigh.toList.map fun b =>
      (b.orderLeft, assembleTicket { b with aborted := true, waiting := false } s.seconds)

/-- The tickets and closings a soft reset cuts short: a free number of their accesses is made. -/
def stopWritesCut (s : State) : State :=
  let k := Config.stopAccesses s.freeSeed
  let tickets := stopTickets s
  let s := { s with freeSeed := s.freeSeed + 1, co := { s.co with mix := none, weigh := none },
                    heat.permit := none }
  let p := tickets.foldl ticketWithin (some k, s)
  (p.2.oe.queue.foldl closeWithin p).2

/-- The next command is a soft reset: it is classed at the same moment as the present one. -/
def resetFollows (s : State) : Bool := s.pending.head? == some .softReset

/-- A plant stop in RUN enters STOPPED (R161); its tickets and closings are cut short by a soft reset
that follows at once (R187). -/
def enterStopped (s : State) : State :=
  let s := stopBlocks s
  if resetFollows s then stopWritesCut s else stopWrites s

/-- A plant stop classed by the decoder, by the part state it meets (R158, R161, R162). -/
def plantStop (s : State) : State :=
  match s.rc.part with
  | .run => enterStopped s
  | .standby | .stopped | .halted => submit (plantStopNotice s) s
  | .unconfigured | .checking => s

/-! ### HALTED (R168) -/

/-- Enter HALTED: the part state with its header copy, then HALT, in the order of R168's text: DEDUCED (log 71),
safe. -/
def enterHalted (cause : HaltCause) (s : State) : State :=
  let s := setPart .halted
    { s with rc.paused := false, rc.finishing := false, ch := s.ch.map quietChannel }
  let s := submit (stageNotice s (.halt cause s.rc.clearStep (weighSeq s))) s
  burnerDrop { s with
    bit.tankSelect := false, bit.circulate := false, bit.tankLast := none
    mixer := haltMixer s.mixer }

/-- DOOR FAULT (R128). -/
def doorFault (s : State) : State :=
  let s := { s with mixer.suspect := true, mixer.door := false }
  let s := submit (mixNotice s.mixer.batch (.doorFault s.mixer.doorT)) s
  enterHalted .doorFault s

/-- The door timer reaches the door close timeout in DOOR_CLOSING (R128). -/
def doorTimeout (s : State) : State :=
  if s.mixer.phase = .doorClosing ∧ mixerRuns s = true then
    doorFault (reachLimit s.mixer.doorT ((s.mixer.work.map MixVals.doorCloseTimeout).getD 0) s)
  else s

/-! ### The clear cycle (R164 to R167) -/

/-- A clear cycle begins in WAIT FAULTS with an empty clear record (R165). -/
def beginClear (s : State) : State :=
  { s with rc.clearStep := .waitFaults, rc.clearRec := { ClearRec.empty with began := s.seconds } }

/-- TAKE: the mixer is taken at once, and the step goes on to WAIT RECEIVER (R134, R166). -/
def clearTake (s : State) : State :=
  { s with rc.clearStep := .waitReceiver, mixer.clearHold := true, mixer.routeOut := some .reject }

/-- RECEIVER WAIT of the clear cycle, once (R166). -/
def clearReceiverWait (s : State) : State :=
  submit (bareNotice (.receiverWait .reject)) { s with rc.clearRec.rwPosted := true }

/-- DISCHARGE: the start nets are recorded and all four channels asked (R166). -/
def clearDischarge (s : State) : State :=
  let s := { s with rc.clearStep := .discharge, rc.clearRec.start := s.ch.map Channel.net,
                    rc.clearRec.ends := ⟨none, none, none, none⟩ }
  Scale.all.foldl (fun s sc => requestDischarge sc s) s

/-- MIX: the clear mix time is read again and CLEAR_MIX entered (R118, R134, R166). -/
def clearMix (s : State) : State :=
  let (ws, s) := readAll [Win.clearMixTime] s
  let work := s.mixer.work.map fun v =>
    { v with clearMixTime := takeRanged 2 20 (nthWord ws 0) v.clearMixTime }
  { s with rc.clearStep := .mix, mixer.work := work, mixer.phase := .clearMix, mixer.clock := 0 }

/-- The clear's door has closed: the mixer is no longer suspect, and the cycle is complete (R134,
R166). -/
def clearComplete (s : State) : State :=
  let r := s.rc.clearRec
  submit (bareNotice (.clearDone r.start r.ends r.began))
    { s with
      mixer.suspect := false, mixer.routeOut := none, mixer.clearHold := false,
      mixer.phase := .empty, mixer.clock := 0, rc.clearRequired := false, rc.clearStep := .none }

/-- The clear mix time has run (R134); the door waits while a channel is in DISCHARGING (R126). -/
def clearMixDue (s : State) : State :=
  if s.mixer.phase = .clearMix ∧ mixerRuns s = true then
    let s := reachLimit s.mixer.clock (10 * ((s.mixer.work.map MixVals.clearMixTime).getD 0)) s
    if anyDischarging s then s else enterDoorOpen s
  else s

/-- Some channel is in FAULT. -/
def anyFault (s : State) : Bool := s.ch.any fun c => c.state == .fault

/-- Every channel has reported the end of its discharge. -/
def allEnded (s : State) : Bool := s.rc.clearRec.ends.all Option.isSome

/-- The clear cycle holds the mixer, and its phase is EMPTY (R134). -/
def mixerHeld (s : State) : Bool := s.mixer.clearHold && s.mixer.phase == .empty

/-- One step of the clear cycle that falls due at once, if any (R164 to R167). It sends its discharge
requests only while the mixer is held and before CLEAR_MIX (R126), and its clear mix request is accepted
with no channel in DISCHARGING (R134). -/
def clearNext (s : State) : Option State :=
  match s.rc.clearStep with
  | .none =>
    if s.rc.clearRequired then some (beginClear { s with ch := s.ch.map holdFeed }) else none
  | .waitFaults => if !anyFault s && mixerEmpty s then some (clearTake s) else none
  | .take => some { s with rc.clearStep := .waitReceiver }
  | .waitReceiver =>
    if s.rc.paused then none
    else if s.inp.ready.reject then (if mixerHeld s then some (clearDischarge s) else none)
    else if s.rc.clearRec.rwPosted then none else some (clearReceiverWait s)
  | .discharge => if allEnded s && mixerHeld s && !anyDischarging s then some (clearMix s) else none
  | .mix =>
    if s.mixer.phase = .doorClosing ∧ s.inp.doorClosed = true then some (clearComplete s) else none

/-! ### FINISHING and entry into RUN (R163, R169) -/

/-- FINISHING has run out: both stages empty and no clear cycle past WAIT FAULTS (R169, R70). -/
def finishDue (s : State) : Bool :=
  s.rc.finishing && stagesEmpty s && (s.rc.clearStep == .none || s.rc.clearStep == .waitFaults)

/-- Entry into STANDBY at the end of FINISHING (R169). -/
def enterStandby (s : State) : State :=
  burnerDrop (setPart .standby
    { s with rc.finishing := false, rc.paused := false, rc.clearStep := .none,
             ch := s.ch.map holdFeed })

/-- Entry into RUN: the clear test, then a look point and the burner test (R163). WAIT FAULTS is tested behind
them, so the look point's notices are posted before a RECEIVER WAIT of the clear cycle begun here: DESIGN CHOICE
(log 68), safe, the manual allows either order (R171). -/
def enterRun (s : State) : State :=
  let s := setPart .run s
  let s := if s.rc.clearRequired || s.mixer.suspect then beginClear s else s
  burnerTest (lookPoint s)

/-! ### What follows at once -/

/-- The dry shortfall test is due on the batch in the weigh stage (R57). -/
def dryTestHere (s : State) : Bool :=
  match s.co.weigh with
  | some b => dryTestDue b
  | none => false

/-- The next thing that follows at once from the present state, if any (log 11): in RUN the dry
shortfall test, a phase change of the mixer, the end of FINISHING, or a step of the clear cycle. -/
def nextAtOnce (s : State) : Option State :=
  if s.rc.part = .run then
    if dryTestHere s then some (dryTest s)
    else
      match mixerStep s with
      | some t => some t
      | none => if finishDue s then some (enterStandby s) else clearNext s
  else none

/-- Take what follows at once, up to a bound no chain of them reaches. -/
def runAtOnce : Nat → State → State
  | 0, s => s
  | n + 1, s =>
    match nextAtOnce s with
    | some t => runAtOnce n t
    | none => s

/-- The longest chain of things that follow at once (log 11). -/
def atOnceBound : Nat := 24

/-- After a command has acted: what follows at once, the look points owed, and the heat controller's
view of the queue (log 11). -/
def settle (s : State) : State :=
  let s := runAtOnce atOnceBound s
  let s := drainLooks (s.oe.lookOwed + 4 + s.port.waiting.length) s
  followQueue (runAtOnce atOnceBound s)

end Sys2Proof.Machine
end

