-- ==== Sys2Proof/Machine/Dose.lean ====
section
/-! DEFINITION. What reaches a scale channel from its link, its timers and its inputs (chapters 4 and
5): frames, samples, late periods, settles, jog pulses, discharge timeouts, the purge, SCALE FAULT and
REARM. -/

namespace Sys2Proof.Machine

/-! ### SCALE FAULT (R98) -/

/-- What a channel that faults has to report of its part of a batch: the actuals to its last sample. -/
def faultResults (prefed : Int) (c : Channel) : List EntryResult :=
  match c.state with
  | .dosing _ => c.results ++ ⟨c.dose.entry.source, dosed c, .notDosed⟩ :: undosed c.todo
  | .prefed => [⟨c.dose.entry.source, prefed, .notDosed⟩]
  | .changeover => [⟨c.dose.entry.source, 0, .notDosed⟩]
  | .taring => undosed c.todo
  | .idle | .weighed | .discharging | .fault => c.results

/-- The channel's material belongs to the batch in the weigh stage. -/
def attachedToWeigh (s : State) (sc : Scale) : Bool :=
  match (s.chan sc).batch, s.co.weigh with
  | some a, some b => a.seq == b.seq
  | _, _ => false

/-- The channel's material belongs to the batch in the mixer stage. -/
def attachedToMix (s : State) (sc : Scale) : Bool :=
  match (s.chan sc).batch, s.co.mix with
  | some a, some b => a.seq == b.seq
  | _, _ => false

/-- A clear cycle past WAIT FAULTS runs (R167). -/
def clearPastFaults : ClearStep → Bool
  | .none | .waitFaults => false
  | .take | .waitReceiver | .discharge | .mix => true

/-- Set clear required (R164). -/
def requireClear (s : State) : State := { s with rc.clearRequired := true }

/-- What follows a SCALE FAULT outside HALTED and the late clear steps, by the state left (R98, R121).
The channel is already in FAULT and still attached. -/
def afterFault (sc : Scale) (left : ChanState) (results : List EntryResult) (s : State) : State :=
  match left with
  | .discharging => requireClear (reportDischarge sc .faulted s)
  | .idle => if holdsMaterial (s.chan sc) then requireClear s else s
  | .weighed =>
    if attachedToWeigh s sc then abortWeigh s
    else if attachedToMix s sc then
      requireClear { s with mixer.disch := s.mixer.disch.set sc (.ended .faulted) }
    else s
  | .taring | .dosing _ | .prefed | .changeover =>
    if attachedToWeigh s sc then
      let s := s.modChan sc fun c => { c with results := results }
      abortWeigh (enterVerdict sc (s.chan sc).net s)
    else requireClear s
  | .fault => s

/-- Give SCALE FAULT to a channel (R98). In a clear cycle past WAIT FAULTS it halts the part, and clear required
stays as it stood (R167, R168), clear in a cycle that the mixer-suspect flag alone began, though R164 lists the
report of a channel in DISCHARGING: DESIGN CHOICE (log 34), safe. -/
def scaleFault (sc : Scale) (cause : ScaleCause) (s : State) : State :=
  let c := s.chan sc
  if c.state = .fault then s
  else
    let results := faultResults s.bit.prefed c
    let s := submit (attachedNotice c.batch (.scaleFault sc cause c.state c.gross)) s
    let s := if c.state = .changeover then cutChangeover s else s
    let s := s.modChan sc fun c =>
      { c with state := .fault, feed := none, gate := false, gapHold := false, pauseHold := false,
               stopOrder := false }
    let s :=
      if s.rc.part = .halted then s
      else if clearPastFaults s.rc.clearStep then enterHalted .scaleFaultInClear s
      else afterFault sc c.state results s
    s.modChan sc fun c => { c with batch := none }

/-! ### Settles, verifies, stalls (R82 to R86) -/

/-- The dose under way on a channel is a pre-feed (R104). -/
def isPrefeed (s : State) (sc : Scale) : Bool := sc == .bit && !s.bit.continuing

/-- Go on after the end of a component: BIT's report, or the base at the accepted net and the next
component of the list (R83, R86). -/
def afterComponent (sc : Scale) (actual : Int) (outcome : DoseOutcome) (s : State) : State :=
  if sc = .bit then bitReport actual outcome s
  else startComponents sc false (s.chan sc).todo (s.modChan sc fun c => { c with base := c.net })

/-- A dose ended by stall has settled (R86, R105). -/
def stallDone (sc : Scale) (cutoff actual : Int) (s : State) : State :=
  let c := s.chan sc
  let s := offerTrace sc c.dose.entry.target cutoff actual .stall s
  let s := submit (attachedNotice c.batch
    (.feedStall sc c.dose.entry.source c.dose.entry.target actual)) s
  if isPrefeed s sc then bitEnterPrefed actual { s with bit.preStalled := true }
  else afterComponent sc actual .stall (addResult sc ⟨c.dose.entry.source, actual, .stall⟩ s)

/-- A verify asks for a jog pulse (R82, R90). -/
def askJog (barred : Bool) (c : Channel) : Channel :=
  let c := { c with dose.jogsUsed := c.dose.jogsUsed + 1 }
  if barred then enterPauseHeld .jogDue c else enterJogging c

/-- The first settle after a cutoff observes the in-flight mass (R84). -/
def observeInflight (actual : Int) (d : Dose) : Dose :=
  match d.cutoff, d.observed with
  | some m, none => { d with observed := some (actual - m) }
  | _, _ => d

/-- A settle ends: the net of the latest sample is accepted (R82, R83, R86, R104). -/
def settleDone (sc : Scale) (s : State) : State :=
  let actual := dosed (s.chan sc)
  match (s.chan sc).dose.stallAt with
  | some m => stallDone sc m actual s
  | none =>
    let s := s.modChan sc fun c => { c with dose := observeInflight actual c.dose }
    if isPrefeed s sc then bitEnterPrefed actual s
    else
      let d := (s.chan sc).dose
      match verifyOutcome d (actual - d.entry.target) with
      | none => s.modChan sc (askJog (feedsBarred s))
      | some o => afterComponent sc actual o (finalVerify sc actual o s)

/-- Judge the stall window at a sample in FAST or FINE (R86). -/
def stallWindow (c : Channel) : Channel :=
  let d := dosed c
  match c.winCount with
  | none => { c with winStart := d, winCount := some 0 }
  | some k =>
    if k + 1 < Config.stallSamples then { c with winCount := some (k + 1) }
    else
      let stall := if c.dose.minFlow ≠ 0 ∧ d - c.winStart < c.dose.minFlow then c.stall + 1 else 0
      let c := { c with stall := stall, winStart := d, winCount := some 0 }
      if stall < Config.stallLimit then c else enterSettling { c with dose.stallAt := some d }

/-! ### Samples (R73, R80) -/

/-- Append the dosed mass to the trace ring, which keeps the last 128 entries (R91). -/
def pushRing (c : Channel) : Channel :=
  { c with ring := (c.ring ++ [dosed c]).drop (c.ring.length + 1 - Config.ringCapacity) }

/-- A sample is still: its net differs from the one before by no more than the motion band (R82). -/
def isStill (c : Channel) (prev : Int) : Bool :=
  decide ((c.net - prev).natAbs ≤ (c.work.map ScaleParams.motionBand).getD 0)

/-- A sample in DOSING, the trace ring included (R80, R82, R86, R89, R91). -/
def sampleDosing (sc : Scale) (p : SubPhase) (prev : Int) (s : State) : State :=
  let s := s.modChan sc pushRing
  match p with
  | .held _ => s.modChan sc fun c =>
      let c := { c with gapHold := false }
      if feedsBarred s then c else releaseIfFree c
  | .fast => s.modChan sc fun c =>
      if atCutoff c then cutOff c else stallWindow (if atFine c then enterFine c else c)
  | .fine => s.modChan sc fun c => if atCutoff c then cutOff c else stallWindow c
  | .jogging => s
  | .settling =>
    let c := s.chan sc
    let n := if isStill c prev then c.dose.settleCount + 1 else 0
    let s := s.modChan sc fun c => { c with dose.settleCount := n }
    if n < Config.settleSamples then s else settleDone sc s

/-- The tare is formed (R77, R101, R111), and with it the net of the latest sample: DEDUCED (log 29), safe. -/
def endTare (sc : Scale) (s : State) : State :=
  let s := s.modChan sc fun c =>
    let t := roundDiv c.tareSum Config.tareSamples
    { c with tare := t, net := c.gross - t, base := 0 }
  let c := s.chan sc
  if (c.work.map ScaleParams.zeroLimit).getD 0 < c.tare.natAbs then scaleFault sc .zero s
  else if c.stopOrder then
    if c.batch.isNone then s.modChan sc settleMaterial
    else
      let s := if sc = .bit then { s with bit.target := .none } else s
      reachWeighed sc 0 (s.modChan sc fun c => { c with results := undosed c.todo })
  else
    match sc, c.todo with
    | .bit, e :: _ => if s.bit.target = .noDose then bitUndosed e s else bitAfterTare e s
    | _, es => startComponents sc true es s

/-- A sample in TARING (R77). -/
def sampleTaring (sc : Scale) (s : State) : State :=
  let s := s.modChan sc fun c =>
    { c with tareSum := c.tareSum + c.gross, tareCount := c.tareCount + 1 }
  if (s.chan sc).tareCount < Config.tareSamples then s else endTare sc s

/-- A sample reaches the work of the channel's state (R73). A channel in FAULT, and a part in HALTED, keep it as
the last sample too: DEDUCED (log 10), safe. -/
def takeSample (sc : Scale) (gross : Int) (s : State) : State :=
  let prev := (s.chan sc).net
  let s := s.modChan sc fun c => { c with gross := gross, net := gross - c.tare, frameGood := true }
  if s.rc.part = .halted then s
  else
    match (s.chan sc).state with
    | .taring => sampleTaring sc s
    | .dosing p => sampleDosing sc p prev s
    | .discharging => if holdsMaterial (s.chan sc) then s else endDischarge sc .empty s
    | .idle | .prefed | .changeover | .weighed | .fault => s

/-- The gross mass of a count (R73). -/
def grossOf (w : ScaleParams) (count : Int) : Int := roundDiv ((count - w.calZero) * 1000) w.span

/-- The fault cause of a frame, or none for a sample (R73, R76). -/
def frameFault (w : ScaleParams) (gross : Int) : FrameStatus → Option ScaleCause
  | .ok => if w.capacity < gross then some .capacity else none
  | .overload => some .overload
  | .converterFault | .other => some .converterFault

/-- A frame arrives on a weigh link (R73, R76). -/
def weighFrame (sc : Scale) (count : Int) (status : FrameStatus) (s : State) : State :=
  match (s.chan sc).work with
  | none => s
  | some w =>
    let s := s.modChan sc fun c => { c with late := 0, age := 0 }
    let gross := grossOf w count
    match frameFault w gross status with
    | none => takeSample sc gross s
    | some cause => scaleFault sc cause (s.modChan sc fun c => { c with frameGood := false })

/-! ### Late periods (R75, R89) -/

/-- A late period ends on a dose in FAST, FINE, JOGGING or HELD: the gap cause and its marks (R89). -/
def gapHoldDose (c : Channel) : Channel :=
  let marked := fun (c : Channel) =>
    { c with gapHold := true, dose.sampleGap := true, flags.sampleGap := true }
  match c.state with
  | .dosing .fast => marked (enterHeld .fast c)
  | .dosing .fine => marked (enterHeld .fine c)
  | .dosing .jogging => marked (enterHeld .jogCut c)
  | .dosing (.held _) => marked c
  | .dosing .settling => { c with dose.settleCount := 0 }
  | _ => c

/-- A late period of this state marks SAMPLE GAP (R89). -/
def marksGap : ChanState → Bool
  | .dosing .settling => false
  | .dosing _ => true
  | _ => false

/-- A late period ends (R75). -/
def latePeriod (sc : Scale) (s : State) : State :=
  if (s.chan sc).work.isNone then s
  else
    let s := s.modChan sc fun c => { c with late := min Config.lateLimit (c.late + 1), age := 0 }
    let c := s.chan sc
    if c.late = Config.lateLimit then scaleFault sc .lost s
    else if s.rc.part = .halted then s
    else
      let s := s.modChan sc gapHoldDose
      if marksGap c.state then flagAttached sc (fun f => { f with sampleGap := true }) s else s

/-! ### Timers and inputs of a channel -/

/-- The settle timeout passes in SETTLING (R82). -/
def settleTimeout (sc : Scale) (s : State) : State :=
  if s.rc.part = .run ∧ (s.chan sc).state = .dosing .settling then
    let s := s.modChan sc fun c =>
      { c with settleTimer := max c.settleTimer ((c.work.map ScaleParams.settleTimeout).getD 0),
               dose.unsettled := true, flags.unsettled := true }
    settleDone sc (flagAttached sc (fun f => { f with unsettled := true }) s)
  else s

/-- A jog pulse has run (R81, R82). -/
def jogPulseEnd (sc : Scale) (s : State) : State :=
  if s.rc.part = .run ∧ (s.chan sc).state = .dosing .jogging then
    s.modChan sc fun c => enterSettling { c with jogTimer := max c.jogTimer c.dose.jogPulse }
  else s

/-- The discharge timeout passes in DISCHARGING (R96). -/
def dischargeTimeout (sc : Scale) (s : State) : State :=
  if mixerRuns s = true ∧ (s.chan sc).state = .discharging then
    let c := s.chan sc
    let t := max c.dischTimer (10 * (c.work.map ScaleParams.dischargeTimeout).getD 0)
    let s := s.modChan sc fun c => { c with dischTimer := t }
    endDischarge sc .timedOut (submit (attachedNotice c.batch (.scaleResidue sc c.net)) s)
  else s

/-- The purge time has run in CHANGEOVER (R102). -/
def purgeExpired (s : State) : State :=
  if mixerRuns s = true ∧ (s.chan .bit).state = .changeover then
    let t := max s.bit.purge ((s.bit.work.map BinderVals.purge).getD 0)
    bitEndChangeover { s with bit.purge := t }
  else s

/-- The level of a source's low-level input is set; a source without one has none (R45). -/
def setBinLow (src : Source) (active : Bool) (s : State) : State :=
  let mask : BitVec 8 := 1#8 <<< src.code
  if src.hasLowInput then
    { s with inp.binLow := if active then s.inp.binLow ||| mask else s.inp.binLow &&& ~~~mask }
  else s

/-- A low-level input takes a level: one that goes active while watched posts BIN LOW (R87). In HALTED,
where a dose stands as it was, the notice alone: channel and batch keep their records (R69, R94): DESIGN
CHOICE (log 52), unsafe, the manual does not say what becomes of the flags there. -/
def binLowInput (src : Source) (active : Bool) (s : State) : State :=
  let rises := active && !binLowLevel s src
  let t := setBinLow src active s
  if rises && watches (s.chan src.scale) src then
    if s.rc.part = .halted then binLowNotice src.scale t else postBinLow src.scale t
  else t

/-- REARM on one channel (R99). Its last frame is held against the working capacity of the moment it arrived,
not one that a check took since: DESIGN CHOICE (log 59), unsafe, the manual does not say which. -/
def rearmChannel (c : Channel) : Channel :=
  if c.state = .fault ∧ c.late = 0 ∧ c.frameGood = true then { c with state := .idle } else c

end Sys2Proof.Machine
end

