-- ==== Sys2Proof/Machine/HostPort.lean ====
section
/-! DEFINITION. The host port (chapter 10): window accesses, the CONTROL commands and their acceptance,
the configuration check, and the two resets. -/

namespace Sys2Proof.Machine

/-! ### Window accesses (R180) -/

/-- A byte address as a whole-word access reaches it: line A0 is ignored. -/
def evenAddr (a : Word) : Nat := a.toNat / 2 * 2

/-- A host window access: served now if the arbiter is free, and otherwise in its turn. -/
def windowAccess (write : Bool) (addr data : Word) (behind : Nat) (s : State) : State :=
  let h : HostAccess := ⟨write, evenAddr addr, data, behind⟩
  if behind = 0 ∧ s.port.waiting = [] then serveAccess h s
  else { s with port.waiting := s.port.waiting ++ [h] }

/-! ### CONTROL commands (R182) -/

/-- The CONTROL bit of each command (section 10.2). -/
def bitLoad : Nat := 0
def bitRun : Nat := 1
def bitFinish : Nat := 2
def bitPause : Nat := 3
def bitResume : Nat := 4
def bitRestart : Nat := 5
def bitRearm : Nat := 6
def bitBurnerReset : Nat := 7
def bitSoftReset : Nat := 8

/-- STOP# reads high: the decoder is in HIGH (R158). -/
def stopHigh (s : State) : Bool := s.rc.decoder == .high

/-- Whether a command is accepted: the table of R182, command by command. -/
def accepts (bit : Nat) (s : State) : Bool :=
  let p := s.rc.part
  match bit with
  | 0 => p == .unconfigured || p == .standby
  | 1 => ((p == .standby || p == .stopped) && stopHigh s) || (p == .run && s.rc.finishing)
  | 2 | 3 | 4 => p == .run
  | 5 | 6 | 7 => p == .standby || p == .run || p == .stopped
  | 8 => true
  | _ => false

/-- An accepted command clears COMMAND REFUSED and acts; a refused one sets it and does nothing else
(R182). -/
def controlWrite (bit : Nat) (act : State → State) (s : State) : State :=
  if accepts bit s then act { s with port.refused := false } else { s with port.refused := true }

/-- LOAD: CHECKING, the check error record 0, the tank heaters off (R184). -/
def actLoad (s : State) : State :=
  heatersOff (setPart .checking { s with port.checkRecord := 0 })

/-- RUN: FINISHING cleared in RUN, with a look point; otherwise entry into RUN (R163, R169). -/
def actRun (s : State) : State :=
  settle (if s.rc.part = .run then lookPoint { s with rc.finishing := false } else enterRun s)

/-- FINISH (R169). -/
def actFinish (s : State) : State := settle { s with rc.finishing := true }

/-- PAUSE: nothing if PAUSED is set (R159). -/
def actPause (s : State) : State := if s.rc.paused then s else setPaused .control s

/-- RESUME: nothing if PAUSED is clear (R159). -/
def actResume (s : State) : State := if s.rc.paused then settle (clearPaused .control s) else s

/-- RESTART (R14). -/
def actRestart (s : State) : State := settle (restartWalker s)

/-- REARM: each channel in FAULT on its own (R99). -/
def actRearm (s : State) : State := settle { s with ch := s.ch.map rearmChannel }

/-! ### Resets (R186, R187) -/

/-- The decoder as it starts after a reset, by the level of the line (R157). -/
def decoderAfterReset (d : Decoder) : Decoder :=
  match d with
  | .high => .high
  | .timing | .held => .timing

/-- Every block takes its soft-reset values; what R187 keeps is kept. The phase of the free-running
clock goes on: DESIGN CHOICE (log 50), unsafe, the manual does not speak of it. -/
def softResetBlocks (s : State) : State :=
  { s with
    port.refused := false, port.checkRecord := 0
    rc := { RunCtl.reset with decoder := decoderAfterReset s.rc.decoder }
    oe := OrderEngine.reset
    co := { Coord.reset with counter := s.co.counter }
    ch := ⟨.reset, .reset, .reset, .reset⟩
    bit := BitState.reset
    mixer := Mixer.reset
    heat := Heat.reset
    nu := { s.nu with list := [], pend := 0, offers := [] } }

/-- SOFT RESET: the blocks, then the three header writes, in the order of R187's text: DEDUCED (log 71), safe. -/
def actSoftReset (s : State) : State :=
  putAll [(Win.chainPosition, 255), (Win.partState, 0), (Win.checkField, 0)] (softResetBlocks s)

/-- Every plant output de-energized (R186). -/
def outputsOff (s : State) : State :=
  { s with
    ch := s.ch.map quietChannel
    bit.tankSelect := false, bit.circulate := false
    mixer.door := false, mixer.routeOut := none
    heat := { burnerOut .off s.heat with
      bt1 := { s.heat.bt1 with heater := false }, bt2 := { s.heat.bt2 with heater := false } } }

/-- The header and log words the part writes at power-on reset (R170, R186). -/
def powerOnWrites : List (Nat × Word) :=
  [(Win.partId, 0x00B0), (Win.partId + 2, 0x0612), (Win.partState, 0), (Win.chainPosition, 255),
   (Win.lastFill, 0), (Win.overrun, 0), (Win.captureState, captureEmpty), (Win.checkField, 0),
   (Win.seconds, 0), (Win.seconds + 2, 0)]
  ++ (List.range Config.logEntries).flatMap fun n => [(Win.log n, (0 : Word)), (Win.log n + 4, 0)]

/-- Write words at addresses, with no host access between (R186: RDY is low). -/
def writeWords : List (Nat × Word) → State → State
  | [], s => s
  | (a, w) :: r, s => writeWords r (s.wr a w)

/-- The bytes of the window that the part never accesses (R190): header 0x18 to 0xFF, the unused bytes
of scale, source and configuration records, slot header bytes 0x18 to 0x3F and 0x50 to 0x7F, the two
unassigned areas and the host-use area. -/
def neverAccessed (a : Nat) : Bool :=
  let inRecord := fun (lo hi size first last : Nat) =>
    decide (lo ≤ a) && decide (a < hi) && decide (first ≤ (a - lo) % size)
      && decide ((a - lo) % size < last)
  inRecord 0x0000 0x0100 0x100 0x18 0x100 || inRecord 0x0100 0x0200 64 0x12 64
    || inRecord 0x0200 0x0500 64 0x16 64 || inRecord 0x0500 0x0600 0x100 0x42 0x100
    || inRecord 0x1C10 0x2000 0x3F0 0 0x3F0 || inRecord 0x2000 0x7000 640 0x18 0x40
    || inRecord 0x2000 0x7000 640 0x50 0x80 || decide (0x7000 ≤ a)

/-- The window after a power-on reset, before the part writes: the bytes of R190 as they were, the rest
undefined (R186, log 2). -/
def windowAfterReset (s : State) : Memory :=
  Memory.ofCells (s.mem.filter (fun c => neverAccessed c.1)
    ++ (Config.powerOnWindow s.freeSeed).filter (fun c => !neverAccessed c.1))

/-- Power-on reset: every block at its power-on values, the levels of the input pins as they are, the
window undefined but for what the part writes and never accesses (log 2). -/
def powerOnBlocks (s : State) : State :=
  writeWords powerOnWrites
    { State.reset with
      rc := { RunCtl.reset with decoder := decoderAfterReset s.rc.decoder }
      inp := s.inp
      mem := windowAfterReset s
      freeSeed := s.freeSeed + 1
      pending := s.pending }

/-! ### CONTROL writes by word (R182) -/

/-- The command a CONTROL word names. -/
def commandBit (w : Word) : Option Nat :=
  (List.range 9).find? fun k => decide (w.toNat = 2 ^ k)

/-- What each command does when accepted. -/
def actOf : Nat → State → State
  | 0 => actLoad
  | 1 => actRun
  | 2 => actFinish
  | 3 => actPause
  | 4 => actResume
  | 5 => actRestart
  | 6 => actRearm
  | 7 => burnerReset
  | _ => actSoftReset

/-- A CONTROL write that names no command: 0x0000 changes nothing, any other word is refused. A word
that does name one acts as that command. -/
def controlWordWrite (w : Word) (s : State) : State :=
  match commandBit w with
  | some k => controlWrite k (actOf k) s
  | none => if w = 0 then s else { s with port.refused := true }

/-! ### Commands and RESET# (R180, R186, log 25) -/

/-- An event of the plant or of the part's own timers: nothing while RESET# is low; otherwise it acts,
and what follows at once follows. -/
def event (act : State → State) (s : State) : State :=
  if s.port.resetLow then s else settle (act s)

/-- An event after which nothing follows at once (log 11). -/
def plainEvent (act : State → State) (s : State) : State :=
  if s.port.resetLow then s else act s

/-- A host command: held while RESET# is low (R180). -/
def hostCommand (i : Instr) (act : State → State) (s : State) : State :=
  if s.port.resetLow then { s with port.held := s.port.held ++ [i] } else act s

/-- A CONTROL command: held while RESET# is low, and otherwise judged by the table of R182. -/
def controlCommand (i : Instr) (bit : Nat) (s : State) : State :=
  hostCommand i (controlWrite bit (actOf bit)) s

/-- What a held host command does once the reset is complete. -/
def heldAction : Instr → State → State
  | .hostWindowAccess write addr data behind => windowAccess write addr data behind
  | .load => controlWrite bitLoad (actOf bitLoad)
  | .run => controlWrite bitRun (actOf bitRun)
  | .finish => controlWrite bitFinish (actOf bitFinish)
  | .pause => controlWrite bitPause (actOf bitPause)
  | .resume => controlWrite bitResume (actOf bitResume)
  | .restart => controlWrite bitRestart (actOf bitRestart)
  | .rearm => controlWrite bitRearm (actOf bitRearm)
  | .burnerReset => controlWrite bitBurnerReset (actOf bitBurnerReset)
  | .softReset => controlWrite bitSoftReset (actOf bitSoftReset)
  | .controlWriteNamingNoCommand w => controlWordWrite w
  | .vectorRead => vectorTake
  | .vectorWrite w => vectorBase w
  | .maskWrite w => maskTake w
  | _ => id

/-- RESET# falls (R186). -/
def resetAsserted (s : State) : State :=
  if s.port.resetLow then s else outputsOff { s with port.resetLow := true }

/-- The reset completes: the blocks, then the host accesses that waited, in order (R180, R186). -/
def powerOnReset (s : State) : State :=
  s.port.held.foldl (fun s i => heldAction i s) (serveAll s.port.waiting (powerOnBlocks s))

/-! ### The configuration check (R184, R185) -/

/-- One field of the check: record and word offset as STATUS and the header name it, its address and
number of words, the type and range of its first word, and the words before it (how many back) it must
exceed by at least a step. -/
structure CheckField where
  record : Nat
  offset : Nat
  addr : Nat
  words : Nat
  signed : Bool
  lo : Int
  hi : Int
  atLeast : List (Nat × Int)
  deriving DecidableEq, Repr

/-- The value of a word by its type. -/
def wordValue (signed : Bool) (w : Word) : Int := if signed then w.toInt else w.toNat

/-- Judge a field: its word, and the words read before it, latest first. -/
def fieldPasses (f : CheckField) (w : Word) (before : List Word) : Bool :=
  inRange f.lo f.hi (wordValue f.signed w) &&
    f.atLeast.all fun r => decide (wordValue f.signed (nthWord before (r.1 - 1)) + r.2 ≤ wordValue f.signed w)

/-- A field of one unsigned word of a record. -/
def unsignedField (record base off lo hi : Nat) : CheckField :=
  ⟨record, off / 2, base + off, 1, false, lo, hi, []⟩

/-- A field of one signed word of a record. -/
def signedField (record base off : Nat) (lo hi : Int) : CheckField :=
  ⟨record, off / 2, base + off, 1, true, lo, hi, []⟩

/-- A field of so many words that is read and not judged. -/
def freeField (words record base off : Nat) : CheckField :=
  { unsignedField record base off 0 65535 with words := words }

/-- The fields of a scale record (section 4.1). -/
def scaleFields (sc : Scale) : List CheckField :=
  let r := 2 + sc.code
  let a := Win.scale sc
  freeField 2 r a 0x00 :: scaleRanges.map fun x => unsignedField r a x.1 x.2.1 x.2.2

/-- The fields of a source record (R184 item 3). -/
def sourceFields (n : Nat) : List CheckField :=
  let r := 6 + n
  let a := 0x200 + 64 * n
  [unsignedField r a 0x00 0 1, unsignedField r a 0x02 0 5000, unsignedField r a 0x04 0 8,
   freeField 1 r a 0x06, unsignedField r a 0x08 1 20, unsignedField r a 0x0A 0 5,
   unsignedField r a 0x0C 0 1, freeField 1 r a 0x0E, freeField 2 r a 0x10, freeField 1 r a 0x14]

/-- The fields of the heat and mixer configuration (R184 item 4, section 11.5). -/
def configFields : List CheckField :=
  let u := unsignedField 18 Win.config
  let g := signedField 18 Win.config
  [g 0x00 200 2500, { g 0x02 1000 2500 with atLeast := [(1, 0)] }, u 0x04 0 900, u 0x06 1 30,
   u 0x08 1 40, u 0x0A 0 1000, u 0x0C 0 1000, u 0x0E 0 1000, u 0x10 0 100, u 0x12 50 300,
   { u 0x14 0 1000 with atLeast := [(1, 0)] }, u 0x16 10 120, u 0x18 30 300]
  ++ [g 0x1A 1000 3000, g 0x1C 1000 2200, g 0x1E 1000 2200,
   { g 0x20 (-32768) 2500 with atLeast := [(1, 1), (2, 1)] }, g 0x22 1000 2200, g 0x24 1000 2200,
   { g 0x26 (-32768) 2500 with atLeast := [(1, 1), (2, 1)] }]
  ++ [u 0x28 5 200, u 0x2A 0 300, u 0x2C 0 300, g 0x2E 1000 2000, u 0x30 10 900, u 0x32 50 95,
   u 0x34 0 600, u 0x36 0 100, u 0x38 20 150, u 0x3A 20 100, u 0x3C 0 6, u 0x3E 0 600, u 0x40 2 20]

/-- All fields in the order of the check (R184). -/
def checkFields : List CheckField :=
  ⟨1, 2, Win.layoutVersion, 1, false, Config.layoutVersion, Config.layoutVersion, []⟩
    :: (Scale.all.flatMap scaleFields ++ (List.range 12).flatMap sourceFields ++ configFields)

/-- Read and judge field after field, each one part access, whole; the first that fails ends the check
(R184). The words read are kept, latest first. -/
def runCheck : List CheckField → List Word → State → Option CheckField × List Word × State
  | [], ws, s => (none, ws, s)
  | f :: fs, ws, s =>
    let (w, s) := readField f.addr f.words s
    if fieldPasses f (nthWord w 0) ws then runCheck fs (w.reverse ++ ws) s else (some f, ws, s)

/-- Values in no use: every field of a check that passed is taken. -/
def blankScale : ScaleParams := ⟨0, 1, 1, 0, 1, 5, 1, 2⟩
def blankHeat : HeatVals :=
  ⟨200, 1000, 0, 1, 1, 0, 0, 0, 0, 50, 50, 10, 30, 1000, ⟨1000, 1000, 1001⟩, ⟨1000, 1000, 1001⟩,
   5, 0, 0, 1000⟩
def blankMixer : MixVals := ⟨0, 20, 20, none, 0, 2⟩

/-- A channel takes its working parameters; its frames are judged from the first check on (R73, R74,
log 8). -/
def takeScale (ws : List Word) (c : Channel) : Channel :=
  let age := if c.work.isNone then 0 else c.age
  { c with work := some (scaleParamsFrom ws blankScale), age := age }

/-- Each block takes its working copy from the words read (R185). The first check after a reset gives the
dryer target its standby value, which later refreshes of the setpoint leave until the idle timer reaches the
idle time (R147): DEDUCED (log 56), safe. -/
def takeConfig (ws : List Word) (s : State) : State :=
  let scaleWords := fun sc : Scale => ws.drop (1 + 9 * sc.code)
  let cfg := ws.drop (1 + 36 + 132)
  let vals := heatValsFrom cfg blankHeat
  let mix := mixValsFrom (cfg.drop 27) blankMixer
  let s := { s with
    ch := ⟨takeScale (scaleWords .agg) s.ch.agg, takeScale (scaleWords .rap) s.ch.rap,
           takeScale (scaleWords .fil) s.ch.fil, takeScale (scaleWords .bit) s.ch.bit⟩
    bit.work := some ⟨(nthWord cfg 25).toNat, (nthWord cfg 26).toNat⟩
    mixer.work := some { mix with clearMixTime := (nthWord cfg 32).toNat }
    heat := testClamp (clampFire vals { s.heat with vals := some vals }) }
  match s.heat.target with
  | none => { s with heat.target := some vals.standby, heat.idle := 0 }
  | some _ => s

/-- The configuration check runs to its end (R184, R185); a check error field is written before the part state
copy, in the order of R185's text: DEDUCED (log 71), safe. -/
def checkComplete (s : State) : State :=
  if s.rc.part = .checking then
    let (failed, ws, s) := runCheck checkFields [] s
    match failed with
    | none => setPart .standby (takeConfig ws.reverse s)
    | some f =>
      let s := put Win.checkField (BitVec.ofNat 16 f.offset) s
      setPart .unconfigured { s with port.checkRecord := f.record }
  else s

end Sys2Proof.Machine
end

