-- ==== Sys2Proof/Machine/Clock.lean ====
section
/-! DEFINITION. What the clock and the temperature link bring (R5, R22, R136, R137, R139, R186), and
what the part does when no command waits: the commands of its own that are due, or 1 ms (log 4). -/

namespace Sys2Proof.Machine

/-! ### Seconds, look points, temperature frames -/

/-- The heat controller at a step of the seconds counter: its fields are read again, a held permit is
evaluated if a value it uses changed, and the idle timer counts (R139, R147, R156). It counts at each step
of the seconds counter, so that its first second can be short: DESIGN CHOICE (log 47), unsafe. The fields are
refreshed first, and the count is judged against the idle time they then give: DESIGN CHOICE (log 64), safe,
the manual names no order of the two. -/
def heatSecond (s : State) : State :=
  match s.heat.vals with
  | none => s
  | some old =>
    let (ws, s) := readAll heatAddrs s
    let v := heatValsFrom ws old
    let s := adoptVals old v s
    let s := if permitValsDiffer old v then evalHeld s else s
    if idleCounts s then { s with heat.idle := min 900 (s.heat.idle + 1) } else s

/-- The seconds counter steps, both words in one access (R186). The header is written before the heat fields are
read again: DESIGN CHOICE (log 67), safe, R139 and R186 name no order of these accesses. -/
def secondsTick (s : State) : State :=
  let s := { s with seconds := s.seconds + 1, clk.secMs := 0 }
  heatSecond ((gap s).wr32 Win.seconds s.seconds)

/-- The periodic look point, while the queue holds fewer than three orders (R5). -/
def periodicLook (s : State) : State :=
  let s := { s with oe.lookMs := 0 }
  if s.oe.queue.length < Config.queueCapacity then lookPoint s else s

/-- The withdraw watch of every 250 ms, in RUN and STANDBY (R22). -/
def periodicWatch (s : State) : State :=
  let s := { s with oe.watchMs := 0 }
  if s.rc.part = .run ∨ s.rc.part = .standby then watchWithdraw s else s

/-- The overrides and the heaters as the channels stand after a frame or a missing period, once its SENSOR
FAULT notices are posted; TANK HIGH of BT1 is posted before that of BT2: DESIGN CHOICE (log 49), safe. -/
def afterTemps (valid3 valid4 : Bool) (s : State) : State :=
  let s := { s with heat := testClamp (testHold s.heat) }
  testTankFrame .bt2 valid4 (testTankFrame .bt1 valid3 s)

/-- A temperature frame arrives (R136, R138, R150 to R153, R156). Its channels are judged, and their
SENSOR FAULT notices posted, T1 first and T7 last: DESIGN CHOICE (log 49), safe. The tanks are tested, and
TANK HIGH is posted, before a held permit is evaluated, and so before the notices of a charge that its grant
starts: DESIGN CHOICE (log 66), safe, the manual allows either order (R171). -/
def temperatureFrame (f : TempFrame) (s : State) : State :=
  let s := { s with heat.missing := 0, heat.age := 0 }
  let s := TempChan.all.foldl (fun s t => judgeTemp t (tempGet f t) s) s
  evalHeld (afterTemps f.t3.valid f.t4.valid s)

/-- A missing period ends on the temperature link (R137). -/
def missingPeriod (s : State) : State :=
  afterTemps false false (countMissing { s with heat.age := 0 })

/-! ### The STOP# decoder (R158) -/

/-- STOP# falls. -/
def stopFall (s : State) : State :=
  match s.rc.decoder with
  | .high => { s with rc.decoder := .timing, rc.pulse := 0 }
  | .timing | .held => s

/-- The pulse reaches 400 ms while the line is low: a plant stop. -/
def pulseReached (s : State) : State :=
  match s.rc.decoder with
  | .timing => plantStop { s with rc.decoder := .held, rc.pulse := max s.rc.pulse Config.stopPulse }
  | .high | .held => s

/-- STOP# rises; a pulse below the stop length is classed by the timer (log 27). -/
def stopRise (lowFor : Nat) (s : State) : State :=
  match s.rc.decoder with
  | .high => s
  | .held => { s with rc.decoder := .high }
  | .timing =>
    let pulse := max s.rc.pulse lowFor
    if Config.stopPulse ≤ pulse then
      let s := plantStop { s with rc.decoder := .held, rc.pulse := pulse }
      { s with rc.decoder := .high }
    else
      let s := { s with rc.decoder := .high, rc.pulse := pulse }
      if Config.togglePulse ≤ pulse then pauseToggle s else s

/-! ### What is due (log 4, log 5, log 6) -/

/-- A command, if its event is due. -/
def dueIf (p : Bool) (i : Instr) : List Instr := if p then [i] else []

/-- Events due on one scale channel. -/
def channelDue (s : State) (sc : Scale) : List Instr :=
  let c := s.chan sc
  match c.work with
  | none => []
  | some w =>
    let run := s.rc.part == .run
    dueIf (decide (Config.latePeriod ≤ c.age)) (.latePeriod sc)
    ++ dueIf (run && c.state == .dosing .settling && decide (w.settleTimeout ≤ c.settleTimer))
        (.settleTimeout sc)
    ++ dueIf (run && c.state == .dosing .jogging && decide (c.dose.jogPulse ≤ c.jogTimer))
        (.jogPulseEnd sc)
    ++ dueIf (mixerRuns s && c.state == .discharging && decide (10 * w.dischargeTimeout ≤ c.dischTimer))
        (.dischargeTimeout sc)

/-- Events due on BIT's purge and on the mixer. -/
def mixerDue (s : State) : List Instr :=
  match s.mixer.work with
  | none => []
  | some w =>
    if mixerRuns s then
      let m := s.mixer
      let b := m.batch.getD ⟨0, 0, 0, .reject, 0, 0, 0⟩
      dueIf ((s.chan .bit).state == .changeover
          && decide ((s.bit.work.map BinderVals.purge).getD 0 ≤ s.bit.purge)) .purgeTimerExpiry
      ++ dueIf (m.phase == .charging && m.disch.fil == .notAsked && decide (w.fillerDelay ≤ m.fillT))
          .fillerDelayExpiry
      ++ dueIf (m.phase == .dry && decide (b.dryTime ≤ m.dryT)) .dryMixExpiry
      ++ dueIf (m.phase == .wet && hasEnded m.disch.bit && decide (b.wetTime ≤ m.wetT)) .wetMixExpiry
      ++ dueIf (m.phase == .dischargeWait && !m.omPosted && decide (10 * b.overLimit < m.overT)) .overmix
      ++ dueIf ((markHere s).isSome && decide (m.cmOffset ≤ m.clock)) .cycleMark
      ++ dueIf (m.phase == .doorOpen && decide (w.doorOpenTime ≤ m.doorT)) .doorOpenExpiry
      ++ dueIf (m.phase == .doorClosing && decide (w.doorCloseTimeout ≤ m.doorT)) .doorCloseTimeout
      ++ dueIf (m.phase == .clearMix && decide (10 * w.clearMixTime ≤ m.clock) && !anyDischarging s)
          .clearMixExpiry
    else []

/-- Events due on the heat controller. -/
def heatDue (s : State) : List Instr :=
  let h := s.heat
  dueIf (decide (Config.missingPeriod ≤ h.age)) .missingPeriod
  ++ match h.vals with
    | none => []
    | some v =>
      dueIf (h.burner == .requested && decide (10 * v.ignitionTimeout ≤ h.ignition)) .ignitionTimeout
      ++ dueIf (h.burner == .lowFire && decide (10 * v.lowFireHold ≤ h.lowFire)) .lowFireHoldExpiry
      ++ dueIf (h.burner == .modulating && decide (5 * h.period ≤ 2 * h.update)) .regulatorUpdate
      ++ dueIf (idleCounts s && decide (v.idleTime ≤ h.idle) && !h.atStandby) .idleTimerExpiry

/-- The thermal wait of the weigh-stage batch has reached its limit. -/
def waitOver (s : State) : Bool :=
  match s.co.weigh with
  | some b => b.waiting && !b.timeoutPosted && decide (10 * b.waitLimit ≤ b.wait) && mixerRuns s
  | none => false

/-- The part's own commands that are due, in the order they are taken where several are: DESIGN CHOICE (log 4),
safe, the manual names no order and a sender that keeps the queue filled gives its own. -/
def dueNow (s : State) : List Instr :=
  dueIf (!s.nu.offers.isEmpty) .captureWrite
  ++ dueIf (!s.nu.list.isEmpty) .noticeWrite
  ++ dueIf (s.rc.decoder == .timing && decide (Config.stopPulse ≤ s.rc.pulse)) .plantStop
  ++ dueIf (s.rc.part == .checking) .checkComplete
  ++ Scale.all.flatMap (channelDue s)
  ++ mixerDue s
  ++ heatDue s
  ++ dueIf (waitOver s) .thermalTimeout
  ++ dueIf (decide (1000 ≤ s.clk.secMs)) .secondsTick
  ++ dueIf (decide (Config.lookInterval ≤ s.oe.lookMs)) .lookPoint
  ++ dueIf (decide (Config.lookInterval ≤ s.oe.watchMs)) .withdrawWatch
  ++ dueIf (chargeDue s) .chargeDecision
  ++ dueIf (weighStartDue s) .weighStart

/-! ### One millisecond (log 4, log 6) -/

/-- A 0.1 s count one higher, saturating at the greatest value of a ticket field (R135). -/
def upCount (n : Nat) : Nat := min 65535 (n + 1)

/-- The 0.1 s timers of one channel. -/
def channelTenth (run paused : Bool) (c : Channel) : Channel :=
  match c.state with
  | .dosing .settling => if run then { c with settleTimer := upCount c.settleTimer } else c
  | .dosing .jogging => if run then { c with jogTimer := upCount c.jogTimer } else c
  | .discharging => if run && !paused then { c with dischTimer := upCount c.dischTimer } else c
  | _ => c

/-- The mixer's timers, in RUN with PAUSED clear (R117). -/
def mixerTenth (m : Mixer) : Mixer := advanceMixer upCount m

/-- The burner's timers; PAUSED does not freeze them (R141, R142, R149). -/
def burnerTenth (h : Heat) : Heat :=
  match h.burner with
  | .requested => { h with ignition := upCount h.ignition }
  | .lowFire => { h with lowFire := upCount h.lowFire }
  | .modulating => { h with update := upCount h.update }
  | .off | .fault => h

/-- The wait time of a batch in thermal wait (R61). -/
def waitTenth (b : Batch) : Batch := if b.waiting then { b with wait := upCount b.wait } else b

/-- 0.1 s passes. -/
def tenth (s : State) : State :=
  let s := { s with
    ch := s.ch.map (channelTenth (s.rc.part == .run) s.rc.paused)
    heat := burnerTenth s.heat }
  if mixerRuns s then
    { s with
      mixer := mixerTenth s.mixer
      co.weigh := s.co.weigh.map waitTenth
      bit.purge := if (s.chan .bit).state = .changeover then upCount s.bit.purge else s.bit.purge }
  else s

/-- A channel's link gets 1 ms older, once its frames are judged (R75, log 8). -/
def ageChannel (c : Channel) : Channel := if c.work.isSome then { c with age := c.age + 1 } else c

/-- 1 ms passes. -/
def tickMs (s : State) : State :=
  let s := { s with
    ch := s.ch.map ageChannel
    heat.age := s.heat.age + 1
    clk.secMs := s.clk.secMs + 1
    oe.lookMs := s.oe.lookMs + 1
    oe.watchMs := s.oe.watchMs + 1
    rc.pulse := if s.rc.decoder = Decoder.timing then s.rc.pulse + 1 else s.rc.pulse }
  if s.clk.tenthMs + 1 < 100 then { s with clk.tenthMs := s.clk.tenthMs + 1 }
  else tenth { s with clk.tenthMs := 0 }

/-- The part with no command waiting: nothing while RESET# is low; else host accesses still waiting
are served; else the commands of its own that are due are queued; else 1 ms passes (log 4). -/
def idle (s : State) : State :=
  if s.port.resetLow then s
  else if s.port.waiting ≠ [] then serveAll s.port.waiting s
  else
    match dueNow s with
    | [] => tickMs s
    | i :: r => { s with pending := i :: r }

end Sys2Proof.Machine
end

