-- ==== Sys2Proof/Machine/HostCommands.lean ====
section
/-! DEFINITION. The meanings of the host's commands, the resets, the seconds counter and the
configuration check (chapter 10). -/

namespace Sys2Proof.Machine

/-- What `exec` answers for a command that takes the part to a next state. -/
abbrev Answer := Host.Outcome State Fault Refusal

/-- HOST_WINDOW_ACCESS (R180). -/
def execHostWindowAccess (write : Bool) (addr data : Word) (behind : Nat) (s : State) : Answer :=
  .next (hostCommand (.hostWindowAccess write addr data behind) (windowAccess write addr data behind) s)

/-- LOAD (R182, R184). -/
def execLoad (s : State) : Answer := .next (controlCommand .load bitLoad s)

/-- CHECK_COMPLETE (R184, R185). -/
def execCheckComplete (s : State) : Answer := .next (event checkComplete s)

/-- RUN (R163, R169, R182). -/
def execRun (s : State) : Answer := .next (controlCommand .run bitRun s)

/-- FINISH (R169, R182). -/
def execFinish (s : State) : Answer := .next (controlCommand .finish bitFinish s)

/-- PAUSE (R159, R160, R182). -/
def execPause (s : State) : Answer := .next (controlCommand .pause bitPause s)

/-- RESUME (R159, R160, R182). -/
def execResume (s : State) : Answer := .next (controlCommand .resume bitResume s)

/-- RESTART (R14, R182). -/
def execRestart (s : State) : Answer := .next (controlCommand .restart bitRestart s)

/-- REARM (R99, R182). -/
def execRearm (s : State) : Answer := .next (controlCommand .rearm bitRearm s)

/-- BURNER_RESET (R144, R182). -/
def execBurnerReset (s : State) : Answer := .next (controlCommand .burnerReset bitBurnerReset s)

/-- SOFT_RESET (R182, R187). -/
def execSoftReset (s : State) : Answer := .next (controlCommand .softReset bitSoftReset s)

/-- VECTOR_READ (R177, R181). -/
def execVectorRead (s : State) : Answer := .next (hostCommand .vectorRead vectorTake s)

/-- VECTOR_WRITE (R177, R181). -/
def execVectorWrite (data : Word) (s : State) : Answer :=
  .next (hostCommand (.vectorWrite data) (vectorBase data) s)

/-- MASK_WRITE (R175, R181). -/
def execMaskWrite (data : Word) (s : State) : Answer :=
  .next (hostCommand (.maskWrite data) (maskTake data) s)

/-- REGISTER_WRITE: a write of STATUS is ignored (section 10.2, R181). -/
def execRegisterWrite (data : Word) (s : State) : Answer :=
  .next (hostCommand (.registerWrite data) id s)

/-- RESET_ASSERTED (R186). -/
def execResetAsserted (s : State) : Answer := .next (resetAsserted s)

/-- POWER_ON_RESET (R186). -/
def execPowerOnReset (s : State) : Answer := .next (powerOnReset s)

/-- SECONDS_TICK (R186, R139, R147). -/
def execSecondsTick (s : State) : Answer := .next (event secondsTick s)

/-- CONTROL_WRITE_NAMING_NO_COMMAND (R182). -/
def execControlWriteNamingNoCommand (data : Word) (s : State) : Answer :=
  .next (hostCommand (.controlWriteNamingNoCommand data) (controlWordWrite data) s)

end Sys2Proof.Machine
end

