-- ==== Sys2Proof/Machine/BatchCommands.lean ====
section
/-! DEFINITION. The meanings of the order engine's, the batch coordinator's and the notice unit's
events (chapters 1, 3 and 9). -/

namespace Sys2Proof.Machine

/-- LOOK_POINT (R5): the periodic look point. -/
def execLookPoint (s : State) : Answer := .next (event periodicLook s)

/-- WITHDRAW_WATCH (R22). -/
def execWithdrawWatch (s : State) : Answer := .next (event periodicWatch s)

/-- WEIGH_START (R52 to R54). -/
def execWeighStart (s : State) : Answer := .next (event (tryWeighStart (Config.queueCapacity + 1)) s)

/-- CHARGE_DECISION (R59, R60). -/
def execChargeDecision (s : State) : Answer := .next (event chargeDecision s)

/-- THERMAL_TIMEOUT (R61). -/
def execThermalTimeout (s : State) : Answer := .next (plainEvent thermalTimeout s)

/-- NOTICE_WRITE (R172, R175). -/
def execNoticeWrite (s : State) : Answer := .next (plainEvent writeOldest s)

/-- CAPTURE_WRITE (R178). -/
def execCaptureWrite (s : State) : Answer := .next (plainEvent judgeOldest s)

end Sys2Proof.Machine
end

