-- ==== Sys2Proof/Machine/ScaleCommands.lean ====
section
/-! DEFINITION. The meanings of the scale channels' events (chapters 4 and 5). -/

namespace Sys2Proof.Machine

/-- WEIGH_FRAME (R73, R76). -/
def execWeighFrame (sc : Scale) (count : Int) (status : FrameStatus) (s : State) : Answer :=
  .next (event (weighFrame sc count status) s)

/-- LATE_PERIOD (R75, R89). -/
def execLatePeriod (sc : Scale) (s : State) : Answer := .next (event (latePeriod sc) s)

/-- SETTLE_TIMEOUT (R82). -/
def execSettleTimeout (sc : Scale) (s : State) : Answer := .next (event (settleTimeout sc) s)

/-- JOG_PULSE_END (R81, R82). -/
def execJogPulseEnd (sc : Scale) (s : State) : Answer := .next (plainEvent (jogPulseEnd sc) s)

/-- DISCHARGE_TIMEOUT (R96). -/
def execDischargeTimeout (sc : Scale) (s : State) : Answer := .next (event (dischargeTimeout sc) s)

/-- BIN_LOW_INPUT (R87): the level of the input is kept while RESET# is low too (log 25). -/
def execBinLowInput (src : Source) (active : Bool) (s : State) : Answer :=
  .next (if s.port.resetLow then setBinLow src active s else binLowInput src active s)

/-- PURGE_TIMER_EXPIRY (R102). -/
def execPurgeTimerExpiry (s : State) : Answer := .next (event purgeExpired s)

end Sys2Proof.Machine
end

