-- ==== Sys2Proof/Machine/MixerCommands.lean ====
section
/-! DEFINITION. The meanings of the mixer's events and of the STOP# line (chapters 6 and 8). -/

namespace Sys2Proof.Machine

/-- FILLER_DELAY_EXPIRY (R120). -/
def execFillerDelayExpiry (s : State) : Answer := .next (event fillerDue s)

/-- The dry-mix timer reaches the dry mix time; DRY ends as the phase rules give (R122, R129). -/
def dryMixDue (s : State) : State :=
  if s.mixer.phase = .dry ∧ mixerRuns s = true then
    reachLimit s.mixer.dryT ((s.mixer.batch.map MixBatch.dryTime).getD 0) s
  else s

/-- DRY_MIX_EXPIRY (R122). -/
def execDryMixExpiry (s : State) : Answer := .next (event dryMixDue s)

/-- The wet-mix timer reaches the wet mix time; WET ends when BIT has ended its spray too (R123). -/
def wetMixDue (s : State) : State :=
  if s.mixer.phase = .wet ∧ mixerRuns s = true then
    reachLimit s.mixer.wetT ((s.mixer.batch.map MixBatch.wetTime).getD 0) s
  else s

/-- WET_MIX_EXPIRY (R123). -/
def execWetMixExpiry (s : State) : Answer := .next (event wetMixDue s)

/-- A receiver-ready input takes a level. -/
def readyInput (r : Route) (active : Bool) (s : State) : State :=
  { s with inp.ready := s.inp.ready.set r active }

/-- RECEIVER_READY_CHANGE (R124, R166): the level is kept while RESET# is low too (log 25). -/
def execReceiverReadyChange (r : Route) (active : Bool) (s : State) : Answer :=
  .next (event id (readyInput r active s))

/-- OVERMIX (R125). -/
def execOvermix (s : State) : Answer := .next (plainEvent overmixDue s)

/-- CYCLE_MARK (R130). -/
def execCycleMark (s : State) : Answer := .next (plainEvent markDue s)

/-- The door timer reaches the door-open time (R126). -/
def doorOpenDue (s : State) : State :=
  if s.mixer.phase = .doorOpen ∧ mixerRuns s = true then
    leaveDoorOpen (reachLimit s.mixer.doorT ((s.mixer.work.map MixVals.doorOpenTime).getD 0) s)
  else s

/-- DOOR_OPEN_EXPIRY (R126). -/
def execDoorOpenExpiry (s : State) : Answer := .next (event doorOpenDue s)

/-- The door-closed input takes a level. -/
def doorInput (active : Bool) (s : State) : State := { s with inp.doorClosed := active }

/-- DOOR_CLOSED (R127): the level is kept while RESET# is low too (log 25). -/
def execDoorClosed (active : Bool) (s : State) : Answer := .next (event id (doorInput active s))

/-- DOOR_CLOSE_TIMEOUT (R128). -/
def execDoorCloseTimeout (s : State) : Answer := .next (event doorTimeout s)

/-- CLEAR_MIX_EXPIRY (R134). -/
def execClearMixExpiry (s : State) : Answer := .next (event clearMixDue s)

/-- STOP_LINE_FALL (R158): the decoder keeps the level while RESET# is low too (log 25). -/
def execStopLineFall (s : State) : Answer := .next (stopFall s)

/-- STOP# rises while RESET# is low: the level alone is kept. -/
def stopLevelHigh (s : State) : State := { s with rc.decoder := .high }

/-- STOP_LINE_RISE (R158, R159). -/
def execStopLineRise (lowFor : Nat) (s : State) : Answer :=
  .next (if s.port.resetLow then stopLevelHigh s else settle (stopRise lowFor s))

/-- PLANT_STOP (R158, R161, R162). -/
def execPlantStop (s : State) : Answer := .next (event pulseReached s)

end Sys2Proof.Machine
end

