-- ==== Sys2Proof/Machine/HeatCommands.lean ====
section
/-! DEFINITION. The meanings of the heat controller's events (chapter 7). -/

namespace Sys2Proof.Machine

/-- IDLE_TIMER_EXPIRY (R147). -/
def execIdleTimerExpiry (s : State) : Answer := .next (plainEvent idleExpired s)

/-- TEMPERATURE_FRAME (R136). -/
def execTemperatureFrame (f : TempFrame) (s : State) : Answer := .next (event (temperatureFrame f) s)

/-- MISSING_PERIOD (R137). -/
def execMissingPeriod (s : State) : Answer := .next (plainEvent missingPeriod s)

/-- BURNER_PERMIT_CHANGE (R140 to R143): the level is kept while RESET# is low too (log 25). -/
def execBurnerPermitChange (active : Bool) (s : State) : Answer :=
  .next (if s.port.resetLow then { s with inp.permit := active } else permitInput active s)

/-- FLAME_PROVEN_CHANGE (R141 to R143): the level is kept while RESET# is low too (log 25). -/
def execFlameProvenChange (active : Bool) (s : State) : Answer :=
  .next (if s.port.resetLow then { s with inp.flame := active } else flameInput active s)

/-- The ignition timer reaches the ignition timeout. -/
def ignitionDue (s : State) : State :=
  let t := max s.heat.ignition (10 * (s.heat.vals.map HeatVals.ignitionTimeout).getD 0)
  if s.heat.burner = .requested then ignitionExpired { s with heat.ignition := t } else s

/-- IGNITION_TIMEOUT (R141, R143). -/
def execIgnitionTimeout (s : State) : Answer := .next (plainEvent ignitionDue s)

/-- The low-fire timer reaches the low-fire hold. -/
def lowFireDue (s : State) : State :=
  let t := max s.heat.lowFire (10 * (s.heat.vals.map HeatVals.lowFireHold).getD 0)
  if s.heat.burner = .lowFire then lowFireExpired { s with heat.lowFire := t } else s

/-- LOW_FIRE_HOLD_EXPIRY (R142, R148). -/
def execLowFireHoldExpiry (s : State) : Answer := .next (plainEvent lowFireDue s)

/-- The update timer reaches the update period. -/
def updateDue (s : State) : State := { s with heat := regulatorUpdate s.heat }

/-- REGULATOR_UPDATE (R149). -/
def execRegulatorUpdate (s : State) : Answer := .next (plainEvent updateDue s)

end Sys2Proof.Machine
end

