-- ==== Sys2Proof/Machine/Dispatch.lean ====
section
/-! DEFINITION. The meaning of every command: one arm per constructor of `Instr`. -/

namespace Sys2Proof.Machine

def exec (i : Instr) (s : State) : Host.Outcome State Fault Refusal :=
  match i with
  | .hostWindowAccess write addr data behind => Sys2Proof.Machine.execHostWindowAccess write addr data behind s
  | .load => Sys2Proof.Machine.execLoad s
  | .checkComplete => Sys2Proof.Machine.execCheckComplete s
  | .run => Sys2Proof.Machine.execRun s
  | .finish => Sys2Proof.Machine.execFinish s
  | .pause => Sys2Proof.Machine.execPause s
  | .resume => Sys2Proof.Machine.execResume s
  | .restart => Sys2Proof.Machine.execRestart s
  | .rearm => Sys2Proof.Machine.execRearm s
  | .burnerReset => Sys2Proof.Machine.execBurnerReset s
  | .softReset => Sys2Proof.Machine.execSoftReset s
  | .vectorRead => Sys2Proof.Machine.execVectorRead s
  | .vectorWrite data => Sys2Proof.Machine.execVectorWrite data s
  | .maskWrite data => Sys2Proof.Machine.execMaskWrite data s
  | .registerWrite data => Sys2Proof.Machine.execRegisterWrite data s
  | .resetAsserted => Sys2Proof.Machine.execResetAsserted s
  | .powerOnReset => Sys2Proof.Machine.execPowerOnReset s
  | .secondsTick => Sys2Proof.Machine.execSecondsTick s
  | .idleTimerExpiry => Sys2Proof.Machine.execIdleTimerExpiry s
  | .lookPoint => Sys2Proof.Machine.execLookPoint s
  | .withdrawWatch => Sys2Proof.Machine.execWithdrawWatch s
  | .weighStart => Sys2Proof.Machine.execWeighStart s
  | .chargeDecision => Sys2Proof.Machine.execChargeDecision s
  | .thermalTimeout => Sys2Proof.Machine.execThermalTimeout s
  | .weighFrame sc count status => Sys2Proof.Machine.execWeighFrame sc count status s
  | .latePeriod sc => Sys2Proof.Machine.execLatePeriod sc s
  | .settleTimeout sc => Sys2Proof.Machine.execSettleTimeout sc s
  | .jogPulseEnd sc => Sys2Proof.Machine.execJogPulseEnd sc s
  | .dischargeTimeout sc => Sys2Proof.Machine.execDischargeTimeout sc s
  | .binLowInput src active => Sys2Proof.Machine.execBinLowInput src active s
  | .purgeTimerExpiry => Sys2Proof.Machine.execPurgeTimerExpiry s
  | .fillerDelayExpiry => Sys2Proof.Machine.execFillerDelayExpiry s
  | .dryMixExpiry => Sys2Proof.Machine.execDryMixExpiry s
  | .wetMixExpiry => Sys2Proof.Machine.execWetMixExpiry s
  | .receiverReadyChange r active => Sys2Proof.Machine.execReceiverReadyChange r active s
  | .overmix => Sys2Proof.Machine.execOvermix s
  | .cycleMark => Sys2Proof.Machine.execCycleMark s
  | .doorOpenExpiry => Sys2Proof.Machine.execDoorOpenExpiry s
  | .doorClosed active => Sys2Proof.Machine.execDoorClosed active s
  | .doorCloseTimeout => Sys2Proof.Machine.execDoorCloseTimeout s
  | .clearMixExpiry => Sys2Proof.Machine.execClearMixExpiry s
  | .stopLineFall => Sys2Proof.Machine.execStopLineFall s
  | .stopLineRise lowFor => Sys2Proof.Machine.execStopLineRise lowFor s
  | .plantStop => Sys2Proof.Machine.execPlantStop s
  | .temperatureFrame f => Sys2Proof.Machine.execTemperatureFrame f s
  | .missingPeriod => Sys2Proof.Machine.execMissingPeriod s
  | .burnerPermitChange active => Sys2Proof.Machine.execBurnerPermitChange active s
  | .flameProvenChange active => Sys2Proof.Machine.execFlameProvenChange active s
  | .ignitionTimeout => Sys2Proof.Machine.execIgnitionTimeout s
  | .lowFireHoldExpiry => Sys2Proof.Machine.execLowFireHoldExpiry s
  | .regulatorUpdate => Sys2Proof.Machine.execRegulatorUpdate s
  | .noticeWrite => Sys2Proof.Machine.execNoticeWrite s
  | .captureWrite => Sys2Proof.Machine.execCaptureWrite s
  | .controlWriteNamingNoCommand data => Sys2Proof.Machine.execControlWriteNamingNoCommand data s

end Sys2Proof.Machine
end

