-- ==== Sys2Proof/Safety.lean ====
section
/-! DEFINITION. What counts as a safe state: the laws the manual states over the outputs and counters,
which every step keeps. -/

namespace Sys2Proof.Machine

/-- The sub-phases in which a channel may energize a feed output (R78). -/
def mayFeed : ChanState → Bool
  | .dosing .fast | .dosing .fine | .dosing .jogging => true
  | _ => false

/-- A channel's outputs follow its state: a feed output only in FAST, FINE and JOGGING, the gate only
in DISCHARGING, so never both (R78). -/
def chanSafe (c : Channel) : Bool :=
  (c.feed.isNone || mayFeed c.state) && (!c.gate || c.state == .discharging)

/-- Every channel's outputs follow its state. -/
def channelsSafe (s : State) : Bool := s.ch.all chanSafe

/-- A channel that feeds nothing and, but for a dose that HALTED keeps as it stood, is in no sub-phase
that feeds. -/
def chanQuiet (halted : Bool) (c : Channel) : Bool := c.feed.isNone && (halted || !mayFeed c.state)

/-- Outside RUN, while PAUSED is set and while a clear cycle runs, every feed output is de-energized and
no dose is in a sub-phase that feeds; HALTED keeps the sub-phase a dose had (R78, R90, R94). -/
def feedSafe (s : State) : Bool :=
  !feedsBarred s || s.ch.all (chanQuiet (s.rc.part == .halted))

/-- The firing output is 0 outside LOW_FIRE and MODULATING and within the firing limits inside them
(R145); without working values it is 0 (R139). -/
def fireSafe (h : Heat) : Bool :=
  match h.vals with
  | none => h.firing == 0
  | some v =>
    decide (v.minFire ≤ v.maxFire) &&
      (match h.burner with
       | .lowFire | .modulating => inRange v.minFire v.maxFire h.firing
       | .off | .requested | .fault => h.firing == 0)

/-- The late counter of every channel is 0 to 3 (section 4). -/
def lateSafe (s : State) : Bool := s.ch.all fun c => decide (c.late ≤ Config.lateLimit)

/-- The notice unit's numbers keep their ranges: write position 0 to 63, fill sequence 1 to 65535, at
most 16 submissions (section 9). -/
def noticeSafe (u : NoticeUnit) : Bool :=
  decide (u.pos < Config.logEntries) && decide (1 ≤ u.fill) && decide (u.fill ≤ 65535)
    && decide (u.list.length ≤ Config.listCapacity)

/-- The admission queue holds at most three orders (R19). -/
def queueSafe (s : State) : Bool := decide (s.oe.queue.length ≤ Config.queueCapacity)

/-- The window RAM keeps its canonical form. -/
def memorySafe (s : State) : Bool := Memory.wf s.mem

/-- The batch a stage holds, if any, has a number below the bound. -/
def numberBelow (bound : Nat) (b : Option Batch) : Bool :=
  match b with
  | some b => decide (b.seq < bound)
  | none => true

/-- The stages' numbers: every batch in a stage has a number already given, the mixer-stage batch has
the lower one (R49), and the counter holds 1 to one past the last number (R51). -/
def stagesSafe (c : Coord) : Bool :=
  decide (1 ≤ c.counter) && decide (c.counter ≤ Config.lastSequence + 1)
    && numberBelow c.counter c.weigh && numberBelow c.counter c.mix
    && (match c.weigh with
        | some b => numberBelow b.seq c.mix
        | none => true)

/-- The door is commanded open only in DOOR_OPEN, and then no channel is in DISCHARGING, so no gate is
commanded open with it (R126, R78). -/
def doorSafe (s : State) : Bool :=
  !s.mixer.door || (s.mixer.phase == .doorOpen && s.ch.all fun c => c.state != .discharging)

/-- PAUSED and FINISHING are set in RUN only, and a clear step other than NONE stands in RUN and HALTED
only (R160, R161, R168, R169). -/
def runSafe (r : RunCtl) : Bool :=
  (!r.paused || r.part == .run) && (!r.finishing || r.part == .run)
    && (r.clearStep == .none || r.part == .run || r.part == .halted)

/-- The burner asks for or holds flame in RUN only, and its request output is on exactly then (R140 to
R144). -/
def burnerSafe (s : State) : Bool :=
  (!burnerLit s.heat.burner || s.rc.part == .run) && s.heat.request == burnerLit s.heat.burner

/-- A heater is on only in STANDBY, RUN, STOPPED and HALTED (R154), and never with its latch set
(R153). -/
def heaterSafe (s : State) : Bool :=
  (heatersRun s.rc.part || (!s.heat.bt1.heater && !s.heat.bt2.heater))
    && (!s.heat.bt1.latch || !s.heat.bt1.heater) && (!s.heat.bt2.latch || !s.heat.bt2.heater)

/-- Nothing more follows at once: no step of what follows at once, no look point owed, and the heat
controller already agrees with the queue (log 11). -/
def calm (s : State) : Bool :=
  (nextAtOnce s).isNone && s.oe.lookOwed == 0 && decide (followQueue s = s)

/-- The part accesses of a command are adjacent: RESET# is high and no host access waits. -/
def arbiterFree (s : State) : Bool := !s.port.resetLow && s.port.waiting.isEmpty

/-- Plain production: RUN without PAUSED or FINISHING, no clear cycle running or required, no look
point owed, no dry shortfall test due, and the arbiter free. -/
def plainRun (s : State) : Bool :=
  s.rc.part == .run && !s.rc.paused && !s.rc.finishing && !s.rc.clearRequired
    && s.rc.clearStep == .none && s.oe.lookOwed == 0 && !dryTestHere s && arbiterFree s

/-- The commands the host sends. -/
def hostSends : Instr → Bool
  | .hostWindowAccess .. | .load | .run | .finish | .pause | .resume | .restart | .rearm
  | .burnerReset | .softReset | .vectorRead | .vectorWrite _ | .maskWrite _ | .registerWrite _
  | .controlWriteNamingNoCommand _ => true
  | _ => false

/-- The part states and conditions in which R182 accepts a command that CONTROL names; none for a
command that is not one. -/
def acceptedWhen (s : State) : Instr → Option Bool
  | .load => some (s.rc.part == .unconfigured || s.rc.part == .standby)
  | .run => some ((s.rc.part == .standby && s.rc.decoder == .high)
      || (s.rc.part == .stopped && s.rc.decoder == .high)
      || (s.rc.part == .run && s.rc.finishing))
  | .finish | .pause | .resume => some (s.rc.part == .run)
  | .restart | .rearm | .burnerReset =>
    some (s.rc.part == .standby || s.rc.part == .run || s.rc.part == .stopped)
  | .softReset => some true
  | _ => none

/-- The first field of the configuration check that fails on the words the window holds, each judged with
the words before it, latest first; none if every field passes (R184). -/
def firstFailing (rd : Nat → Word) : List CheckField → List Word → Option CheckField
  | [], _ => none
  | f :: fs, ws =>
    if fieldPasses f (rd f.addr) ws then
      firstFailing rd fs (((List.range f.words).map fun i => rd (f.addr + 2 * i)).reverse ++ ws)
    else some f

/-- How a dose that is verified ends: IN_TOL within the tolerance, SHORT below it, above it OVER_REJECT past
the reject limit and OVER_TOL otherwise (R82). -/
def endOutcome (e : DoseEntry) (error : Int) : DoseOutcome :=
  if -(e.tol : Int) ≤ error ∧ error ≤ e.tol then .inTol
  else if error < 0 then .short
  else if (e.reject : Int) < error then .overReject
  else .overTol

/-- The trace a dose that ends offers (R92). -/
def offerOf (sc : Scale) (c : Channel) (cutoff actual : Int) (outcome : DoseOutcome) (ring : List Int) :
    Offer :=
  { scale := sc, source := c.dose.entry.source, batch := (c.batch.map Attach.seq).getD 0,
    order := (c.batch.map Attach.order).getD 0, target := c.dose.entry.target, cutoff := cutoff,
    actual := actual, outcome := outcome, samples := ring }

/-- The channel is WEIGHED with its outputs off, its result entered behind the earlier ones, and its verdict
with its net in the weigh-stage batch (R56, R79, R113). -/
def reportsWeighed (sc : Scale) (c : Channel) (actual : Int) (outcome : DoseOutcome) (s u : State) : Prop :=
  (u.chan sc).state = .weighed ∧ (u.chan sc).feed = none ∧ (u.chan sc).gate = false ∧
    (u.chan sc).results =
      (if sc = .bit then [] else c.results) ++ [⟨c.dose.entry.source, actual, outcome⟩] ∧
    ∀ b, s.co.weigh = some b → ∃ b', u.co.weigh = some b' ∧ b'.seq = b.seq ∧
      b'.reported.get sc = true ∧ b'.nets.get sc = if sc = .bit then actual else actual + c.base

/-- The outcome of the component under way, verified at an actual (R82). -/
def verdictAt (c : Channel) (actual : Int) : DoseOutcome :=
  endOutcome c.dose.entry (actual - c.dose.entry.target)

/-- A final verify writes the source record: the allowance, the accumulated error, saturating or 0 with learn
gain 0, and the update count one higher; no other byte (R47). -/
def recordsVerify (c : Channel) (actual allow : Int) (s u : State) : Prop :=
  let a := Win.source c.dose.entry.source
  u.rd (a + 0x0E) = BitVec.ofInt 16 allow ∧
    (u.rd32 (a + 0x10)).toInt = (if c.dose.gain = 0 then 0
      else max (-2147483648) (min 2147483647
        ((s.rd32 (a + 0x10)).toInt + (actual - c.dose.entry.target)))) ∧
    u.rd (a + 0x14) = s.rd (a + 0x14) + 1 ∧
    ∀ b, b < a + 0x0E ∨ a + 0x16 ≤ b → u.byteAt b = s.byteAt b

/-- The traces a final verify offers: one of SHORT and of OVER_REJECT, none otherwise (R83). -/
def verifyOffers (sc : Scale) (c : Channel) (actual : Int) (ring : List Int) : List Offer :=
  if verdictAt c actual = .short ∨ verdictAt c actual = .overReject then
    [offerOf sc c (c.dose.cutoff.getD 0) actual (verdictAt c actual) ring]
  else []

/-- The last component of a channel ends by its verify: the verdict, the source record, the trace (R83). -/
def endsVerified (sc : Scale) (c : Channel) (actual allow : Int) (ring : List Int) (s u : State) : Prop :=
  reportsWeighed sc c actual (verdictAt c actual) s u ∧ recordsVerify c actual allow s u ∧
    u.nu = { s.nu with offers := s.nu.offers ++ verifyOffers sc c actual ring }

/-- The last component of a channel ends by stall: the verdict STALL, its trace with the mass at the third
window offered, FEED STALL posted, and nothing written to its source record (R86, R92). -/
def endsStalled (sc : Scale) (c : Channel) (actual mass : Int) (ring : List Int) (s u : State) : Prop :=
  reportsWeighed sc c actual .stall s u ∧ u.mem = s.mem ∧
    u.nu = { s.nu with
      offers := s.nu.offers ++ [offerOf sc c mass actual .stall ring]
      list := s.nu.list ++ [attachedNotice c.batch
        (.feedStall sc c.dose.entry.source c.dose.entry.target actual)] }

/-- A dose to a level begins with its first mass at 0: a single pulse once the level less the allowance is
reached, FINE once the level less the fine band is, FAST otherwise, its own output alone on (R79, R104). -/
def beginsDose (c : Channel) (src : Source) (level fine allow : Int) : Prop :=
  (level ≤ allow → c.state = .dosing .jogging ∧ c.feed = some (src, .fine)) ∧
    (allow < level → level ≤ fine → c.state = .dosing .fine ∧ c.feed = some (src, .fine)) ∧
    (allow < level → fine < level → c.state = .dosing .fast ∧ c.feed = some (src, .fast))

/-- The dose list of a dry scale goes on behind the components with the given results, its base at the net
accepted: the next component of an enabled source feeds, or is held while the feeds are barred; one with target
0 is SKIPPED and one of another source NOT_DOSED, and behind the last such the channel is WEIGHED (R79, R83,
R90). -/
def goesOn (sc : Scale) (e : DoseEntry) (rest : List DoseEntry) (net : Int) (results : List EntryResult)
    (s u : State) : Prop :=
  let a := Win.source e.source
  let d := u.chan sc
  let fine : Int := min (u.rd (a + 2)).toNat 5000
  let allow := clampTo 0 fine (u.rd (a + 0x0E)).toNat
  (e.target ≠ 0 → s.rd a = 1 → d.base = net ∧ d.todo = rest ∧ d.dose.entry = e ∧ d.dose.fine = fine ∧
    d.dose.allow = allow ∧ d.ring = [] ∧ d.results = results ∧ d.gate = false ∧
    (feedsBarred s = false → beginsDose d e.source e.target fine allow) ∧
    (feedsBarred s = true → d.feed = none ∧ d.pauseHold = true ∧
      ∃ back, d.state = .dosing (.held back))) ∧
    (e.target = 0 ∨ s.rd a ≠ 1 → rest = [] → d.state = .weighed ∧ d.feed = none ∧ d.gate = false ∧
      d.results = results ++ [⟨e.source, 0, if e.target = 0 then .skipped else .notDosed⟩] ∧
      ∀ b, s.co.weigh = some b → ∃ b', u.co.weigh = some b' ∧ b'.seq = b.seq ∧
        b'.reported.get sc = true ∧ b'.nets.get sc = net)

/-- A component of a dry scale ends and the list goes on: by its verify with the source record written and the
trace offered, or by stall with FEED STALL posted, its trace offered and no record written (R83, R86). -/
def endsAndGoesOn (sc : Scale) (c : Channel) (net allow : Int) (ring : List Int) (s u : State) : Prop :=
  let actual := net - c.base
  ∀ e rest, c.todo = e :: rest →
    (c.dose.stallAt = none → recordsVerify c actual allow s u ∧
      u.nu.offers = s.nu.offers ++ verifyOffers sc c actual ring ∧
      goesOn sc e rest net (c.results ++ [⟨c.dose.entry.source, actual, verdictAt c actual⟩]) s u) ∧
    (∀ m, c.dose.stallAt = some m → u.mem = s.mem ∧
      u.nu.offers = s.nu.offers ++ [offerOf sc c m actual .stall ring] ∧
      (∃ more, u.nu.list = s.nu.list ++ attachedNotice c.batch
        (.feedStall sc c.dose.entry.source c.dose.entry.target actual) :: more) ∧
      goesOn sc e rest net (c.results ++ [⟨c.dose.entry.source, actual, .stall⟩]) s u)

/-- The states in which a channel attached to the weigh-stage batch ends that batch by a SCALE FAULT (R98). -/
def ofWeighStage : ChanState → Bool
  | .taring | .dosing _ | .prefed | .changeover | .weighed => true
  | .idle | .discharging | .fault => false

/-- A field read from its record: the word if it lies within its range, the value held otherwise (R74, R100). -/
def takenInRange (lo hi : Nat) (w : Word) (old new : Nat) : Prop :=
  (lo ≤ w.toNat ∧ w.toNat ≤ hi → new = w.toNat) ∧ (¬(lo ≤ w.toNat ∧ w.toNat ≤ hi) → new = old)

/-- A channel's working values after its scale record has been read again: the calibration zero as it reads,
every other field if it lies within its range (R74, section 4.1). -/
def scaleReread (sc : Scale) (old new : ScaleParams) (u : State) : Prop :=
  let w := fun k => u.rd (Win.scale sc + k)
  new.calZero = (u.rd32 (Win.scale sc)).toInt ∧
    takenInRange 1 65535 (w 0x04) old.span new.span ∧
    takenInRange 1 65535 (w 0x06) old.capacity new.capacity ∧
    takenInRange 0 5000 (w 0x08) old.zeroLimit new.zeroLimit ∧
    takenInRange 1 500 (w 0x0A) old.motionBand new.motionBand ∧
    takenInRange 5 100 (w 0x0C) old.settleTimeout new.settleTimeout ∧
    takenInRange 1 2000 (w 0x0E) old.emptyThreshold new.emptyThreshold ∧
    takenInRange 2 60 (w 0x10) old.dischargeTimeout new.dischargeTimeout

/-- The part enters HALTED by a SCALE FAULT of one channel, which is left as given: the fault's notice and HALT
posted, every output off but the tank heaters, tank last used NONE, the burner out unless it is in FAULT, the mixer
suspect; the clear step, clear required, the stages and the queue as they stood (R167, R168, log 34). -/
def haltsInClear (sc : Scale) (faulted : Channel) (notice : Notice) (s u : State) : Prop :=
  u.rc = { s.rc with part := .halted, paused := false, finishing := false } ∧
    u.nu = { s.nu with list := s.nu.list ++
      [notice, ⟨255, 0, mixSeq s, .halt .scaleFaultInClear s.rc.clearStep (weighSeq s)⟩] } ∧
    u.chan sc = faulted ∧
    (∀ sc', sc' ≠ sc → u.chan sc' = { s.chan sc' with feed := none, gate := false }) ∧
    u.mixer = { s.mixer with suspect := true, door := false, routeOut := none } ∧
    u.bit = { s.bit with tankSelect := false, circulate := false, tankLast := none } ∧
    (burnerLit s.heat.burner = false → u.heat = s.heat) ∧
    (burnerLit s.heat.burner = true → u.heat = { s.heat with
      burner := .off, request := false, firing := 0, reg := none, t1Hold := false }) ∧
    u.co = s.co ∧ u.oe = s.oe ∧ u.inp = s.inp ∧
    (arbiterFree s = true → Memory.wf s.mem = true → u.rd Win.partState = 5 ∧
      ∀ b, b ≠ Win.partState → b ≠ Win.partState + 1 → u.byteAt b = s.byteAt b)

/-- The mixer results a stop reports: the timers as they stand, the T6 reading absent (R131). -/
def stopResults (m : Mixer) : MixResults := ⟨m.dryT, m.wetT, m.overT, none⟩

/-- The state a next answer gives. -/
def nextState : Host.Outcome State Fault Refusal → Option State
  | .next t => some t
  | .fault _ | .refused _ => none

end Sys2Proof.Machine
end

