-- ==== Sys2Proof/Certificates/Slice0/Obligations.lean ====
section
/-! DEFINITION. The statements about the part: what a step is, what reset leaves, what every command
does and leaves as it was, and the laws every step keeps. -/

open Sys2Proof Sys2Proof.Machine

/-! ### Steps -/

/-- A step runs the command at the front of the queue on the state with the queue's rest. -/
def Obligations.StepRunsFront : Prop :=
  ∀ (c : Instr) (rest : List Instr) (s : State),
    step { s with pending := c :: rest } = exec c { s with pending := rest }

/-- MODEL'S CHOICE (log 4): with no command waiting, nothing happens while RESET# is low; otherwise
waiting host accesses are served, else the part's own due commands are queued, else 1 ms passes. The
millisecond counters rise by one; at a full 0.1 s the timers of the channels and of the burner go on, and
in RUN without PAUSED those of the mixer, the wait time of the weigh-stage batch and the purge time of a
changeover. 1 ms changes no memory, no notice, no order, no batch but the wait time and no output. -/
def Obligations.StepWithNoCommand : Prop :=
  ∀ s : State, s.pending = [] →
    (s.port.resetLow = true → step s = .next s) ∧
    (s.port.resetLow = false → s.port.waiting ≠ [] → step s = .next (serveAll s.port.waiting s)) ∧
    (∀ c rest, arbiterFree s = true → dueNow s = c :: rest →
      step s = .next { s with pending := c :: rest }) ∧
    (arbiterFree s = true → dueNow s = [] →
      let aged : State := { s with
        ch := s.ch.map fun c => if c.work.isSome then { c with age := c.age + 1 } else c
        heat.age := s.heat.age + 1
        clk.secMs := s.clk.secMs + 1
        oe.lookMs := s.oe.lookMs + 1
        oe.watchMs := s.oe.watchMs + 1
        rc.pulse := if s.rc.decoder = .timing then s.rc.pulse + 1 else s.rc.pulse }
      let tenth : State := { aged with
        clk.tenthMs := 0
        ch := aged.ch.map (channelTenth (s.rc.part == .run) s.rc.paused)
        heat := burnerTenth aged.heat }
      (s.clk.tenthMs + 1 < 100 → step s = .next { aged with clk.tenthMs := s.clk.tenthMs + 1 }) ∧
      (100 ≤ s.clk.tenthMs + 1 → s.rc.part ≠ .run ∨ s.rc.paused = true → step s = .next tenth) ∧
      (100 ≤ s.clk.tenthMs + 1 → s.rc.part = .run → s.rc.paused = false → step s = .next { tenth with
        mixer := mixerTenth s.mixer
        co.weigh := s.co.weigh.map fun b =>
          if b.waiting then { b with wait := min 65535 (b.wait + 1) } else b
        bit.purge := if (s.chan .bit).state = .changeover then min 65535 (s.bit.purge + 1)
          else s.bit.purge }))

/-- No command stops the part, and none touches the queue of commands. -/
def Obligations.EveryCommandAnswers : Prop :=
  ∀ (c : Instr) (s : State), ∃ t, exec c s = .next t ∧ t.pending = s.pending

/-! ### Reset -/

/-- The registers, counters, queues and outputs right after power-on reset. -/
def Obligations.ResetValues : Prop :=
  let s := State.reset
  statusWord s = 0 ∧ intAsserted s = false ∧ maskWord s = 0 ∧ s.nu.base = 0 ∧ s.nu.fill = 1 ∧
    s.nu.pos = 0 ∧ s.nu.list = [] ∧ s.nu.pend = 0 ∧
    s.co.counter = 1 ∧ s.co.weigh = none ∧ s.co.mix = none ∧ s.oe.queue = [] ∧
    s.oe.walker = .noEntry ∧ s.oe.pos = none ∧ s.oe.linkEarly = none ∧
    (∀ sc, (s.chan sc).state = .idle ∧ (s.chan sc).tare = 0 ∧ (s.chan sc).late = 0 ∧
      (s.chan sc).ring = [] ∧ (s.chan sc).batch = none ∧ (s.chan sc).feed = none ∧
      (s.chan sc).gate = false) ∧
    s.mixer.phase = .empty ∧ s.mixer.suspect = true ∧ s.mixer.clearHold = false ∧
    s.mixer.door = false ∧ s.mixer.routeOut = none ∧
    s.heat.burner = .off ∧ s.heat.request = false ∧ s.heat.firing = 0 ∧
    (∀ c, tempGet s.heat.tc c = ⟨some .start, none, 0⟩) ∧
    s.rc.part = .unconfigured ∧ s.rc.paused = false ∧ s.rc.finishing = false ∧
    s.rc.clearRequired = false ∧ s.rc.clearStep = .none ∧
    s.rd Win.partId = 0x00B0 ∧ s.rd (Win.partId + 2) = 0x0612 ∧ s.rd Win.partState = 0 ∧
    s.rd Win.chainPosition = 255 ∧ s.rd Win.lastFill = 0 ∧ s.rd Win.overrun = 0 ∧
    s.rd Win.captureState = 0 ∧ s.rd Win.checkField = 0 ∧ s.rd32 Win.seconds = 0

/-- Every law of Safety.lean holds right after reset. -/
def Obligations.LawsHoldAtReset : Prop :=
  let s := State.reset
  memorySafe s = true ∧ noticeSafe s.nu = true ∧ channelsSafe s = true ∧ lateSafe s = true ∧
    fireSafe s.heat = true ∧ queueSafe s = true ∧ stagesSafe s.co = true ∧ doorSafe s = true ∧
    runSafe s.rc = true ∧ burnerSafe s = true ∧ heaterSafe s = true ∧ feedSafe s = true

/-- POWER_ON_RESET, whatever came before: the blocks take their power-on values, the header reads as
written, every log entry reads seen with fill sequence 0. MODEL'S CHOICES: the bytes the part never
accesses stay over the reset and the rest of the window is undefined (log 2); the input levels stay (logs
3, 25); Channel.reset, OrderEngine.reset, Heat.reset and Port.reset are the power-on values where the
manual names none (logs 9, 22, 23). Host commands held or waiting are taken after the reset, in order. -/
def Obligations.PowerOnReset : Prop :=
  (∀ s : State, s.port.held = [] → s.port.waiting = [] →
    ∃ t, exec .powerOnReset s = .next t ∧
      t.rd Win.partId = 0x00B0 ∧ t.rd (Win.partId + 2) = 0x0612 ∧ t.rd Win.partState = 0 ∧
      t.rd Win.chainPosition = 255 ∧ t.rd Win.lastFill = 0 ∧ t.rd Win.overrun = 0 ∧
      t.rd Win.captureState = 0 ∧ t.rd Win.checkField = 0 ∧ t.rd32 Win.seconds = 0 ∧
      (∀ n, n < 64 → t.rd (Win.log n) = 0 ∧ t.rd (Win.log n + 4) = 0) ∧
      (∀ b, b < 0x10000 → neverAccessed b = true → t.byteAt b = s.byteAt b) ∧
      t.co = ⟨1, none, none⟩ ∧ t.nu = NoticeUnit.reset ∧ statusWord t = 0 ∧ t.seconds = 0 ∧
      t.oe = OrderEngine.reset ∧ t.mixer = Mixer.reset ∧ t.heat = Heat.reset ∧ t.bit = BitState.reset ∧
      (∀ sc, t.chan sc = Channel.reset) ∧ t.inp = s.inp ∧ t.port = Port.reset ∧
      t.rc = { RunCtl.reset with decoder := if s.rc.decoder = .high then .high else .timing }) ∧
  (∀ s : State, ∃ t, exec .powerOnReset { s with port.held := [], port.waiting := [] } = .next t ∧
    exec .powerOnReset s =
      .next (s.port.held.foldl (fun u i => heldAction i u) (serveAll s.port.waiting t)))

/-- RESET_ASSERTED de-energizes every plant output. MODEL'S CHOICE (log 25): while RESET# is low it
changes no memory, no stage, no queue, no notice and no input level. -/
def Obligations.ResetAssertedDropsOutputs : Prop :=
  ∀ s : State, s.port.resetLow = false →
    ∃ t, exec .resetAsserted s = .next t ∧ t.port = { s.port with resetLow := true } ∧
      (∀ sc, (t.chan sc).feed = none ∧ (t.chan sc).gate = false) ∧
      t.bit.tankSelect = false ∧ t.bit.circulate = false ∧ t.mixer.door = false ∧
      t.mixer.routeOut = none ∧ t.heat.request = false ∧ t.heat.firing = 0 ∧
      t.heat.bt1.heater = false ∧ t.heat.bt2.heater = false ∧
      t.mem = s.mem ∧ t.co = s.co ∧ t.oe = s.oe ∧ t.nu = s.nu ∧ t.rc = s.rc ∧ t.inp = s.inp ∧
      t.seconds = s.seconds

/-- While RESET# is low a host command waits, whole, for the reset to complete, with RDY low. MODEL'S
CHOICES: register accesses and CONTROL commands wait there as R180 has window accesses wait (log 25); a
window access that arrives behind part accesses, or behind one that waits, waits with RDY low and changes
nothing else (log 7). -/
def Obligations.HostCommandsWait : Prop :=
  (∀ (c : Instr) (s : State), hostSends c = true → s.port.resetLow = true →
     ∃ t, exec c s = .next t ∧ t = { s with port.held := s.port.held ++ [c] } ∧ rdyLow t = true) ∧
  (∀ (s : State) (w : Bool) (a d : Word) (n : Nat), s.port.resetLow = false →
     (n ≠ 0 ∨ s.port.waiting ≠ []) →
     ∃ t, exec (.hostWindowAccess w a d n) s = .next t ∧ rdyLow t = true ∧
       t = { s with port.waiting := s.port.waiting ++ [⟨w, 2 * (a.toNat / 2), d, n⟩] })

/-! ### The window and the registers -/

/-- A host access the arbiter can serve: a write stores all 16 bits at the even address and no other
byte, a read returns the word there and stores nothing. -/
def Obligations.WindowAccessServed : Prop :=
  ∀ (s : State) (a d : Word), arbiterFree s = true → Memory.wf s.mem = true →
    (∃ t, exec (.hostWindowAccess true a d 0) s = .next t ∧
      t.rd (2 * (a.toNat / 2)) = d ∧
      (∀ b, b ≠ 2 * (a.toNat / 2) → b ≠ 2 * (a.toNat / 2) + 1 → t.byteAt b = s.byteAt b) ∧
      { t with mem := s.mem } = s) ∧
    exec (.hostWindowAccess false a d 0) s =
      .next { s with port.hostData := s.rd (2 * (a.toNat / 2)) }

/-- VECTOR_READ returns the base and the highest pending class, 7 for none, clears that class's bit and
nothing else. VECTOR_WRITE takes the high byte as base and leaves the pending bits. The base is kept
through SOFT_RESET and 0 after POWER_ON_RESET. -/
def Obligations.VectorReadTakesHighest : Prop :=
  ∀ s : State, s.port.resetLow = false →
    (∀ d : Word, ∃ b : Byte, exec (.vectorWrite d) s = .next { s with nu.base := b } ∧
      b.toNat = d.toNat / 256) ∧
    (arbiterFree s = true → ∃ t, exec .softReset s = .next t ∧ t.nu.base = s.nu.base) ∧
    (s.port.held = [] → s.port.waiting = [] →
      ∃ t, exec .powerOnReset s = .next t ∧ t.nu.base = 0) ∧
    (s.nu.pend = 0 → exec .vectorRead s =
      .next { s with port.hostData := BitVec.ofNat 16 (256 * s.nu.base.toNat + 7) }) ∧
    (∀ c, c < 5 → s.nu.pend.getLsbD c = true → (∀ d, d < c → s.nu.pend.getLsbD d = false) →
      ∃ p : BitVec 5, exec .vectorRead s = .next { s with
          port.hostData := BitVec.ofNat 16 (256 * s.nu.base.toNat + c), nu.pend := p } ∧
        ∀ d, p.getLsbD d = (s.nu.pend.getLsbD d && decide (d ≠ c)))

/-- The three register writes without a command: VECTOR takes the high byte as base, MASK bits 4 to 0,
STATUS nothing. The words read back in every state: STATUS with the part state, PAUSED, FINISHING, clear
active, the walker state, the INT# level, COMMAND REFUSED and the check error record, each in its bits; MASK
its five bits, CONTROL 0. INT# is asserted exactly while a pending bit is set. -/
def Obligations.RegisterWrites : Prop :=
  (∀ (s : State) (d : Word), s.port.resetLow = false →
    (∃ b : Byte, exec (.vectorWrite d) s = .next { s with nu.base := b } ∧ b.toNat = d.toNat / 256) ∧
    (∃ m : BitVec 5, exec (.maskWrite d) s = .next { s with nu.mask := m } ∧
      m.toNat = d.toNat % 32) ∧
    exec (.registerWrite d) s = .next s) ∧
  (∀ s : State, s.port.checkRecord ≤ 18 →
    let w := statusWord s
    w.toNat % 8 = (match s.rc.part with
      | .unconfigured => 0 | .checking => 1 | .standby => 2 | .run => 3 | .stopped => 4 | .halted => 5) ∧
    w.getLsbD 3 = s.rc.paused ∧ w.getLsbD 4 = s.rc.finishing ∧
    w.getLsbD 5 = decide (s.rc.clearStep ≠ .none) ∧
    w.toNat / 64 % 4 = (match s.oe.walker with | .noEntry => 0 | .walking => 1 | .broken => 2 | .lost => 3) ∧
    w.getLsbD 8 = intAsserted s ∧ w.getLsbD 9 = s.port.refused ∧ w.toNat / 1024 = s.port.checkRecord) ∧
  (∀ s : State, (maskWord s).toNat = s.nu.mask.toNat ∧ controlWord s = 0 ∧
    (intAsserted s = true ↔ ∃ k, k < 5 ∧ s.nu.pend.getLsbD k = true))

/-! ### CONTROL -/

/-- A CONTROL command the part state refuses sets COMMAND REFUSED and nothing else; so does a word with
more than one bit, or a high bit; a word of 0 changes nothing. -/
def Obligations.ControlRefuses : Prop :=
  ∀ s : State, s.port.resetLow = false →
    (∀ c, acceptedWhen s c = some false → exec c s = .next { s with port.refused := true }) ∧
    (∀ w : Word, w ≠ 0 → namesCommand w = false →
      exec (.controlWriteNamingNoCommand w) s = .next { s with port.refused := true }) ∧
    exec (.controlWriteNamingNoCommand 0) s = .next s

/-- LOAD in UNCONFIGURED or STANDBY: CHECKING, shown in the header; check error record 0; tank heaters
off; COMMAND REFUSED clear; all else as it was. -/
def Obligations.LoadStartsCheck : Prop :=
  ∀ s : State, arbiterFree s = true → s.rc.part = .unconfigured ∨ s.rc.part = .standby →
    Memory.wf s.mem = true →
    ∃ t, exec .load s = .next t ∧
      t = { s with
        rc.part := .checking, port.refused := false, port.checkRecord := 0,
        heat := { s.heat with
          bt1 := { s.heat.bt1 with heater := false }, bt2 := { s.heat.bt2 with heater := false } },
        mem := t.mem } ∧
      t.rd Win.partState = 1 ∧
      ∀ b, b ≠ Win.partState → b ≠ Win.partState + 1 → t.byteAt b = s.byteAt b

/-- CHECK_COMPLETE in CHECKING completes on every window. MODEL'S CHOICE (log 38): the check reads and
judges the window within this command, with no host write between two of its reads here. With every field in
range the part reaches STANDBY and each block holds the values the window gives: scales, binder, mixer and
heat; the dryer target is the head order's within the new maximum, and with no head order the new standby
setpoint at the first check after a reset and once the idle time has passed. With a field that fails, the
first in the order of the check, it reaches UNCONFIGURED with that field's record in STATUS and its word
offset in the header, and every block keeps its values, queue and walker too; another layout version is
record 1, word offset 2. Nothing in the window changes but the part state copy and the check error field.
Outside CHECKING nothing is done. -/
def Obligations.CheckEnds : Prop :=
  (∀ s : State, s.port.resetLow = false → s.rc.part ≠ .checking →
    exec .checkComplete s = .next (settle s)) ∧
  (∀ s : State, arbiterFree s = true → s.oe.lookOwed = 0 → s.rc.part = .checking →
    Memory.wf s.mem = true →
    let word := fun k : Nat => (s.rd (Win.config + 2 * k)).toNat
    let value := fun k : Nat => (s.rd (Win.config + 2 * k)).toInt
    (firstFailing s.rd checkFields [] = none →
      ∃ t, exec .checkComplete s = .next t ∧ t.rc = { s.rc with part := .standby } ∧
        t.port = s.port ∧ t.rd Win.partState = 2 ∧
        (∀ sc, let a := Win.scale sc
          (t.chan sc).work = some ⟨(s.rd32 a).toInt, (s.rd (a + 4)).toNat, (s.rd (a + 6)).toNat,
            (s.rd (a + 8)).toNat, (s.rd (a + 10)).toNat, (s.rd (a + 12)).toNat,
            (s.rd (a + 14)).toNat, (s.rd (a + 16)).toNat⟩ ∧
          (t.chan sc).state = (s.chan sc).state ∧ (t.chan sc).tare = (s.chan sc).tare) ∧
        t.heat.vals = some {
          standby := value 0, maximum := value 1, idleTime := word 2, ramp := word 3, period := word 4,
          kp := word 5, ki := word 6, kd := word 7, deadband := word 8, minFire := word 9,
          maxFire := word 10, ignitionTimeout := word 11, lowFireHold := word 12, baghouse := value 13,
          bt1 := ⟨value 14, value 15, value 16⟩, bt2 := ⟨value 17, value 18, value 19⟩,
          hysteresis := word 20, lowBand := word 21, highBand := word 22, lineMin := value 23 } ∧
        (∀ o, headOrder s = some o → t.heat.target = some (min o.tAgg (value 1))) ∧
        (headOrder s = none → s.heat.target = none ∨ s.heat.atStandby = true →
          t.heat.target = some (value 0)) ∧
        t.bit.work = some ⟨word 25, word 26⟩ ∧
        t.mixer.work = some ⟨word 27, word 28, word 29, MarkPhase.ofCode (word 30), word 31, word 32⟩ ∧
        t.mixer.phase = s.mixer.phase ∧ t.co = s.co ∧ t.nu = s.nu ∧ t.oe = s.oe ∧
        ∀ b, b ≠ Win.partState → b ≠ Win.partState + 1 → t.byteAt b = s.byteAt b) ∧
    (∀ f, firstFailing s.rd checkFields [] = some f →
      ∃ t, exec .checkComplete s = .next t ∧ t.rc = { s.rc with part := .unconfigured } ∧
        t.port = { s.port with checkRecord := f.record } ∧
        t.rd Win.checkField = BitVec.ofNat 16 f.offset ∧ t.rd Win.partState = 0 ∧
        t.ch = s.ch ∧ t.mixer = s.mixer ∧ t.bit = s.bit ∧ t.heat.vals = s.heat.vals ∧
        t.co = s.co ∧ t.nu = s.nu ∧ t.oe = s.oe ∧
        ∀ b, b ≠ Win.partState → b ≠ Win.partState + 1 → b ≠ Win.checkField →
          b ≠ Win.checkField + 1 → t.byteAt b = s.byteAt b) ∧
    (s.rd Win.layoutVersion ≠ 3 → ∃ f, firstFailing s.rd checkFields [] = some f ∧
      f.record = 1 ∧ f.offset = 2))

/-- RUN from STANDBY or STOPPED with STOP# high: RUN, shown in the header; the clear cycle begins in
WAIT FAULTS if clear required or the mixer is suspect; then a look point and the burner test. RUN in RUN
with FINISHING set: FINISHING clear, and a look point. MODEL'S CHOICE (log 68): at the entry the look point and
its notices come before WAIT FAULTS is tested, and so before a RECEIVER WAIT of the clear cycle begun there. -/
def Obligations.RunEnters : Prop :=
  ∀ s : State, arbiterFree s = true →
    (s.rc.part = .standby ∨ s.rc.part = .stopped → s.rc.decoder = .high →
      let u := { s.wr Win.partState 3 with rc.part := .run, port.refused := false }
      let v := if s.rc.clearRequired = true ∨ s.mixer.suspect = true then
          { u with rc.clearStep := .waitFaults,
                   rc.clearRec := { ClearRec.empty with began := s.seconds } } else u
      exec .run s = .next (settle (burnerTest (lookPoint v)))) ∧
    (s.rc.part = .run → s.rc.finishing = true →
      exec .run s = .next (settle (lookPoint
        { s with rc.finishing := false, port.refused := false })))

/-- FINISH in RUN sets FINISHING; with both stages empty, no clear past WAIT FAULTS and no phase change
of the mixer due, the part reaches STANDBY at once: FINISHING and PAUSED clear, clear step NONE, the
burner no longer lit, every feed output off, queue, walker and stages as they were; the channels as they
were where none doses, as R94 has it then. -/
def Obligations.FinishReachesStandby : Prop :=
  ∀ s : State, arbiterFree s = true → s.rc.part = .run →
    exec .finish s = .next (settle { s with rc.finishing := true, port.refused := false }) ∧
    (s.co.weigh = none → s.co.mix = none → s.oe.lookOwed = 0 → mixerStep s = none →
      s.rc.clearStep = .none ∨ s.rc.clearStep = .waitFaults → Memory.wf s.mem = true →
      ∃ t, exec .finish s = .next t ∧
        t.rc = { s.rc with part := .standby, finishing := false, paused := false, clearStep := .none } ∧
        burnerLit t.heat.burner = false ∧ (s.heat.burner = .fault → t.heat.burner = .fault) ∧
        t.oe = s.oe ∧ t.co = s.co ∧ t.mixer = s.mixer ∧ t.nu = s.nu ∧
        (∀ sc, (t.chan sc).feed = none) ∧
        (channelsSafe s = true → (∀ sc p, (s.chan sc).state ≠ .dosing p) → t.ch = s.ch) ∧
        t.rd Win.partState = 2 ∧
        ∀ b, b ≠ Win.partState → b ≠ Win.partState + 1 → t.byteAt b = s.byteAt b)

/-- PAUSE in RUN: PAUSED set with its notice, the flag on the batches of both stages, every feed held
and every gate closed. RESUME in RUN: PAUSED clear with its notice, held doses and gates go on (under a
clear cycle the gates alone), a held permit request is evaluated. PAUSE with PAUSED set, and RESUME with
it clear, do nothing. MODEL'S CHOICE (log 17): the seconds RESUMED gives are the seconds counter less its
value when PAUSED was set. -/
def Obligations.PauseAndResume : Prop :=
  (∀ s : State, s.port.resetLow = false → s.rc.part = .run →
     (s.rc.paused = true → exec .pause s = .next { s with port.refused := false }) ∧
     (s.rc.paused = false → s.nu.list.length < 16 →
       ∃ t, exec .pause s = .next t ∧
         t = { s with
           port.refused := false
           rc := { s.rc with paused := true, pausedAt := s.seconds }
           nu := { s.nu with list := s.nu.list ++
             [⟨255, 0, mixSeq s, .paused .control s.rc.clearStep s.rc.finishing (weighSeq s)⟩] }
           co := { s.co with weigh := s.co.weigh.map fun b => { b with flags.paused := true },
                             mix := s.co.mix.map fun b => { b with flags.paused := true } }
           ch := s.ch.map pauseChannel } ∧
         (channelsSafe s = true → ∀ sc, (t.chan sc).feed = none ∧ (t.chan sc).gate = false))) ∧
  (∀ s : State, s.port.resetLow = false → s.rc.part = .run →
     (s.rc.paused = false → exec .resume s = .next { s with port.refused := false }) ∧
     (s.rc.paused = true → s.nu.list.length < 16 →
       exec .resume s = .next (settle (evalHeld { s with
         port.refused := false
         rc.paused := false
         nu.list := s.nu.list ++ [⟨255, 0, 0, .resumed .control (s.seconds - s.rc.pausedAt).toNat⟩]
         ch := s.ch.map fun c =>
           if s.rc.clearStep = .none then resumeChannel c
           else if c.state = .discharging then { c with gate := true } else c }))))

/-- RESTART in STANDBY, RUN and STOPPED: NO_ENTRY, no position, link-early memory empty, 255 in the
header; then a look point. Outside RUN nothing else changes but what the heat controller follows. -/
def Obligations.RestartDropsPosition : Prop :=
  ∀ s : State, arbiterFree s = true →
    s.rc.part = .standby ∨ s.rc.part = .run ∨ s.rc.part = .stopped →
    let u := { s.wr Win.chainPosition 255 with
      oe.walker := .noEntry, oe.pos := none, oe.linkEarly := none, port.refused := false }
    exec .restart s = .next (settle (lookPoint u)) ∧
    (s.rc.part ≠ .run → s.oe.lookOwed = 0 → exec .restart s = .next (followQueue u))

/-- REARM in STANDBY, RUN and STOPPED: a channel in FAULT with late counter 0 whose last frame was good
is IDLE with its tare and material; every other channel stays as it is. MODEL'S CHOICE (log 59): the last
frame is judged by the working capacity of the moment it arrived, not by one that a check took since. -/
def Obligations.RearmReturnsChannels : Prop :=
  ∀ s : State, s.port.resetLow = false →
    s.rc.part = .standby ∨ s.rc.part = .run ∨ s.rc.part = .stopped →
    exec .rearm s = .next (settle { s with
      port.refused := false
      ch := s.ch.map fun c =>
        if c.state = .fault ∧ c.late = 0 ∧ c.frameGood = true then { c with state := .idle } else c })

/-- BURNER_RESET takes FAULT to OFF, and on to ignition in RUN with the permit active; any other burner
state stays. -/
def Obligations.BurnerResetLeavesFault : Prop :=
  ∀ s : State, s.port.resetLow = false →
    s.rc.part = .standby ∨ s.rc.part = .run ∨ s.rc.part = .stopped →
    let out := { s.heat with burner := .off, request := false, firing := 0, reg := none, t1Hold := false }
    let lit := { out with burner := .requested, request := true, ignition := 0 }
    let fed := { lit with burner := .lowFire, firing := minFire s.heat, lowFire := 0 }
    (s.heat.burner ≠ .fault → exec .burnerReset s = .next { s with port.refused := false }) ∧
    (s.heat.burner = .fault → s.rc.part ≠ .run ∨ s.inp.permit = false →
      exec .burnerReset s = .next { s with port.refused := false, heat := out }) ∧
    (s.heat.burner = .fault → s.rc.part = .run → s.inp.permit = true → s.inp.flame = false →
      exec .burnerReset s = .next { s with port.refused := false, heat := lit }) ∧
    (s.heat.burner = .fault → s.rc.part = .run → s.inp.permit = true → s.inp.flame = true →
      exec .burnerReset s = .next { s with port.refused := false, heat := fed })

/-- SOFT_RESET in every part state: the blocks at their soft-reset values; chain position 255, part
state and check error field 0 in the header; kept are the batch counter, write position, fill sequence,
MASK, VECTOR base, seconds and every other byte of the window. MODEL'S CHOICES: Channel.reset,
OrderEngine.reset, Mixer.reset and Heat.reset are the soft-reset values where the manual names none (logs
9, 23); the word on the data lines and what waits at the port stay (log 22); the offers of captures not
yet judged are dropped (log 24); the phase of the clock goes on (log 50). -/
def Obligations.SoftResetKeeps : Prop :=
  ∀ s : State, arbiterFree s = true → Memory.wf s.mem = true →
    ∃ t, exec .softReset s = .next t ∧
      t = { s with
        port := { s.port with refused := false, checkRecord := 0 }
        rc := { RunCtl.reset with decoder := if s.rc.decoder = .high then .high else .timing }
        oe := OrderEngine.reset
        co := ⟨s.co.counter, none, none⟩
        ch := ⟨Channel.reset, Channel.reset, Channel.reset, Channel.reset⟩
        bit := BitState.reset
        mixer := Mixer.reset
        heat := Heat.reset
        nu := { s.nu with list := [], pend := 0, offers := [] }
        mem := t.mem } ∧
      t.rd Win.chainPosition = 255 ∧ t.rd Win.partState = 0 ∧ t.rd Win.checkField = 0 ∧
      ∀ b, b ≠ Win.chainPosition → b ≠ Win.chainPosition + 1 → b ≠ Win.partState →
        b ≠ Win.partState + 1 → b ≠ Win.checkField → b ≠ Win.checkField + 1 → t.byteAt b = s.byteAt b

/-! ### The seconds counter and the idle timer -/

/-- SECONDS_TICK: the counter and both words of its header copy rise by one and no other byte changes;
then the heat controller takes its second, which it does once it has working values: it reads its 24
fields again, the setpoints together, the fires together and the idle time each kept when out of range,
and in STANDBY, RUN and STOPPED the dryer target follows: a head order's temperature within the maximum; with
no head order and no batch in the stages the idle timer rises by one, to 900 at most, and the target is the
working standby setpoint, refreshed, once the idle time has been reached, and stays otherwise. MODEL'S
CHOICES: the idle timer's seconds are those of the counter (log 47); the count
is judged against the idle time of the same step's refresh (log 64); the target that the first check after a
reset gave stays too, until the idle time has been reached (log 56); IDLE_TIMER_EXPIRY is the event that the
idle timer reaches the idle time (log 5). While it counts, the dryer target is the standby setpoint then;
otherwise, in UNCONFIGURED, CHECKING and HALTED too, nothing changes. -/
def Obligations.SecondsAndIdleTimer : Prop :=
  (∀ s : State, arbiterFree s = true → Memory.wf s.mem = true →
     ∃ u, exec .secondsTick s = .next (settle (heatSecond u)) ∧
       u = { s with seconds := s.seconds + 1, clk.secMs := 0, mem := u.mem } ∧
       u.rd32 Win.seconds = s.seconds + 1 ∧
       (∀ b, b < Win.seconds ∨ Win.seconds + 4 ≤ b → u.byteAt b = s.byteAt b) ∧
       (s.heat.vals = none → heatSecond u = u) ∧
       (∀ old, s.heat.vals = some old →
         (heatSecond u).heat.vals =
           some (heatValsFrom ((List.range 24).map fun i => s.rd (Win.config + 2 * i)) old) ∧
         (s.rc.part = .standby ∨ s.rc.part = .run ∨ s.rc.part = .stopped →
           let v := heatValsFrom ((List.range 24).map fun i => s.rd (Win.config + 2 * i)) old
           let h := (heatSecond u).heat
           (∀ o, headOrder s = some o → s.heat.permit = none →
             h.target = some (min o.tAgg v.maximum) ∧ h.idle = 0 ∧ h.atStandby = false) ∧
           (headOrder s = none → s.co.weigh = none → s.co.mix = none →
             h.idle = min 900 (s.heat.idle + 1) ∧
             (s.heat.atStandby = true ∨ v.idleTime ≤ s.heat.idle →
               h.target = some v.standby ∧ h.atStandby = true) ∧
             (s.heat.atStandby = false → s.heat.idle < v.idleTime →
               h.target = s.heat.target ∧ h.atStandby = false))))) ∧
  (∀ (ws : List Word) (old : HeatVals),
     let v := heatValsFrom ws old
     let w := fun k : Nat => (ws.getD k 0).toNat
     let z := fun k : Nat => (ws.getD k 0).toInt
     (200 ≤ z 0 ∧ z 0 ≤ 2500 ∧ 1000 ≤ z 1 ∧ z 1 ≤ 2500 ∧ z 0 ≤ z 1 → v.standby = z 0 ∧ v.maximum = z 1) ∧
     (¬(200 ≤ z 0 ∧ z 0 ≤ 2500 ∧ 1000 ≤ z 1 ∧ z 1 ≤ 2500 ∧ z 0 ≤ z 1) →
       v.standby = old.standby ∧ v.maximum = old.maximum) ∧
     (50 ≤ w 9 ∧ w 9 ≤ 300 ∧ w 9 ≤ w 10 ∧ w 10 ≤ 1000 → v.minFire = w 9 ∧ v.maxFire = w 10) ∧
     (¬(50 ≤ w 9 ∧ w 9 ≤ 300 ∧ w 9 ≤ w 10 ∧ w 10 ≤ 1000) →
       v.minFire = old.minFire ∧ v.maxFire = old.maxFire) ∧
     v.idleTime = if w 2 ≤ 900 then w 2 else old.idleTime) ∧
  (∀ s : State, s.port.resetLow = false →
     (∀ v, s.heat.vals = some v → s.rc.part = .standby ∨ s.rc.part = .run ∨ s.rc.part = .stopped →
       headOrder s = none → s.co.weigh = none → s.co.mix = none →
       exec .idleTimerExpiry s = .next { s with
         heat.idle := max s.heat.idle v.idleTime, heat.target := some v.standby,
         heat.atStandby := true }) ∧
     (s.heat.vals = none ∨ headOrder s ≠ none ∨ s.co.weigh ≠ none ∨ s.co.mix ≠ none ∨
         s.rc.part = .unconfigured ∨ s.rc.part = .checking ∨ s.rc.part = .halted →
       exec .idleTimerExpiry s = .next s))

/-! ### The order engine -/

/-- LOOK_POINT: none is taken outside RUN, under FINISHING or with three orders queued. Else, with an
empty queue: the chain entry read in NO_ENTRY, and the link of its position read in WALKING while the
position's slot reads TAKEN, ACTIVE or CLOSED with its order number, ends the walk at 255 and breaks the
chain above 31; a link to a slot that is not POSTED gives LINK EARLY, and nothing while the link-early
memory already holds that slot; a walker at a position whose slot no longer reads so is LOST. BROKEN and
LOST do nothing. A link to the slot of a queued order moves the walker there, the slot in the header's
chain position, and on to that slot's own link. -/
def Obligations.LookPointReadsChain : Prop :=
  ∀ s : State, arbiterFree s = true →
    let u := { s with oe.lookMs := 0 }
    let entry := s.rd Win.chainEntry
    (s.rc.part ≠ .run ∨ s.rc.finishing = true ∨ 3 ≤ s.oe.queue.length →
      exec .lookPoint s = .next (settle u)) ∧
    (s.rc.part = .run → s.rc.finishing = false → s.oe.queue = [] → s.nu.list.length < 16 →
      (s.oe.walker = .broken ∨ s.oe.walker = .lost → exec .lookPoint s = .next (settle u)) ∧
      (s.oe.walker = .noEntry → s.oe.pos = none →
        (entry = 255 → exec .lookPoint s = .next (settle u)) ∧
        (entry ≠ 255 → 32 ≤ entry.toNat → exec .lookPoint s = .next (settle { u with
          oe.walker := .broken
          nu.list := s.nu.list ++ [⟨255, 0, 0, .chainBroken entry true⟩] })) ∧
        (entry.toNat < 32 → s.rd (Win.slot entry.toNat) ≠ 1 →
          (s.oe.linkEarly = some entry.toNat → exec .lookPoint s = .next (settle u)) ∧
          (s.oe.linkEarly ≠ some entry.toNat → exec .lookPoint s = .next (settle { u with
            oe.linkEarly := some entry.toNat
            nu.list := s.nu.list ++
              [⟨255, 0, 0, .linkEarly entry (s.rd (Win.slot entry.toNat))⟩] })))) ∧
      (∀ p, s.oe.walker = .walking → s.oe.pos = some p →
        let link := s.rd (Win.slot p.slot + Win.slotLink)
        let stays := s.rd (Win.slot p.slot) ∈ [(2 : Word), 3, 4] ∧ s.rd (Win.slot p.slot + 2) = p.number
        (¬stays → exec .lookPoint s = .next (settle { u with
          oe.walker := .lost
          nu.list := s.nu.list ++ [⟨p.slot, p.number, 0,
            .chainLost (s.rd (Win.slot p.slot)) (s.rd (Win.slot p.slot + 2))⟩] })) ∧
        (stays → link = 255 → exec .lookPoint s = .next (settle u)) ∧
        (stays → link ≠ 255 → 32 ≤ link.toNat → exec .lookPoint s = .next (settle { u with
          oe.walker := .broken
          nu.list := s.nu.list ++ [⟨p.slot, p.number, 0, .chainBroken link false⟩] })) ∧
        (stays → link.toNat < 32 → s.rd (Win.slot link.toNat) ≠ 1 →
          (s.oe.linkEarly = some link.toNat → exec .lookPoint s = .next (settle u)) ∧
          (s.oe.linkEarly ≠ some link.toNat → exec .lookPoint s = .next (settle { u with
            oe.linkEarly := some link.toNat
            nu.list := s.nu.list ++
              [⟨p.slot, p.number, 0, .linkEarly link (s.rd (Win.slot link.toNat))⟩] }))))) ∧
    (∀ o, s.rc.part = .run → s.rc.finishing = false → s.oe.queue = [o] → s.oe.walker = .noEntry →
      s.oe.pos = none → o.slot < 32 → entry = BitVec.ofNat 16 o.slot →
      s.rd (Win.slot o.slot + 2) = o.number → s.rd (Win.slot o.slot + Win.slotLink) = 255 →
      (Level.ofWord (s.rd (Win.slot o.slot + Win.slotWithdraw))).rank ≤ o.level.rank →
      Memory.wf s.mem = true →
      exec .lookPoint s = .next (settle { u.wr Win.chainPosition entry with
        oe.walker := .walking, oe.pos := some ⟨o.slot, o.number⟩, oe.linkEarly := none }))

/-- Admission of the slot the walker meets, by the chain entry or by the link of its position, while the queue
holds fewer than three orders and none of them has this slot and number. An order number 0 is refused: CLOSED,
outcome REFUSED (code 3), code ORDER NUMBER, no ticket, both stamps the seconds counter, ORDER CLOSED posted with
the load identifier of the slot, the walker at the slot. Any check that fails closes the slot so, with its own code
and the revision it read. An order that passes all is taken: TAKEN with its revision, ticket count 0 and
its time, queued, SETPOINT CLAMP posted where its temperature was clamped; with a withdraw request it is
closed WITHDRAWN instead. The checks of R15: a refusal names a check that fails, and an accepted order
passes each and holds the snapshot and the derived values the window gives. No byte outside the slot
header and the header's chain position changes. A host write that changes the slot's state or number behind the
walker's read of them abandons the examination: no notice, queue and walker as they were, no other byte changed
when it falls before the opening guard, and the part-written fields left when it falls behind that guard (order
number 0). MODEL'S CHOICES: words of 0x8000 and more of the batch mass and the capacities count as unsigned, so
that 60000 is the greatest mass (log 62, DEDUCED); the order and number of the reads and writes, which say between
which of them a host write falls (logs 7, 39, 57); the revision is the word before the copy (log 41). -/
def Obligations.OrderNumberZeroRefused : Prop :=
  (∀ (s : State) (n : Nat), arbiterFree s = true → Memory.wf s.mem = true → n < 32 →
    s.rc.part = .run → s.rc.finishing = false → s.oe.queue.length < 3 →
    findOrder s n (s.rd (Win.slot n + 2)) = none →
    (∀ x ∈ s.oe.queue, (Level.ofWord (s.rd (Win.slot x.slot + Win.slotWithdraw))).rank ≤ x.level.rank) →
    (s.oe.walker = .noEntry ∧ s.rd Win.chainEntry = BitVec.ofNat 16 n) ∨
      (s.oe.walker = .walking ∧ ∃ p, s.oe.pos = some p ∧ s.rd (Win.slot p.slot) ∈ [(2 : Word), 3, 4] ∧
        s.rd (Win.slot p.slot + 2) = p.number ∧
        s.rd (Win.slot p.slot + Win.slotLink) = BitVec.ofNat 16 n) →
    s.nu.list.length < 16 → s.rd (Win.slot n) = 1 →
    let a := Win.slot n
    let number := s.rd (a + 2)
    let load := (List.range 8).map fun i => s.byteAt (a + 0x10 + i)
    let hdr := [2, 6, 8, 10, 12, 14, 16, 18, 20, 22].map fun o => s.rd (a + o)
    let closed := fun (u : State) (outcome : OrderOutcome) (code : RefusalCode) (revision : Word) =>
      u.rd a = 4 ∧ u.rd (a + 0x40) = BitVec.ofNat 16 outcome.code ∧
        u.rd (a + 0x42) = BitVec.ofNat 16 code.code ∧ u.rd (a + 0x44) = revision ∧
        u.rd (a + 0x46) = 0 ∧ u.rd32 (a + 0x48) = s.seconds ∧ u.rd32 (a + 0x4C) = s.seconds ∧
        u.oe.queue = s.oe.queue ∧
        u.nu = { s.nu with list := s.nu.list ++ [⟨n, number, 0, .orderClosed load outcome code 0⟩] }
    let arrived := fun u : State =>
      u.rd Win.chainPosition = BitVec.ofNat 16 n ∧ u.oe.walker = .walking ∧
        u.oe.pos = some ⟨n, number⟩ ∧ u.oe.linkEarly = none ∧ u.rc = s.rc ∧ u.co = s.co ∧
        u.ch = s.ch ∧ u.mixer = s.mixer ∧
        ∀ b, b ≠ Win.chainPosition → b ≠ Win.chainPosition + 1 → (b < a ∨ a + 0x80 ≤ b) →
          u.byteAt b = s.byteAt b
    (number = 0 → ∃ u, exec .lookPoint s = .next (settle u) ∧
      closed u .refused .orderNumber 0 ∧ arrived u ∧ u.heat = s.heat) ∧
    (∀ code revision, (examineChecks n hdr s).1 = .inl (code, revision) →
      ∃ u, exec .lookPoint s = .next (settle u) ∧ closed u .refused code revision ∧ arrived u ∧
        u.heat = s.heat) ∧
    (∀ o, (examineChecks n hdr s).1 = .inr o → Level.ofWord (s.rd (a + 14)) ≠ .none →
      ∃ u, exec .lookPoint s = .next (settle u) ∧ closed u .withdrawn .none o.snap.revision ∧
        arrived u ∧ u.heat = s.heat) ∧
    (∀ o, (examineChecks n hdr s).1 = .inr o → Level.ofWord (s.rd (a + 14)) = .none →
      ∃ u, exec .lookPoint s = .next (settle u) ∧ arrived u ∧ u.rd a = 2 ∧
        u.rd (a + 0x44) = o.snap.revision ∧ u.rd (a + 0x46) = 0 ∧ u.rd32 (a + 0x48) = s.seconds ∧
        u.oe.queue = s.oe.queue ++ [o] ∧ (o.clamped = false → u.nu = s.nu) ∧
        (o.clamped = true → u.nu = { s.nu with list := s.nu.list ++
          [⟨n, number, 0, .setpointClamp o.load o.tAggRaw o.tAgg⟩] }))) ∧
  (∀ (s : State) (n : Nat) (h : HostAccess), s.port.resetLow = false → s.port.waiting = [h] →
    Memory.wf s.mem = true → n < 32 → s.rc.part = .run → s.rc.finishing = false → s.oe.queue = [] →
    s.oe.walker = .noEntry → s.rd Win.chainEntry = BitVec.ofNat 16 n → s.rd (Win.slot n) = 1 →
    let a := Win.slot n
    h.write = true → (h.addr = a ∧ h.data ≠ 1) ∨ (h.addr = a + 2 ∧ h.data ≠ s.rd (a + 2)) →
    (2 ≤ h.behind → h.behind ≤ 11 → exec .lookPoint s = .next (settle { s.wr h.addr h.data with
      oe.lookMs := 0, port.waiting := [] })) ∧
    (12 ≤ h.behind → h.behind ≤ 20 → s.rd (a + 2) = 0 →
      ∃ u, exec .lookPoint s = .next (settle u) ∧ u.rd h.addr = h.data ∧ u.rd (a + 0x40) = 3 ∧
        u.rd (a + 0x42) = BitVec.ofNat 16 RefusalCode.orderNumber.code ∧ u.rd (a + 0x44) = 0 ∧
        u.rd (a + 0x46) = 0 ∧ u.rd32 (a + 0x48) = s.seconds ∧ u.rd32 (a + 0x4C) = s.seconds ∧
        u.oe = { s.oe with lookMs := 0 } ∧ u.nu = s.nu ∧ u.heat = s.heat ∧ u.rc = s.rc ∧ u.co = s.co ∧
        (∀ b, (b < h.addr ∨ h.addr + 2 ≤ b) → (b < a + 0x40 ∨ a + 0x50 ≤ b) → u.byteAt b = s.byteAt b))) ∧
  (∀ (s : State) (n : Nat), s.port.waiting = [] →
    let a := Win.slot n
    let hdr := [2, 6, 8, 10, 12, 14, 16, 18, 20, 22].map fun o => s.rd (a + o)
    let f := (s.rd (a + 6)).toNat
    let w := fun k : Nat => s.rd (Win.formula f + 2 * k)
    let m := (w 14).toNat
    let source := fun i : Nat => (w (24 + 4 * i)).toNat
    let share := fun i : Nat => (w (25 + 4 * i)).toNat
    let binder := (w 6).toNat
    let b := (clampTo 20 90 (w 4).toInt).toNat
    let r := min (w 5).toNat 80
    let count := (s.rd (a + 8)).toNat
    let mass := (s.rd (a + 10)).toNat
    let dn := dryMass mass b
    let among := fun lo hi : Nat => (List.range m).filter fun i => decide (lo ≤ source i ∧ source i < hi)
    let load := fun lo hi : Nat => ((among lo hi).map fun i => shareMass dn (share i)).sum
    let reclaimed := ((among 6 8).map share).sum
    let pn := shareMass dn reclaimed
    let cap := fun sc : Scale => ((s.rd (Win.scale sc + 6)).toNat : Int)
    let heavy := cap .agg < load 0 6 ∨ cap .rap < pn ∨ cap .fil < load 8 10 ∨
      cap .bit < binderMass b r dn pn
    let off := fun c : Nat => s.rd (0x200 + 64 * c) ≠ 1
    match (examineChecks n hdr s).1 with
    | .inl (code, revision) =>
      (s.rd (a + 2) = 0 ↔ code = .orderNumber) ∧ code ≠ .none ∧
      (code = .orderNumber ∨ code = .formulaRange → revision = 0) ∧
      (code ≠ .orderNumber → code ≠ .formulaRange → revision = w 1) ∧
      (code = .formulaRange → 23 < f) ∧ (code = .formulaNotReady → w 0 ≠ 2) ∧
      (code = .componentCount → m < 1 ∨ 10 < m) ∧
      (code = .duplicateSource → ∃ i j, i < j ∧ j < m ∧ source i = source j) ∧
      (code = .sourceDisabled → (∃ i, i < m ∧ (10 ≤ source i ∨ off (source i))) ∨
        (binder ≠ 10 ∧ binder ≠ 11) ∨ off binder) ∧
      (code = .shareSum → ((List.range m).map share).sum ≠ 1000) ∧
      (code = .batchCount → count < 1 ∨ 8 < count) ∧
      (code = .massRange → mass < 5000 ∨ 60000 < mass) ∧
      (code = .scaleCapacity → heavy) ∧ (code = .destination → 3 < (s.rd (a + 12)).toNat)
    | .inr o =>
      s.rd (a + 2) ≠ 0 ∧ f ≤ 23 ∧ w 0 = 2 ∧ 1 ≤ m ∧ m ≤ 10 ∧
      (∀ i j, i < j → j < m → source i ≠ source j) ∧
      (∀ i, i < m → source i < 10 ∧ ¬off (source i)) ∧ (binder = 10 ∨ binder = 11) ∧ ¬off binder ∧
      ((List.range m).map share).sum = 1000 ∧ 1 ≤ count ∧ count ≤ 8 ∧ 5000 ≤ mass ∧ mass ≤ 60000 ∧
      ¬heavy ∧ Route.ofDest (s.rd (a + 12)).toNat = some o.dest ∧
      o.slot = n ∧ o.number = s.rd (a + 2) ∧ o.count = count ∧ o.mass = mass ∧
      o.started = 0 ∧ o.charged = 0 ∧ o.finished = 0 ∧ o.tickets = 0 ∧ o.level = .none ∧ o.held = [] ∧
      o.snap.revision = w 1 ∧ o.snap.mixTemp = clampTo 1000 1900 (w 2).toInt ∧
      o.snap.superheat = clampTo 0 300 (w 3).toInt ∧ o.snap.b = b ∧ o.snap.r = r ∧
      o.snap.tank.source.code = binder ∧ o.snap.binderTol = (w 7).toNat ∧
      o.snap.binderReject = max (w 7).toNat (w 8).toNat ∧ o.snap.winMin = (w 9).toInt ∧
      o.snap.winMax = (w 10).toInt ∧ o.snap.dryTime = min (w 11).toNat 300 ∧
      o.snap.wetTime = max 50 (min (w 12).toNat 900) ∧ o.snap.overLimit = min (w 13).toNat 600 ∧
      o.snap.comps.length = m ∧
      (∀ i, i < m → ∃ c, o.snap.comps[i]? = some c ∧ c.source.code = source i ∧ c.share = share i ∧
        c.tol = (w (26 + 4 * i)).toNat ∧ c.reject = max (w (26 + 4 * i)).toNat (w (27 + 4 * i)).toNat ∧
        c.target = shareMass dn (share i)) ∧
      o.dn = dn ∧ o.s = reclaimed ∧ o.pn = pn ∧ o.bn = binderMass b r dn pn ∧
      (let raw := aggTemp o.snap.mixTemp o.snap.superheat reclaimed
       let top := (s.rd Win.dryerMax).toInt
       o.tAggRaw = raw ∧ o.tAgg = min raw top ∧ o.clamped = decide (top < raw)))

/-- WITHDRAW_WATCH reads nothing outside RUN and STANDBY; a reading that is not higher leaves every
order as it is; a higher one raises the level of its order, which stays queued while a batch of it is
under way, and the heat controller sees the queue without it. DISCARD stops the weigh-stage batch of the
order and marks it. An order with nothing under way closes: WITHDRAWN with no batch started, PARTIAL
DONE with some finished, in the slot and by ORDER CLOSED; a slot that no longer reads TAKEN or ACTIVE with
its number is seized instead, SLOT SEIZED (CLOSE), and no byte is written. Either way a batch of it that a
stage still holds has lost its order. A batch that has lost its order is not discarded by an order queued
since with the same slot and number. -/
def Obligations.WithdrawWatchRaises : Prop :=
  ∀ s : State, arbiterFree s = true →
    let u := { s with oe.watchMs := 0 }
    let request := fun o : Order => s.rd (Win.slot o.slot + Win.slotWithdraw)
    (s.rc.part ≠ .run → s.rc.part ≠ .standby → exec .withdrawWatch s = .next (settle u)) ∧
    ((∀ o ∈ s.oe.queue, (Level.ofWord (request o)).rank ≤ o.level.rank) →
      exec .withdrawWatch s = .next (settle u)) ∧
    (s.rc.part = .run ∨ s.rc.part = .standby →
      (∀ o pre post, s.oe.queue = pre ++ o :: post →
        (∀ x ∈ pre ++ post, (Level.ofWord (request x)).rank ≤ x.level.rank ∧
          ¬(x.slot = o.slot ∧ x.number = o.number)) →
        o.level = .none → request o = 1 → o.finished < o.started → o.started ≤ o.count →
        exec .withdrawWatch s = .next (settle (followQueue
          { u with oe.queue := pre ++ { o with level := .withdraw } :: post }))) ∧
      (∀ o b, s.oe.queue = [o] → o.level ≠ .discard → request o = 2 → o.finished < o.started →
        o.started ≤ o.count → s.co.weigh = some b → b.orderLeft = true →
        exec .withdrawWatch s = .next (settle (followQueue
          { u with oe.queue := [{ o with level := .discard }] }))) ∧
      (∀ o b, s.oe.queue = [o] → o.level ≠ .discard → request o = 2 → o.finished < o.started →
        o.started ≤ o.count → s.co.weigh = some b → b.slot = o.slot → b.order = o.number →
        b.orderLeft = false → b.aborted = false →
        ∃ v b', exec .withdrawWatch s = .next (settle v) ∧
          v.oe.queue = [{ o with level := .discard }] ∧ v.co.weigh = some b' ∧ b'.discard = true ∧
          b'.waiting = false ∧ b'.flags.discarded = true ∧ b'.seq = b.seq ∧ v.co.mix = s.co.mix ∧
          v.co.counter = s.co.counter ∧ v.heat.permit = none ∧ v.mem = s.mem ∧ v.nu = s.nu ∧
          (∀ sc p, (s.chan sc).state = .dosing p →
            (v.chan sc).state = .weighed ∧ (v.chan sc).feed = none ∧ b'.reported.get sc = true) ∧
          (∀ sc, sc ≠ .bit → (s.chan sc).state = .taring →
            (v.chan sc).state = .taring ∧ (v.chan sc).stopOrder = true) ∧
          ((s.chan .bit).state = .prefed → (v.chan .bit).state = .weighed)) ∧
      (∀ o outcome, s.oe.queue = [o] → o.level = .none → request o = 1 → o.slot < 32 →
        s.nu.list.length < 16 → Memory.wf s.mem = true →
        (o.started = 0 ∧ outcome = OrderOutcome.withdrawn) ∨
          (0 < o.started ∧ o.started < o.count ∧ o.finished = o.started ∧
            outcome = OrderOutcome.partialDone) →
        let a := Win.slot o.slot
        let lost := { s.co with weigh := s.co.weigh.map (loseOrder o.slot o.number),
                                mix := s.co.mix.map (loseOrder o.slot o.number) }
        ((s.rd a = 2 ∨ s.rd a = 3) → s.rd (a + 2) = o.number →
          ∃ v, exec .withdrawWatch s = .next (settle v) ∧ v.oe.queue = [] ∧ v.rd a = 4 ∧
            v.rd (a + 0x40) = BitVec.ofNat 16 outcome.code ∧ v.rd (a + 0x42) = 0 ∧
            v.rd32 (a + 0x4C) = s.seconds ∧
            v.nu = { s.nu with list := s.nu.list ++
              [⟨o.slot, o.number, 0, .orderClosed o.load outcome .none o.tickets⟩] } ∧
            v.oe.lookOwed = s.oe.lookOwed + 1 ∧ v.co = lost ∧ v.ch = s.ch ∧ v.rc = s.rc ∧
            ∀ b, (b < a ∨ a + 0x80 ≤ b) → v.byteAt b = s.byteAt b) ∧
        (¬((s.rd a = 2 ∨ s.rd a = 3) ∧ s.rd (a + 2) = o.number) → o.held = [] →
          ∃ v, exec .withdrawWatch s = .next (settle v) ∧ v.oe.queue = [] ∧ v.mem = s.mem ∧
            v.nu = { s.nu with list := s.nu.list ++ [⟨o.slot, o.number, 0,
              .slotSeizedClose (s.rd a) (s.rd (a + 2)) outcome⟩] } ∧
            v.oe.lookOwed = s.oe.lookOwed + 1 ∧ v.co = lost ∧ v.ch = s.ch ∧ v.rc = s.rc)))

/-! ### The batch coordinator -/

/-- WEIGH_START when R52 holds and the order's withdraw request reads NONE: the batch takes the counter's
number, which rises by 1, and the weigh stage; all four channels tare for it with their dose lists; the
order counts one batch started. The first batch of an order writes its slot ACTIVE; a slot that no longer
reads TAKEN with its number is seized, SLOT SEIZED (ACTIVATE), and its order leaves the queue: the batch runs
on and has lost its order. Every channel reads its scale record again, and BIT its pre-feed percent and purge
time: each field within its range is taken, any other keeps the working value held (span and capacity count as
unsigned to 65535: log 62, DEDUCED). BIT clears the level, actual, marks and held target of the batch before. When
R52 does not hold, nothing starts. -/
def Obligations.WeighStartBegins : Prop :=
  ∀ s : State, arbiterFree s = true →
    (weighMayStart s = false ∨ nextOrder s = none → exec .weighStart s = .next (settle s)) ∧
    (∀ o, weighMayStart s = true → nextOrder s = some o → findOrder s o.slot o.number = some o →
      s.rd (Win.slot o.slot + Win.slotWithdraw) = 0 →
      let a := Win.slot o.slot
      let kept := s.rd a = 2 ∧ s.rd (a + 2) = o.number
      let counted := s.oe.queue.map fun x =>
        if isOrder o.slot o.number x then { x with started := x.started + 1 } else x
      ∃ u, exec .weighStart s = .next (settle u) ∧
        u.co.counter = s.co.counter + 1 ∧
        (0 < o.started ∨ kept → u.co.weigh = some (newBatch s.co.counter o) ∧ u.co.mix = s.co.mix) ∧
        (o.started = 0 → ¬kept →
          u.co.weigh = some { newBatch s.co.counter o with orderLeft := true } ∧
          u.co.mix = s.co.mix.map (loseOrder o.slot o.number)) ∧
        (∀ sc, (u.chan sc).state = .taring ∧
          (u.chan sc).batch = some ⟨s.co.counter, o.slot, o.number⟩ ∧
          (u.chan sc).todo = doseList o sc ∧ (u.chan sc).ring = [] ∧ (u.chan sc).tareCount = 0 ∧
          (u.chan sc).feed = none ∧ (u.chan sc).gate = false ∧
          (u.chan sc).tare = (s.chan sc).tare ∧
          ((s.chan sc).work = none → (u.chan sc).work = none) ∧
          (∀ old, (s.chan sc).work = some old →
            ∃ new, (u.chan sc).work = some new ∧ scaleReread sc old new u)) ∧
        (s.bit.work = none → u.bit.work = none) ∧
        (∀ old, s.bit.work = some old → ∃ new, u.bit.work = some new ∧
          takenInRange 50 95 (u.rd Win.preFeedPercent) old.percent new.percent ∧
          takenInRange 0 600 (u.rd Win.purgeTime) old.purge new.purge) ∧
        u.bit = { s.bit with q := 0, prefed := 0, notDosed := false, preStalled := false, target := .none,
                             continuing := false, work := u.bit.work } ∧
        (0 < o.started ∨ kept → u.oe.queue = counted ∧ u.heat = s.heat ∧ u.nu = s.nu) ∧
        (0 < o.started → u.mem = s.mem) ∧
        (o.started = 0 → kept → Memory.wf s.mem = true → u.rd a = 3 ∧
          ∀ b, b ≠ a → b ≠ a + 1 → u.byteAt b = s.byteAt b) ∧
        (o.started = 0 → ¬kept → o.held = [] → s.nu.list.length < 16 → u.mem = s.mem ∧
          u.oe.queue = counted.filter (fun x => !isOrder o.slot o.number x) ∧
          u.oe.lookOwed = s.oe.lookOwed + 1 ∧
          u.nu = { s.nu with list := s.nu.list ++
            [⟨o.slot, o.number, 0, .slotSeizedActivate (s.rd a) (s.rd (a + 2))⟩] }) ∧
        u.mixer = s.mixer ∧ u.rc = s.rc ∧ u.inp = s.inp)

/-- CHARGE_DECISION on a READY batch with the mixer EMPTY and the permit granted, or on a discarded one:
the batch moves to the mixer stage with its route, REJECT for a REJECT batch, and the mixer charges. AGG
and RAP are asked at once: one in WEIGHED that holds material opens its gate, one below its empty
threshold ends EMPTY, one in FAULT stays; FIL waits for a filler delay above 0. The order counts one batch
charged, unless the batch has lost it. The cycle mark is the one the window names. When R59 does not hold,
nothing is decided. MODEL'S CHOICE (log 45): a channel that ends EMPTY at once detaches its batch. -/
def Obligations.ChargeDecisionCharges : Prop :=
  ∀ s : State, arbiterFree s = true →
    (chargeDue s = false → exec .chargeDecision s = .next (settle s)) ∧
    (∀ b v, chargeDue s = true → s.rc.clearStep ≠ .discharge → s.co.weigh = some b →
      s.heat.vals = some v → b.discard = true ∨ judgePermit v s.heat b.tAgg b.tank b.winMin b.winMax = none →
      let route := if batchReject b then Route.reject else b.dest
      ∃ u, exec .chargeDecision s = .next (settle u) ∧
        u.co = { s.co with weigh := none,
                           mix := some { b with route := some route, waiting := false } } ∧
        u.mixer.phase = .charging ∧ u.mixer.clock = 0 ∧ u.mixer.dryT = 0 ∧ u.mixer.fillT = 0 ∧
        u.mixer.batch = some ⟨b.seq, b.slot, b.order, route, b.dryTime, b.wetTime, b.overLimit⟩ ∧
        u.mixer.disch.get .bit = .notAsked ∧ u.heat.permit = none ∧ u.rc = s.rc ∧
        (s.nu.list.length < 16 → u.mem = s.mem) ∧
        u.oe.queue = (if b.orderLeft then s.oe.queue else s.oe.queue.map fun o =>
          if isOrder b.slot b.order o then { o with charged := o.charged + 1 } else o) ∧
        (∀ sc, sc = .agg ∨ sc = .rap →
          let c := s.chan sc
          (c.state = .weighed → emptyThr c ≤ c.net → u.mixer.disch.get sc = .asked ∧
            u.chan sc = { c with state := .discharging, feed := none, gate := true, dischTimer := 0 }) ∧
          (c.state = .weighed → c.net < emptyThr c → u.mixer.disch.get sc = .ended .empty ∧
            u.chan sc = { c with state := .idle, feed := none, gate := false, batch := none }) ∧
          (c.state ≠ .weighed → u.mixer.disch.get sc = .asked ∧ u.chan sc = c)) ∧
        (∀ w, s.mixer.work = some w →
          let delay := (s.rd Win.fillerDelay).toNat
          let code := (s.rd Win.markPhase).toNat
          let offset := (s.rd Win.markOffset).toNat
          u.mixer.cmPhase = (if code ≤ 6 then MarkPhase.ofCode code else w.markPhase) ∧
          u.mixer.cmOffset = (if offset ≤ 600 then offset else w.markOffset) ∧
          (0 < delay → delay ≤ 100 → u.mixer.disch.get .fil = .notAsked ∧ u.chan .fil = s.chan .fil)))

/-- A permit refused puts the batch in thermal wait with its flag and THERMAL HOLD; the wait limit read
then is used as 10 to 900 s. THERMAL_TIMEOUT posts once for the batch and leaves it waiting. -/
def Obligations.ThermalWait : Prop :=
  ∀ (s : State) (b : Batch), arbiterFree s = true → s.nu.list.length < 16 → s.co.weigh = some b →
    (∀ v a, chargeDue s = true → b.discard = false → s.heat.vals = some v →
      judgePermit v s.heat b.tAgg b.tank b.winMin b.winMax = some a →
      ∃ limit, (∀ k, k = (s.rd Win.thermalLimit).toNat →
          (k < 10 → limit = 10) ∧ (900 < k → limit = 900) ∧ (10 ≤ k → k ≤ 900 → limit = k)) ∧
        exec .chargeDecision s = .next (settle { s with
          co.weigh := some { b with waiting := true, wait := 0, waitLimit := limit,
                                    flags.thermalWait := true }
          heat.permit := some ⟨b.tAgg, b.tank, b.winMin, b.winMax, a⟩
          nu.list := s.nu.list ++ [⟨b.slot, b.order, b.seq, .thermalHold b.load a b.tAgg⟩] })) ∧
    (∀ r, s.heat.permit = some r → b.waiting = true → s.rc.part = .run → s.rc.paused = false →
      b.wait = 10 * b.waitLimit →
      (b.timeoutPosted = true → exec .thermalTimeout s = .next s) ∧
      (b.timeoutPosted = false → exec .thermalTimeout s = .next { s with
        co.weigh := some { b with timeoutPosted := true }
        nu.list := s.nu.list ++
          [⟨b.slot, b.order, b.seq, .thermalTimeout b.load r.answer b.waitLimit⟩] }))

/-! ### The scale channels -/

/-- WEIGH_FRAME, a sample: late counter 0, gross the count less calibration zero times 1000 by span rounded
half-up, net the gross less tare, and outside TARING, DOSING and DISCHARGING nothing else. In TARING the
gross joins the sum; at the eighth the tare is the rounded mean and the net the gross less it, a tare beyond
the zero limit is FAULT with SCALE FAULT posted, cause ZERO, ahead of what follows from it, and the first
component of a dry scale begins from base 0.0 kg in the sub-phase its thresholds give. BIT: with the
instruction not to dose the binder is NOT_DOSED, and with its source not enabled too, once BIT is PREFED;
else a changeover begins where the tank is not the one last used, tank select and circulate set and the flag
on the batch, and otherwise, or with purge time 0, the pre-feed to its level. In DISCHARGING a net below the
empty threshold ends the discharge, EMPTY, reported to the mixer or the clear cycle, gate closed, batch
detached, IDLE. Before the first successful check the frame is ignored. MODEL'S CHOICES: a sample replaces
the last one in FAULT and in HALTED too (log 10); the net at the end of a tare (log 29). -/
def Obligations.WeighFrameSample : Prop :=
  ∀ (s : State) (sc : Scale) (count : Int), s.port.resetLow = false →
    (∀ st, (s.chan sc).work = none → exec (.weighFrame sc count st) s = .next (settle s)) ∧
    (∀ (w : ScaleParams) (g : Int), (s.chan sc).work = some w → 0 < w.span →
      2 * w.span * g ≤ 2000 * (count - w.calZero) + w.span →
      2000 * (count - w.calZero) + w.span < 2 * w.span * (g + 1) → g ≤ w.capacity →
      let c := s.chan sc
      let c' := { c with late := 0, age := 0, gross := g, net := g - c.tare, frameGood := true }
      (s.rc.part = .halted ∨ c.state = .idle ∨ c.state = .prefed ∨ c.state = .changeover ∨
          c.state = .weighed ∨ c.state = .fault →
        exec (.weighFrame sc count .ok) s = .next (settle (s.setChan sc c'))) ∧
      (s.rc.part ≠ .halted → c.state = .taring →
        (c.tareCount < 7 → exec (.weighFrame sc count .ok) s = .next (settle (s.setChan sc
          { c' with tareSum := c.tareSum + g, tareCount := c.tareCount + 1 }))) ∧
        (∀ q : Int, 7 ≤ c.tareCount → 16 * q ≤ 2 * (c.tareSum + g) + 8 →
          2 * (c.tareSum + g) + 8 < 16 * (q + 1) →
          (w.zeroLimit < q.natAbs → ∃ u, exec (.weighFrame sc count .ok) s = .next (settle u) ∧
            (u.chan sc).state = .fault ∧ (u.chan sc).tare = q ∧ (u.chan sc).feed = none ∧
            (u.chan sc).batch = none ∧
            (s.nu.list.length < 13 → (∀ o ∈ s.oe.queue, o.held = []) →
              ∃ more, u.nu.list = s.nu.list ++
                attachedNotice c.batch (.scaleFault sc .zero .taring g) :: more)) ∧
          (∀ e rest, q.natAbs ≤ w.zeroLimit → c.stopOrder = false → sc ≠ .bit → c.todo = e :: rest →
            0 < e.target → arbiterFree s = true → feedsBarred s = false →
            s.rd (Win.source e.source) = 1 →
            let fine : Int := min (s.rd (Win.source e.source + 2)).toNat 5000
            let allow := clampTo 0 fine (s.rd (Win.source e.source + 0x0E)).toNat
            ∃ u, exec (.weighFrame sc count .ok) s = .next (settle u) ∧ (u.chan sc).tare = q ∧
              (u.chan sc).net = g - q ∧ (u.chan sc).base = 0 ∧ (u.chan sc).todo = rest ∧
              (u.chan sc).dose.entry = e ∧ (u.chan sc).dose.fine = fine ∧
              (u.chan sc).dose.allow = allow ∧ (u.chan sc).ring = [] ∧ (u.chan sc).gate = false ∧
              beginsDose (u.chan sc) e.source e.target fine allow) ∧
          (∀ e rest v, q.natAbs ≤ w.zeroLimit → c.stopOrder = false → sc = .bit → c.todo = e :: rest →
            arbiterFree s = true → s.bit.work = some v →
            let enabled := s.rd (Win.source e.source) = 1
            let fine : Int := min (s.rd (Win.source e.source + 2)).toNat 5000
            let allow := clampTo 0 fine (s.rd (Win.source e.source + 0x0E)).toNat
            let level := prefeedLevel e.target v.percent
            ∃ u, exec (.weighFrame sc count .ok) s = .next (settle u) ∧ (u.chan .bit).tare = q ∧
              (u.chan .bit).net = g - q ∧ (u.chan .bit).gate = false ∧
              ((∀ bc, s.bit.target = .bc bc → 0 ≤ bc) → u.mem = s.mem ∧ u.nu = s.nu) ∧
              (s.bit.target = .noDose → (u.chan .bit).state = .weighed ∧
                (u.chan .bit).results = [⟨e.source, 0, .notDosed⟩]) ∧
              (s.bit.target ≠ .noDose → ¬enabled → u.bit.notDosed = true ∧
                (s.bit.target = .none → (u.chan .bit).state = .prefed ∧ u.bit.prefed = 0) ∧
                (∀ bc, s.bit.target = .bc bc → (u.chan .bit).state = .weighed ∧
                  (u.chan .bit).results = [⟨e.source, 0, .notDosed⟩])) ∧
              (s.bit.target ≠ .noDose → enabled → ∀ tank, tankOf e.source = some tank →
                (s.bit.tankLast ≠ some tank → u.bit.tankSelect = decide (tank = .bt2) ∧
                  (∀ a b, c.batch = some a → s.co.weigh = some b → b.seq = a.seq → 0 < level →
                    u.co.weigh = some { b with flags.changeover := true })) ∧
                (s.bit.tankLast ≠ some tank → 0 < v.purge → (u.chan .bit).state = .changeover ∧
                  (u.chan .bit).feed = none ∧ u.bit.circulate = true ∧ u.bit.purge = 0 ∧
                  (u.chan .bit).dose.entry = e) ∧
                (s.bit.tankLast = some tank ∨ v.purge = 0 → 0 < level → u.bit.tankLast = some tank ∧
                  u.bit.q = level ∧ (u.chan .bit).dose.entry.target = level ∧
                  (u.chan .bit).ring = [] ∧
                  (feedsBarred s = false → beginsDose (u.chan .bit) e.source level fine allow)) ∧
                (s.bit.tankLast = some tank → 0 < level → u.co = s.co ∧
                  u.bit.tankSelect = s.bit.tankSelect ∧ u.bit.circulate = s.bit.circulate))))) ∧
      (s.rc.part ≠ .halted → c.state = .discharging →
        (emptyThr c ≤ g - c.tare → exec (.weighFrame sc count .ok) s = .next (settle (s.setChan sc c'))) ∧
        (g - c.tare < emptyThr c →
          let e := { c' with state := .idle, feed := none, gate := false, batch := none }
          (s.rc.clearStep ≠ .discharge → s.mixer.disch.get sc = .asked →
            exec (.weighFrame sc count .ok) s = .next (settle { s.setChan sc e with
              mixer.disch := s.mixer.disch.set sc (.ended .empty) })) ∧
          (s.rc.clearStep = .discharge →
            exec (.weighFrame sc count .ok) s = .next (settle { s.setChan sc e with
              rc.clearRec.ends := s.rc.clearRec.ends.set sc (some .empty) })))))

/-- WEIGH_FRAME in FAST and FINE: a dosed mass at or past target less allowance is the cutoff, recorded,
with the feed off and SETTLING begun; in FAST one short of it but at or past target less fine band goes to
FINE with the fine output alone. A window of 25 samples that ends with less growth than the least flow
counts a stall, more growth clears the count; the third in a row ends the dose in SETTLING. In SETTLING a
sample that moves by more than the motion band begins the count again, a still one counts, and the tenth
accepts the mass: too little with jogs left asks for a jog pulse, held while the feeds are barred; a
pre-feed is PREFED; a last component ends IN_TOL, SHORT, OVER_TOL or OVER_REJECT with the learned allowance,
the accumulated error and the count in its source record, and with a trace offered if it is SHORT or
OVER_REJECT; after a stall it ends STALL, with FEED STALL posted, a trace offered and no source record
written. One that is not the last ends so too, and the next component of the list begins behind it at the
accepted net, or is SKIPPED or NOT_DOSED. In JOGGING a sample is taken and the pulse runs on. In HELD it
clears the gap cause: under the pause cause or with the feeds barred the dose stays held; otherwise it goes
on as R88 has it: a cutoff without feeding, FINE, FAST, SETTLING behind a cut pulse, or the pulse not begun
given now. -/
def Obligations.WeighFrameCutsOff : Prop :=
  ∀ (s : State) (sc : Scale) (count : Int) (w : ScaleParams), s.port.resetLow = false →
    s.rc.part ≠ .halted → (s.chan sc).work = some w → grossOf w count ≤ w.capacity →
    let c := s.chan sc
    let net := grossOf w count - c.tare
    let d := net - c.base
    let threshold := c.dose.entry.target - c.dose.allow
    let feeds := c.state = .dosing .fine ∨
      (c.state = .dosing .fast ∧ d < c.dose.entry.target - c.dose.fine)
    (c.state = .dosing .fast ∨ c.state = .dosing .fine → threshold ≤ d →
      ∃ c', exec (.weighFrame sc count .ok) s = .next (settle (s.setChan sc c')) ∧
        c'.state = .dosing .settling ∧ c'.feed = none ∧ c'.gate = false ∧ c'.dose.cutoff = some d ∧
        c'.dose.settleCount = 0 ∧ c'.settleTimer = 0 ∧ c'.dose.entry = c.dose.entry ∧
        c'.results = c.results ∧ c'.todo = c.todo ∧ c'.tare = c.tare ∧ c'.base = c.base ∧
        c'.batch = c.batch ∧ c'.late = 0) ∧
    (c.state = .dosing .fast → d < threshold → c.dose.entry.target - c.dose.fine ≤ d →
      (∀ k, c.winCount = some k → k < 24) →
      ∃ c', exec (.weighFrame sc count .ok) s = .next (settle (s.setChan sc c')) ∧
        c'.state = .dosing .fine ∧ c'.feed = some (c.dose.entry.source, .fine) ∧ c'.gate = false ∧
        c'.dose = c.dose ∧ c'.results = c.results ∧ c'.tare = c.tare ∧ c'.base = c.base ∧
        c'.batch = c.batch) ∧
    (feeds → d < threshold → c.winCount = some 24 →
      ∃ c', exec (.weighFrame sc count .ok) s = .next (settle (s.setChan sc c')) ∧
        (c.dose.minFlow = 0 ∨ c.dose.minFlow ≤ d - c.winStart →
          c'.stall = 0 ∧ c'.gate = c.gate ∧ c'.state = c.state ∧ c'.feed = c.feed ∧ c'.dose = c.dose ∧
          c'.winCount = some 0 ∧ c'.winStart = d) ∧
        (c.dose.minFlow ≠ 0 → d - c.winStart < c.dose.minFlow →
          c'.stall = c.stall + 1 ∧
          (c.stall < 2 → c'.state = c.state ∧ c'.feed = c.feed ∧ c'.dose = c.dose) ∧
          (2 ≤ c.stall → c'.state = .dosing .settling ∧ c'.feed = none ∧
            c'.dose = { c.dose with stallAt := some d, settleCount := 0 } ∧ c'.settleTimer = 0))) ∧
    (c.state = .dosing .settling →
      let moved := (net - c.net).natAbs
      (w.motionBand < moved ∨ c.dose.settleCount < 9 →
        ∃ c', exec (.weighFrame sc count .ok) s = .next (settle (s.setChan sc c')) ∧
          c'.state = .dosing .settling ∧ c'.feed = c.feed ∧ c'.net = net ∧
          c'.dose = { c.dose with
            settleCount := if w.motionBand < moved then 0 else c.dose.settleCount + 1 }) ∧
      (moved ≤ w.motionBand → 9 ≤ c.dose.settleCount →
        let short := d < c.dose.entry.target - c.dose.entry.tol ∧ c.dose.jogsUsed < c.dose.jogLimit
        let ring := (c.ring ++ [d]).drop (c.ring.length + 1 - 128)
        let learned := newAllowance { c.dose with
          observed := match c.dose.cutoff, c.dose.observed with
            | some m, none => some (d - m)
            | _, o => o }
        (c.dose.stallAt = none → isPrefeed s sc = false → short →
          ∃ u, exec (.weighFrame sc count .ok) s = .next (settle u) ∧
            (feedsBarred s = false → (u.chan sc).state = .dosing .jogging ∧
              (u.chan sc).feed = some (c.dose.entry.source, .fine) ∧ (u.chan sc).jogTimer = 0) ∧
            (feedsBarred s = true → (u.chan sc).state = .dosing (.held .jogDue) ∧
              (u.chan sc).feed = none) ∧
            (u.chan sc).dose.jogsUsed = c.dose.jogsUsed + 1 ∧ u.mem = s.mem ∧ u.nu = s.nu ∧
            u.co = s.co) ∧
        (c.dose.stallAt = none → isPrefeed s sc = true → s.bit.target = .none →
          ∃ u, exec (.weighFrame sc count .ok) s = .next (settle u) ∧ (u.chan sc).state = .prefed ∧
            u.bit.prefed = d ∧ (u.chan sc).feed = none ∧ u.mem = s.mem ∧ u.nu = s.nu) ∧
        (isPrefeed s sc = false → sc = .bit ∨ c.todo = [] → arbiterFree s = true →
          Memory.wf s.mem = true →
          (c.dose.stallAt = none → ¬short → ∃ u, exec (.weighFrame sc count .ok) s = .next (settle u) ∧
            endsVerified sc c d learned ring s u) ∧
          (∀ m, c.dose.stallAt = some m → s.nu.list.length < 16 →
            ∃ u, exec (.weighFrame sc count .ok) s = .next (settle u) ∧ endsStalled sc c d m ring s u)) ∧
        (sc ≠ .bit → c.todo ≠ [] → arbiterFree s = true → Memory.wf s.mem = true → s.nu.list.length < 15 →
          c.dose.stallAt ≠ none ∨ ¬short →
          ∃ u, exec (.weighFrame sc count .ok) s = .next (settle u) ∧
            endsAndGoesOn sc c net learned ring s u))) ∧
    (c.state = .dosing .jogging →
      ∃ c', exec (.weighFrame sc count .ok) s = .next (settle (s.setChan sc c')) ∧
        c'.state = c.state ∧ c'.feed = c.feed ∧ c'.net = net ∧ c'.dose = c.dose ∧
        c'.jogTimer = c.jogTimer ∧ c'.results = c.results ∧ c'.todo = c.todo) ∧
    (∀ back, c.state = .dosing (.held back) →
      ∃ c', exec (.weighFrame sc count .ok) s = .next (settle (s.setChan sc c')) ∧
        c'.net = net ∧ c'.gapHold = false ∧ c'.results = c.results ∧ c'.todo = c.todo ∧
        c'.base = c.base ∧ c'.batch = c.batch ∧
        (feedsBarred s = true ∨ c.pauseHold = true → c'.state = c.state ∧ c'.feed = c.feed ∧
          c'.pauseHold = c.pauseHold ∧ c'.dose = c.dose) ∧
        (feedsBarred s = false → c.pauseHold = false →
          (back = .fast ∨ back = .fine → threshold ≤ d → c'.state = .dosing .settling ∧ c'.feed = none ∧
            c'.settleTimer = 0 ∧ c'.dose = { c.dose with cutoff := some d, settleCount := 0 }) ∧
          (back = .fine ∨ (back = .fast ∧ c.dose.entry.target - c.dose.fine ≤ d) → d < threshold →
            c'.state = .dosing .fine ∧ c'.feed = some (c.dose.entry.source, .fine) ∧
            c'.dose = c.dose) ∧
          (back = .fast → d < c.dose.entry.target - c.dose.fine → d < threshold →
            c'.state = .dosing .fast ∧ c'.feed = some (c.dose.entry.source, .fast) ∧
            c'.dose = c.dose) ∧
          (back = .jogCut → c'.state = .dosing .settling ∧ c'.feed = none ∧ c'.settleTimer = 0 ∧
            c'.dose = { c.dose with settleCount := 0 }) ∧
          (back = .jogDue → c'.state = .dosing .jogging ∧ c'.jogTimer = 0 ∧
            c'.feed = some (c.dose.entry.source, .fine) ∧ c'.dose = c.dose)))

/-- A fault frame, OVERLOAD, CONVERTER FAULT or a gross above the capacity, puts a channel not in FAULT
into FAULT with its outputs off and no batch. Outside HALTED and a clear step past WAIT FAULTS: in IDLE it
posts SCALE FAULT and sets clear required when the hopper holds material; in DISCHARGING it posts SCALE FAULT,
sets clear required and reports the discharge ended, FAULTED; in the tare, a changeover, a dose, PREFED or
WEIGHED of the weigh-stage batch it ends that batch, no feed runs on and clear required is set; the mixer-stage
batch stays as it is, but that it has lost its order if that order is seized. In WEIGHED with the mixer-stage
batch it posts SCALE FAULT, sets clear required and that scale's discharge reads ENDED, FAULTED; with no batch
clear required stays. In TAKE, WAIT RECEIVER, DISCHARGE and MIX of the clear cycle it takes the part to HALTED,
cause SCALE FAULT IN CLEAR, clear required as it stood (MODEL'S CHOICE, log 34). A channel in FAULT posts nothing
more. -/
def Obligations.FaultFrameFaults : Prop :=
  ∀ (s : State) (sc : Scale) (count : Int) (st : FrameStatus) (w : ScaleParams) (k : ScaleCause),
    s.port.resetLow = false → (s.chan sc).work = some w →
    (st = .overload ∧ k = .overload) ∨ ((st = .converterFault ∨ st = .other) ∧ k = .converterFault) ∨
      (st = .ok ∧ w.capacity < grossOf w count ∧ k = .capacity) →
    let c := s.chan sc
    let out := { c with state := .fault, late := 0, age := 0, frameGood := false, feed := none,
                        gate := false, gapHold := false, pauseHold := false, stopOrder := false,
                        batch := none }
    let early := s.rc.part ≠ .halted ∧ (s.rc.clearStep = .none ∨ s.rc.clearStep = .waitFaults)
    ((∃ u, exec (.weighFrame sc count st) s = .next (settle u) ∧ (u.chan sc).state = .fault ∧
        (c.state ≠ .fault →
          (u.chan sc).feed = none ∧ (u.chan sc).gate = false ∧ (u.chan sc).batch = none)) ∧
      (c.state = .fault → exec (.weighFrame sc count st) s = .next (settle (s.setChan sc
        { c with late := 0, age := 0, frameGood := false }))) ∧
      (c.state = .idle → early → s.nu.list.length < 16 →
        exec (.weighFrame sc count st) s = .next (settle { s.setChan sc out with
          rc.clearRequired := s.rc.clearRequired || decide (emptyThr c ≤ c.net)
          nu.list := s.nu.list ++ [attachedNotice c.batch (.scaleFault sc k .idle c.gross)] })) ∧
      (c.state = .discharging → early → s.mixer.disch.get sc = .asked → s.nu.list.length < 16 →
        exec (.weighFrame sc count st) s = .next (settle { s.setChan sc out with
          rc.clearRequired := true
          mixer.disch := s.mixer.disch.set sc (.ended .faulted)
          nu.list := s.nu.list ++ [attachedNotice c.batch (.scaleFault sc k .discharging c.gross)] })) ∧
      (c.state = .weighed → early → s.nu.list.length < 16 →
        let faulted := { s.setChan sc out with
          nu.list := s.nu.list ++ [attachedNotice c.batch (.scaleFault sc k .weighed c.gross)] }
        (c.batch = none → exec (.weighFrame sc count st) s = .next (settle faulted)) ∧
        (∀ a b, c.batch = some a → s.co.mix = some b → b.seq = a.seq →
          (∀ x, s.co.weigh = some x → x.seq ≠ a.seq) →
          exec (.weighFrame sc count st) s = .next (settle { faulted with
            rc.clearRequired := true
            mixer.disch := s.mixer.disch.set sc (.ended .faulted) }))) ∧
      (c.state ≠ .fault → s.rc.part ≠ .halted → clearPastFaults s.rc.clearStep = true →
        s.nu.list.length < 15 → ∃ u, exec (.weighFrame sc count st) s = .next (settle u) ∧
          haltsInClear sc out (attachedNotice c.batch (.scaleFault sc k c.state c.gross)) s u) ∧
      (∀ a b, ofWeighStage c.state = true → early → c.batch = some a → s.co.weigh = some b →
        b.seq = a.seq →
        ∃ u, exec (.weighFrame sc count st) s = .next (settle u) ∧ u.co.weigh = none ∧
          (u.co.mix = s.co.mix ∨ u.co.mix = s.co.mix.map (loseOrder b.slot b.order)) ∧
          u.co.counter = s.co.counter ∧ u.rc.clearRequired = true ∧
          u.rc.part = s.rc.part ∧ u.heat.permit = none ∧
          (channelsSafe s = true → ∀ sc', (u.chan sc').feed = none) ∧
          (∀ sc' p', sc' ≠ sc → (s.chan sc').state = .dosing p' →
            ((u.chan sc').state = .weighed ∨ (u.chan sc').state = .idle) ∧ (u.chan sc').batch = none)))

/-- LATE_PERIOD: the late counter rises by one. The third puts a channel not in FAULT into FAULT with its
outputs off and no batch, SCALE FAULT posted with cause LOST, the state left and the last gross, ahead of
what follows from it: outside HALTED and a clear step past WAIT FAULTS, from IDLE clear required with material
in the hopper, from DISCHARGING the end of the discharge, FAULTED, and clear required, from the tare, a
changeover, a dose, PREFED or WEIGHED the end of the weigh-stage batch; in TAKE, WAIT RECEIVER, DISCHARGE and MIX
of the clear cycle HALTED, cause SCALE FAULT IN CLEAR, clear required as it stood (MODEL'S CHOICE, log 34); one in
FAULT posts nothing. One that ends in FAST, FINE or JOGGING holds the dose with
the gap cause, remembers the sub-phase (a jog pulse as cut short), and marks SAMPLE GAP on the dose and on
the batch; one that ends in HELD marks them and leaves the sub-phase; one that ends in SETTLING begins the
settle count again. A channel without working parameters ignores it. -/
def Obligations.LatePeriodHolds : Prop :=
  ∀ (s : State) (sc : Scale), s.port.resetLow = false →
    let c := s.chan sc
    (c.work = none → exec (.latePeriod sc) s = .next (settle s)) ∧
    (c.work.isSome = true → 2 ≤ c.late →
      let out := { c with state := .fault, late := 3, age := 0, feed := none, gate := false,
                          gapHold := false, pauseHold := false, stopOrder := false, batch := none }
      let notice := attachedNotice c.batch (.scaleFault sc .lost c.state c.gross)
      let early := s.rc.part ≠ .halted ∧ (s.rc.clearStep = .none ∨ s.rc.clearStep = .waitFaults)
      (c.state = .fault → exec (.latePeriod sc) s = .next (settle (s.setChan sc
        { c with late := 3, age := 0 }))) ∧
      (c.state ≠ .fault → ∃ u, exec (.latePeriod sc) s = .next (settle u) ∧
        (u.chan sc).state = .fault ∧ (u.chan sc).late = 3 ∧ (u.chan sc).feed = none ∧
        (u.chan sc).gate = false ∧ (u.chan sc).batch = none ∧
        (s.nu.list.length < 13 → (∀ o ∈ s.oe.queue, o.held = []) →
          ∃ more, u.nu.list = s.nu.list ++ notice :: more)) ∧
      (c.state = .idle → early → s.nu.list.length < 16 →
        exec (.latePeriod sc) s = .next (settle { s.setChan sc out with
          rc.clearRequired := s.rc.clearRequired || decide (emptyThr c ≤ c.net)
          nu.list := s.nu.list ++ [notice] })) ∧
      (c.state = .discharging → early → s.mixer.disch.get sc = .asked → s.nu.list.length < 16 →
        exec (.latePeriod sc) s = .next (settle { s.setChan sc out with
          rc.clearRequired := true
          mixer.disch := s.mixer.disch.set sc (.ended .faulted)
          nu.list := s.nu.list ++ [notice] })) ∧
      (c.state ≠ .fault → s.rc.part ≠ .halted → clearPastFaults s.rc.clearStep = true →
        s.nu.list.length < 15 → ∃ u, exec (.latePeriod sc) s = .next (settle u) ∧
          haltsInClear sc out notice s u) ∧
      (∀ a b, ofWeighStage c.state = true → early → c.batch = some a → s.co.weigh = some b →
        b.seq = a.seq →
        ∃ u, exec (.latePeriod sc) s = .next (settle u) ∧ u.co.weigh = none ∧
          u.rc.clearRequired = true ∧ u.rc.part = s.rc.part ∧ u.heat.permit = none ∧
          (channelsSafe s = true → ∀ sc', (u.chan sc').feed = none))) ∧
    (c.work.isSome = true → c.late < 2 → c.state = .idle ∨ c.state = .weighed ∨ c.state = .taring →
      exec (.latePeriod sc) s = .next (settle (s.setChan sc { c with late := c.late + 1, age := 0 }))) ∧
    (c.work.isSome = true → c.late < 2 → s.rc.part ≠ .halted → c.state = .dosing .settling →
      exec (.latePeriod sc) s = .next (settle (s.setChan sc
        { c with late := c.late + 1, age := 0, dose.settleCount := 0 }))) ∧
    (∀ back, c.work.isSome = true → c.late < 2 → s.rc.part ≠ .halted →
      (c.state = .dosing .fast ∧ back = Remembered.fast) ∨ (c.state = .dosing .fine ∧ back = .fine) ∨
        (c.state = .dosing .jogging ∧ back = .jogCut) ∨ c.state = .dosing (.held back) →
      ∃ u, exec (.latePeriod sc) s = .next (settle u) ∧ (u.chan sc).state = .dosing (.held back) ∧
        (u.chan sc).gapHold = true ∧ (u.chan sc).flags.sampleGap = true ∧
        (u.chan sc).late = c.late + 1 ∧
        (c.state = .dosing (.held back) → (u.chan sc).pauseHold = c.pauseHold ∧
          (u.chan sc).dose = { c.dose with sampleGap := true } ∧ (u.chan sc).feed = c.feed) ∧
        (c.state ≠ .dosing (.held back) → (u.chan sc).feed = none ∧ (u.chan sc).gate = false ∧
          (u.chan sc).dose = { c.dose with held := true, sampleGap := true }) ∧
        (∀ a b, c.batch = some a → s.co.weigh = some b → b.seq = a.seq →
          u.co.weigh = some { b with flags.sampleGap := true }) ∧
        u.mem = s.mem ∧ u.nu = s.nu ∧ u.rc = s.rc)

/-- SETTLE_TIMEOUT, the event that the settle timer reaches the timeout (log 5), in SETTLING marks the dose
and its batch UNSETTLED and verifies: too little with jogs left gives a jog pulse of the fine output, held
while the feeds are barred; a pre-feed is PREFED; a last component ends IN_TOL, SHORT, OVER_TOL or
OVER_REJECT, its allowance kept, the accumulated error and the count in its source record, no other byte
changed, a trace offered if it is SHORT or OVER_REJECT, and the channel WEIGHED; after a stall it ends
STALL, with FEED STALL posted, a trace offered and no source record written. A component that is not the
last ends so too, and the next one of the list begins. Every such verify leaves the other channels, run
control, the order engine, the mixer, the heat controller and the inputs as they were. Outside RUN or
SETTLING nothing changes. -/
def Obligations.SettleTimeoutVerifies : Prop :=
  ∀ (s : State) (sc : Scale), arbiterFree s = true →
    let c := s.chan sc
    let actual := c.net - c.base
    let e := actual - c.dose.entry.target
    let short := e < -(c.dose.entry.tol : Int) ∧ c.dose.jogsUsed < c.dose.jogLimit
    (s.rc.part ≠ .run ∨ c.state ≠ .dosing .settling →
      exec (.settleTimeout sc) s = .next (settle s)) ∧
    (s.rc.part = .run → c.state = .dosing .settling →
      (∃ u, exec (.settleTimeout sc) s = .next (settle u) ∧ (u.chan sc).flags.unsettled = true ∧
        (∀ sc', sc' ≠ sc → u.chan sc' = s.chan sc') ∧ u.rc = s.rc ∧ u.oe = s.oe ∧
        u.mixer = s.mixer ∧ u.heat = s.heat ∧ u.inp = s.inp) ∧
      (c.dose.stallAt = none → isPrefeed s sc = false → short →
        ∃ u, exec (.settleTimeout sc) s = .next (settle u) ∧
          (feedsBarred s = false → (u.chan sc).state = .dosing .jogging ∧
            (u.chan sc).feed = some (c.dose.entry.source, .fine) ∧ (u.chan sc).jogTimer = 0) ∧
          (feedsBarred s = true → (u.chan sc).state = .dosing (.held .jogDue) ∧
            (u.chan sc).feed = none) ∧
          (u.chan sc).gate = false ∧ (u.chan sc).dose.jogsUsed = c.dose.jogsUsed + 1 ∧
          (u.chan sc).dose.unsettled = true ∧ (u.chan sc).flags.unsettled = true ∧
          (∀ a b, c.batch = some a → s.co.weigh = some b → b.seq = a.seq →
            u.co.weigh = some { b with flags.unsettled := true }) ∧
          u.mem = s.mem ∧ u.nu = s.nu) ∧
      (c.dose.stallAt = none → isPrefeed s sc = true → s.bit.target = .none →
        ∃ u, exec (.settleTimeout sc) s = .next (settle u) ∧ (u.chan sc).state = .prefed ∧
          u.bit.prefed = actual ∧ (u.chan sc).feed = none ∧ (u.chan sc).flags.unsettled = true ∧
          u.mem = s.mem ∧ u.nu = s.nu) ∧
      (isPrefeed s sc = false → sc = .bit ∨ c.todo = [] → Memory.wf s.mem = true →
        (c.dose.stallAt = none → ¬short → ∃ u, exec (.settleTimeout sc) s = .next (settle u) ∧
          endsVerified sc c actual c.dose.allow c.ring s u) ∧
        (∀ m, c.dose.stallAt = some m → s.nu.list.length < 16 →
          ∃ u, exec (.settleTimeout sc) s = .next (settle u) ∧
            endsStalled sc c actual m c.ring s u)) ∧
      (sc ≠ .bit → c.todo ≠ [] → Memory.wf s.mem = true → s.nu.list.length < 15 →
        c.dose.stallAt ≠ none ∨ ¬short →
        ∃ u, exec (.settleTimeout sc) s = .next (settle u) ∧
          endsAndGoesOn sc c c.net c.dose.allow c.ring s u))

/-- JOG_PULSE_END and DISCHARGE_TIMEOUT are the events that the timers reach their limits (MODEL'S CHOICE,
log 5). JOG_PULSE_END in JOGGING ends the pulse in SETTLING with the feed off. DISCHARGE_TIMEOUT in
DISCHARGING, in RUN without PAUSED: gate closed, SCALE RESIDUE posted with the net, the end reported as timed
out to the mixer or the clear cycle, the batch detached, IDLE. Otherwise neither changes anything. -/
def Obligations.ChannelTimersEnd : Prop :=
  (∀ (s : State) (sc : Scale), s.port.resetLow = false →
     let c := s.chan sc
     (s.rc.part ≠ .run ∨ c.state ≠ .dosing .jogging → exec (.jogPulseEnd sc) s = .next s) ∧
     (s.rc.part = .run → c.state = .dosing .jogging →
       exec (.jogPulseEnd sc) s = .next (s.setChan sc { c with
         state := .dosing .settling, feed := none, gate := false, gapHold := false, pauseHold := false,
         settleTimer := 0, winCount := none, jogTimer := max c.jogTimer c.dose.jogPulse,
         dose.settleCount := 0 }))) ∧
  (∀ (s : State) (sc : Scale), s.port.resetLow = false →
     let c := s.chan sc
     (s.rc.part ≠ .run ∨ s.rc.paused = true ∨ c.state ≠ .discharging →
       exec (.dischargeTimeout sc) s = .next (settle s)) ∧
     (∀ w, s.rc.part = .run → s.rc.paused = false → c.state = .discharging → c.work = some w →
       s.nu.list.length < 16 →
       let u := { s.setChan sc { c with state := .idle, feed := none, gate := false, batch := none,
                                        dischTimer := max c.dischTimer (10 * w.dischargeTimeout) } with
         nu.list := s.nu.list ++ [attachedNotice c.batch (.scaleResidue sc c.net)] }
       (s.rc.clearStep ≠ .discharge → s.mixer.disch.get sc = .asked →
         exec (.dischargeTimeout sc) s = .next (settle { u with
           mixer.disch := s.mixer.disch.set sc (.ended .timedOut) })) ∧
       (s.rc.clearStep = .discharge → exec (.dischargeTimeout sc) s = .next (settle { u with
           rc.clearRec.ends := s.rc.clearRec.ends.set sc (some .timedOut) }))))

/-- BIN_LOW_INPUT sets the level of its own bin and no other; one that goes active while a dose of it is
watched posts BIN LOW with the dosed mass and flags channel and batch; the feed runs on. In HALTED, where
a dose stands as it was, it posts the notice alone (the model's choice, log 52). A source without such an
input changes nothing. -/
def Obligations.BinLowWatched : Prop :=
  ∀ (s : State) (src : Source) (a : Bool), s.port.resetLow = false →
    let c := s.chan src.scale
    (src.hasLowInput = false → exec (.binLowInput src a) s = .next s) ∧
    (src.hasLowInput = true → ∃ bits : BitVec 8,
      (∀ n, n < 8 → bits.getLsbD n = if n = src.code then a else s.inp.binLow.getLsbD n) ∧
      (a = false ∨ s.inp.binLow.getLsbD src.code = true ∨ c.dose.lowUsed = false ∨
          c.dose.entry.source ≠ src ∨ (∀ p, c.state ≠ .dosing p) →
        exec (.binLowInput src a) s = .next { s with inp.binLow := bits }) ∧
      (∀ p at0, a = true → s.inp.binLow.getLsbD src.code = false →
        c.state = .dosing p → c.dose.entry.source = src → c.dose.lowUsed = true →
        c.batch = some at0 → s.nu.list.length < 16 →
        let list := s.nu.list ++ [⟨at0.slot, at0.order, at0.seq, .binLow src.scale src (c.net - c.base)⟩]
        (s.rc.part = .halted → exec (.binLowInput src a) s = .next { s with
          inp.binLow := bits, nu.list := list }) ∧
        (s.rc.part ≠ .halted →
          exec (.binLowInput src a) s = .next { s.setChan src.scale { c with flags.binLow := true } with
            inp.binLow := bits
            nu.list := list
            co.weigh := s.co.weigh.map fun b =>
              if b.seq = at0.seq then { b with flags.binLow := true } else b
            co.mix := s.co.mix.map fun b =>
              if b.seq = at0.seq then { b with flags.binLow := true } else b })))

/-- PURGE_TIMER_EXPIRY in CHANGEOVER, in RUN without PAUSED: circulate off, tank last used the binder
source, and the pre-feed to Bn times percent by 100, rounded half-up, begins in the sub-phase its
thresholds give. Otherwise nothing changes. Once the third dry scale has reported, at once: a dry total
below nine tenths of Dn is SHORT, and the binder is NOT_DOSED, in the pre-feed with the net as it stands, in
PREFED with the pre-fed actual, in CHANGEOVER with 0, the changeover cut short (circulate off, tank last used
NONE, tank-select as it stood); in the tare BIT holds the instruction. Otherwise the corrected target Bc, the
binder mass of the dry total, is the target of the batch's last entry, and BIT holds it until it is PREFED. There
it reports WEIGHED by the first that applies: a disabled source, NOT_DOSED with 0; a stalled pre-feed, STALL; a Bc
of 0, SKIPPED, each of the two with the pre-fed actual, and none of the three writes its source record; a pre-fed
mass not below Bc is verified directly, its source record written with the learned allowance, the accumulated
error and the count, and a trace offered of OVER_REJECT; below Bc it goes on to Bc. -/
def Obligations.PurgeEndsChangeover : Prop :=
  (∀ s : State, s.port.resetLow = false →
    let c := s.chan .bit
    (s.rc.part ≠ .run ∨ s.rc.paused = true ∨ c.state ≠ .changeover →
      exec .purgeTimerExpiry s = .next (settle s)) ∧
    (∀ (v : BinderVals) (q : Int), s.rc.part = .run → s.rc.paused = false → c.state = .changeover →
      s.bit.work = some v → 0 < q →
      200 * q ≤ 2 * c.dose.entry.target * v.percent + 100 →
      2 * c.dose.entry.target * v.percent + 100 < 200 * (q + 1) →
      ∃ u, exec .purgeTimerExpiry s = .next (settle u) ∧ u.bit.circulate = false ∧
        u.bit.tankLast = tankOf c.dose.entry.source ∧ u.bit.q = q ∧
        u.bit.tankSelect = s.bit.tankSelect ∧ (u.chan .bit).dose.entry.target = q ∧
        (u.chan .bit).ring = [] ∧ (u.chan .bit).gate = false ∧
        (s.rc.clearStep = .none →
          (q ≤ c.dose.allow → (u.chan .bit).state = .dosing .jogging ∧
            (u.chan .bit).feed = some (c.dose.entry.source, .fine)) ∧
          (c.dose.allow < q → q ≤ c.dose.fine → (u.chan .bit).state = .dosing .fine ∧
            (u.chan .bit).feed = some (c.dose.entry.source, .fine)) ∧
          (c.dose.allow < q → c.dose.fine < q → (u.chan .bit).state = .dosing .fast ∧
            (u.chan .bit).feed = some (c.dose.entry.source, .fast))) ∧
        (s.rc.clearStep ≠ .none → (u.chan .bit).feed = none) ∧
        u.mem = s.mem ∧ u.nu = s.nu ∧ u.co = s.co ∧ u.mixer = s.mixer)) ∧
  (∀ (s : State) (b : Batch), s.rc.part = .run → s.co.weigh = some b → dryReported b = true →
    b.dryTotal = none → b.discard = false → b.aborted = false →
    let c := s.chan .bit
    let total := b.nets.agg + b.nets.rap + b.nets.fil
    let bc := binderMass b.b b.r total b.nets.rap
    let pf := s.bit.prefed
    ∃ u, nextAtOnce s = some u ∧
      (10 * total < 9 * b.dn →
        (∃ b', u.co.weigh = some b' ∧ b'.short = true ∧ b'.dryTotal = some total) ∧
        u.mem = s.mem ∧ u.nu = s.nu ∧
        (∀ p, c.state = .dosing p → reportsWeighed .bit c c.net .notDosed s u) ∧
        (c.state = .prefed → reportsWeighed .bit c pf .notDosed s u) ∧
        (c.state = .changeover → reportsWeighed .bit c 0 .notDosed s u ∧ u.bit.circulate = false ∧
          u.bit.tankLast = none ∧ u.bit.tankSelect = s.bit.tankSelect) ∧
        (c.state = .taring → u.bit.target = .noDose ∧ u.ch = s.ch)) ∧
      (9 * b.dn ≤ 10 * total →
        let held := some { b with dryTotal := some total, comps := setLastTarget bc b.comps }
        (c.state ≠ .prefed → u.bit.target = .bc bc ∧ u.co.weigh = held ∧ u.ch = s.ch) ∧
        (c.state = .prefed → s.bit.notDosed = true →
          reportsWeighed .bit c 0 .notDosed s u ∧ u.mem = s.mem ∧ u.nu = s.nu) ∧
        (c.state = .prefed → s.bit.notDosed = false → s.bit.preStalled = true →
          reportsWeighed .bit c pf .stall s u ∧ u.mem = s.mem ∧ u.nu = s.nu) ∧
        (c.state = .prefed → s.bit.notDosed = false → s.bit.preStalled = false → bc = 0 →
          reportsWeighed .bit c pf .skipped s u ∧ u.mem = s.mem ∧ u.nu = s.nu) ∧
        (c.state = .prefed → s.bit.notDosed = false → s.bit.preStalled = false → bc ≠ 0 → bc ≤ pf →
          arbiterFree s = true → Memory.wf s.mem = true →
          endsVerified .bit { c with dose.entry.target := bc } pf (newAllowance c.dose) c.ring s u) ∧
        (c.state = .prefed → s.bit.notDosed = false → s.bit.preStalled = false → bc ≠ 0 →
          (pf < bc → s.rc.paused = false → s.rc.clearStep = .none → u.co.weigh = held ∧
            u.bit.continuing = true ∧ u.bit.target = .none ∧ (u.chan .bit).dose.entry.target = bc ∧
            (u.chan .bit).dose.jogsUsed = 0 ∧ u.mem = s.mem ∧
            (bc - c.dose.allow ≤ pf → (u.chan .bit).state = .dosing .jogging ∧
              (u.chan .bit).feed = some (c.dose.entry.source, .fine)) ∧
            (pf < bc - c.dose.allow → bc - c.dose.fine ≤ pf → (u.chan .bit).state = .dosing .fine ∧
              (u.chan .bit).feed = some (c.dose.entry.source, .fine)) ∧
            (pf < bc - c.dose.allow → pf < bc - c.dose.fine → (u.chan .bit).state = .dosing .fast ∧
              (u.chan .bit).feed = some (c.dose.entry.source, .fast))) ∧
          (bc ≤ pf → (u.chan .bit).state = .weighed ∧ (u.chan .bit).feed = none ∧
            (u.chan .bit).results = [⟨c.dose.entry.source, pf,
              if pf - bc ≤ c.dose.entry.tol then .inTol
              else if (c.dose.entry.reject : Int) < pf - bc then .overReject else .overTol⟩] ∧
            ∃ b', u.co.weigh = some b' ∧ b'.reported.bit = true ∧ b'.nets.bit = pf))))

/-! ### The mixer -/

/-- FILLER_DELAY_EXPIRY in CHARGING with FIL not asked: a filler scale that holds material discharges
with its gate open, FIL's status ASKED; one below its empty threshold goes to IDLE at once, its status
ENDED, EMPTY. The filler timer stands at the delay, and the phase clock and the dry timer have moved on
with it (MODEL'S CHOICE, log 5). Outside CHARGING, RUN or under PAUSED, and once FIL is asked or has ended
(log 63), nothing changes. MODEL'S CHOICE
(log 45): the channel that ends EMPTY at once detaches its batch. -/
def Obligations.FillerDelayAsksFil : Prop :=
  ∀ s : State, s.port.resetLow = false →
    let c := s.chan .fil
    let d := (s.mixer.work.map MixVals.fillerDelay).getD 0 - s.mixer.fillT
    let moved := { s.mixer with fillT := s.mixer.fillT + d, dryT := s.mixer.dryT + d,
                                clock := s.mixer.clock + d }
    (s.rc.part ≠ .run ∨ s.rc.paused = true ∨ s.mixer.phase ≠ .charging ∨ s.mixer.disch.fil ≠ .notAsked →
      exec .fillerDelayExpiry s = .next (settle s)) ∧
    (s.rc.part = .run → s.rc.paused = false → s.mixer.phase = .charging → s.rc.clearStep = .none →
      s.mixer.disch.fil = .notAsked → c.state = .weighed →
      (emptyThr c ≤ c.net → exec .fillerDelayExpiry s = .next (settle { s.setChan .fil
          { c with state := .discharging, feed := none, gate := true, dischTimer := 0 } with
        mixer := { moved with disch := { s.mixer.disch with fil := .asked } } })) ∧
      (c.net < emptyThr c → exec .fillerDelayExpiry s = .next (settle { s.setChan .fil
          { c with state := .idle, feed := none, gate := false, batch := none } with
        mixer := { moved with disch := { s.mixer.disch with fil := .ended .empty } } })))

/-- DRY_MIX_EXPIRY, the event that the dry timer reaches the dry mix time (MODEL'S CHOICE, log 5), in DRY, in
plain production without a cycle mark: WET begins at once with its clock and timer at 0 and BIT, holding its
binder, sprays with its gate open; nothing else changes but what the heat controller follows. While PAUSED
nothing changes. -/
def Obligations.DryMixEnds : Prop :=
  ∀ s : State, (s.port.resetLow = false → s.rc.paused = true →
      exec .dryMixExpiry s = .next (settle s)) ∧
    (∀ m, plainRun s = true → s.mixer.phase = .dry → s.mixer.batch = some m → s.mixer.cmPhase = none →
      s.mixer.disch.bit = .notAsked → (s.chan .bit).state = .weighed →
      emptyThr (s.chan .bit) ≤ (s.chan .bit).net →
      exec .dryMixExpiry s = .next (followQueue { s.setChan .bit { s.chan .bit with
          state := .discharging, feed := none, gate := true, dischTimer := 0 } with
        mixer := { s.mixer with phase := .wet, clock := 0, wetT := 0,
                                dryT := max s.mixer.dryT m.dryTime,
                                disch := { s.mixer.disch with bit := .asked } } }))

/-- WET_MIX_EXPIRY in WET: while BIT still sprays the timer stands at the time, the phase clock moved on
with it (log 5); with the spray ended DISCHARGE_WAIT begins, clock and overmix timer at 0, the route
output energized. With its receiver ready the door opens at once, with no RECEIVER WAIT, or waits in
DISCHARGE_WAIT while a channel is in DISCHARGING; with it not ready the flag and the one notice RECEIVER WAIT
are given, unless the batch has had them. -/
def Obligations.WetMixEnds : Prop :=
  ∀ (s : State) (m : MixBatch), plainRun s = true → s.mixer.phase = .wet → s.mixer.batch = some m →
    let w := max s.mixer.wetT m.wetTime
    (hasEnded s.mixer.disch.bit = false →
      exec .wetMixExpiry s = .next (followQueue { s with
        mixer := { s.mixer with wetT := w, clock := s.mixer.clock + (m.wetTime - s.mixer.wetT) } })) ∧
    (hasEnded s.mixer.disch.bit = true → s.mixer.cmPhase = none →
      let waits := { s.mixer with phase := .dischargeWait, clock := 0, overT := 0, wetT := w,
                                  routeOut := some m.route }
      (s.inp.ready.get m.route = true → anyDischarging s = false →
        exec .wetMixExpiry s = .next (followQueue { s with
          mixer := { waits with phase := .doorOpen, doorT := 0, door := true } })) ∧
      ((s.inp.ready.get m.route = true ∧ anyDischarging s = true) ∨
          (s.inp.ready.get m.route = false ∧ s.mixer.rwPosted = true) →
        exec .wetMixExpiry s = .next (followQueue { s with mixer := waits }))) ∧
    (hasEnded s.mixer.disch.bit = true → s.mixer.cmPhase = none → s.inp.ready.get m.route = false →
      s.mixer.rwPosted = false → s.nu.list.length < 16 →
      exec .wetMixExpiry s = .next (followQueue { s with
        mixer := { s.mixer with phase := .dischargeWait, clock := 0, overT := 0, wetT := w,
                                routeOut := some m.route, rwPosted := true }
        nu.list := s.nu.list ++ [⟨m.slot, m.order, m.seq, .receiverWait m.route⟩]
        co := { s.co with
          weigh := s.co.weigh.map fun b =>
            if b.seq = m.seq then { b with flags.receiverWait := true } else b
          mix := s.co.mix.map fun b =>
            if b.seq = m.seq then { b with flags.receiverWait := true } else b } }))

/-- RECEIVER_READY_CHANGE: in DISCHARGE_WAIT the route's own receiver going ready opens the door once no
channel is in DISCHARGING, clock and door timer at 0; in EMPTY and DOOR_OPEN outside a clear cycle, and
for other receivers once RECEIVER WAIT has been posted, only the level changes. In the clear's WAIT
RECEIVER the REJECT receiver going ready begins its DISCHARGE: the start nets recorded, all four channels
asked, one that holds material with its gate open, one below its empty threshold ended EMPTY; one not
ready posts RECEIVER WAIT once. With all four ended, DISCHARGE goes on to the clear mix. MODEL'S CHOICES:
while RESET# is low the level is kept (log 25); a channel that ends EMPTY at once detaches its batch
(log 45). -/
def Obligations.ReceiverReadyOpensDoor : Prop :=
  (∀ (s : State) (r : Route) (a : Bool),
    let lev := { s with inp.ready := s.inp.ready.set r a }
    (s.port.resetLow = true → exec (.receiverReadyChange r a) s = .next lev) ∧
    (∀ m, plainRun s = true → s.mixer.phase = .dischargeWait → s.mixer.batch = some m →
      (a = true → r = m.route → s.mixer.cmPhase = none → anyDischarging s = false →
        exec (.receiverReadyChange r a) s = .next (followQueue { lev with
          mixer := { s.mixer with phase := .doorOpen, clock := 0, doorT := 0, door := true } })) ∧
      (r ≠ m.route → s.inp.ready.get m.route = false → s.mixer.rwPosted = true →
        exec (.receiverReadyChange r a) s = .next (followQueue lev))) ∧
    (plainRun s = true → s.mixer.phase = .empty ∨ s.mixer.phase = .doorOpen →
      exec (.receiverReadyChange r a) s = .next (followQueue lev))) ∧
  (∀ s : State, s.port.resetLow = false → s.rc.part = .run → dryTestHere s = false →
    s.mixer.phase = .empty → s.mixer.clearHold = true →
    let on := { s with inp.ready := s.inp.ready.set .reject true }
    let off := { s with inp.ready := s.inp.ready.set .reject false }
    (s.rc.clearStep = .waitReceiver → s.rc.paused = false →
      exec (.receiverReadyChange .reject true) s = .next (settle on) ∧
      (∃ u, nextAtOnce on = some u ∧ u.rc.clearStep = .discharge ∧
        u.rc.clearRec.start = s.ch.map Channel.net ∧ u.mixer = s.mixer ∧ u.co = s.co ∧ u.nu = s.nu ∧
        u.mem = s.mem ∧
        ∀ sc, let c := s.chan sc
          let e := u.rc.clearRec.ends.get sc
          (c.state = .idle ∨ c.state = .weighed → emptyThr c ≤ c.net → e = none ∧
            u.chan sc = { c with state := .discharging, feed := none, gate := true, dischTimer := 0 }) ∧
          (c.state = .idle ∨ c.state = .weighed → c.net < emptyThr c → e = some .empty ∧
            u.chan sc = { c with state := .idle, feed := none, gate := false, batch := none }) ∧
          (c.state ≠ .idle → c.state ≠ .weighed → e = none ∧ u.chan sc = c)) ∧
      (s.rc.clearRec.rwPosted = false → s.oe.lookOwed = 0 → s.nu.list.length < 16 →
        exec (.receiverReadyChange .reject false) s = .next (followQueue { off with
          rc.clearRec.rwPosted := true
          nu.list := s.nu.list ++ [⟨255, 0, 0, .receiverWait .reject⟩] }))) ∧
    (s.rc.clearStep = .discharge → arbiterFree s = true → anyDischarging s = false →
      (∀ sc, s.rc.clearRec.ends.get sc ≠ none) →
      ∃ u, nextAtOnce s = some u ∧ u.rc = { s.rc with clearStep := .mix } ∧
        u.mixer = { s.mixer with
          phase := .clearMix, clock := 0
          work := s.mixer.work.map fun v =>
            let t := (s.rd Win.clearMixTime).toNat
            { v with clearMixTime := if 2 ≤ t ∧ t ≤ 20 then t else v.clearMixTime } } ∧
        u.ch = s.ch ∧ u.mem = s.mem ∧ u.co = s.co))

/-- OVERMIX in DISCHARGE_WAIT posts once, with the flag on the batch; CYCLE_MARK posts once when the
clock of the named phase reaches the offset. Posted already, neither changes anything. -/
def Obligations.MixerPostsOnce : Prop :=
  ∀ (s : State) (m : MixBatch), s.port.resetLow = false → s.rc.part = .run → s.rc.paused = false →
    s.mixer.batch = some m → s.nu.list.length < 16 →
    (s.mixer.phase = .dischargeWait → s.mixer.overT = 10 * m.overLimit + 1 →
      (s.mixer.omPosted = true → exec .overmix s = .next s) ∧
      (s.mixer.omPosted = false → exec .overmix s = .next { s with
        mixer.omPosted := true
        nu.list := s.nu.list ++
          [⟨m.slot, m.order, m.seq, .overmix m.route m.overLimit s.mixer.overT⟩]
        co := { s.co with
          weigh := s.co.weigh.map fun b => if b.seq = m.seq then { b with flags.overmix := true } else b
          mix := s.co.mix.map fun b =>
            if b.seq = m.seq then { b with flags.overmix := true } else b } })) ∧
    (∀ p, s.mixer.cmPhase = some p → p.phase = s.mixer.phase → s.mixer.clock = s.mixer.cmOffset →
      (s.mixer.cmPosted = true → exec .cycleMark s = .next s) ∧
      (s.mixer.cmPosted = false → exec .cycleMark s = .next { s with
        mixer.cmPosted := true
        nu.list := s.nu.list ++
          [⟨m.slot, m.order, m.seq, .cycleMark p s.mixer.cmOffset s.mixer.clock false⟩] })) ∧
    (s.mixer.cmPhase = none → exec .cycleMark s = .next s)

/-- DOOR_OPEN_EXPIRY and CLEAR_MIX_EXPIRY are the events that the timers reach their limits (MODEL'S CHOICE,
log 5). DOOR_OPEN_EXPIRY in DOOR_OPEN: the T6 reading of the batch is taken, present if T6 is GOOD, the door
is commanded closed and DOOR_CLOSING begins with clock and door timer at 0. CLEAR_MIX_EXPIRY in
CLEAR_MIX: the clear's door opens once no channel is in DISCHARGING. While PAUSED neither acts. -/
def Obligations.DoorPhasesEnd : Prop :=
  (∀ s : State, (s.port.resetLow = false → s.rc.paused = true →
       exec .doorOpenExpiry s = .next (settle s)) ∧
     (∀ m, plainRun s = true → s.mixer.phase = .doorOpen → s.mixer.batch = some m →
       s.mixer.cmPhase = none → s.inp.doorClosed = false →
       exec .doorOpenExpiry s = .next (followQueue { s with
         mixer := { s.mixer with
           phase := .doorClosing
           door := false
           clock := 0
           doorT := 0
           t6 := match s.heat.tc.t6.fault, s.heat.tc.t6.reading with
             | none, some v => .present v
             | _, _ => .absent } }))) ∧
  (∀ s : State, s.port.resetLow = false →
     let t := max s.mixer.clock (10 * (s.mixer.work.map MixVals.clearMixTime).getD 0)
     (s.rc.paused = true ∨ s.mixer.phase ≠ .clearMix →
       exec .clearMixExpiry s = .next (settle s)) ∧
     (s.rc.part = .run → s.rc.paused = false → s.mixer.phase = .clearMix →
       (anyDischarging s = true → exec .clearMixExpiry s = .next (settle { s with mixer.clock := t })) ∧
       (anyDischarging s = false → s.mixer.batch = none →
         exec .clearMixExpiry s = .next (settle { s with
           mixer := { s.mixer with phase := .doorOpen, clock := 0, doorT := 0, door := true } }))))

/-- DOOR_CLOSED: in DOOR_CLOSING of a batch the input going active ends the cycle at once: EMPTY, no batch,
the route output off and the mixer stage empty. The batch's ticket, with its verdict and mix times, goes
whole into its record in the order's slot, the ticket count one higher, BATCH DONE posted. The order stays
queued while a batch of it is under way or is still to start; with its last ticket it closes, PARTIAL when
withdrawn short of its count or with an ABORTED ticket, else COMPLETE: slot CLOSED with outcome and stamp, ORDER
CLOSED behind BATCH DONE, out of the queue, one look point owed. A slot that no longer reads TAKEN or ACTIVE with its number is seized instead, SLOT SEIZED (TICKET), no byte is written,
and a batch of the order in the weigh stage has lost its order. A batch that has lost its order, or whose
order is not queued, gives SLOT SEIZED (NOT QUEUED) and nothing else, even with an order of its slot and
number queued since. The verdict is ABORTED, else REJECT for an entry OVER REJECT, a short or a discarded
batch, else FLAGGED for a warning flag or an entry not IN_TOL, else GOOD. In DOOR_CLOSING of a clear the
input completes the clear: mixer no longer suspect, clear required clear, CLEAR DONE posted. Going inactive,
or outside DOOR_CLOSING, only the level changes. -/
def Obligations.DoorClosedEndsCycle : Prop :=
  (∀ s : State, s.port.resetLow = false →
    let lev := { s with inp.doorClosed := true }
    exec (.doorClosed true) s = .next (settle lev) ∧
    exec (.doorClosed false) s = .next (settle { s with inp.doorClosed := false }) ∧
    (plainRun s = true → s.mixer.phase = .doorClosing → s.mixer.clearHold = false →
      ∃ u, nextAtOnce lev = some u ∧ u.mixer.phase = .empty ∧ u.mixer.batch = none ∧
        u.mixer.routeOut = none ∧ u.mixer.clock = 0 ∧ u.mixer.suspect = s.mixer.suspect ∧
        u.mixer.door = s.mixer.door ∧ u.co.mix = none ∧
        (u.co.weigh = s.co.weigh ∨ ∃ b, s.co.mix = some b ∧
          u.co.weigh = s.co.weigh.map (loseOrder b.slot b.order)) ∧
        u.co.counter = s.co.counter ∧ u.ch = s.ch ∧ u.rc = s.rc) ∧
    (∀ b o, plainRun s = true → s.mixer.phase = .doorClosing → s.mixer.clearHold = false →
      s.mixer.cmPhase = none → s.co.mix = some b → b.orderLeft = false →
      findOrder s b.slot b.order = some o → o.held = [] →
      b.slot < 32 → 1 ≤ b.index → b.index ≤ 8 → s.nu.list.length < 16 → Memory.wf s.mem = true →
      let a := Win.slot b.slot
      let rec0 := Win.ticket b.slot b.index
      let t := assembleTicket { b with results := mixResults s.mixer } s.seconds
      let kept := (s.rd a = 2 ∨ s.rd a = 3) ∧ s.rd (a + 2) = b.order
      (kept → o.started ≤ o.count →
        o.finished + 1 < o.started ∨ (o.finished + 1 = o.started ∧ o.started < o.count ∧ o.level = .none) →
        ∃ u, nextAtOnce lev = some u ∧
          (∀ k, k < 32 → u.rd (rec0 + 2 * k) = (ticketWords t).getD k 0) ∧
          u.rd (a + 0x46) = natWord (o.tickets + 1) ∧
          u.nu = { s.nu with list := s.nu.list ++ [⟨b.slot, b.order, b.seq,
            .batchDone o.load b.index (verdictOf b) b.flags (o.tickets + 1)⟩] } ∧
          u.oe.queue = (s.oe.queue.map fun x =>
            if isOrder b.slot b.order x then
              { x with tickets := x.tickets + 1, finished := x.finished + 1,
                       abortedTickets := x.abortedTickets + if verdictOf b = .aborted then 1 else 0 }
            else x) ∧
          ∀ n, (n < rec0 ∨ rec0 + 64 ≤ n) → n ≠ a + 0x46 → n ≠ a + 0x47 →
            u.byteAt n = s.byteAt n) ∧
      (kept → o.finished + 1 = o.started → o.started ≤ o.count → o.level ≠ .none ∨ o.started = o.count →
        s.nu.list.length < 15 →
        let aborts := o.abortedTickets + if verdictOf b = .aborted then 1 else 0
        let outcome : OrderOutcome := if o.started < o.count ∨ 0 < aborts then .partialDone else .complete
        ∃ u, nextAtOnce lev = some u ∧
          (∀ k, k < 32 → u.rd (rec0 + 2 * k) = (ticketWords t).getD k 0) ∧
          u.rd (a + 0x46) = natWord (o.tickets + 1) ∧ u.rd a = 4 ∧
          u.rd (a + 0x40) = BitVec.ofNat 16 outcome.code ∧ u.rd (a + 0x42) = 0 ∧
          u.rd32 (a + 0x4C) = s.seconds ∧
          u.nu = { s.nu with list := s.nu.list ++
            [⟨b.slot, b.order, b.seq, .batchDone o.load b.index (verdictOf b) b.flags (o.tickets + 1)⟩,
             ⟨b.slot, b.order, 0, .orderClosed o.load outcome .none (o.tickets + 1)⟩] } ∧
          u.oe = { s.oe with
            queue := s.oe.queue.filter (fun x => !isOrder b.slot b.order x)
            lookOwed := s.oe.lookOwed + 1 } ∧
          u.co = { s.co with weigh := s.co.weigh.map (loseOrder b.slot b.order), mix := none } ∧
          ∀ n, (n < rec0 ∨ rec0 + 64 ≤ n) → (n < a ∨ a + 2 ≤ n) → (n < a + 0x40 ∨ a + 0x44 ≤ n) →
            (n < a + 0x46 ∨ a + 0x48 ≤ n) → (n < a + 0x4C ∨ a + 0x50 ≤ n) →
            u.byteAt n = s.byteAt n) ∧
      (¬kept → ∃ u, nextAtOnce lev = some u ∧ u.mem = s.mem ∧
        u.oe.queue = s.oe.queue.filter (fun x => !isOrder b.slot b.order x) ∧
        u.co.weigh = s.co.weigh.map (loseOrder b.slot b.order) ∧
        u.nu = { s.nu with list := s.nu.list ++
          [⟨b.slot, b.order, b.seq, .slotSeizedTicket (s.rd a) (s.rd (a + 2)) t⟩] })) ∧
    (∀ b, plainRun s = true → s.mixer.phase = .doorClosing → s.mixer.clearHold = false →
      s.mixer.cmPhase = none → s.co.mix = some b →
      b.orderLeft = true ∨ findOrder s b.slot b.order = none → s.nu.list.length < 16 →
      let t := assembleTicket { b with results := mixResults s.mixer } s.seconds
      ∃ u, nextAtOnce lev = some u ∧ u.mem = s.mem ∧ u.oe = s.oe ∧
        u.co = { s.co with mix := none } ∧
        u.nu = { s.nu with list := s.nu.list ++
          [⟨b.slot, b.order, b.seq, .slotSeizedNotQueued t⟩] }) ∧
    (s.rc.part = .run → s.rc.clearStep = .mix → s.rc.finishing = false → s.oe.lookOwed = 0 →
      s.co.weigh = none → s.mixer.phase = .doorClosing → s.mixer.clearHold = true →
      s.nu.list.length < 16 →
      exec (.doorClosed true) s = .next (followQueue { lev with
        mixer := { s.mixer with suspect := false, routeOut := none, clearHold := false,
                                phase := .empty, clock := 0 }
        rc := { s.rc with clearRequired := false, clearStep := .none }
        nu.list := s.nu.list ++ [⟨255, 0, 0,
          .clearDone s.rc.clearRec.start s.rc.clearRec.ends s.rc.clearRec.began⟩] }))) ∧
  (∀ b : Batch,
    let reject := (∃ e ∈ b.comps, e.outcome = some .overReject) ∨ b.short = true ∨ b.discard = true
    let warned := b.flags.binLow = true ∨ b.flags.unsettled = true ∨ b.flags.sampleGap = true ∨
      b.flags.overmix = true ∨ b.flags.paused = true ∨ ∃ e ∈ b.comps, e.outcome ≠ some .inTol
    (b.aborted = true → verdictOf b = .aborted) ∧
    (b.aborted = false → reject → verdictOf b = .reject) ∧
    (b.aborted = false → ¬reject → warned → verdictOf b = .flagged) ∧
    (b.aborted = false → ¬reject → ¬warned → verdictOf b = .good))

/-- DOOR_CLOSE_TIMEOUT in DOOR_CLOSING: DOOR FAULT and HALT posted, HALTED shown in the header with
every output off but the tank heaters, PAUSED and FINISHING clear, the mixer suspect with its phase,
batch and stages kept, the door timer at the timeout and the phase clock moved on with it (log 5). Outside
DOOR_CLOSING, or while PAUSED, nothing changes. -/
def Obligations.DoorTimeoutHalts : Prop :=
  ∀ s : State, arbiterFree s = true →
    let limit := (s.mixer.work.map MixVals.doorCloseTimeout).getD 0
    (s.rc.paused = true ∨ s.mixer.phase ≠ .doorClosing →
      exec .doorCloseTimeout s = .next (settle s)) ∧
    (s.rc.part = .run → s.rc.paused = false → s.mixer.phase = .doorClosing →
      s.nu.list.length < 15 → s.oe.lookOwed = 0 → Memory.wf s.mem = true →
      ∃ t, exec .doorCloseTimeout s = .next t ∧
        t.rc = { s.rc with part := .halted, paused := false, finishing := false } ∧
        t.rd Win.partState = 5 ∧
        (∀ sc, (t.chan sc).feed = none ∧ (t.chan sc).gate = false ∧
          (t.chan sc).state = (s.chan sc).state ∧ (t.chan sc).batch = (s.chan sc).batch) ∧
        t.bit.tankSelect = false ∧ t.bit.circulate = false ∧ t.bit.tankLast = none ∧
        t.mixer = { s.mixer with
          suspect := true
          door := false
          routeOut := none
          doorT := max s.mixer.doorT limit
          clock := s.mixer.clock + (limit - s.mixer.doorT) } ∧
        burnerLit t.heat.burner = false ∧
        t.nu = { s.nu with list := s.nu.list ++
          [mixNotice s.mixer.batch (.doorFault (max s.mixer.doorT limit)),
           ⟨255, 0, mixSeq s, .halt .doorFault s.rc.clearStep (weighSeq s)⟩] } ∧
        t.co = s.co ∧ t.oe = s.oe ∧ t.inp = s.inp ∧
        ∀ b, b ≠ Win.partState → b ≠ Win.partState + 1 → t.byteAt b = s.byteAt b)

/-! ### STOP# -/

/-- STOP#: the fall starts the pulse timer; a pulse below 40 ms is nothing, one of 40 to 399 ms in RUN
toggles PAUSED from the line: it sets it with its notice, the flag on both batches and every feed held, or
clears it with RESUMED, held doses and gates going on (under a clear cycle the gates alone) and a held permit
request evaluated; outside RUN it is ignored. One of 400 ms or more in STANDBY, STOPPED or HALTED posts PLANT
STOP alone, in UNCONFIGURED and CHECKING is discarded, and in RUN stops the part. A line already low, or
already high, changes nothing. MODEL'S CHOICES: the length of a pulse is the greater of the operand and the
decoder's own timer (log 27); the seconds RESUMED gives are the seconds counter less its value when PAUSED was
set (log 17). -/
def Obligations.StopLinePulses : Prop :=
  ∀ (s : State) (n : Nat), s.port.resetLow = false →
    let p := max s.rc.pulse n
    let up := { s with rc := { s.rc with decoder := .high, pulse := p } }
    (s.rc.decoder = .high → exec .stopLineFall s = .next { s with
      rc := { s.rc with decoder := .timing, pulse := 0 } }) ∧
    (s.rc.decoder ≠ .high → exec .stopLineFall s = .next s) ∧
    (s.rc.decoder = .high → exec (.stopLineRise n) s = .next (settle s)) ∧
    (s.rc.decoder = .held →
      exec (.stopLineRise n) s = .next (settle { s with rc := { s.rc with decoder := .high } })) ∧
    (s.rc.decoder = .timing →
      (p < 40 → exec (.stopLineRise n) s = .next (settle up)) ∧
      (40 ≤ p → p < 400 → s.rc.part ≠ .run → exec (.stopLineRise n) s = .next (settle up)) ∧
      (40 ≤ p → p < 400 → s.rc.part = .run → s.rc.paused = false → s.nu.list.length < 16 →
        exec (.stopLineRise n) s = .next (settle { up with
          rc := { up.rc with paused := true, pausedAt := s.seconds }
          nu.list := s.nu.list ++
            [⟨255, 0, mixSeq s, .paused .line s.rc.clearStep s.rc.finishing (weighSeq s)⟩]
          co := { s.co with weigh := s.co.weigh.map fun b => { b with flags.paused := true },
                            mix := s.co.mix.map fun b => { b with flags.paused := true } }
          ch := s.ch.map pauseChannel })) ∧
      (40 ≤ p → p < 400 → s.rc.part = .run → s.rc.paused = true → s.nu.list.length < 16 →
        exec (.stopLineRise n) s = .next (settle (evalHeld { up with
          rc := { up.rc with paused := false }
          nu.list := s.nu.list ++ [⟨255, 0, 0, .resumed .line (s.seconds - s.rc.pausedAt).toNat⟩]
          ch := s.ch.map fun c =>
            if s.rc.clearStep = .none then resumeChannel c
            else if c.state = .discharging then { c with gate := true } else c }))) ∧
      (400 ≤ p → s.rc.part = .unconfigured ∨ s.rc.part = .checking →
        exec (.stopLineRise n) s = .next (settle up)) ∧
      (400 ≤ p → s.rc.part = .run → ∃ u, exec (.stopLineRise n) s = .next (settle u) ∧
        u.rc.part = .stopped ∧ u.rc.decoder = .high ∧ u.rc.paused = false ∧ u.rc.finishing = false ∧
        u.rc.clearStep = .none ∧ u.co.weigh = none ∧ u.co.mix = none ∧ u.mixer.phase = .empty ∧
        u.mixer.door = false ∧ ∀ sc, (u.chan sc).feed = none ∧ (u.chan sc).gate = false) ∧
      (400 ≤ p → s.rc.part = .standby ∨ s.rc.part = .stopped ∨ s.rc.part = .halted →
        s.nu.list.length < 16 →
        exec (.stopLineRise n) s = .next (settle { up with
          nu.list := s.nu.list ++ [⟨255, 0, mixSeq s,
            .plantStop s.rc.part s.rc.paused s.rc.clearStep (weighSeq s) s.oe.queue.length⟩] })))

/-- PLANT_STOP, the event that the pulse of a low line reaches 400 ms (MODEL'S CHOICE, log 5: the pulse
timer is brought to 400). In RUN the part is STOPPED with PAUSED, FINISHING and the clear step cleared,
every feed, gate, door and route output off, the mixer EMPTY and suspect if it was not EMPTY or held by a
clear cycle, the burner not lit, both stages empty. A channel not in FAULT is WEIGHED with its net not below
the empty threshold, else IDLE, with no batch; clear required is set exactly if it was, or a channel is
WEIGHED or in FAULT with such a net. PLANT STOP is posted first; then the mixer-stage batch's ticket is
handed over ABORTED with the mix times as they stand, then the weigh-stage batch's, then the queued orders
are closed ABORTED, oldest first, and the queue is empty. A kept slot reads CLOSED, outcome 4, its ticket
whole, behind BATCH DONE and ORDER CLOSED; one not kept gives SLOT SEIZED. MODEL'S CHOICE (log 51): a soft
reset that follows at the same moment cuts tickets and closings short. In STANDBY, STOPPED and HALTED it
posts PLANT STOP and changes nothing else but the decoder; in UNCONFIGURED and CHECKING it is discarded. In
STANDBY a low line has RUN refused. -/
def Obligations.PlantStopStops : Prop :=
  ∀ s : State, arbiterFree s = true →
    let held := { s with rc := { s.rc with decoder := .held, pulse := max s.rc.pulse 400 } }
    let notice : Notice := ⟨255, 0, mixSeq s,
      .plantStop s.rc.part s.rc.paused s.rc.clearStep (weighSeq s) s.oe.queue.length⟩
    (s.rc.decoder ≠ .timing → exec .plantStop s = .next (settle s)) ∧
    (s.rc.decoder = .timing → s.rc.part = .unconfigured ∨ s.rc.part = .checking →
      exec .plantStop s = .next (settle held)) ∧
    (s.rc.decoder = .timing → s.rc.part = .standby ∨ s.rc.part = .stopped ∨ s.rc.part = .halted →
      s.nu.list.length < 16 →
      let u := { held with nu.list := s.nu.list ++ [notice] }
      exec .plantStop s = .next (settle u) ∧
      (s.oe.lookOwed = 0 → followQueue s = s → exec .plantStop s = .next u)) ∧
    (s.rc.part = .standby → s.rc.decoder ≠ .high →
      exec .run s = .next { s with port.refused := true }) ∧
    (s.rc.decoder = .timing → s.rc.part = .run →
      let aborted := fun b : Batch => { b with aborted := true, results := stopResults s.mixer }
      ∃ u, exec .plantStop s = .next (settle u) ∧ u.rc.part = .stopped ∧ u.rc.paused = false ∧
        u.rc.finishing = false ∧ u.rc.clearStep = .none ∧ u.rc.decoder = .held ∧
        (∀ sc, let c := s.chan sc
          (u.chan sc).feed = none ∧ (u.chan sc).gate = false ∧ (u.chan sc).net = c.net ∧
          (c.state = .fault → (u.chan sc).state = .fault) ∧
          (c.state ≠ .fault → (u.chan sc).batch = none ∧
            (u.chan sc).state = if emptyThr c ≤ c.net then .weighed else .idle)) ∧
        (u.rc.clearRequired = true ↔ s.rc.clearRequired = true ∨ ∃ sc, (u.chan sc).state = .weighed ∨
          ((u.chan sc).state = .fault ∧ emptyThr (u.chan sc) ≤ (u.chan sc).net)) ∧
        u.mixer.phase = .empty ∧ u.mixer.door = false ∧ u.mixer.routeOut = none ∧
        u.mixer.batch = none ∧ u.mixer.clearHold = false ∧
        (u.mixer.suspect = true ↔
          s.mixer.suspect = true ∨ s.mixer.phase ≠ .empty ∨ s.mixer.clearHold = true) ∧
        (s.pending.head? ≠ some .softReset → s.nu.list.length < 16 →
          (∃ v, u = closeAllAborted (endWeighAborted (endMixBatch v)) ∧
            v.nu = { s.nu with list := s.nu.list ++ [notice] } ∧ v.oe = s.oe ∧
            v.co = { s.co with mix := s.co.mix.map aborted }) ∧
          (s.co.weigh = none → s.co.mix = none → Memory.wf s.mem = true →
            s.nu.list.length + s.oe.queue.length < 16 →
            s.oe.queue.Pairwise (fun o p => o.slot ≠ p.slot) →
            (∀ o ∈ s.oe.queue, o.slot < 32 ∧ o.held = []) →
            let kept := fun o : Order => s.rd (Win.slot o.slot + 2) = o.number ∧
              (s.rd (Win.slot o.slot) = 2 ∨ s.rd (Win.slot o.slot) = 3)
            u.nu = { s.nu with list := s.nu.list ++ notice :: s.oe.queue.map fun o =>
              ⟨o.slot, o.number, 0, if kept o then .orderClosed o.load .aborted .none o.tickets else
                .slotSeizedClose (s.rd (Win.slot o.slot)) (s.rd (Win.slot o.slot + 2)) .aborted⟩ } ∧
            ∀ o ∈ s.oe.queue, kept o → u.rd (Win.slot o.slot) = 4 ∧ u.rd (Win.slot o.slot + 0x40) = 4 ∧
              u.rd (Win.slot o.slot + 0x42) = 0 ∧ u.rd32 (Win.slot o.slot + 0x4C) = s.seconds) ∧
          (∀ o b, s.oe.queue = [o] → o.held = [] → o.slot < 32 → b.slot = o.slot →
            b.order = o.number → b.orderLeft = false → 1 ≤ b.index → b.index ≤ 8 →
            Memory.wf s.mem = true → s.nu.list.length < 14 →
            (s.co.mix = some b ∧ s.co.weigh = none) ∨ (s.co.weigh = some b ∧ s.co.mix = none) →
            let a := Win.slot o.slot
            let t := assembleTicket { b with
              aborted := true
              results := if s.co.mix = none then b.results else stopResults s.mixer } s.seconds
            let kept := (s.rd a = 2 ∨ s.rd a = 3) ∧ s.rd (a + 2) = o.number
            t.verdict = .aborted ∧
            (kept → u.rd a = 4 ∧ u.rd (a + 0x40) = 4 ∧ u.rd (a + 0x46) = natWord (o.tickets + 1) ∧
              (∀ k, k < 32 →
                u.rd (Win.ticket o.slot b.index + 2 * k) = (ticketWords t).getD k 0) ∧
              u.nu = { s.nu with list := s.nu.list ++ [notice,
                ⟨o.slot, o.number, b.seq, .batchDone o.load b.index .aborted b.flags (o.tickets + 1)⟩,
                ⟨o.slot, o.number, 0, .orderClosed o.load .aborted .none (o.tickets + 1)⟩] }) ∧
            (¬kept → u.nu = { s.nu with list := s.nu.list ++ [notice,
              ⟨o.slot, o.number, b.seq, .slotSeizedTicket (s.rd a) (s.rd (a + 2)) t⟩] }))) ∧
        burnerLit u.heat.burner = false ∧ u.heat.bt1.latch = s.heat.bt1.latch ∧
        u.heat.bt2.latch = s.heat.bt2.latch ∧
        u.co.weigh = none ∧ u.co.mix = none ∧ u.co.counter = s.co.counter ∧
        (s.pending.head? ≠ some .softReset → u.oe.queue = []) ∧
        (s.co.weigh = none → s.co.mix = none → s.oe.queue = [] → s.nu.list.length < 16 →
          u.nu = { s.nu with list := s.nu.list ++ [notice] }) ∧
        u.oe.walker = s.oe.walker ∧ u.oe.pos = s.oe.pos ∧ u.inp = s.inp)

/-! ### The heat controller -/

/-- TEMPERATURE_FRAME: the missing-frame count is 0; a GOOD channel keeps a valid reading and an invalid one
puts it in SENSOR FAULT, count 0; a channel in fault counts valid frames, is GOOD at count 4, and counts
from 0 again at an invalid one. SENSOR FAULT is posted for each channel that enters or returns, T1 first,
but not for one that leaves START, then TANK HIGH for each tank that has a valid reading at or above its
high limit with its latch clear, with tank, reading, high limit and active setpoint (order: MODEL'S CHOICE,
log 49). T7 above the baghouse limit or in fault clamps the fire, T1 in fault holds it, at min fire. A tank
heater follows its channel: off at its setpoint and above, on below setpoint less hysteresis, kept between,
off and latched at its high limit, off with its channel in fault. A held permit request is judged again: the
first grant charges its batch, a refusal is its new answer. -/
def Obligations.TemperatureFrameJudges : Prop :=
  ∀ (s : State) (f : TempFrame), s.port.resetLow = false →
    let posted := fun k : TempChan =>
      let c := tempGet s.heat.tc k
      let r := tempGet f k
      let sensor := fun (cause : TempCause) (entered : Bool) (reading : Option Int) =>
        some (⟨255, 0, 0, .sensorFault cause entered (tempSet (tempAll false) k true)
          (tempSet (tempAll none) k reading)⟩ : Notice)
      match c.fault, r.valid with
      | none, false => sensor .invalid true c.reading
      | some cause, true =>
        if c.good < 3 ∨ cause = .start then none else sensor cause false (some r.value.toInt)
      | _, _ => none
    let tankPosted := fun (h : Heat) (tank : Tank) =>
      match s.heat.vals, goodReading (tankChan h tank) with
      | some v, some t =>
        let k := tankOfHeat s.heat tank
        let tv := tankVals v tank
        if (match tank with | .bt1 => f.t3.valid | .bt2 => f.t4.valid) = true ∧
            heatersRun s.rc.part = true ∧ tv.high ≤ t ∧ k.latch = false then
          some (⟨255, 0, 0, .tankHigh tank t tv.high (if k.work then tv.work else tv.hold)⟩ : Notice)
        else none
      | _, _ => none
    ∃ u, exec (.temperatureFrame f) s = .next (settle u) ∧ u.heat.missing = 0 ∧ u.heat.age = 0 ∧
      (∀ k, let c := tempGet s.heat.tc k
        let r := tempGet f k
        let c' := tempGet u.heat.tc k
        (c.fault = none → r.valid = true → c' = { c with reading := some r.value.toInt }) ∧
        (c.fault = none → r.valid = false → c' = { c with fault := some .invalid, good := 0 }) ∧
        (c.fault ≠ none → r.valid = true → c.good < 3 →
          c' = { c with reading := some r.value.toInt, good := c.good + 1 }) ∧
        (c.fault ≠ none → r.valid = true → 3 ≤ c.good → c' = ⟨none, some r.value.toInt, 4⟩) ∧
        (c.fault ≠ none → r.valid = false → c' = { c with good := 0 })) ∧
      (∀ v, s.heat.vals = some v →
        let hold := s.heat.burner == .modulating && (goodReading u.heat.tc.t1).isNone
        let clamp := match goodReading u.heat.tc.t7 with
          | none => true
          | some t => decide (v.baghouse < t)
        u.heat.t1Hold = hold ∧ u.heat.t7Clamp = clamp ∧ u.heat.burner = s.heat.burner ∧
        (s.heat.burner = .modulating →
          u.heat.firing = if hold || clamp then (v.minFire : Int) else s.heat.firing)) ∧
      (s.heat.permit = none → u.co = s.co ∧ u.oe = s.oe ∧ u.rc = s.rc ∧
        (s.nu.list.length < 8 → u.mem = s.mem ∧ u.nu = { s.nu with
          list := s.nu.list ++ TempChan.all.filterMap posted ++
            [Tank.bt1, Tank.bt2].filterMap (tankPosted u.heat) })) ∧
      (s.heat.permit = none → ∀ tank,
        let k := tankOfHeat s.heat tank
        let k' := tankOfHeat u.heat tank
        (goodReading (tankChan u.heat tank) = none → k' = { k with heater := false }) ∧
        (∀ v t, s.heat.vals = some v → heatersRun s.rc.part = true →
          goodReading (tankChan u.heat tank) = some t →
          (match tank with | .bt1 => f.t3.valid | .bt2 => f.t4.valid) = true →
          let tv := tankVals v tank
          let sp := if k.work then tv.work else tv.hold
          (sp ≤ t → k'.heater = false ∧ k'.latch = (k.latch || decide (tv.high ≤ t))) ∧
          (t < sp - v.hysteresis → t < tv.high → k'.heater = true ∧ k'.latch = false) ∧
          (sp - v.hysteresis ≤ t → t < sp → t < tv.high →
            k'.latch = k.latch ∧ k'.heater = (!k.latch && k.heater)))) ∧
      (∀ v r b, s.heat.vals = some v → s.heat.permit = some r → s.co.weigh = some b →
        s.rc.part = .run → s.rc.paused = false → s.mixer.phase = .empty → s.mixer.clearHold = false →
        (∀ a, judgePermit v u.heat r.tAgg r.tank r.winMin r.winMax = some a →
          u.heat.permit = some { r with answer := a } ∧ u.co = s.co ∧ u.mixer = s.mixer) ∧
        (judgePermit v u.heat r.tAgg r.tank r.winMin r.winMax = none →
          u.heat.permit = none ∧ u.mixer.phase = .charging ∧ u.co = { s.co with
            weigh := none
            mix := some { b with route := some (if batchReject b then .reject else b.dest),
                                 waiting := false } }))

/-- MISSING_PERIOD: the count rises by 1 up to 4 and every channel in fault counts from 0 again; at 4 every
GOOD channel is in SENSOR FAULT, NO FRAMES, in one notice that names the set of these channels, with the
latest reading of each or none (the other readings are not shown); further periods post nothing. At 4 the T7
clamp is set, both tank heaters go off, their latches and setpoints kept, and in MODULATING the T1 hold is set
with the firing output at min fire and no previous PV; the integral goes to min fire with the clamp, under the
hold too (MODEL'S CHOICE, log 48). Memory, burner and stages stay. -/
def Obligations.MissingPeriodCounts : Prop :=
  ∀ s : State, s.port.resetLow = false → s.nu.list.length < 16 →
    ∃ t, exec .missingPeriod s = .next t ∧ t.heat.age = 0 ∧ t.heat.burner = s.heat.burner ∧
      t.mem = s.mem ∧ t.co = s.co ∧ t.oe = s.oe ∧ t.rc = s.rc ∧
      (s.heat.missing < 4 → t.heat.missing = s.heat.missing + 1) ∧
      (4 ≤ s.heat.missing → t.heat.missing = 4) ∧
      (s.heat.missing ≠ 3 → s.heat.missing ≤ 4 → t.nu = s.nu ∧ ∀ k, tempGet t.heat.tc k =
        if (tempGet s.heat.tc k).fault = none then tempGet s.heat.tc k
        else { tempGet s.heat.tc k with good := 0 }) ∧
      (s.heat.missing = 3 →
        (∀ k, tempGet t.heat.tc k = { tempGet s.heat.tc k with
          good := 0, fault := some ((tempGet s.heat.tc k).fault.getD .noFrames) }) ∧
        t.heat.t7Clamp = true ∧
        t.heat.bt1 = { s.heat.bt1 with heater := false } ∧
        t.heat.bt2 = { s.heat.bt2 with heater := false } ∧
        (∀ v, s.heat.vals = some v → s.heat.burner = .modulating →
          t.heat.t1Hold = true ∧ t.heat.firing = v.minFire ∧
          t.heat.reg = s.heat.reg.map fun r => { r with prevPV := none, integral := 1000 * v.minFire }) ∧
        (s.heat.burner ≠ .modulating → t.heat.t1Hold = false ∧ t.heat.reg = s.heat.reg) ∧
        ((∀ k, (tempGet s.heat.tc k).fault ≠ none) → t.nu = s.nu) ∧
        (∀ k, (tempGet s.heat.tc k).fault = none →
          t.nu = { s.nu with list := s.nu.list ++ [⟨255, 0, 0, .sensorFault .noFrames true
            (tempMap (fun c => decide (c.fault = none)) s.heat.tc)
            (tempMap TempCh.reading s.heat.tc)⟩] }))

/-- BURNER_PERMIT_CHANGE and FLAME_PROVEN_CHANGE: the permit takes OFF to REQUESTED in RUN, and its loss
takes every lit state to OFF; flame takes REQUESTED to LOW_FIRE at min fire, and its loss takes LOW_FIRE
and MODULATING to FAULT with BURNER FAULT. Elsewhere only the level changes. -/
def Obligations.BurnerInputsAct : Prop :=
  ∀ s : State, s.port.resetLow = false →
    let on := { s with inp.permit := true }
    let off := { s with inp.permit := false }
    let out := { s.heat with burner := .off, request := false, firing := 0, reg := none, t1Hold := false }
    let req := { s.heat with burner := .requested, request := true, firing := 0, ignition := 0 }
    (s.heat.burner ≠ .off ∨ s.rc.part ≠ .run → exec (.burnerPermitChange true) s = .next on) ∧
    (s.heat.burner = .off → s.rc.part = .run → s.inp.flame = false →
      exec (.burnerPermitChange true) s = .next { on with heat := req }) ∧
    (s.heat.burner = .off → s.rc.part = .run → s.inp.flame = true →
      exec (.burnerPermitChange true) s = .next { on with
        heat := { req with burner := .lowFire, firing := minFire s.heat, lowFire := 0 } }) ∧
    (burnerLit s.heat.burner = true →
      exec (.burnerPermitChange false) s = .next { off with heat := out }) ∧
    (burnerLit s.heat.burner = false → exec (.burnerPermitChange false) s = .next off) ∧
    (s.heat.burner = .requested → exec (.flameProvenChange true) s = .next { s with
      inp.flame := true
      heat := { s.heat with burner := .lowFire, firing := minFire s.heat, lowFire := 0 } }) ∧
    (s.heat.burner ≠ .requested →
      exec (.flameProvenChange true) s = .next { s with inp.flame := true }) ∧
    (s.heat.burner = .lowFire ∨ s.heat.burner = .modulating → s.nu.list.length < 16 →
      exec (.flameProvenChange false) s = .next { s with
        inp.flame := false
        heat := { out with burner := .fault }
        nu.list := s.nu.list ++ [⟨255, 0, 0, .burnerFault .flameLost s.heat.burner s.heat.firing
          (goodReading s.heat.tc.t1)⟩] }) ∧
    (s.heat.burner ≠ .lowFire → s.heat.burner ≠ .modulating →
      exec (.flameProvenChange false) s = .next { s with inp.flame := false })

/-- Both are the events that the timers reach their limits (MODEL'S CHOICE, log 5). IGNITION_TIMEOUT in
REQUESTED gives FAULT, IGNITION; LOW_FIRE_HOLD_EXPIRY in LOW_FIRE gives MODULATING at min fire with the
setpoint and the integral as they start. In any other burner state neither changes anything. -/
def Obligations.BurnerTimersAct : Prop :=
  ∀ (s : State) (v : HeatVals), s.port.resetLow = false → s.heat.vals = some v →
    (s.heat.burner ≠ .requested → exec .ignitionTimeout s = .next s) ∧
    (s.heat.burner = .requested → s.nu.list.length < 16 →
      exec .ignitionTimeout s = .next { s with
        heat := { s.heat with
          burner := .fault, request := false, firing := 0, reg := none, t1Hold := false
          ignition := max s.heat.ignition (10 * v.ignitionTimeout) }
        nu.list := s.nu.list ++ [⟨255, 0, 0, .burnerFault .ignition .requested s.heat.firing
          (goodReading s.heat.tc.t1)⟩] }) ∧
    (s.heat.burner ≠ .lowFire → exec .lowFireHoldExpiry s = .next s) ∧
    (∀ pv, s.heat.burner = .lowFire → goodReading s.heat.tc.t1 = some pv →
      exec .lowFireHoldExpiry s = .next { s with
        heat := { s.heat with
          burner := .modulating, firing := v.minFire, update := 0, period := v.period
          lowFire := max s.heat.lowFire (10 * v.lowFireHold), t1Hold := false
          reg := some ⟨24 * pv, 1000 * v.minFire, some pv⟩ } })

/-- REGULATOR_UPDATE in MODULATING: the setpoint moves toward the target by the ramp of the period that ran
(MODEL'S CHOICE where a refresh changed the period, log 30); an error within the deadband leaves firing and
integral; one outside it forms both within their limits; under the T1 hold neither changes. Outside
MODULATING nothing changes. -/
def Obligations.RegulatorUpdates : Prop :=
  ∀ (s : State) (v : HeatVals) (r : Regulator) (target : Int), s.port.resetLow = false →
    s.heat.vals = some v → s.heat.reg = some r → s.heat.target = some target →
    let sp := moveToward (24 * target) (v.ramp * s.heat.period) r.sp
    let e := fun pv : Int => roundDiv sp 24 - pv
    let up := if s.heat.t7Clamp = true then (v.minFire : Int) else v.maxFire
    let next := fun (g : Regulator) (f : Int) => { s with
      heat := { s.heat with update := 0, period := v.period, reg := some g, firing := f } }
    (s.heat.burner ≠ .modulating → exec .regulatorUpdate s = .next s) ∧
    (s.heat.burner = .modulating → s.heat.t1Hold = true ∨ goodReading s.heat.tc.t1 = none →
      exec .regulatorUpdate s = .next (next ⟨sp, r.integral, none⟩ s.heat.firing)) ∧
    (∀ pv, s.heat.burner = .modulating → s.heat.t1Hold = false →
      goodReading s.heat.tc.t1 = some pv → (e pv).natAbs ≤ v.deadband →
      exec .regulatorUpdate s = .next (next ⟨sp, r.integral, some pv⟩ s.heat.firing)) ∧
    (∀ pv, s.heat.burner = .modulating → s.heat.t1Hold = false →
      goodReading s.heat.tc.t1 = some pv → v.deadband < (e pv).natAbs →
      let i := clampTo (1000 * v.minFire) (1000 * up) (r.integral + v.ki * e pv)
      exec .regulatorUpdate s = .next (next ⟨sp, i, some pv⟩ (clampTo v.minFire up (roundDiv
        (10 * v.kp * e pv + i - 10 * v.kd * (pv - r.prevPV.getD pv)) 1000))))

/-! ### Notices and captures -/

/-- NOTICE_WRITE writes the oldest submission into the log entry at the write position, counts an
unseen entry it overwrites, writes the last fill sequence, moves fill and position on, and sets the
pending bit of an unmasked class; no other byte changes. With no submission nothing changes. Host
accesses that wait are served before the write or after it, never inside. -/
def Obligations.NoticeWriteLogs : Prop :=
  (∀ s : State, arbiterFree s = true → Memory.wf s.mem = true → s.nu.pos < 64 →
     (s.nu.list = [] → exec .noticeWrite s = .next s) ∧
     (∀ n r, s.nu.list = n :: r →
       let a := Win.log s.nu.pos
       ∃ t p, exec .noticeWrite s = .next t ∧
         t = { s with
           nu := { s.nu with
             list := r
             fill := if s.nu.fill = 65535 then 1 else s.nu.fill + 1
             pos := if s.nu.pos = 63 then 0 else s.nu.pos + 1
             pend := p }
           mem := t.mem } ∧
         (∀ k, k < 5 → p.getLsbD k = (s.nu.pend.getLsbD k ||
           (decide (k = classCode n.detail) && !s.nu.mask.getLsbD k))) ∧
         (∀ k, k < 16 → t.rd (a + 2 * k) = (entryWords s.nu.fill s.seconds n).getD k 0) ∧
         t.rd a = BitVec.ofNat 16 s.nu.fill ∧ t.rd (a + 4) = 1 ∧
         t.rd Win.lastFill = BitVec.ofNat 16 s.nu.fill ∧
         t.rd Win.overrun = (if s.rd (a + 4) ≠ 0 ∧ s.rd Win.overrun ≠ 65535
           then s.rd Win.overrun + 1 else s.rd Win.overrun) ∧
         ∀ b, (b < Win.lastFill ∨ Win.overrun + 2 ≤ b) → (b < a ∨ a + 32 ≤ b) →
           t.byteAt b = s.byteAt b)) ∧
  (∀ s : State, s.port.resetLow = false → s.nu.list ≠ [] →
    ∃ t, exec .noticeWrite { gap s with port.waiting := [] } = .next t ∧
      exec .noticeWrite s = .next { t with port.waiting := (gap s).port.waiting })

/-- CAPTURE_WRITE judges the oldest offer: with the capture record EMPTY it is written whole, marked
FULL, and CAPTURE TAKEN is posted; with it FULL the offer is dropped; with no offer nothing changes.
Host accesses that wait are served before the access or after it, never inside. -/
def Obligations.CaptureWriteJudges : Prop :=
  (∀ s : State, arbiterFree s = true → Memory.wf s.mem = true →
     (s.nu.offers = [] → exec .captureWrite s = .next s) ∧
     (∀ o r, s.nu.offers = o :: r → o.samples.length ≤ 128 →
       (s.rd Win.captureState ≠ 0 → exec .captureWrite s = .next { s with nu.offers := r }) ∧
       (s.rd Win.captureState = 0 → s.nu.list.length < 16 →
         ∃ t, exec .captureWrite s = .next t ∧
           t = { s with
             nu := { s.nu with
               offers := r
               list := s.nu.list ++ [⟨255, o.order, o.batch,
                 .captureTaken o.scale o.source o.outcome o.samples.length⟩] }
             mem := t.mem } ∧
           t.rd Win.captureState = 1 ∧
           (∀ k, k < 8 + 2 * o.samples.length →
             t.rd (Win.capture + 2 * k) = (captureWords o).getD k 0) ∧
           ∀ b, b ≠ Win.captureState → b ≠ Win.captureState + 1 →
             (b < Win.capture ∨ Win.capture + 16 + 4 * o.samples.length ≤ b) →
             t.byteAt b = s.byteAt b))) ∧
  (∀ s : State, s.port.resetLow = false → s.nu.offers ≠ [] → s.nu.list.length < 16 →
    ∃ t, exec .captureWrite { gap s with port.waiting := [] } = .next t ∧
      exec .captureWrite s = .next { t with port.waiting := (gap s).port.waiting })

/-! ### Derived values -/

/-- The derived masses of an order: nominal dry mass, component target and nominal binder mass, each
rounded half-up once, the binder mass never below 0; the dry mass of a batch of 500.0 to 6000.0 kg at
20 to 90 permille lies between 455.0 and 5880.0 kg. The allowance a dose leaves behind: the old one
without an observed in-flight mass, with learn gain 0, or after a hold, an unsettled settle or a sample
gap; else moved toward the observed mass by gain eighths, rounded half-up, and kept from 0 to the fine
band. -/
def Obligations.DerivedMasses : Prop :=
  (∀ (m b : Nat), 2000 * dryMass m b ≤ 2 * m * (1000 - b) + 1000 ∧
    2 * (m : Int) * (1000 - b) + 1000 < 2000 * (dryMass m b + 1)) ∧
  (∀ (m b : Nat), 5000 ≤ m → m ≤ 60000 → 20 ≤ b → b ≤ 90 →
    4550 ≤ dryMass m b ∧ dryMass m b ≤ 58800) ∧
  (∀ (dn : Int) (share : Nat), 2000 * shareMass dn share ≤ 2 * dn * share + 1000 ∧
    2 * dn * share + 1000 < 2000 * (shareMass dn share + 1)) ∧
  (∀ (b r : Nat) (dn pn k : Int), b < 1000 →
    let den : Int := (1000 - b) * 1000
    let num := 1000 * b * dn - pn * r * (1000 - b)
    2 * den * k ≤ 2 * num + den → 2 * num + den < 2 * den * (k + 1) →
    binderMass b r dn pn = max 0 k) ∧
  (∀ d : Dose,
    (d.observed = none ∨ d.gain = 0 ∨ d.held = true ∨ d.unsettled = true ∨ d.sampleGap = true →
      newAllowance d = d.allow) ∧
    (∀ o k : Int, d.observed = some o → d.gain ≠ 0 → d.held = false → d.unsettled = false →
      d.sampleGap = false → 0 ≤ d.fine →
      16 * k ≤ 2 * (8 * d.allow + (o - d.allow) * d.gain) + 8 →
      2 * (8 * d.allow + (o - d.allow) * d.gain) + 8 < 16 * (k + 1) →
      newAllowance d = max 0 (min k d.fine)))

/-! ### Laws every step keeps -/

/-- A feed output only in FAST, FINE and JOGGING, at most one a scale, and a gate only in DISCHARGING;
no feed output outside RUN, under PAUSED or in a clear cycle, and no dose in a sub-phase that feeds there
but one that HALTED keeps; the door open only in DOOR_OPEN with no channel in DISCHARGING: every step
keeps each. -/
def Obligations.StepKeepsOutputs : Prop :=
  (∀ s t : State, channelsSafe s = true → step s = .next t → channelsSafe t = true) ∧
  (∀ s t : State, channelsSafe s = true → feedSafe s = true → step s = .next t → feedSafe t = true) ∧
  (∀ s t : State, doorSafe s = true → step s = .next t → doorSafe t = true)

/-- The firing output 0 outside LOW_FIRE and MODULATING and within the firing limits inside them: every
step keeps this. -/
def Obligations.StepKeepsFiring : Prop :=
  ∀ s t : State, fireSafe s.heat = true → step s = .next t → fireSafe t.heat = true

/-- At most three orders queued: every step keeps this. -/
def Obligations.StepKeepsQueue : Prop :=
  ∀ s t : State, queueSafe s = true → step s = .next t → queueSafe t = true

/-- Every batch in a stage has a number already given, the mixer-stage batch the lower one: every step
keeps this, and no step but POWER_ON_RESET lowers the batch counter. -/
def Obligations.StepKeepsStages : Prop :=
  ∀ s t : State, stagesSafe s.co = true → step s = .next t →
    stagesSafe t.co = true ∧
      (s.pending.head? ≠ some .powerOnReset → s.co.counter ≤ t.co.counter)

/-- PAUSED and FINISHING in RUN only, a clear step in RUN and HALTED only, flame in RUN only with the
request output on exactly while it is asked for or held; a heater on only in STANDBY, RUN, STOPPED and
HALTED and never with its latch set: every step keeps each. -/
def Obligations.StepKeepsRun : Prop :=
  (∀ s t : State, step s = .next t →
     (runSafe s.rc = true → runSafe t.rc = true) ∧ (burnerSafe s = true → burnerSafe t = true)) ∧
  (∀ s t : State, heaterSafe s = true → step s = .next t → heaterSafe t = true)

/-- The window RAM keeps its canonical form, the notice unit its ranges and the late counters 0 to 3:
every step keeps this. -/
def Obligations.StepKeepsMemory : Prop :=
  ∀ s t : State, step s = .next t →
    (memorySafe s = true → memorySafe t = true) ∧ (noticeSafe s.nu = true → noticeSafe t.nu = true) ∧
      (lateSafe s = true → lateSafe t = true)
end

