-- ==== Sys2Proof/Laws/State.lean ====
section
/-! SUPPORT. What each named update of the state changes and keeps, field by field. -/

namespace Sys2Proof.Machine

/-! ### One word of the window: only `mem` changes -/

@[simp] theorem State.wr_port (s : State) (a : Nat) (w : Word) : (s.wr a w).port = s.port := rfl
@[simp] theorem State.wr_rc (s : State) (a : Nat) (w : Word) : (s.wr a w).rc = s.rc := rfl
@[simp] theorem State.wr_oe (s : State) (a : Nat) (w : Word) : (s.wr a w).oe = s.oe := rfl
@[simp] theorem State.wr_co (s : State) (a : Nat) (w : Word) : (s.wr a w).co = s.co := rfl
@[simp] theorem State.wr_ch (s : State) (a : Nat) (w : Word) : (s.wr a w).ch = s.ch := rfl
@[simp] theorem State.wr_bit (s : State) (a : Nat) (w : Word) : (s.wr a w).bit = s.bit := rfl
@[simp] theorem State.wr_mixer (s : State) (a : Nat) (w : Word) : (s.wr a w).mixer = s.mixer := rfl
@[simp] theorem State.wr_heat (s : State) (a : Nat) (w : Word) : (s.wr a w).heat = s.heat := rfl
@[simp] theorem State.wr_nu (s : State) (a : Nat) (w : Word) : (s.wr a w).nu = s.nu := rfl
@[simp] theorem State.wr_inp (s : State) (a : Nat) (w : Word) : (s.wr a w).inp = s.inp := rfl
@[simp] theorem State.wr_seconds (s : State) (a : Nat) (w : Word) : (s.wr a w).seconds = s.seconds := rfl
@[simp] theorem State.wr_clk (s : State) (a : Nat) (w : Word) : (s.wr a w).clk = s.clk := rfl
@[simp] theorem State.wr_freeSeed (s : State) (a : Nat) (w : Word) : (s.wr a w).freeSeed = s.freeSeed := rfl
@[simp] theorem State.wr_pending (s : State) (a : Nat) (w : Word) : (s.wr a w).pending = s.pending := rfl

/-! ### A 32-bit field -/

@[simp] theorem State.wr32_port (s : State) (a : Nat) (d : DWord) : (s.wr32 a d).port = s.port := rfl
@[simp] theorem State.wr32_rc (s : State) (a : Nat) (d : DWord) : (s.wr32 a d).rc = s.rc := rfl
@[simp] theorem State.wr32_oe (s : State) (a : Nat) (d : DWord) : (s.wr32 a d).oe = s.oe := rfl
@[simp] theorem State.wr32_co (s : State) (a : Nat) (d : DWord) : (s.wr32 a d).co = s.co := rfl
@[simp] theorem State.wr32_ch (s : State) (a : Nat) (d : DWord) : (s.wr32 a d).ch = s.ch := rfl
@[simp] theorem State.wr32_bit (s : State) (a : Nat) (d : DWord) : (s.wr32 a d).bit = s.bit := rfl
@[simp] theorem State.wr32_mixer (s : State) (a : Nat) (d : DWord) : (s.wr32 a d).mixer = s.mixer := rfl
@[simp] theorem State.wr32_heat (s : State) (a : Nat) (d : DWord) : (s.wr32 a d).heat = s.heat := rfl
@[simp] theorem State.wr32_nu (s : State) (a : Nat) (d : DWord) : (s.wr32 a d).nu = s.nu := rfl
@[simp] theorem State.wr32_inp (s : State) (a : Nat) (d : DWord) : (s.wr32 a d).inp = s.inp := rfl
@[simp] theorem State.wr32_seconds (s : State) (a : Nat) (d : DWord) : (s.wr32 a d).seconds = s.seconds := rfl
@[simp] theorem State.wr32_clk (s : State) (a : Nat) (d : DWord) : (s.wr32 a d).clk = s.clk := rfl
@[simp] theorem State.wr32_freeSeed (s : State) (a : Nat) (d : DWord) : (s.wr32 a d).freeSeed = s.freeSeed := rfl
@[simp] theorem State.wr32_pending (s : State) (a : Nat) (d : DWord) : (s.wr32 a d).pending = s.pending := rfl

/-! ### One scale channel: only `ch` changes -/

@[simp] theorem State.setChan_port (s : State) (sc : Scale) (c : Channel) : (s.setChan sc c).port = s.port := rfl
@[simp] theorem State.setChan_rc (s : State) (sc : Scale) (c : Channel) : (s.setChan sc c).rc = s.rc := rfl
@[simp] theorem State.setChan_oe (s : State) (sc : Scale) (c : Channel) : (s.setChan sc c).oe = s.oe := rfl
@[simp] theorem State.setChan_co (s : State) (sc : Scale) (c : Channel) : (s.setChan sc c).co = s.co := rfl
@[simp] theorem State.setChan_bit (s : State) (sc : Scale) (c : Channel) : (s.setChan sc c).bit = s.bit := rfl
@[simp] theorem State.setChan_mixer (s : State) (sc : Scale) (c : Channel) : (s.setChan sc c).mixer = s.mixer := rfl
@[simp] theorem State.setChan_heat (s : State) (sc : Scale) (c : Channel) : (s.setChan sc c).heat = s.heat := rfl
@[simp] theorem State.setChan_nu (s : State) (sc : Scale) (c : Channel) : (s.setChan sc c).nu = s.nu := rfl
@[simp] theorem State.setChan_inp (s : State) (sc : Scale) (c : Channel) : (s.setChan sc c).inp = s.inp := rfl
@[simp] theorem State.setChan_seconds (s : State) (sc : Scale) (c : Channel) : (s.setChan sc c).seconds = s.seconds := rfl
@[simp] theorem State.setChan_clk (s : State) (sc : Scale) (c : Channel) : (s.setChan sc c).clk = s.clk := rfl
@[simp] theorem State.setChan_mem (s : State) (sc : Scale) (c : Channel) : (s.setChan sc c).mem = s.mem := rfl
@[simp] theorem State.setChan_freeSeed (s : State) (sc : Scale) (c : Channel) : (s.setChan sc c).freeSeed = s.freeSeed := rfl
@[simp] theorem State.setChan_pending (s : State) (sc : Scale) (c : Channel) : (s.setChan sc c).pending = s.pending := rfl

@[simp] theorem State.setChan_ch (s : State) (sc : Scale) (c : Channel) :
    (s.setChan sc c).ch = s.ch.set sc c := rfl

@[simp] theorem State.modChan_port (s : State) (sc : Scale) (g : Channel → Channel) : (s.modChan sc g).port = s.port := rfl
@[simp] theorem State.modChan_rc (s : State) (sc : Scale) (g : Channel → Channel) : (s.modChan sc g).rc = s.rc := rfl
@[simp] theorem State.modChan_oe (s : State) (sc : Scale) (g : Channel → Channel) : (s.modChan sc g).oe = s.oe := rfl
@[simp] theorem State.modChan_co (s : State) (sc : Scale) (g : Channel → Channel) : (s.modChan sc g).co = s.co := rfl
@[simp] theorem State.modChan_bit (s : State) (sc : Scale) (g : Channel → Channel) : (s.modChan sc g).bit = s.bit := rfl
@[simp] theorem State.modChan_mixer (s : State) (sc : Scale) (g : Channel → Channel) : (s.modChan sc g).mixer = s.mixer := rfl
@[simp] theorem State.modChan_heat (s : State) (sc : Scale) (g : Channel → Channel) : (s.modChan sc g).heat = s.heat := rfl
@[simp] theorem State.modChan_nu (s : State) (sc : Scale) (g : Channel → Channel) : (s.modChan sc g).nu = s.nu := rfl
@[simp] theorem State.modChan_inp (s : State) (sc : Scale) (g : Channel → Channel) : (s.modChan sc g).inp = s.inp := rfl
@[simp] theorem State.modChan_seconds (s : State) (sc : Scale) (g : Channel → Channel) : (s.modChan sc g).seconds = s.seconds := rfl
@[simp] theorem State.modChan_clk (s : State) (sc : Scale) (g : Channel → Channel) : (s.modChan sc g).clk = s.clk := rfl
@[simp] theorem State.modChan_mem (s : State) (sc : Scale) (g : Channel → Channel) : (s.modChan sc g).mem = s.mem := rfl
@[simp] theorem State.modChan_freeSeed (s : State) (sc : Scale) (g : Channel → Channel) : (s.modChan sc g).freeSeed = s.freeSeed := rfl
@[simp] theorem State.modChan_pending (s : State) (sc : Scale) (g : Channel → Channel) : (s.modChan sc g).pending = s.pending := rfl

@[simp] theorem State.modChan_ch (s : State) (sc : Scale) (g : Channel → Channel) :
    (s.modChan sc g).ch = s.ch.set sc (g (s.ch.get sc)) := rfl

/-- Setting and then reading the same scale's item. -/
@[simp] theorem PerScale.get_set_same {α : Type} (p : PerScale α) (sc : Scale) (v : α) :
    (p.set sc v).get sc = v := by cases sc <;> rfl

/-- Setting one scale's item keeps the others. -/
theorem PerScale.get_set_other {α : Type} (p : PerScale α) {sc sc' : Scale} (v : α) (h : sc' ≠ sc) :
    (p.set sc v).get sc' = p.get sc' := by cases sc <;> cases sc' <;> first | rfl | exact absurd rfl h

/-- Setting a scale's item to what it is changes nothing. -/
@[simp] theorem PerScale.set_get {α : Type} (p : PerScale α) (sc : Scale) : p.set sc (p.get sc) = p := by
  cases sc <;> rfl

/-- A function over every scale, seen at one of them. -/
@[simp] theorem PerScale.get_map {α β : Type} (f : α → β) (p : PerScale α) (sc : Scale) :
    (p.map f).get sc = f (p.get sc) := by cases sc <;> rfl

/-- A test passes on every scale exactly when it passes on each. -/
theorem PerScale.all_iff {α : Type} (f : α → Bool) (p : PerScale α) :
    p.all f = true ↔ ∀ sc, f (p.get sc) = true := by
  constructor
  · intro h sc
    simp only [PerScale.all, Bool.and_eq_true] at h
    cases sc
    · exact h.1.1.1
    · exact h.1.1.2
    · exact h.1.2
    · exact h.2
  · intro h
    simp only [PerScale.all, Bool.and_eq_true]
    exact ⟨⟨⟨h .agg, h .rap⟩, h .fil⟩, h .bit⟩

/-- A test passes on some scale exactly when it passes on one of them. -/
theorem PerScale.any_iff {α : Type} (f : α → Bool) (p : PerScale α) :
    p.any f = true ↔ ∃ sc, f (p.get sc) = true := by
  constructor
  · intro h
    simp only [PerScale.any, Bool.or_eq_true] at h
    rcases h with ((h | h) | h) | h
    · exact ⟨.agg, h⟩
    · exact ⟨.rap, h⟩
    · exact ⟨.fil, h⟩
    · exact ⟨.bit, h⟩
  · rintro ⟨sc, h⟩
    simp only [PerScale.any, Bool.or_eq_true]
    cases sc
    · exact .inl (.inl (.inl h))
    · exact .inl (.inl (.inr h))
    · exact .inl (.inr h)
    · exact .inr h

/-- The channel just set. -/
@[simp] theorem State.chan_setChan_same (s : State) (sc : Scale) (c : Channel) :
    (s.setChan sc c).chan sc = c := by simp [State.chan]

/-- The channel just updated. -/
@[simp] theorem State.chan_modChan_same (s : State) (sc : Scale) (g : Channel → Channel) :
    (s.modChan sc g).chan sc = g (s.chan sc) := by simp [State.chan]

/-- Setting one receiver's item keeps the others. -/
theorem PerRoute.get_set_other {α : Type} (p : PerRoute α) {r r' : Route} (v : α) (h : r' ≠ r) :
    (p.set r v).get r' = p.get r' := by cases r <;> cases r' <;> first | rfl | exact absurd rfl h

/-- Setting and then reading the same receiver's item. -/
@[simp] theorem PerRoute.get_set_same {α : Type} (p : PerRoute α) (r : Route) (v : α) :
    (p.set r v).get r = v := by cases r <;> rfl

end Sys2Proof.Machine
end

