-- ==== Sys2Proof/Laws/Memory.lean ====
section
/-! SUPPORT. The window RAM: every operation keeps the canonical form, a read gives what was written
last, and equal contents are equal data. -/

namespace Sys2Proof.Machine

/-! ### The canonical form is kept -/

theorem Memory.wfFrom_mono {m : Memory} {lo lo' : Nat} (h : Memory.wfFrom lo m = true) (hl : lo' ≤ lo) :
    Memory.wfFrom lo' m = true := by
  cases m with
  | nil => rfl
  | cons c m =>
    obtain ⟨k, v⟩ := c
    simp only [Memory.wfFrom, Bool.and_eq_true, decide_eq_true_eq] at h ⊢
    exact ⟨⟨by omega, h.1.2⟩, h.2⟩

theorem Memory.setByte_wfFrom (m : Memory) (a : Nat) (b : Byte) :
    ∀ lo, Memory.wfFrom lo m = true → lo ≤ a → Memory.wfFrom lo (Memory.setByte m a b) = true := by
  induction m with
  | nil =>
    intro lo _ ha
    by_cases hb : b = Config.unwrittenByte
    · simp [Memory.setByte, hb, Memory.wfFrom]
    · simp [Memory.setByte, hb, Memory.wfFrom, ha]
  | cons c m ih =>
    obtain ⟨k, v⟩ := c
    intro lo h ha
    have h0 := h
    simp only [Memory.wfFrom, Bool.and_eq_true, decide_eq_true_eq] at h
    obtain ⟨⟨hk, hv⟩, ht⟩ := h
    by_cases hlt : a < k
    · by_cases hb : b = Config.unwrittenByte
      · simp only [Memory.setByte, hlt, hb, if_true]; exact h0
      · simp only [Memory.setByte, hlt, hb, if_true, if_false, Memory.wfFrom, Bool.and_eq_true,
          decide_eq_true_eq]
        exact ⟨⟨ha, hb⟩, ⟨⟨by omega, hv⟩, ht⟩⟩
    · by_cases heq : a = k
      · by_cases hb : b = Config.unwrittenByte
        · simp only [Memory.setByte, heq, lt_irrefl, hb, if_true, if_false]
          exact Memory.wfFrom_mono ht (by omega)
        · simp only [Memory.setByte, heq, lt_irrefl, hb, if_true, if_false, Memory.wfFrom,
            Bool.and_eq_true, decide_eq_true_eq]
          exact ⟨⟨hk, hb⟩, ht⟩
      · simp only [Memory.setByte, hlt, heq, if_false, Memory.wfFrom, Bool.and_eq_true,
          decide_eq_true_eq]
        exact ⟨⟨hk, hv⟩, ih (k + 1) ht (by omega)⟩

/-- Writing a byte keeps the canonical form. -/
theorem Memory.setByte_wf {m : Memory} (h : Memory.wf m = true) (a : Nat) (b : Byte) :
    Memory.wf (Memory.setByte m a b) = true := Memory.setByte_wfFrom m a b 0 h (Nat.zero_le a)

/-- A memory built from any cells is canonical. -/
theorem Memory.ofCells_wf (cs : List Host.Cell) : Memory.wf (Memory.ofCells cs) = true := by
  induction cs with
  | nil => rfl
  | cons c cs ih =>
    obtain ⟨a, b⟩ := c
    by_cases h : a < 0x10000
    · simp only [Memory.ofCells, h, if_true]; exact Memory.setByte_wf ih a b
    · simp only [Memory.ofCells, h, if_false]; exact ih

/-- The window after reset is canonical. -/
theorem Memory.reset_wf : Memory.wf Memory.reset = true := by decide

/-! ### Reading back -/

theorem Memory.getByte_below (m : Memory) :
    ∀ lo a, Memory.wfFrom lo m = true → a < lo → Memory.getByte m a = Config.unwrittenByte := by
  induction m with
  | nil => intros; rfl
  | cons c m ih =>
    obtain ⟨k, v⟩ := c
    intro lo a h ha
    simp only [Memory.wfFrom, Bool.and_eq_true, decide_eq_true_eq] at h
    obtain ⟨⟨hk, _⟩, ht⟩ := h
    have hka : k ≠ a := by omega
    simp only [Memory.getByte, hka, if_false]
    exact ih (k + 1) a ht (by omega)

theorem Memory.getByte_setByte_from (m : Memory) (a : Nat) (b : Byte) (c : Nat) :
    ∀ lo, Memory.wfFrom lo m = true →
      Memory.getByte (Memory.setByte m a b) c = if c = a then b else Memory.getByte m c := by
  induction m with
  | nil =>
    intro _ _
    by_cases hb : b = Config.unwrittenByte
    · by_cases hc : c = a <;> simp [Memory.setByte, hb, Memory.getByte, hc]
    · by_cases hc : c = a
      · simp [Memory.setByte, hb, Memory.getByte, hc]
      · have : a ≠ c := fun h => hc h.symm
        simp [Memory.setByte, hb, Memory.getByte, hc, this]
  | cons x m ih =>
    obtain ⟨k, v⟩ := x
    intro lo h
    simp only [Memory.wfFrom, Bool.and_eq_true, decide_eq_true_eq] at h
    obtain ⟨⟨hk, hv⟩, ht⟩ := h
    by_cases hlt : a < k
    · have hab : Memory.getByte m a = Config.unwrittenByte := Memory.getByte_below m (k + 1) a ht (by omega)
      have hka : k ≠ a := by omega
      by_cases hb : b = Config.unwrittenByte
      · by_cases hc : c = a
        · subst hc; simp [Memory.setByte, hlt, hb, Memory.getByte, hka, hab]
        · simp [Memory.setByte, hlt, hb, Memory.getByte, hc]
      · by_cases hc : c = a
        · simp [Memory.setByte, hlt, hb, Memory.getByte, hc]
        · have : a ≠ c := fun h => hc h.symm
          simp [Memory.setByte, hlt, hb, Memory.getByte, hc, this]
    · by_cases heq : a = k
      · subst heq
        have hab : Memory.getByte m a = Config.unwrittenByte :=
          Memory.getByte_below m (a + 1) a ht (by omega)
        by_cases hb : b = Config.unwrittenByte
        · by_cases hc : c = a
          · subst hc; simp [Memory.setByte, hb, hab]
          · have : a ≠ c := fun h => hc h.symm
            simp [Memory.setByte, hb, Memory.getByte, hc, this]
        · by_cases hc : c = a
          · simp [Memory.setByte, hb, Memory.getByte, hc]
          · have : a ≠ c := fun h => hc h.symm
            simp [Memory.setByte, hb, Memory.getByte, hc, this]
      · by_cases hkc : k = c
        · subst hkc
          have : k ≠ a := fun h => heq h.symm
          simp only [Memory.setByte, hlt, heq, if_false, Memory.getByte, if_true, this]
        · simp only [Memory.setByte, hlt, heq, if_false, Memory.getByte, hkc]
          exact ih (k + 1) ht

/-- A byte reads as the last value written to it, and every other byte as before. -/
theorem Memory.getByte_setByte {m : Memory} (h : Memory.wf m = true) (a : Nat) (b : Byte) (c : Nat) :
    Memory.getByte (Memory.setByte m a b) c = if c = a then b else Memory.getByte m c :=
  Memory.getByte_setByte_from m a b c 0 h

/-- Reading a byte is looking up the first cell of its address. -/
theorem Memory.getByte_find (m : Memory) (a : Nat) :
    Memory.getByte m a = ((m.find? fun c => c.1 == a).map Prod.snd).getD Config.unwrittenByte := by
  induction m with
  | nil => rfl
  | cons c m ih =>
    obtain ⟨k, v⟩ := c
    by_cases h : k = a
    · simp [Memory.getByte, h]
    · simp [Memory.getByte, h, ih]

/-- A memory built from cells reads, inside the window, the first cell of an address. -/
theorem Memory.getByte_ofCells (cs : List Host.Cell) {a : Nat} (ha : a < 0x10000) :
    Memory.getByte (Memory.ofCells cs) a =
      ((cs.find? fun c => c.1 == a).map Prod.snd).getD Config.unwrittenByte := by
  induction cs with
  | nil => rfl
  | cons c cs ih =>
    obtain ⟨k, v⟩ := c
    unfold Memory.ofCells
    by_cases h : k = a
    · rw [if_pos (by omega), Memory.getByte_setByte (Memory.ofCells_wf cs)]
      simp [h]
    · have e : Memory.getByte (if k < 0x10000 then Memory.setByte (Memory.ofCells cs) k v
          else Memory.ofCells cs) a = Memory.getByte (Memory.ofCells cs) a := by
        split
        · rw [Memory.getByte_setByte (Memory.ofCells_wf cs), if_neg (by omega)]
        · rfl
      rw [e, ih]
      simp [h]

/-- Canonical memories with the same contents are equal. -/
theorem Memory.ext_from (m : Memory) : ∀ (n : Memory) (lo : Nat), Memory.wfFrom lo m = true →
    Memory.wfFrom lo n = true → (∀ a, Memory.getByte m a = Memory.getByte n a) → m = n := by
  induction m with
  | nil =>
    intro n lo _ hn h
    cases n with
    | nil => rfl
    | cons x n =>
      obtain ⟨k, v⟩ := x
      have h1 := h k
      simp only [Memory.wfFrom, Bool.and_eq_true, decide_eq_true_eq] at hn
      simp [Memory.getByte] at h1
      exact absurd h1.symm hn.1.2
  | cons x m ih =>
    obtain ⟨k, v⟩ := x
    intro n lo hm hn h
    cases n with
    | nil =>
      have h1 := h k
      simp only [Memory.wfFrom, Bool.and_eq_true, decide_eq_true_eq] at hm
      simp [Memory.getByte] at h1
      exact absurd h1 hm.1.2
    | cons y n =>
      obtain ⟨l, w⟩ := y
      simp only [Memory.wfFrom, Bool.and_eq_true, decide_eq_true_eq] at hm hn
      have hkl : k = l := by
        rcases lt_trichotomy k l with hlt | heq | hgt
        · have h1 := h k
          have h2 : Memory.getByte n k = Config.unwrittenByte :=
            Memory.getByte_below n (l + 1) k hn.2 (by omega)
          have h3 : l ≠ k := by omega
          simp [Memory.getByte, h3, h2] at h1
          exact absurd h1 hm.1.2
        · exact heq
        · have h1 := h l
          have h2 : Memory.getByte m l = Config.unwrittenByte :=
            Memory.getByte_below m (k + 1) l hm.2 (by omega)
          have h3 : k ≠ l := by omega
          simp [Memory.getByte, h3, h2] at h1
          exact absurd h1.symm hn.1.2
      subst hkl
      have hvw : v = w := by have h1 := h k; simpa [Memory.getByte] using h1
      subst hvw
      have : m = n := ih n (k + 1) hm.2 hn.2 (fun a => by
        by_cases ha : k = a
        · subst ha
          rw [Memory.getByte_below m (k + 1) k hm.2 (by omega),
            Memory.getByte_below n (k + 1) k hn.2 (by omega)]
        · have h1 := h a
          simpa [Memory.getByte, ha] using h1)
      rw [this]

theorem Memory.ext {m n : Memory} (hm : Memory.wf m = true) (hn : Memory.wf n = true)
    (h : ∀ a, Memory.getByte m a = Memory.getByte n a) : m = n := Memory.ext_from m n 0 hm hn h

/-! ### Words -/

theorem joinBytes_lowHigh (w : Word) : joinBytes (Word.lowByte w) (Word.highByte w) = w := by
  apply BitVec.eq_of_getLsbD_eq
  intro i hi
  simp only [joinBytes, Word.lowByte, Word.highByte, BitVec.getLsbD_append, BitVec.getLsbD_setWidth,
    BitVec.getLsbD_ushiftRight]
  by_cases h : i < 8
  · simp [h]
  · have h8 : i - 8 < 8 := by omega
    have h9 : 8 + (i - 8) = i := by omega
    simp [h, h8, h9]

/-- Writing a word keeps the canonical form. -/
theorem State.wr_wf {s : State} (h : Memory.wf s.mem = true) (a : Nat) (w : Word) :
    Memory.wf (s.wr a w).mem = true := Memory.setByte_wf (Memory.setByte_wf h _ _) _ _

/-- What a byte reads after a word was written. -/
theorem State.byteAt_wr {s : State} (h : Memory.wf s.mem = true) (a : Nat) (w : Word) (c : Nat) :
    (s.wr a w).byteAt c =
      if c = a + 1 then Word.highByte w else if c = a then Word.lowByte w else s.byteAt c := by
  simp only [State.byteAt, State.wr]
  rw [Memory.getByte_setByte (Memory.setByte_wf h _ _), Memory.getByte_setByte h]

/-- A word reads as it was written. -/
theorem State.rd_wr_same {s : State} (h : Memory.wf s.mem = true) (a : Nat) (w : Word) :
    (s.wr a w).rd a = w := by
  have h1 : a ≠ a + 1 := by omega
  simp [State.rd, State.byteAt_wr h, joinBytes_lowHigh]

/-- A word apart from the one written reads as before. -/
theorem State.rd_wr_other {s : State} (h : Memory.wf s.mem = true) {a b : Nat} (w : Word)
    (hab : b + 2 ≤ a ∨ a + 2 ≤ b) : (s.wr a w).rd b = s.rd b := by
  have h1 : b ≠ a + 1 := by omega
  have h2 : b ≠ a := by omega
  have h3 : b + 1 ≠ a + 1 := by omega
  have h4 : b + 1 ≠ a := by omega
  simp only [State.rd, State.byteAt_wr h, h1, h2, h3, h4, if_false]

end Sys2Proof.Machine
end

