-- ==== Sys2Proof/Laws/Access.lean ====
section
/-! SUPPORT. The RAM arbiter and the notice unit, one law per shared operation: what each can change,
that the window stays canonical, and what each is when no host access waits. -/

namespace Sys2Proof.Machine

/-- The state without the window and what the arbiter keeps of host accesses. -/
def State.offRam (s : State) : State :=
  { s with mem := [], port := { s.port with waiting := [], hostData := 0 } }

/-- The state without the window, what the arbiter keeps, and the notice unit. -/
def State.offLog (s : State) : State :=
  { s with mem := [], port := { s.port with waiting := [], hostData := 0 }, nu := NoticeUnit.reset }

theorem State.offLog_of_offRam {s t : State} (h : s.offRam = t.offRam) : s.offLog = t.offLog := by
  have h1 := congrArg (fun u : State => { u with nu := NoticeUnit.reset }) h
  exact h1

theorem State.nu_offLog (s : State) (u : NoticeUnit) : ({ s with nu := u } : State).offLog = s.offLog := rfl

theorem State.wr_offRam (s : State) (a : Nat) (w : Word) : (s.wr a w).offRam = s.offRam := rfl

/-- The notice unit's numbers within their ranges, as a proposition (section 9). -/
def noticeRange (u : NoticeUnit) : Prop :=
  u.pos < Config.logEntries ∧ 1 ≤ u.fill ∧ u.fill ≤ 65535 ∧ u.list.length ≤ Config.listCapacity

/-! ### What the arbiter changes -/

theorem serveAccess_offRam (h : HostAccess) (s : State) : (serveAccess h s).offRam = s.offRam := by
  unfold serveAccess; split <;> rfl

theorem serveDue_offRam (hs : List HostAccess) : ∀ s : State, (serveDue hs s).offRam = s.offRam := by
  induction hs with
  | nil => intro s; rfl
  | cons h hs ih =>
    intro s
    unfold serveDue
    split
    · rw [ih, serveAccess_offRam]
    · rfl

theorem serveAll_offRam (hs : List HostAccess) : ∀ s : State, (serveAll hs s).offRam = s.offRam := by
  induction hs with
  | nil => intro s; rfl
  | cons h hs ih => intro s; unfold serveAll; rw [ih, serveAccess_offRam]

/-- A moment between part accesses changes the window and the arbiter only. -/
theorem gap_offRam (s : State) : (gap s).offRam = s.offRam := serveDue_offRam _ s

theorem put_offRam (a : Nat) (w : Word) (s : State) : (put a w s).offRam = s.offRam := gap_offRam s

theorem putAll_offRam (l : List (Nat × Word)) : ∀ s : State, (putAll l s).offRam = s.offRam := by
  induction l with
  | nil => intro s; rfl
  | cons x l ih => intro s; obtain ⟨a, w⟩ := x; unfold putAll; rw [ih, put_offRam]

theorem readAll_offRam (l : List Nat) : ∀ s : State, (readAll l s).2.offRam = s.offRam := by
  induction l with
  | nil => intro s; rfl
  | cons a l ih => intro s; unfold readAll; exact (ih (gap s)).trans (gap_offRam s)

/-- A field is read in one access. -/
@[simp] theorem readField_state (a n : Nat) (s : State) : (readField a n s).2 = gap s := rfl

/-- A write sequence changes the window and the arbiter only. -/
theorem guardedSeq_offRam (n : Nat) (states : List Word) (number : Word) (between : List (Nat × Word))
    (last : Nat × Word) (s : State) :
    (guardedSeq n states number between last s).1.offRam = s.offRam := by
  have h : ∀ t : State, (gap (putAll between (gap t))).offRam = t.offRam := fun t => by
    rw [gap_offRam, putAll_offRam, gap_offRam]
  unfold guardedSeq
  simp only
  split
  · split
    · exact h s
    · exact h s
  · exact gap_offRam s

/-! ### What the notice unit changes -/

theorem wrWords_offRam (ws : List Word) : ∀ (s : State) (a : Nat), (s.wrWords a ws).offRam = s.offRam := by
  induction ws with
  | nil => intros; rfl
  | cons w ws ih => intro s a; unfold State.wrWords; rw [ih, State.wr_offRam]

theorem countOverrun_offRam (s : State) : (countOverrun s).offRam = s.offRam := by
  unfold countOverrun; split <;> rfl

theorem writeEntry_offLog (n : Notice) (s : State) : (writeEntry n s).offLog = s.offLog := by
  unfold writeEntry
  refine (State.nu_offLog _ _).trans (State.offLog_of_offRam ?_)
  rw [State.wr_offRam, wrWords_offRam, countOverrun_offRam]

theorem writeOldest_offLog (s : State) : (writeOldest s).offLog = s.offLog := by
  unfold writeOldest
  split
  · rfl
  · rw [writeEntry_offLog, State.offLog_of_offRam (gap_offRam _)]; rfl

/-- A submission changes the window, the arbiter and the notice unit only (R171). -/
theorem submit_offLog (n : Notice) (s : State) : (submit n s).offLog = s.offLog := by
  unfold submit
  simp only
  split
  · rfl
  · exact writeOldest_offLog s

theorem judgeOffer_offLog (o : Offer) (s : State) : (judgeOffer o s).offLog = s.offLog := by
  unfold judgeOffer
  simp only
  split
  · rw [submit_offLog]
    exact State.offLog_of_offRam ((State.wr_offRam _ _ _).trans ((wrWords_offRam _ _ _).trans (gap_offRam s)))
  · exact State.offLog_of_offRam (gap_offRam s)

theorem judgeOldest_offLog (s : State) : (judgeOldest s).offLog = s.offLog := by
  unfold judgeOldest
  split
  · rfl
  · rw [judgeOffer_offLog]; rfl

/-! ### The same, field by field -/

@[simp] theorem gap_rc (s : State) :
    (gap s).rc = s.rc := by have h := congrArg State.rc (gap_offRam s); exact h
@[simp] theorem gap_oe (s : State) :
    (gap s).oe = s.oe := by have h := congrArg State.oe (gap_offRam s); exact h
@[simp] theorem gap_co (s : State) :
    (gap s).co = s.co := by have h := congrArg State.co (gap_offRam s); exact h
@[simp] theorem gap_ch (s : State) :
    (gap s).ch = s.ch := by have h := congrArg State.ch (gap_offRam s); exact h
@[simp] theorem gap_bit (s : State) :
    (gap s).bit = s.bit := by have h := congrArg State.bit (gap_offRam s); exact h
@[simp] theorem gap_mixer (s : State) :
    (gap s).mixer = s.mixer := by have h := congrArg State.mixer (gap_offRam s); exact h
@[simp] theorem gap_heat (s : State) :
    (gap s).heat = s.heat := by have h := congrArg State.heat (gap_offRam s); exact h
@[simp] theorem gap_inp (s : State) :
    (gap s).inp = s.inp := by have h := congrArg State.inp (gap_offRam s); exact h
@[simp] theorem gap_seconds (s : State) :
    (gap s).seconds = s.seconds := by have h := congrArg State.seconds (gap_offRam s); exact h
@[simp] theorem gap_clk (s : State) :
    (gap s).clk = s.clk := by have h := congrArg State.clk (gap_offRam s); exact h
@[simp] theorem gap_freeSeed (s : State) :
    (gap s).freeSeed = s.freeSeed := by have h := congrArg State.freeSeed (gap_offRam s); exact h
@[simp] theorem gap_pending (s : State) :
    (gap s).pending = s.pending := by have h := congrArg State.pending (gap_offRam s); exact h
@[simp] theorem gap_resetLow (s : State) :
    (gap s).port.resetLow = s.port.resetLow := by have h := congrArg (fun u : State => u.port.resetLow) (gap_offRam s); exact h
@[simp] theorem gap_held (s : State) :
    (gap s).port.held = s.port.held := by have h := congrArg (fun u : State => u.port.held) (gap_offRam s); exact h
@[simp] theorem gap_refused (s : State) :
    (gap s).port.refused = s.port.refused := by have h := congrArg (fun u : State => u.port.refused) (gap_offRam s); exact h
@[simp] theorem gap_checkRecord (s : State) :
    (gap s).port.checkRecord = s.port.checkRecord := by have h := congrArg (fun u : State => u.port.checkRecord) (gap_offRam s); exact h
@[simp] theorem gap_nu (s : State) :
    (gap s).nu = s.nu := by have h := congrArg State.nu (gap_offRam s); exact h

@[simp] theorem serveAll_rc (hs : List HostAccess) (s : State) :
    (serveAll hs s).rc = s.rc := by have h := congrArg State.rc (serveAll_offRam hs s); exact h
@[simp] theorem serveAll_oe (hs : List HostAccess) (s : State) :
    (serveAll hs s).oe = s.oe := by have h := congrArg State.oe (serveAll_offRam hs s); exact h
@[simp] theorem serveAll_co (hs : List HostAccess) (s : State) :
    (serveAll hs s).co = s.co := by have h := congrArg State.co (serveAll_offRam hs s); exact h
@[simp] theorem serveAll_ch (hs : List HostAccess) (s : State) :
    (serveAll hs s).ch = s.ch := by have h := congrArg State.ch (serveAll_offRam hs s); exact h
@[simp] theorem serveAll_bit (hs : List HostAccess) (s : State) :
    (serveAll hs s).bit = s.bit := by have h := congrArg State.bit (serveAll_offRam hs s); exact h
@[simp] theorem serveAll_mixer (hs : List HostAccess) (s : State) :
    (serveAll hs s).mixer = s.mixer := by have h := congrArg State.mixer (serveAll_offRam hs s); exact h
@[simp] theorem serveAll_heat (hs : List HostAccess) (s : State) :
    (serveAll hs s).heat = s.heat := by have h := congrArg State.heat (serveAll_offRam hs s); exact h
@[simp] theorem serveAll_inp (hs : List HostAccess) (s : State) :
    (serveAll hs s).inp = s.inp := by have h := congrArg State.inp (serveAll_offRam hs s); exact h
@[simp] theorem serveAll_seconds (hs : List HostAccess) (s : State) :
    (serveAll hs s).seconds = s.seconds := by have h := congrArg State.seconds (serveAll_offRam hs s); exact h
@[simp] theorem serveAll_clk (hs : List HostAccess) (s : State) :
    (serveAll hs s).clk = s.clk := by have h := congrArg State.clk (serveAll_offRam hs s); exact h
@[simp] theorem serveAll_freeSeed (hs : List HostAccess) (s : State) :
    (serveAll hs s).freeSeed = s.freeSeed := by have h := congrArg State.freeSeed (serveAll_offRam hs s); exact h
@[simp] theorem serveAll_pending (hs : List HostAccess) (s : State) :
    (serveAll hs s).pending = s.pending := by have h := congrArg State.pending (serveAll_offRam hs s); exact h
@[simp] theorem serveAll_resetLow (hs : List HostAccess) (s : State) :
    (serveAll hs s).port.resetLow = s.port.resetLow := by have h := congrArg (fun u : State => u.port.resetLow) (serveAll_offRam hs s); exact h
@[simp] theorem serveAll_held (hs : List HostAccess) (s : State) :
    (serveAll hs s).port.held = s.port.held := by have h := congrArg (fun u : State => u.port.held) (serveAll_offRam hs s); exact h
@[simp] theorem serveAll_refused (hs : List HostAccess) (s : State) :
    (serveAll hs s).port.refused = s.port.refused := by have h := congrArg (fun u : State => u.port.refused) (serveAll_offRam hs s); exact h
@[simp] theorem serveAll_checkRecord (hs : List HostAccess) (s : State) :
    (serveAll hs s).port.checkRecord = s.port.checkRecord := by have h := congrArg (fun u : State => u.port.checkRecord) (serveAll_offRam hs s); exact h
@[simp] theorem serveAll_nu (hs : List HostAccess) (s : State) :
    (serveAll hs s).nu = s.nu := by have h := congrArg State.nu (serveAll_offRam hs s); exact h

@[simp] theorem put_rc (a : Nat) (w : Word) (s : State) :
    (put a w s).rc = s.rc := by have h := congrArg State.rc (put_offRam a w s); exact h
@[simp] theorem put_oe (a : Nat) (w : Word) (s : State) :
    (put a w s).oe = s.oe := by have h := congrArg State.oe (put_offRam a w s); exact h
@[simp] theorem put_co (a : Nat) (w : Word) (s : State) :
    (put a w s).co = s.co := by have h := congrArg State.co (put_offRam a w s); exact h
@[simp] theorem put_ch (a : Nat) (w : Word) (s : State) :
    (put a w s).ch = s.ch := by have h := congrArg State.ch (put_offRam a w s); exact h
@[simp] theorem put_bit (a : Nat) (w : Word) (s : State) :
    (put a w s).bit = s.bit := by have h := congrArg State.bit (put_offRam a w s); exact h
@[simp] theorem put_mixer (a : Nat) (w : Word) (s : State) :
    (put a w s).mixer = s.mixer := by have h := congrArg State.mixer (put_offRam a w s); exact h
@[simp] theorem put_heat (a : Nat) (w : Word) (s : State) :
    (put a w s).heat = s.heat := by have h := congrArg State.heat (put_offRam a w s); exact h
@[simp] theorem put_inp (a : Nat) (w : Word) (s : State) :
    (put a w s).inp = s.inp := by have h := congrArg State.inp (put_offRam a w s); exact h
@[simp] theorem put_seconds (a : Nat) (w : Word) (s : State) :
    (put a w s).seconds = s.seconds := by have h := congrArg State.seconds (put_offRam a w s); exact h
@[simp] theorem put_clk (a : Nat) (w : Word) (s : State) :
    (put a w s).clk = s.clk := by have h := congrArg State.clk (put_offRam a w s); exact h
@[simp] theorem put_freeSeed (a : Nat) (w : Word) (s : State) :
    (put a w s).freeSeed = s.freeSeed := by have h := congrArg State.freeSeed (put_offRam a w s); exact h
@[simp] theorem put_pending (a : Nat) (w : Word) (s : State) :
    (put a w s).pending = s.pending := by have h := congrArg State.pending (put_offRam a w s); exact h
@[simp] theorem put_resetLow (a : Nat) (w : Word) (s : State) :
    (put a w s).port.resetLow = s.port.resetLow := by have h := congrArg (fun u : State => u.port.resetLow) (put_offRam a w s); exact h
@[simp] theorem put_held (a : Nat) (w : Word) (s : State) :
    (put a w s).port.held = s.port.held := by have h := congrArg (fun u : State => u.port.held) (put_offRam a w s); exact h
@[simp] theorem put_refused (a : Nat) (w : Word) (s : State) :
    (put a w s).port.refused = s.port.refused := by have h := congrArg (fun u : State => u.port.refused) (put_offRam a w s); exact h
@[simp] theorem put_checkRecord (a : Nat) (w : Word) (s : State) :
    (put a w s).port.checkRecord = s.port.checkRecord := by have h := congrArg (fun u : State => u.port.checkRecord) (put_offRam a w s); exact h
@[simp] theorem put_nu (a : Nat) (w : Word) (s : State) :
    (put a w s).nu = s.nu := by have h := congrArg State.nu (put_offRam a w s); exact h

@[simp] theorem putAll_rc (l : List (Nat × Word)) (s : State) :
    (putAll l s).rc = s.rc := by have h := congrArg State.rc (putAll_offRam l s); exact h
@[simp] theorem putAll_oe (l : List (Nat × Word)) (s : State) :
    (putAll l s).oe = s.oe := by have h := congrArg State.oe (putAll_offRam l s); exact h
@[simp] theorem putAll_co (l : List (Nat × Word)) (s : State) :
    (putAll l s).co = s.co := by have h := congrArg State.co (putAll_offRam l s); exact h
@[simp] theorem putAll_ch (l : List (Nat × Word)) (s : State) :
    (putAll l s).ch = s.ch := by have h := congrArg State.ch (putAll_offRam l s); exact h
@[simp] theorem putAll_bit (l : List (Nat × Word)) (s : State) :
    (putAll l s).bit = s.bit := by have h := congrArg State.bit (putAll_offRam l s); exact h
@[simp] theorem putAll_mixer (l : List (Nat × Word)) (s : State) :
    (putAll l s).mixer = s.mixer := by have h := congrArg State.mixer (putAll_offRam l s); exact h
@[simp] theorem putAll_heat (l : List (Nat × Word)) (s : State) :
    (putAll l s).heat = s.heat := by have h := congrArg State.heat (putAll_offRam l s); exact h
@[simp] theorem putAll_inp (l : List (Nat × Word)) (s : State) :
    (putAll l s).inp = s.inp := by have h := congrArg State.inp (putAll_offRam l s); exact h
@[simp] theorem putAll_seconds (l : List (Nat × Word)) (s : State) :
    (putAll l s).seconds = s.seconds := by have h := congrArg State.seconds (putAll_offRam l s); exact h
@[simp] theorem putAll_clk (l : List (Nat × Word)) (s : State) :
    (putAll l s).clk = s.clk := by have h := congrArg State.clk (putAll_offRam l s); exact h
@[simp] theorem putAll_freeSeed (l : List (Nat × Word)) (s : State) :
    (putAll l s).freeSeed = s.freeSeed := by have h := congrArg State.freeSeed (putAll_offRam l s); exact h
@[simp] theorem putAll_pending (l : List (Nat × Word)) (s : State) :
    (putAll l s).pending = s.pending := by have h := congrArg State.pending (putAll_offRam l s); exact h
@[simp] theorem putAll_resetLow (l : List (Nat × Word)) (s : State) :
    (putAll l s).port.resetLow = s.port.resetLow := by have h := congrArg (fun u : State => u.port.resetLow) (putAll_offRam l s); exact h
@[simp] theorem putAll_held (l : List (Nat × Word)) (s : State) :
    (putAll l s).port.held = s.port.held := by have h := congrArg (fun u : State => u.port.held) (putAll_offRam l s); exact h
@[simp] theorem putAll_refused (l : List (Nat × Word)) (s : State) :
    (putAll l s).port.refused = s.port.refused := by have h := congrArg (fun u : State => u.port.refused) (putAll_offRam l s); exact h
@[simp] theorem putAll_checkRecord (l : List (Nat × Word)) (s : State) :
    (putAll l s).port.checkRecord = s.port.checkRecord := by have h := congrArg (fun u : State => u.port.checkRecord) (putAll_offRam l s); exact h
@[simp] theorem putAll_nu (l : List (Nat × Word)) (s : State) :
    (putAll l s).nu = s.nu := by have h := congrArg State.nu (putAll_offRam l s); exact h

@[simp] theorem readAll_rc (l : List Nat) (s : State) :
    ((readAll l s).2).rc = s.rc := by have h := congrArg State.rc (readAll_offRam l s); exact h
@[simp] theorem readAll_oe (l : List Nat) (s : State) :
    ((readAll l s).2).oe = s.oe := by have h := congrArg State.oe (readAll_offRam l s); exact h
@[simp] theorem readAll_co (l : List Nat) (s : State) :
    ((readAll l s).2).co = s.co := by have h := congrArg State.co (readAll_offRam l s); exact h
@[simp] theorem readAll_ch (l : List Nat) (s : State) :
    ((readAll l s).2).ch = s.ch := by have h := congrArg State.ch (readAll_offRam l s); exact h
@[simp] theorem readAll_bit (l : List Nat) (s : State) :
    ((readAll l s).2).bit = s.bit := by have h := congrArg State.bit (readAll_offRam l s); exact h
@[simp] theorem readAll_mixer (l : List Nat) (s : State) :
    ((readAll l s).2).mixer = s.mixer := by have h := congrArg State.mixer (readAll_offRam l s); exact h
@[simp] theorem readAll_heat (l : List Nat) (s : State) :
    ((readAll l s).2).heat = s.heat := by have h := congrArg State.heat (readAll_offRam l s); exact h
@[simp] theorem readAll_inp (l : List Nat) (s : State) :
    ((readAll l s).2).inp = s.inp := by have h := congrArg State.inp (readAll_offRam l s); exact h
@[simp] theorem readAll_seconds (l : List Nat) (s : State) :
    ((readAll l s).2).seconds = s.seconds := by have h := congrArg State.seconds (readAll_offRam l s); exact h
@[simp] theorem readAll_clk (l : List Nat) (s : State) :
    ((readAll l s).2).clk = s.clk := by have h := congrArg State.clk (readAll_offRam l s); exact h
@[simp] theorem readAll_freeSeed (l : List Nat) (s : State) :
    ((readAll l s).2).freeSeed = s.freeSeed := by have h := congrArg State.freeSeed (readAll_offRam l s); exact h
@[simp] theorem readAll_pending (l : List Nat) (s : State) :
    ((readAll l s).2).pending = s.pending := by have h := congrArg State.pending (readAll_offRam l s); exact h
@[simp] theorem readAll_resetLow (l : List Nat) (s : State) :
    ((readAll l s).2).port.resetLow = s.port.resetLow := by have h := congrArg (fun u : State => u.port.resetLow) (readAll_offRam l s); exact h
@[simp] theorem readAll_held (l : List Nat) (s : State) :
    ((readAll l s).2).port.held = s.port.held := by have h := congrArg (fun u : State => u.port.held) (readAll_offRam l s); exact h
@[simp] theorem readAll_refused (l : List Nat) (s : State) :
    ((readAll l s).2).port.refused = s.port.refused := by have h := congrArg (fun u : State => u.port.refused) (readAll_offRam l s); exact h
@[simp] theorem readAll_checkRecord (l : List Nat) (s : State) :
    ((readAll l s).2).port.checkRecord = s.port.checkRecord := by have h := congrArg (fun u : State => u.port.checkRecord) (readAll_offRam l s); exact h
@[simp] theorem readAll_nu (l : List Nat) (s : State) :
    ((readAll l s).2).nu = s.nu := by have h := congrArg State.nu (readAll_offRam l s); exact h

@[simp] theorem guardedSeq_rc (n : Nat) (sts : List Word) (k : Word) (b : List (Nat × Word)) (l : Nat × Word) (s : State) :
    ((guardedSeq n sts k b l s).1).rc = s.rc := by have h := congrArg State.rc (guardedSeq_offRam n sts k b l s); exact h
@[simp] theorem guardedSeq_oe (n : Nat) (sts : List Word) (k : Word) (b : List (Nat × Word)) (l : Nat × Word) (s : State) :
    ((guardedSeq n sts k b l s).1).oe = s.oe := by have h := congrArg State.oe (guardedSeq_offRam n sts k b l s); exact h
@[simp] theorem guardedSeq_co (n : Nat) (sts : List Word) (k : Word) (b : List (Nat × Word)) (l : Nat × Word) (s : State) :
    ((guardedSeq n sts k b l s).1).co = s.co := by have h := congrArg State.co (guardedSeq_offRam n sts k b l s); exact h
@[simp] theorem guardedSeq_ch (n : Nat) (sts : List Word) (k : Word) (b : List (Nat × Word)) (l : Nat × Word) (s : State) :
    ((guardedSeq n sts k b l s).1).ch = s.ch := by have h := congrArg State.ch (guardedSeq_offRam n sts k b l s); exact h
@[simp] theorem guardedSeq_bit (n : Nat) (sts : List Word) (k : Word) (b : List (Nat × Word)) (l : Nat × Word) (s : State) :
    ((guardedSeq n sts k b l s).1).bit = s.bit := by have h := congrArg State.bit (guardedSeq_offRam n sts k b l s); exact h
@[simp] theorem guardedSeq_mixer (n : Nat) (sts : List Word) (k : Word) (b : List (Nat × Word)) (l : Nat × Word) (s : State) :
    ((guardedSeq n sts k b l s).1).mixer = s.mixer := by have h := congrArg State.mixer (guardedSeq_offRam n sts k b l s); exact h
@[simp] theorem guardedSeq_heat (n : Nat) (sts : List Word) (k : Word) (b : List (Nat × Word)) (l : Nat × Word) (s : State) :
    ((guardedSeq n sts k b l s).1).heat = s.heat := by have h := congrArg State.heat (guardedSeq_offRam n sts k b l s); exact h
@[simp] theorem guardedSeq_inp (n : Nat) (sts : List Word) (k : Word) (b : List (Nat × Word)) (l : Nat × Word) (s : State) :
    ((guardedSeq n sts k b l s).1).inp = s.inp := by have h := congrArg State.inp (guardedSeq_offRam n sts k b l s); exact h
@[simp] theorem guardedSeq_seconds (n : Nat) (sts : List Word) (k : Word) (b : List (Nat × Word)) (l : Nat × Word) (s : State) :
    ((guardedSeq n sts k b l s).1).seconds = s.seconds := by have h := congrArg State.seconds (guardedSeq_offRam n sts k b l s); exact h
@[simp] theorem guardedSeq_clk (n : Nat) (sts : List Word) (k : Word) (b : List (Nat × Word)) (l : Nat × Word) (s : State) :
    ((guardedSeq n sts k b l s).1).clk = s.clk := by have h := congrArg State.clk (guardedSeq_offRam n sts k b l s); exact h
@[simp] theorem guardedSeq_freeSeed (n : Nat) (sts : List Word) (k : Word) (b : List (Nat × Word)) (l : Nat × Word) (s : State) :
    ((guardedSeq n sts k b l s).1).freeSeed = s.freeSeed := by have h := congrArg State.freeSeed (guardedSeq_offRam n sts k b l s); exact h
@[simp] theorem guardedSeq_pending (n : Nat) (sts : List Word) (k : Word) (b : List (Nat × Word)) (l : Nat × Word) (s : State) :
    ((guardedSeq n sts k b l s).1).pending = s.pending := by have h := congrArg State.pending (guardedSeq_offRam n sts k b l s); exact h
@[simp] theorem guardedSeq_resetLow (n : Nat) (sts : List Word) (k : Word) (b : List (Nat × Word)) (l : Nat × Word) (s : State) :
    ((guardedSeq n sts k b l s).1).port.resetLow = s.port.resetLow := by have h := congrArg (fun u : State => u.port.resetLow) (guardedSeq_offRam n sts k b l s); exact h
@[simp] theorem guardedSeq_held (n : Nat) (sts : List Word) (k : Word) (b : List (Nat × Word)) (l : Nat × Word) (s : State) :
    ((guardedSeq n sts k b l s).1).port.held = s.port.held := by have h := congrArg (fun u : State => u.port.held) (guardedSeq_offRam n sts k b l s); exact h
@[simp] theorem guardedSeq_refused (n : Nat) (sts : List Word) (k : Word) (b : List (Nat × Word)) (l : Nat × Word) (s : State) :
    ((guardedSeq n sts k b l s).1).port.refused = s.port.refused := by have h := congrArg (fun u : State => u.port.refused) (guardedSeq_offRam n sts k b l s); exact h
@[simp] theorem guardedSeq_checkRecord (n : Nat) (sts : List Word) (k : Word) (b : List (Nat × Word)) (l : Nat × Word) (s : State) :
    ((guardedSeq n sts k b l s).1).port.checkRecord = s.port.checkRecord := by have h := congrArg (fun u : State => u.port.checkRecord) (guardedSeq_offRam n sts k b l s); exact h
@[simp] theorem guardedSeq_nu (n : Nat) (sts : List Word) (k : Word) (b : List (Nat × Word)) (l : Nat × Word) (s : State) :
    ((guardedSeq n sts k b l s).1).nu = s.nu := by have h := congrArg State.nu (guardedSeq_offRam n sts k b l s); exact h

@[simp] theorem submit_rc (n : Notice) (s : State) :
    (submit n s).rc = s.rc := by have h := congrArg State.rc (submit_offLog n s); exact h
@[simp] theorem submit_oe (n : Notice) (s : State) :
    (submit n s).oe = s.oe := by have h := congrArg State.oe (submit_offLog n s); exact h
@[simp] theorem submit_co (n : Notice) (s : State) :
    (submit n s).co = s.co := by have h := congrArg State.co (submit_offLog n s); exact h
@[simp] theorem submit_ch (n : Notice) (s : State) :
    (submit n s).ch = s.ch := by have h := congrArg State.ch (submit_offLog n s); exact h
@[simp] theorem submit_bit (n : Notice) (s : State) :
    (submit n s).bit = s.bit := by have h := congrArg State.bit (submit_offLog n s); exact h
@[simp] theorem submit_mixer (n : Notice) (s : State) :
    (submit n s).mixer = s.mixer := by have h := congrArg State.mixer (submit_offLog n s); exact h
@[simp] theorem submit_heat (n : Notice) (s : State) :
    (submit n s).heat = s.heat := by have h := congrArg State.heat (submit_offLog n s); exact h
@[simp] theorem submit_inp (n : Notice) (s : State) :
    (submit n s).inp = s.inp := by have h := congrArg State.inp (submit_offLog n s); exact h
@[simp] theorem submit_seconds (n : Notice) (s : State) :
    (submit n s).seconds = s.seconds := by have h := congrArg State.seconds (submit_offLog n s); exact h
@[simp] theorem submit_clk (n : Notice) (s : State) :
    (submit n s).clk = s.clk := by have h := congrArg State.clk (submit_offLog n s); exact h
@[simp] theorem submit_freeSeed (n : Notice) (s : State) :
    (submit n s).freeSeed = s.freeSeed := by have h := congrArg State.freeSeed (submit_offLog n s); exact h
@[simp] theorem submit_pending (n : Notice) (s : State) :
    (submit n s).pending = s.pending := by have h := congrArg State.pending (submit_offLog n s); exact h
@[simp] theorem submit_resetLow (n : Notice) (s : State) :
    (submit n s).port.resetLow = s.port.resetLow := by have h := congrArg (fun u : State => u.port.resetLow) (submit_offLog n s); exact h
@[simp] theorem submit_held (n : Notice) (s : State) :
    (submit n s).port.held = s.port.held := by have h := congrArg (fun u : State => u.port.held) (submit_offLog n s); exact h
@[simp] theorem submit_refused (n : Notice) (s : State) :
    (submit n s).port.refused = s.port.refused := by have h := congrArg (fun u : State => u.port.refused) (submit_offLog n s); exact h
@[simp] theorem submit_checkRecord (n : Notice) (s : State) :
    (submit n s).port.checkRecord = s.port.checkRecord := by have h := congrArg (fun u : State => u.port.checkRecord) (submit_offLog n s); exact h

@[simp] theorem writeOldest_rc (s : State) :
    (writeOldest s).rc = s.rc := by have h := congrArg State.rc (writeOldest_offLog s); exact h
@[simp] theorem writeOldest_oe (s : State) :
    (writeOldest s).oe = s.oe := by have h := congrArg State.oe (writeOldest_offLog s); exact h
@[simp] theorem writeOldest_co (s : State) :
    (writeOldest s).co = s.co := by have h := congrArg State.co (writeOldest_offLog s); exact h
@[simp] theorem writeOldest_ch (s : State) :
    (writeOldest s).ch = s.ch := by have h := congrArg State.ch (writeOldest_offLog s); exact h
@[simp] theorem writeOldest_bit (s : State) :
    (writeOldest s).bit = s.bit := by have h := congrArg State.bit (writeOldest_offLog s); exact h
@[simp] theorem writeOldest_mixer (s : State) :
    (writeOldest s).mixer = s.mixer := by have h := congrArg State.mixer (writeOldest_offLog s); exact h
@[simp] theorem writeOldest_heat (s : State) :
    (writeOldest s).heat = s.heat := by have h := congrArg State.heat (writeOldest_offLog s); exact h
@[simp] theorem writeOldest_inp (s : State) :
    (writeOldest s).inp = s.inp := by have h := congrArg State.inp (writeOldest_offLog s); exact h
@[simp] theorem writeOldest_seconds (s : State) :
    (writeOldest s).seconds = s.seconds := by have h := congrArg State.seconds (writeOldest_offLog s); exact h
@[simp] theorem writeOldest_clk (s : State) :
    (writeOldest s).clk = s.clk := by have h := congrArg State.clk (writeOldest_offLog s); exact h
@[simp] theorem writeOldest_freeSeed (s : State) :
    (writeOldest s).freeSeed = s.freeSeed := by have h := congrArg State.freeSeed (writeOldest_offLog s); exact h
@[simp] theorem writeOldest_pending (s : State) :
    (writeOldest s).pending = s.pending := by have h := congrArg State.pending (writeOldest_offLog s); exact h
@[simp] theorem writeOldest_resetLow (s : State) :
    (writeOldest s).port.resetLow = s.port.resetLow := by have h := congrArg (fun u : State => u.port.resetLow) (writeOldest_offLog s); exact h
@[simp] theorem writeOldest_held (s : State) :
    (writeOldest s).port.held = s.port.held := by have h := congrArg (fun u : State => u.port.held) (writeOldest_offLog s); exact h
@[simp] theorem writeOldest_refused (s : State) :
    (writeOldest s).port.refused = s.port.refused := by have h := congrArg (fun u : State => u.port.refused) (writeOldest_offLog s); exact h
@[simp] theorem writeOldest_checkRecord (s : State) :
    (writeOldest s).port.checkRecord = s.port.checkRecord := by have h := congrArg (fun u : State => u.port.checkRecord) (writeOldest_offLog s); exact h

@[simp] theorem judgeOldest_rc (s : State) :
    (judgeOldest s).rc = s.rc := by have h := congrArg State.rc (judgeOldest_offLog s); exact h
@[simp] theorem judgeOldest_oe (s : State) :
    (judgeOldest s).oe = s.oe := by have h := congrArg State.oe (judgeOldest_offLog s); exact h
@[simp] theorem judgeOldest_co (s : State) :
    (judgeOldest s).co = s.co := by have h := congrArg State.co (judgeOldest_offLog s); exact h
@[simp] theorem judgeOldest_ch (s : State) :
    (judgeOldest s).ch = s.ch := by have h := congrArg State.ch (judgeOldest_offLog s); exact h
@[simp] theorem judgeOldest_bit (s : State) :
    (judgeOldest s).bit = s.bit := by have h := congrArg State.bit (judgeOldest_offLog s); exact h
@[simp] theorem judgeOldest_mixer (s : State) :
    (judgeOldest s).mixer = s.mixer := by have h := congrArg State.mixer (judgeOldest_offLog s); exact h
@[simp] theorem judgeOldest_heat (s : State) :
    (judgeOldest s).heat = s.heat := by have h := congrArg State.heat (judgeOldest_offLog s); exact h
@[simp] theorem judgeOldest_inp (s : State) :
    (judgeOldest s).inp = s.inp := by have h := congrArg State.inp (judgeOldest_offLog s); exact h
@[simp] theorem judgeOldest_seconds (s : State) :
    (judgeOldest s).seconds = s.seconds := by have h := congrArg State.seconds (judgeOldest_offLog s); exact h
@[simp] theorem judgeOldest_clk (s : State) :
    (judgeOldest s).clk = s.clk := by have h := congrArg State.clk (judgeOldest_offLog s); exact h
@[simp] theorem judgeOldest_freeSeed (s : State) :
    (judgeOldest s).freeSeed = s.freeSeed := by have h := congrArg State.freeSeed (judgeOldest_offLog s); exact h
@[simp] theorem judgeOldest_pending (s : State) :
    (judgeOldest s).pending = s.pending := by have h := congrArg State.pending (judgeOldest_offLog s); exact h
@[simp] theorem judgeOldest_resetLow (s : State) :
    (judgeOldest s).port.resetLow = s.port.resetLow := by have h := congrArg (fun u : State => u.port.resetLow) (judgeOldest_offLog s); exact h
@[simp] theorem judgeOldest_held (s : State) :
    (judgeOldest s).port.held = s.port.held := by have h := congrArg (fun u : State => u.port.held) (judgeOldest_offLog s); exact h
@[simp] theorem judgeOldest_refused (s : State) :
    (judgeOldest s).port.refused = s.port.refused := by have h := congrArg (fun u : State => u.port.refused) (judgeOldest_offLog s); exact h
@[simp] theorem judgeOldest_checkRecord (s : State) :
    (judgeOldest s).port.checkRecord = s.port.checkRecord := by have h := congrArg (fun u : State => u.port.checkRecord) (judgeOldest_offLog s); exact h

/-! ### The window stays canonical -/

theorem serveAccess_wf (h : HostAccess) {s : State} (hs : Memory.wf s.mem = true) :
    Memory.wf (serveAccess h s).mem = true := by
  unfold serveAccess; split
  · exact State.wr_wf hs _ _
  · exact hs

theorem serveDue_wf (hs : List HostAccess) : ∀ {s : State}, Memory.wf s.mem = true →
    Memory.wf (serveDue hs s).mem = true := by
  induction hs with
  | nil => intro s h; exact h
  | cons x hs ih =>
    intro s h
    unfold serveDue
    split
    · exact ih (serveAccess_wf x h)
    · exact h

theorem serveAll_wf (hs : List HostAccess) : ∀ {s : State}, Memory.wf s.mem = true →
    Memory.wf (serveAll hs s).mem = true := by
  induction hs with
  | nil => intro s h; exact h
  | cons x hs ih => intro s h; unfold serveAll; exact ih (serveAccess_wf x h)

theorem gap_wf {s : State} (h : Memory.wf s.mem = true) : Memory.wf (gap s).mem = true := serveDue_wf _ h

theorem put_wf (a : Nat) (w : Word) {s : State} (h : Memory.wf s.mem = true) :
    Memory.wf (put a w s).mem = true := State.wr_wf (gap_wf h) a w

theorem putAll_wf (l : List (Nat × Word)) : ∀ {s : State}, Memory.wf s.mem = true →
    Memory.wf (putAll l s).mem = true := by
  induction l with
  | nil => intro s h; exact h
  | cons x l ih => intro s h; obtain ⟨a, w⟩ := x; unfold putAll; exact ih (put_wf a w h)

theorem readAll_wf (l : List Nat) : ∀ {s : State}, Memory.wf s.mem = true →
    Memory.wf (readAll l s).2.mem = true := by
  induction l with
  | nil => intro s h; exact h
  | cons a l ih => intro s h; unfold readAll; exact ih (gap_wf h)

theorem guardedSeq_wf (n : Nat) (sts : List Word) (k : Word) (b : List (Nat × Word)) (l : Nat × Word)
    {s : State} (h : Memory.wf s.mem = true) : Memory.wf (guardedSeq n sts k b l s).1.mem = true := by
  unfold guardedSeq
  simp only
  split
  · split
    · exact State.wr_wf (gap_wf (putAll_wf b (gap_wf h))) _ _
    · exact gap_wf (putAll_wf b (gap_wf h))
  · exact gap_wf h

theorem wrWords_wf (ws : List Word) : ∀ {s : State} (a : Nat), Memory.wf s.mem = true →
    Memory.wf (s.wrWords a ws).mem = true := by
  induction ws with
  | nil => intro s a h; exact h
  | cons w ws ih => intro s a h; unfold State.wrWords; exact ih _ (State.wr_wf h a w)

theorem countOverrun_wf {s : State} (h : Memory.wf s.mem = true) : Memory.wf (countOverrun s).mem = true := by
  unfold countOverrun; split
  · exact State.wr_wf h _ _
  · exact h

theorem writeEntry_wf (n : Notice) {s : State} (h : Memory.wf s.mem = true) :
    Memory.wf (writeEntry n s).mem = true := by
  have h2 := wrWords_wf (entryWords (countOverrun s).nu.fill (countOverrun s).seconds n)
    (Win.log (countOverrun s).nu.pos) (countOverrun_wf h)
  unfold writeEntry
  dsimp only
  exact State.wr_wf h2 _ _

theorem writeOldest_wf {s : State} (h : Memory.wf s.mem = true) : Memory.wf (writeOldest s).mem = true := by
  unfold writeOldest; split
  · exact h
  · exact writeEntry_wf _ (gap_wf h)

theorem submit_wf (n : Notice) {s : State} (h : Memory.wf s.mem = true) :
    Memory.wf (submit n s).mem = true := by
  unfold submit; simp only; split
  · exact h
  · exact writeOldest_wf h

theorem judgeOffer_wf (o : Offer) {s : State} (h : Memory.wf s.mem = true) :
    Memory.wf (judgeOffer o s).mem = true := by
  unfold judgeOffer; simp only; split
  · exact submit_wf _ (State.wr_wf (wrWords_wf _ _ (gap_wf h)) _ _)
  · exact gap_wf h

theorem judgeOldest_wf {s : State} (h : Memory.wf s.mem = true) : Memory.wf (judgeOldest s).mem = true := by
  unfold judgeOldest; split
  · exact h
  · exact judgeOffer_wf _ h

/-! ### With no host access waiting -/

theorem gap_of_none {s : State} (h : s.port.waiting = []) : gap s = s := by
  unfold gap; rw [h]; unfold serveDue
  rw [← h]

theorem put_of_none {s : State} (h : s.port.waiting = []) (a : Nat) (w : Word) : put a w s = s.wr a w := by
  unfold put; rw [gap_of_none h]

theorem readAll_of_none {s : State} (h : s.port.waiting = []) (l : List Nat) :
    readAll l s = (l.map s.rd, s) := by
  induction l with
  | nil => rfl
  | cons a l ih => unfold readAll; simp only [gap_of_none h, ih, List.map]

/-- A short submission list takes a notice at its tail, and nothing else changes (R171). -/
theorem submit_of_room {s : State} (h : s.nu.list.length < Config.listCapacity) (n : Notice) :
    submit n s = { s with nu := { s.nu with list := s.nu.list ++ [n] } } := by
  unfold submit; simp [h]

/-! ### The notice unit keeps its ranges -/

theorem nextPos_lt {n : Nat} (h : n < Config.logEntries) : nextPos n < Config.logEntries := by
  unfold nextPos; unfold Config.logEntries at *; split <;> omega

theorem nextFill_range {n : Nat} (h : n ≤ 65535) : 1 ≤ nextFill n ∧ nextFill n ≤ 65535 := by
  unfold nextFill; split <;> omega

theorem countOverrun_nu (s : State) : (countOverrun s).nu = s.nu := by
  unfold countOverrun; split <;> rfl

theorem wrWords_nu (ws : List Word) (s : State) (a : Nat) : (s.wrWords a ws).nu = s.nu := by
  have h := congrArg State.nu (wrWords_offRam ws s a); exact h

/-- What one entry write does to the notice unit's own registers (R172, R175). -/
theorem writeEntry_nu (n : Notice) (s : State) :
    (writeEntry n s).nu = { s.nu with
      fill := nextFill s.nu.fill, pos := nextPos s.nu.pos
      pend := pendAfter s.nu.mask s.nu.pend (classCode n.detail) } := by
  unfold writeEntry
  simp only [State.wr_nu, wrWords_nu, countOverrun_nu]

theorem writeOldest_noticeSafe {s : State} (h : noticeRange s.nu) : noticeRange (writeOldest s).nu := by
  obtain ⟨h1, h2, h3, h4⟩ := h
  unfold writeOldest
  split
  · exact ⟨h1, h2, h3, h4⟩
  · rename_i n r hl
    rw [writeEntry_nu]
    have hf := nextFill_range h3
    have hp := nextPos_lt h1
    rw [hl] at h4
    simp only [gap_nu] at *
    exact ⟨hp, hf.1, hf.2, by simp at h4 ⊢; omega⟩

theorem submit_noticeSafe (n : Notice) {s : State} (h : noticeRange s.nu) : noticeRange (submit n s).nu := by
  unfold submit
  simp only
  split
  · rename_i hl
    obtain ⟨h1, h2, h3, h4⟩ := h
    exact ⟨h1, h2, h3, by simp; omega⟩
  · rename_i hl
    have h' := writeOldest_noticeSafe h
    obtain ⟨h1, h2, h3, h4⟩ := h
    unfold writeOldest at h' ⊢
    split
    · rename_i hn; rw [hn] at hl; simp [Config.listCapacity] at hl
    · rename_i m r hm
      simp only [hm] at h'
      obtain ⟨g1, g2, g3, g4⟩ := h'
      refine ⟨g1, g2, g3, ?_⟩
      rw [writeEntry_nu] at *
      simp only [gap_nu] at *
      rw [hm] at h4
      simp at h4 ⊢; omega

end Sys2Proof.Machine
end

