-- ==== Sys2Proof/Laws/Kept.lean ====
section
/-! SUPPORT. What one state keeps of another: for each law of Safety.lean, if it holds before it holds
after; with the way to show it for an update of one part of the state. -/

namespace Sys2Proof.Machine

variable {lv b hl : Bool}

/-- The burner asks for or holds flame in RUN only. -/
def litSafe (s : State) : Bool := !burnerLit s.heat.burner || s.rc.part == .run

/-- The burner-request output is on exactly while the burner asks for or holds flame. -/
def requestSafe (h : Heat) : Bool := h.request == burnerLit h.burner

theorem burnerSafe_iff (s : State) :
    burnerSafe s = true ↔ litSafe s = true ∧ requestSafe s.heat = true := by
  simp only [burnerSafe, litSafe, requestSafe, Bool.and_eq_true]

/-- Every law of Safety.lean passes from `s` to `t`; the batch sequence counter does not fall, and the
queue of commands is the same. Without `lv` two laws are left out, that the burner is lit in RUN only and
that the feeds are off outside it: they stand open between a change of part state and what the burner and
the channels do at it. -/
structure Kept (lv : Bool) (s t : State) : Prop where
  mem : memorySafe s = true → memorySafe t = true
  notices : noticeSafe s.nu = true → noticeSafe t.nu = true
  chans : channelsSafe s = true → channelsSafe t = true
  late : lateSafe s = true → lateSafe t = true
  fire : fireSafe s.heat = true → fireSafe t.heat = true
  queue : queueSafe s = true → queueSafe t = true
  stages : stagesSafe s.co = true → stagesSafe t.co = true
  door : doorSafe s = true → doorSafe t = true
  run : runSafe s.rc = true → runSafe t.rc = true
  lit : lv = true → litSafe s = true → litSafe t = true
  request : requestSafe s.heat = true → requestSafe t.heat = true
  heaters : heaterSafe s = true → heaterSafe t = true
  counter : s.co.counter ≤ t.co.counter
  pending : t.pending = s.pending
  feeds : lv = true → channelsSafe s = true → feedSafe s = true → feedSafe t = true

theorem Kept.refl (s : State) : Kept lv s s :=
  ⟨id, id, id, id, id, id, id, id, id, fun _ => id, id, id, le_refl _, rfl, fun _ _ => id⟩

theorem Kept.trans {r s t : State} (h : Kept lv r s) (k : Kept lv s t) : Kept lv r t :=
  ⟨k.mem ∘ h.mem, k.notices ∘ h.notices, k.chans ∘ h.chans, k.late ∘ h.late, k.fire ∘ h.fire,
    k.queue ∘ h.queue, k.stages ∘ h.stages, k.door ∘ h.door, k.run ∘ h.run,
    fun e => k.lit e ∘ h.lit e, k.request ∘ h.request, k.heaters ∘ h.heaters,
    le_trans h.counter k.counter, k.pending.trans h.pending,
    fun e c f => k.feeds e (h.chans c) (h.feeds e c f)⟩

/-- A state that keeps all but the laws on the lit burner and the feeds, and has those laws. -/
theorem Kept.upgrade {r t : State} (h : Kept false r t) (k : litSafe t = true) (kf : feedSafe t = true) :
    Kept lv r t :=
  ⟨h.mem, h.notices, h.chans, h.late, h.fire, h.queue, h.stages, h.door, h.run, fun _ _ => k, h.request,
    h.heaters, h.counter, h.pending, fun _ _ _ => kf⟩

/-- A state that keeps all but the laws on the lit burner and the feeds, and those laws as well. -/
theorem Kept.withLit {r s t : State} (h : Kept lv r s) (k : Kept false s t)
    (kl : litSafe s = true → litSafe t = true)
    (kf : channelsSafe s = true → feedSafe s = true → feedSafe t = true) : Kept lv r t :=
  h.trans ⟨k.mem, k.notices, k.chans, k.late, k.fire, k.queue, k.stages, k.door, k.run, fun _ => kl,
    k.request, k.heaters, k.counter, k.pending, fun _ => kf⟩

theorem Kept.weaken {r t : State} (h : Kept lv r t) : Kept false r t :=
  ⟨h.mem, h.notices, h.chans, h.late, h.fire, h.queue, h.stages, h.door, h.run,
    (fun e => nomatch e), h.request, h.heaters, h.counter, h.pending, (fun e => nomatch e)⟩

/-! ### Updates of one part -/

theorem noticeSafe_iff (u : NoticeUnit) : noticeSafe u = true ↔ noticeRange u := by
  simp only [noticeSafe, noticeRange, Bool.and_eq_true, decide_eq_true_eq]
  exact ⟨fun h => ⟨h.1.1.1, h.1.1.2, h.1.2, h.2⟩, fun h => ⟨⟨⟨h.1, h.2.1⟩, h.2.2.1⟩, h.2.2.2⟩⟩

/-- States that differ in the window, the arbiter and the notice unit only. -/
theorem Kept.ofLog {r s t : State} (h : Kept lv r s) (e : t.offLog = s.offLog)
    (hm : Memory.wf s.mem = true → Memory.wf t.mem = true)
    (hn : noticeRange s.nu → noticeRange t.nu) : Kept lv r t := by
  have h1 : t.rc = s.rc := by have := congrArg State.rc e; exact this
  have h2 : t.oe = s.oe := by have := congrArg State.oe e; exact this
  have h3 : t.co = s.co := by have := congrArg State.co e; exact this
  have h4 : t.ch = s.ch := by have := congrArg State.ch e; exact this
  have h5 : t.mixer = s.mixer := by have := congrArg State.mixer e; exact this
  have h6 : t.heat = s.heat := by have := congrArg State.heat e; exact this
  have h7 : t.pending = s.pending := by have := congrArg State.pending e; exact this
  refine h.trans ⟨hm, ?_, ?_, ?_, ?_, ?_, ?_, ?_, ?_, fun _ => ?_, ?_, ?_, ?_, h7, fun _ _ => ?_⟩
  · rw [noticeSafe_iff, noticeSafe_iff]; exact hn
  · unfold channelsSafe; rw [h4]; exact id
  · unfold lateSafe; rw [h4]; exact id
  · rw [h6]; exact id
  · unfold queueSafe; rw [h2]; exact id
  · rw [h3]; exact id
  · unfold doorSafe; rw [h4, h5]; exact id
  · rw [h1]; exact id
  · unfold litSafe; rw [h6, h1]; exact id
  · rw [h6]; exact id
  · unfold heaterSafe; rw [h6, h1]; exact id
  · rw [h3]
  · unfold feedSafe feedsBarred; rw [h1, h4]; exact id

theorem Kept.ofRam {r s t : State} (h : Kept lv r s) (e : t.offRam = s.offRam)
    (hm : Memory.wf s.mem = true → Memory.wf t.mem = true) : Kept lv r t := by
  refine h.ofLog (State.offLog_of_offRam e) hm ?_
  have : t.nu = s.nu := by have := congrArg State.nu e; exact this
  rw [this]; exact id

theorem gap_kept {r s : State} (h : Kept lv r s) : Kept lv r (gap s) := h.ofRam (gap_offRam s) gap_wf
theorem wr_kept {r s : State} (a : Nat) (w : Word) (h : Kept lv r s) : Kept lv r (s.wr a w) :=
  h.ofRam rfl fun k => State.wr_wf k a w
theorem put_kept {r s : State} (a : Nat) (w : Word) (h : Kept lv r s) : Kept lv r (put a w s) :=
  h.ofRam (put_offRam a w s) (put_wf a w)
theorem putAll_kept {r s : State} (l : List (Nat × Word)) (h : Kept lv r s) : Kept lv r (putAll l s) :=
  h.ofRam (putAll_offRam l s) (putAll_wf l)
theorem serveAccess_kept {r s : State} (a : HostAccess) (h : Kept lv r s) : Kept lv r (serveAccess a s) :=
  h.ofRam (serveAccess_offRam a s) (serveAccess_wf a)
theorem serveAll_kept {r s : State} (l : List HostAccess) (h : Kept lv r s) : Kept lv r (serveAll l s) :=
  h.ofRam (serveAll_offRam l s) (serveAll_wf l)
theorem readAll_kept {r s : State} (l : List Nat) (h : Kept lv r s) : Kept lv r (readAll l s).2 :=
  h.ofRam (readAll_offRam l s) (readAll_wf l)
theorem readAll_kept' {r s t : State} {l : List Nat} {ws : List Word} (e : readAll l s = (ws, t))
    (h : Kept lv r s) : Kept lv r t := by
  have := readAll_kept l h; rw [e] at this; exact this
theorem readField_kept {r s : State} (a n : Nat) (h : Kept lv r s) : Kept lv r (readField a n s).2 :=
  gap_kept h
theorem guardedSeq_kept' {r s t : State} {n : Nat} {sts : List Word} {k : Word} {b : List (Nat × Word)}
    {l : Nat × Word} {o : Option (Word × Word)} (e : guardedSeq n sts k b l s = (t, o)) (h : Kept lv r s) :
    Kept lv r t := by
  have := h.ofRam (guardedSeq_offRam n sts k b l s) (guardedSeq_wf n sts k b l)
  rw [e] at this; exact this
theorem writeOldest_kept {r s : State} (h : Kept lv r s) : Kept lv r (writeOldest s) :=
  h.ofLog (writeOldest_offLog s) writeOldest_wf writeOldest_noticeSafe
theorem submit_kept {r s : State} (n : Notice) (h : Kept lv r s) : Kept lv r (submit n s) :=
  h.ofLog (submit_offLog n s) (submit_wf n) (submit_noticeSafe n)

/-- An update of the offers that wait at the notice unit. -/
theorem offers_kept {r s : State} (o : List Offer) (h : Kept lv r s) :
    Kept lv r { s with nu := { s.nu with offers := o } } := h.ofLog rfl id id

theorem judgeOldest_kept {r s : State} (h : Kept lv r s) : Kept lv r (judgeOldest s) := by
  unfold judgeOldest
  split
  · exact h
  · rename_i o l _
    have h2 : Kept lv r (gap { s with nu := { s.nu with offers := l } }) := gap_kept (offers_kept l h)
    unfold judgeOffer
    simp only
    split
    · apply submit_kept
      apply wr_kept
      exact h2.ofRam (wrWords_offRam _ _ _) (wrWords_wf _ _)
    · exact h2

/-- An update of what no law speaks of. -/
theorem other_kept {r s : State} (p : Port) (b : BitState) (i : Inputs) (d : DWord) (k : Clk) (n : Nat)
    (h : Kept lv r s) :
    Kept lv r { s with port := p, bit := b, inp := i, seconds := d, clk := k, freeSeed := n } :=
  h.trans ⟨id, id, id, id, id, id, id, id, id, fun _ => id, id, id, le_refl _, rfl, fun _ _ => id⟩

theorem bit_kept {r s : State} (b : BitState) (h : Kept lv r s) : Kept lv r { s with bit := b } :=
  h.trans ⟨id, id, id, id, id, id, id, id, id, fun _ => id, id, id, le_refl _, rfl, fun _ _ => id⟩

theorem port_kept {r s : State} (p : Port) (h : Kept lv r s) : Kept lv r { s with port := p } :=
  h.trans ⟨id, id, id, id, id, id, id, id, id, fun _ => id, id, id, le_refl _, rfl, fun _ _ => id⟩

theorem inp_kept {r s : State} (i : Inputs) (h : Kept lv r s) : Kept lv r { s with inp := i } :=
  h.trans ⟨id, id, id, id, id, id, id, id, id, fun _ => id, id, id, le_refl _, rfl, fun _ _ => id⟩

/-- An update of the order engine that lengthens no queue. -/
theorem oe_kept {r s : State} (o : OrderEngine) (k : o.queue.length ≤ s.oe.queue.length) (h : Kept lv r s) :
    Kept lv r { s with oe := o } :=
  h.trans ⟨id, id, id, id, id, fun q => by
    simp only [queueSafe, decide_eq_true_eq] at q ⊢; omega, id, id, id, fun _ => id, id, id, le_refl _, rfl, fun _ _ => id⟩

/-- An update of the coordinator. -/
theorem co_kept {r s : State} (c : Coord) (k : stagesSafe s.co = true → stagesSafe c = true)
    (k2 : s.co.counter ≤ c.counter) (h : Kept lv r s) : Kept lv r { s with co := c } :=
  h.trans ⟨id, id, id, id, id, id, k, id, id, fun _ => id, id, id, k2, rfl, fun _ _ => id⟩

/-- An update of the mixer controller. -/
theorem mixer_kept {r s : State} (m : Mixer)
    (k : doorSafe s = true → doorSafe { s with mixer := m } = true) (h : Kept lv r s) :
    Kept lv r { s with mixer := m } :=
  h.trans ⟨id, id, id, id, id, id, id, k, id, fun _ => id, id, id, le_refl _, rfl, fun _ _ => id⟩

/-- An update of the mixer controller that keeps phase and door. -/
theorem mixer_kept_same {r s : State} (m : Mixer) (k1 : m.phase = s.mixer.phase)
    (k2 : m.door = s.mixer.door) (h : Kept lv r s) : Kept lv r { s with mixer := m } := by
  refine mixer_kept m ?_ h
  unfold doorSafe
  simp only [k1, k2]
  exact id

/-- An update of run control that keeps the part state, but for the law on the feeds. -/
theorem rcOpen_kept {r s : State} (c : RunCtl) (kp : c.part = s.rc.part)
    (k : runSafe s.rc = true → runSafe c = true) (h : Kept lv r s) : Kept false r { s with rc := c } := by
  refine h.weaken.trans ⟨id, id, id, id, id, id, id, id, k, (fun e => nomatch e), id, ?_, le_refl _, rfl,
    (fun e => nomatch e)⟩
  unfold heaterSafe; simp only [kp]; exact id

/-- An update of run control that keeps the part state. -/
theorem rc_kept {r s : State} (c : RunCtl) (kp : c.part = s.rc.part)
    (k : runSafe s.rc = true → runSafe c = true)
    (kf : channelsSafe s = true → feedSafe s = true → feedSafe { s with rc := c } = true)
    (h : Kept lv r s) : Kept lv r { s with rc := c } := by
  refine h.withLit (rcOpen_kept c kp k (Kept.refl (lv := lv) s)) ?_ kf
  unfold litSafe; simp only [kp]; exact id

/-- Feeds barred after an update of run control were barred before it. -/
theorem feedSafe_rc {s : State} (c : RunCtl) (kp : c.part = s.rc.part)
    (kb : c.paused = true ∨ c.clearStep ≠ .none → s.rc.paused = true ∨ s.rc.clearStep ≠ .none)
    (h : feedSafe s = true) : feedSafe { s with rc := c } = true := by
  unfold feedSafe feedsBarred at h ⊢
  simp only [kp] at h ⊢
  cases hr : (s.rc.part != .run) with
  | true => simpa [hr] using h
  | false =>
    simp only [hr, Bool.false_or, Bool.or_eq_true, Bool.not_eq_true', Bool.or_eq_false_iff,
      bne_eq_false_iff_eq] at h ⊢
    by_cases hc : c.paused = true ∨ c.clearStep ≠ .none
    · rcases h with h | h
      · rcases kb hc with k | k
        · rw [k] at h; exact absurd h.1 (by simp)
        · exact absurd h.2 k
      · exact .inr h
    · simp only [not_or, Bool.not_eq_true, ne_eq, not_not] at hc
      exact .inl hc

/-- An update of run control that keeps the part state, PAUSED and the clear step. -/
theorem rc_kept_same {r s : State} (c : RunCtl) (kp : c.part = s.rc.part) (k1 : c.paused = s.rc.paused)
    (k2 : c.clearStep = s.rc.clearStep) (k : runSafe s.rc = true → runSafe c = true)
    (h : Kept lv r s) : Kept lv r { s with rc := c } :=
  rc_kept c kp k (fun _ => feedSafe_rc c kp (by rw [k1, k2]; exact id)) h

/-- Channels that are all quiet. -/
theorem feedSafe_quiet {s : State} (h : ∀ sc, chanQuiet (s.rc.part == .halted) (s.ch.get sc) = true) :
    feedSafe s = true := by
  unfold feedSafe
  rw [(PerScale.all_iff _ _).2 h, Bool.or_true]

/-- The channels under barred feeds. -/
theorem quiet_of_barred {s : State} (h : feedSafe s = true) (hb : feedsBarred s = true) :
    ∀ sc, chanQuiet (s.rc.part == .halted) (s.ch.get sc) = true := by
  unfold feedSafe at h
  rw [hb] at h
  exact (PerScale.all_iff _ _).1 (by simpa using h)

/-- An update of the heat controller. -/
theorem heat_kept {r s : State} (x : Heat) (kf : fireSafe s.heat = true → fireSafe x = true)
    (kb : litSafe s = true → litSafe { s with heat := x } = true)
    (kq : requestSafe s.heat = true → requestSafe x = true)
    (kh : heaterSafe s = true → heaterSafe { s with heat := x } = true) (h : Kept lv r s) :
    Kept lv r { s with heat := x } :=
  h.trans ⟨id, id, id, id, kf, id, id, id, id, fun _ => kb, kq, kh, le_refl _, rfl, fun _ _ => id⟩

/-- An update of the heat controller that keeps burner, firing and tank heaters. -/
theorem heat_kept_same {r s : State} (x : Heat) (k1 : x.vals = s.heat.vals)
    (k2 : x.burner = s.heat.burner) (k3 : x.request = s.heat.request) (k4 : x.firing = s.heat.firing)
    (k5 : x.bt1 = s.heat.bt1) (k6 : x.bt2 = s.heat.bt2) (h : Kept lv r s) : Kept lv r { s with heat := x } := by
  refine heat_kept x ?_ ?_ ?_ ?_ h
  · unfold fireSafe; rw [k1, k2, k4]; exact id
  · unfold litSafe; simp only [k2]; exact id
  · unfold requestSafe; rw [k2, k3]; exact id
  · unfold heaterSafe; simp only [k5, k6]; exact id

/-- What a fold of kept steps keeps. -/
theorem foldl_kept {α : Type} {r : State} (f : State → α → State)
    (hf : ∀ s a, Kept lv r s → Kept lv r (f s a)) (l : List α) :
    ∀ {s : State}, Kept lv r s → Kept lv r (l.foldl f s) := by
  induction l with
  | nil => intro s h; exact h
  | cons a l ih => intro s h; exact ih (hf s a h)

/-! ### Channels -/

/-- What a channel keeps: its outputs follow its state, its late counter stays in range, it does not come
to discharge, and while the feeds are barred (`b`; `hl` in HALTED) it stays quiet. -/
structure ChanKept (b hl : Bool) (c d : Channel) : Prop where
  safe : chanSafe c = true → chanSafe d = true
  late : c.late ≤ Config.lateLimit → d.late ≤ Config.lateLimit
  disch : d.state = .discharging → c.state = .discharging
  quiet : b = true → chanSafe c = true → chanQuiet hl c = true → chanQuiet hl d = true

theorem ChanKept.refl (c : Channel) : ChanKept b hl c c := ⟨id, id, id, fun _ _ => id⟩

theorem ChanKept.trans {c d e : Channel} (h : ChanKept b hl c d) (k : ChanKept b hl d e) :
    ChanKept b hl c e :=
  ⟨k.safe ∘ h.safe, k.late ∘ h.late, h.disch ∘ k.disch,
    fun x y z => k.quiet x (h.safe y) (h.quiet x y z)⟩

/-- A channel with every output off that is in no state that feeds or discharges. -/
theorem ChanKept.off {c d : Channel} (k1 : d.feed = none) (k2 : d.gate = false) (k3 : d.late = c.late)
    (k4 : mayFeed d.state = false) (k5 : d.state ≠ .discharging) : ChanKept b hl c d :=
  ⟨fun _ => by simp [chanSafe, k1, k2], fun h => by rw [k3]; exact h, fun h => absurd h k5,
    fun _ _ _ => by simp [chanQuiet, k1, k4]⟩

/-- A channel that feeds, its outputs safe, while the feeds are not barred. -/
theorem ChanKept.feed {c d : Channel} (k1 : chanSafe d = true) (k2 : d.late = c.late)
    (k3 : d.state ≠ .discharging) : ChanKept false hl c d :=
  ⟨fun _ => k1, fun h => by rw [k2]; exact h, fun h => absurd h k3, (fun e => nomatch e)⟩

/-- A channel whose state, outputs and late counter are kept. -/
theorem ChanKept.same {c d : Channel} (k1 : d.state = c.state) (k2 : d.feed = c.feed)
    (k3 : d.gate = c.gate) (k4 : d.late = c.late) : ChanKept b hl c d :=
  ⟨fun h => by unfold chanSafe at h ⊢; rw [k1, k2, k3]; exact h, fun h => by rw [k4]; exact h,
    fun h => by rw [← k1]; exact h, fun _ _ h => by unfold chanQuiet at h ⊢; rw [k1, k2]; exact h⟩

/-- An update of the channels, each one kept. -/
theorem ch_kept {r s : State} (p : PerScale Channel)
    (k : ∀ sc, ChanKept (feedsBarred s) (s.rc.part == .halted) (s.ch.get sc) (p.get sc)) (h : Kept lv r s) : Kept lv r { s with ch := p } := by
  refine h.trans ⟨id, id, ?_, ?_, id, id, id, ?_, id, fun _ => id, id, id, le_refl _, rfl, fun _ hs hf => ?_⟩
  · intro hs
    unfold channelsSafe at hs ⊢
    rw [PerScale.all_iff] at hs ⊢
    exact fun sc => (k sc).safe (hs sc)
  · intro hs
    unfold lateSafe at hs ⊢
    rw [PerScale.all_iff] at hs ⊢
    intro sc
    have := hs sc
    simp only [decide_eq_true_eq] at this ⊢
    exact (k sc).late this
  · intro hs
    unfold doorSafe at hs ⊢
    simp only [Bool.or_eq_true, Bool.and_eq_true] at hs ⊢
    rcases hs with hs | ⟨h1, h2⟩
    · exact .inl hs
    · refine .inr ⟨h1, ?_⟩
      rw [PerScale.all_iff] at h2 ⊢
      intro sc
      have := h2 sc
      simp only [bne_iff_ne, ne_eq] at this ⊢
      exact fun hd => this ((k sc).disch hd)
  · cases hb : feedsBarred s with
    | false =>
      unfold feedSafe
      rw [show feedsBarred { s with ch := p } = false from hb]
      rfl
    | true =>
      unfold channelsSafe at hs
      rw [PerScale.all_iff] at hs
      exact feedSafe_quiet fun sc => (k sc).quiet hb (hs sc) (quiet_of_barred hf hb sc)

theorem setChan_kept {r s : State} (sc : Scale) (c : Channel) (k : ChanKept (feedsBarred s) (s.rc.part == .halted) (s.chan sc) c) (h : Kept lv r s) : Kept lv r (s.setChan sc c) := by
  refine ch_kept _ ?_ h
  intro sc'
  by_cases e : sc' = sc
  · subst e; rw [PerScale.get_set_same]; exact k
  · rw [PerScale.get_set_other _ _ e]; exact ChanKept.refl _

theorem modChan_kept {r s : State} (sc : Scale) (f : Channel → Channel)
    (k : ChanKept (feedsBarred s) (s.rc.part == .halted) (s.chan sc) (f (s.chan sc))) (h : Kept lv r s) : Kept lv r (s.modChan sc f) :=
  setChan_kept sc _ k h

theorem mapChan_kept {r s : State} (f : Channel → Channel) 
    (k : ∀ c, ChanKept (feedsBarred s) (s.rc.part == .halted) c (f c)) (h : Kept lv r s) :
    Kept lv r { s with ch := s.ch.map f } :=
  ch_kept _ (fun sc => by rw [PerScale.get_map]; exact k _) h

end Sys2Proof.Machine
end

