-- ==== Sys2Proof/Laws/KeptScale.lean ====
section
/-! SUPPORT. What the operations of the scale channels (Channels.lean) keep. -/

namespace Sys2Proof.Machine

variable {lv b hl : Bool}

/-! ### Channels alone -/

theorem enterSettling_ck (c : Channel) : ChanKept b hl c (enterSettling c) :=
  .off rfl rfl rfl rfl (by simp [enterSettling])
theorem enterFast_ck (c : Channel) : ChanKept false hl c (enterFast c) :=
  .feed (by simp [enterFast, chanSafe, mayFeed]) rfl (by simp [enterFast])
theorem enterFine_ck (c : Channel) : ChanKept false hl c (enterFine c) :=
  .feed (by simp [enterFine, chanSafe, mayFeed]) rfl (by simp [enterFine])
theorem enterJogging_ck (c : Channel) : ChanKept false hl c (enterJogging c) :=
  .feed (by simp [enterJogging, chanSafe, mayFeed]) rfl (by simp [enterJogging])
theorem enterHeld_ck (m : Remembered) (c : Channel) : ChanKept b hl c (enterHeld m c) :=
  .off rfl rfl rfl rfl (by simp [enterHeld])
theorem enterPauseHeld_ck (m : Remembered) (c : Channel) : ChanKept b hl c (enterPauseHeld m c) :=
  .off rfl rfl rfl rfl (by simp [enterPauseHeld, enterHeld])
theorem cutOff_ck (c : Channel) : ChanKept b hl c (cutOff c) :=
  .off rfl rfl rfl rfl (by simp [cutOff, enterSettling])

theorem returnHeld_ck (m : Remembered) (c : Channel) : ChanKept false hl c (returnHeld m c) := by
  unfold returnHeld
  split
  · split
    · exact cutOff_ck c
    · split
      · exact enterFine_ck c
      · exact enterFast_ck c
  · split
    · exact cutOff_ck c
    · exact enterFine_ck c
  · exact enterSettling_ck c
  · exact enterJogging_ck c

theorem releaseIfFree_ck (c : Channel) : ChanKept false hl c (releaseIfFree c) := by
  unfold releaseIfFree
  split
  · split
    · exact .refl c
    · exact returnHeld_ck _ c
  · exact .refl c

/-- A feed begins only while it is not barred (R78, R90). -/
theorem beginFeed_ck (m : Remembered) (c : Channel) : ChanKept b hl c (beginFeed b m c) := by
  unfold beginFeed
  simp only
  refine ChanKept.trans (.same rfl rfl rfl rfl : ChanKept b hl c
    { c with stall := 0, winCount := none, gapHold := false, pauseHold := false }) ?_
  cases b
  · simp only [Bool.false_eq_true, if_false]
    split
    · exact enterFast_ck _
    · exact enterFine_ck _
    · exact enterJogging_ck _
    · exact enterJogging_ck _
  · exact enterPauseHeld_ck _ _

theorem settleMaterial_ck (c : Channel) : ChanKept b hl c (settleMaterial c) := by
  unfold settleMaterial
  refine .off rfl rfl rfl ?_ ?_ <;> dsimp only <;> split <;> simp [mayFeed]

theorem stoppedChannel_ck (c : Channel) : ChanKept b hl c (stoppedChannel c) := by
  unfold stoppedChannel
  split
  · rename_i h
    exact .off rfl rfl rfl (by dsimp only; rw [h]; rfl) (by dsimp only; rw [h]; decide)
  · exact settleMaterial_ck c

/-- A channel at entry into STOPPED feeds nothing and doses nothing (R94). -/
theorem stoppedChannel_quiet (c : Channel) : chanQuiet hl (stoppedChannel c) = true := by
  unfold stoppedChannel
  split
  · rename_i h
    simp [chanQuiet, mayFeed, h]
  · unfold settleMaterial chanQuiet
    dsimp only
    split <;> simp [mayFeed]

theorem quietChannel_ck (c : Channel) : ChanKept b hl c (quietChannel c) :=
  ⟨fun _ => by simp [quietChannel, chanSafe], id, id,
    fun _ _ h => by unfold chanQuiet at h ⊢; simp only [Bool.and_eq_true] at h ⊢; exact ⟨rfl, h.2⟩⟩

theorem holdFeed_ck (c : Channel) : ChanKept b hl c (holdFeed c) := by
  unfold holdFeed
  split
  · exact enterPauseHeld_ck _ c
  · exact enterPauseHeld_ck _ c
  · exact enterPauseHeld_ck _ c
  · refine ⟨fun h => ?_, id, id, fun _ _ h => ?_⟩
    · unfold chanSafe at h ⊢
      simp only [Bool.and_eq_true] at h ⊢
      exact ⟨by simp, h.2⟩
    · unfold chanQuiet at h ⊢
      simp only [Bool.and_eq_true] at h ⊢
      exact ⟨rfl, h.2⟩

/-- A channel whose feed is held is quiet (R78). -/
theorem holdFeed_quiet (c : Channel) : chanQuiet hl (holdFeed c) = true := by
  unfold holdFeed
  split
  · simp [enterPauseHeld, enterHeld, chanQuiet, mayFeed]
  · simp [enterPauseHeld, enterHeld, chanQuiet, mayFeed]
  · simp [enterPauseHeld, enterHeld, chanQuiet, mayFeed]
  · rename_i h1 h2 h3
    unfold chanQuiet
    dsimp only
    have : mayFeed c.state = false := by
      cases hs : c.state with
      | dosing p => cases p <;> first | rfl | exact absurd hs (by assumption)
      | _ => rfl
    rw [this]
    simp

theorem pauseChannel_ck (c : Channel) : ChanKept b hl c (pauseChannel c) := by
  unfold pauseChannel
  split
  · exact enterPauseHeld_ck _ c
  · exact enterPauseHeld_ck _ c
  · exact enterPauseHeld_ck _ c
  · exact .same rfl rfl rfl rfl
  · refine ⟨fun h => ?_, id, id, fun _ _ h => h⟩
    unfold chanSafe at h ⊢
    simp only [Bool.and_eq_true] at h ⊢
    exact ⟨h.1, by simp⟩
  · exact .refl c

/-- A channel with safe outputs is quiet once PAUSED is set (R90). -/
theorem pauseChannel_quiet {c : Channel} (k : chanSafe c = true) : chanQuiet hl (pauseChannel c) = true := by
  have hq : mayFeed c.state = false → c.feed = none := fun h => by
    unfold chanSafe at k
    rw [h] at k
    simp only [Bool.or_false, Bool.and_eq_true, Option.isNone_iff_eq_none] at k
    exact k.1
  unfold pauseChannel
  split
  · simp [enterPauseHeld, enterHeld, chanQuiet, mayFeed]
  · simp [enterPauseHeld, enterHeld, chanQuiet, mayFeed]
  · simp [enterPauseHeld, enterHeld, chanQuiet, mayFeed]
  · rename_i h
    simp [chanQuiet, h, mayFeed, hq (by rw [h]; rfl)]
  · rename_i h
    simp [chanQuiet, h, mayFeed, hq (by rw [h]; rfl)]
  · rename_i h1 h2 h3 _ _
    have : mayFeed c.state = false := by
      cases hs : c.state with
      | dosing p => cases p <;> first | rfl | exact absurd hs (by assumption)
      | _ => rfl
    simp [chanQuiet, this, hq this]

theorem reopenGate_ck (c : Channel) : ChanKept b hl c (reopenGate c) := by
  unfold reopenGate
  split
  · rename_i hd
    refine ⟨fun h => ?_, id, id, fun _ _ h => h⟩
    unfold chanSafe at h ⊢
    simp only [Bool.and_eq_true] at h ⊢
    exact ⟨h.1, by simp [hd]⟩
  · exact .refl c

theorem resumeChannel_ck (c : Channel) : ChanKept false hl c (resumeChannel c) := by
  unfold resumeChannel
  split
  · exact ChanKept.trans (.same rfl rfl rfl rfl : ChanKept false hl c { c with pauseHold := false })
      (releaseIfFree_ck _)
  · rename_i hd
    refine ⟨fun h => ?_, id, id, (fun e => nomatch e)⟩
    unfold chanSafe at h ⊢
    simp only [Bool.and_eq_true] at h ⊢
    exact ⟨h.1, by simp [hd]⟩
  · exact .refl c

/-- Doses go on only while the feeds are not barred (R78, R90). -/
theorem resume_ck (c : Channel) : ChanKept b hl c ((if b = true then reopenGate else resumeChannel) c) := by
  cases b
  · exact resumeChannel_ck c
  · exact reopenGate_ck c

/-! ### The coordinator's records -/

/-- A change of the batches in the stages that keeps their numbers. -/
theorem stages_map {c : Coord} (f g : Batch → Batch) (hf : ∀ b, (f b).seq = b.seq)
    (hg : ∀ b, (g b).seq = b.seq) (h : stagesSafe c = true) :
    stagesSafe { c with weigh := c.weigh.map f, mix := c.mix.map g } = true := by
  obtain ⟨n, w, m⟩ := c
  cases w <;> cases m <;> simp_all [stagesSafe, numberBelow]

/-- A change of the batches of both stages that keeps their numbers. -/
theorem stagesMap_kept {r s : State} (f g : Batch → Batch) (hf : ∀ b, (f b).seq = b.seq)
    (hg : ∀ b, (g b).seq = b.seq) (h : Kept lv r s) :
    Kept lv r { s with co := { s.co with weigh := s.co.weigh.map f, mix := s.co.mix.map g } } :=
  co_kept _ (fun k => stages_map (c := s.co) f g hf hg k) (le_refl _) h

theorem flagBatch_kept {r s : State} (n : Nat) (f : TicketFlags → TicketFlags) (h : Kept lv r s) :
    Kept lv r (flagBatch n f s) := by
  unfold flagBatch
  refine co_kept _ (fun k => ?_) (le_refl _) h
  refine stages_map (c := s.co) _ _ ?_ ?_ k <;> intro b <;> split <;> rfl

theorem flagAttached_kept {r s : State} (sc : Scale) (f : TicketFlags → TicketFlags) (h : Kept lv r s) :
    Kept lv r (flagAttached sc f s) := by
  unfold flagAttached; split
  · exact flagBatch_kept _ _ h
  · exact h

/-- A change of the weigh-stage batch that keeps its number. -/
theorem weighMap_kept {r s : State} (f : Batch → Batch) (hf : ∀ b, (f b).seq = b.seq) (h : Kept lv r s) :
    Kept lv r { s with co := { s.co with weigh := s.co.weigh.map f } } := by
  refine co_kept _ (fun k => ?_) (le_refl _) h
  have := stages_map (c := s.co) f id hf (fun _ => rfl) k
  simpa using this

/-- A change of the mixer-stage batch that keeps its number. -/
theorem mixMap_kept {r s : State} (f : Batch → Batch) (hf : ∀ b, (f b).seq = b.seq) (h : Kept lv r s) :
    Kept lv r { s with co := { s.co with mix := s.co.mix.map f } } := by
  refine co_kept _ (fun k => ?_) (le_refl _) h
  have := stages_map (c := s.co) id f (fun _ => rfl) hf k
  simpa using this

/-- The weigh-stage batch replaced by one of the same number. -/
theorem weighSet_kept {r s : State} {b b' : Batch} (hb : s.co.weigh = some b) (e : b'.seq = b.seq)
    (h : Kept lv r s) : Kept lv r { s with co := { s.co with weigh := some b' } } := by
  have h2 := weighMap_kept (fun x => if x.seq = b.seq then b' else x)
    (fun x => by split <;> simp_all) h
  rw [hb] at h2
  simpa using h2

theorem enterVerdict_kept {r s : State} (sc : Scale) (n : Int) (h : Kept lv r s) :
    Kept lv r (enterVerdict sc n s) := by
  unfold enterVerdict
  exact weighMap_kept _ (fun _ => rfl) h

/-! ### Reading, writing and reporting -/

theorem refreshScale_kept {r s : State} (sc : Scale) (h : Kept lv r s) : Kept lv r (refreshScale sc s) := by
  unfold refreshScale
  dsimp only
  exact modChan_kept sc _ (.same rfl rfl rfl rfl) (readAll_kept _ (readField_kept _ _ h))

theorem writeSource_kept {r s : State} (d : Dose) (e : Int) (h : Kept lv r s) :
    Kept lv r (writeSource d e s) := by
  unfold writeSource
  dsimp only
  apply wr_kept
  apply gap_kept
  apply put_kept
  apply put_kept
  apply readAll_kept
  exact put_kept _ _ h

theorem reachWeighed_kept {r s : State} (sc : Scale) (n : Int) (h : Kept lv r s) :
    Kept lv r (reachWeighed sc n s) := by
  unfold reachWeighed
  exact enterVerdict_kept sc n (modChan_kept sc _ (.off rfl rfl rfl rfl (by simp)) h)

theorem addResult_kept {r s : State} (sc : Scale) (x : EntryResult) (h : Kept lv r s) :
    Kept lv r (addResult sc x s) := modChan_kept sc _ (.same rfl rfl rfl rfl) h

theorem binLowNotice_kept {r s : State} (sc : Scale) (h : Kept lv r s) : Kept lv r (binLowNotice sc s) :=
  submit_kept _ h

theorem postBinLow_kept {r s : State} (sc : Scale) (h : Kept lv r s) : Kept lv r (postBinLow sc s) := by
  unfold postBinLow
  exact flagAttached_kept sc _ (modChan_kept sc _ (.same rfl rfl rfl rfl) (binLowNotice_kept sc h))

theorem beginWatch_kept {r s : State} (sc : Scale) (h : Kept lv r s) : Kept lv r (beginWatch sc s) := by
  unfold beginWatch
  dsimp only
  split
  · exact postBinLow_kept sc h
  · exact h

theorem startComponents_kept {r : State} (sc : Scale) (es : List DoseEntry) :
    ∀ {s : State} (first : Bool), Kept lv r s → Kept lv r (startComponents sc first es s) := by
  induction es with
  | nil => intro s first h; exact reachWeighed_kept sc _ h
  | cons e es ih =>
    intro s first h
    unfold startComponents
    have h2 := modChan_kept sc (fun c =>
      { c with ring := [], base := if first then 0 else c.net, dose := { Dose.clear with entry := e },
               stall := 0, winCount := none, todo := es }) (.same rfl rfl rfl rfl) h
    dsimp only at h2 ⊢
    revert h2
    generalize State.modChan s sc _ = u
    intro h2
    split
    · exact ih false (addResult_kept sc _ h2)
    · have h3 := readAll_kept (sourceAddrs e.source) h2
      split
      · apply beginWatch_kept
        refine modChan_kept sc _ ?_ h3
        refine ChanKept.trans ?_ (beginFeed_ck _ _)
        exact .same rfl rfl rfl rfl
      · exact ih false (addResult_kept sc _ h3)

theorem offerTrace_kept {r s : State} (sc : Scale) (a b c : Int) (o : DoseOutcome) (h : Kept lv r s) :
    Kept lv r (offerTrace sc a b c o s) := offers_kept _ h

theorem finalVerify_kept {r s : State} (sc : Scale) (a : Int) (o : DoseOutcome) (h : Kept lv r s) :
    Kept lv r (finalVerify sc a o s) := by
  unfold finalVerify
  dsimp only
  have h2 := writeSource_kept (s.chan sc).dose (a - (s.chan sc).dose.entry.target)
    (addResult_kept sc ⟨(s.chan sc).dose.entry.source, a, o⟩ h)
  split
  · exact offerTrace_kept _ _ _ _ _ h2
  · exact h2

/-! ### The binder dose -/

theorem cutChangeover_kept {r s : State} (h : Kept lv r s) : Kept lv r (cutChangeover s) := bit_kept _ h

theorem bitReport_kept {r s : State} (a : Int) (o : DoseOutcome) (h : Kept lv r s) :
    Kept lv r (bitReport a o s) := by
  unfold bitReport
  exact reachWeighed_kept _ _ (bit_kept _ (modChan_kept _ _ (.same rfl rfl rfl rfl) h))

theorem setBinderTarget_kept {r s : State} (t : Int) (h : Kept lv r s) : Kept lv r (setBinderTarget t s) :=
  modChan_kept _ _ (.same rfl rfl rfl rfl) h

theorem bitDirectVerify_kept {r s : State} (b : Int) (h : Kept lv r s) : Kept lv r (bitDirectVerify b s) := by
  unfold bitDirectVerify
  exact bitReport_kept _ _ (finalVerify_kept _ _ _ (setBinderTarget_kept _ h))

theorem bitContinue_kept {r s : State} (b : Int) (h : Kept lv r s) : Kept lv r (bitContinue b s) := by
  unfold bitContinue
  refine modChan_kept _ _ ?_ (setBinderTarget_kept _ (bit_kept _ h))
  dsimp only
  refine ChanKept.trans ?_ (beginFeed_ck _ _)
  exact .same rfl rfl rfl rfl

theorem bitActTarget_kept {r s : State} (h : Kept lv r s) : Kept lv r (bitActTarget s) := by
  unfold bitActTarget
  split
  · split
    · exact h
    · exact bitReport_kept _ _ h
    · split
      · exact bitReport_kept _ _ h
      · split
        · exact bitReport_kept _ _ h
        · split
          · exact bitReport_kept _ _ h
          · split
            · exact bitDirectVerify_kept _ h
            · exact bitContinue_kept _ h
  · exact h

theorem bitEnterPrefed_kept {r s : State} (a : Int) (h : Kept lv r s) : Kept lv r (bitEnterPrefed a s) := by
  unfold bitEnterPrefed
  exact bitActTarget_kept (bit_kept _ (modChan_kept _ _ (.off rfl rfl rfl rfl (by simp)) h))

theorem bitBeginPrefeed_kept {r s : State} (h : Kept lv r s) : Kept lv r (bitBeginPrefeed s) := by
  unfold bitBeginPrefeed
  dsimp only
  split
  · exact bitEnterPrefed_kept _ (modChan_kept _ _ (.same rfl rfl rfl rfl)
      (setBinderTarget_kept _ (bit_kept _ h)))
  · refine modChan_kept _ _ (beginFeed_ck _ _) (modChan_kept _ _ (.same rfl rfl rfl rfl)
      (setBinderTarget_kept _ (bit_kept _ h)))

theorem bitEndChangeover_kept {r s : State} (h : Kept lv r s) : Kept lv r (bitEndChangeover s) :=
  bitBeginPrefeed_kept (bit_kept _ h)

theorem bitBeginChangeover_kept {r s : State} (t : Tank) (h : Kept lv r s) :
    Kept lv r (bitBeginChangeover t s) := by
  unfold bitBeginChangeover
  dsimp only
  have h2 := bit_kept { (flagAttached .bit (fun f => { f with changeover := true }) s).bit with
    tankSelect := decide (t = .bt2), purge := 0 } (flagAttached_kept .bit
      (fun f => { f with changeover := true }) h)
  split
  · exact bitEndChangeover_kept h2
  · exact bit_kept _ (modChan_kept _ _ (.off rfl rfl rfl rfl (by simp)) h2)

theorem bitAfterTare_kept {r s : State} (e : DoseEntry) (h : Kept lv r s) : Kept lv r (bitAfterTare e s) := by
  unfold bitAfterTare
  split
  rename_i ws t hr
  have h2 := modChan_kept .bit (fun c => { c with todo := [], dose := doseFrom e ws })
    (.same rfl rfl rfl rfl) (readAll_kept' hr h)
  dsimp only at h2 ⊢
  split
  · split
    · split
      · exact bitBeginPrefeed_kept h2
      · exact bitBeginChangeover_kept _ h2
    · exact bitBeginPrefeed_kept h2
  · exact bitEnterPrefed_kept _ (bit_kept _ h2)

theorem bitUndosed_kept {r s : State} (e : DoseEntry) (h : Kept lv r s) : Kept lv r (bitUndosed e s) :=
  bitReport_kept _ _ (modChan_kept _ _ (.same rfl rfl rfl rfl) h)

theorem bitHandBc_kept {r s : State} (b : Int) (h : Kept lv r s) : Kept lv r (bitHandBc b s) :=
  bitActTarget_kept (bit_kept _ h)

theorem bitHandNoDose_kept {r s : State} (h : Kept lv r s) : Kept lv r (bitHandNoDose s) := by
  unfold bitHandNoDose
  split
  · exact bitReport_kept _ _ h
  · exact bitReport_kept _ _ (cutChangeover_kept h)
  · exact bitActTarget_kept (bit_kept _ h)

/-! ### Weigh start, stops, discharge -/

theorem startTare_kept {r s : State} (a : Attach) (sc : Scale) (l : List DoseEntry) (h : Kept lv r s) :
    Kept lv r (startTare a sc l s) := by
  unfold startTare
  exact refreshScale_kept sc (modChan_kept sc _ (.off rfl rfl rfl rfl (by simp)) h)

theorem refreshBinder_kept {r s : State} (h : Kept lv r s) : Kept lv r (refreshBinder s) := by
  unfold refreshBinder
  split
  rename_i ws t hr
  exact bit_kept _ (readAll_kept' hr h)

theorem dropTarget_kept {r s : State} (sc : Scale) (h : Kept lv r s) : Kept lv r (dropTarget sc s) := by
  unfold dropTarget
  split
  · exact bit_kept _ h
  · exact h

theorem stopChannel_kept {r s : State} (sc : Scale) (h : Kept lv r s) : Kept lv r (stopChannel sc s) := by
  unfold stopChannel
  have h := dropTarget_kept sc h
  generalize dropTarget sc s = s at h ⊢
  dsimp only
  split
  · exact modChan_kept sc _ (.same rfl rfl rfl rfl) h
  · exact reachWeighed_kept _ _ (modChan_kept sc (fun c => { c with results :=
      c.results ++ ⟨c.dose.entry.source, dosed c, .notDosed⟩ :: undosed c.todo })
      (.same rfl rfl rfl rfl) h)
  · split
    · exact bitReport_kept _ _ h
    · exact h
  · split
    · exact bitReport_kept _ _ (cutChangeover_kept h)
    · exact h
  all_goals exact h

theorem stopAllChannels_kept {r s : State} (h : Kept lv r s) : Kept lv r (stopAllChannels s) := by
  unfold stopAllChannels Scale.all
  simp only [List.foldl]
  exact stopChannel_kept _ (stopChannel_kept _ (stopChannel_kept _ (stopChannel_kept _ h)))

theorem reportDischarge_kept {r s : State} (sc : Scale) (k : EndKind) (h : Kept lv r s) :
    Kept lv r (reportDischarge sc k s) := by
  unfold reportDischarge
  split
  · exact rc_kept_same _ rfl rfl rfl id h
  · split
    · exact mixer_kept_same _ rfl rfl h
    · exact h

theorem endDischarge_kept {r s : State} (sc : Scale) (k : EndKind) (h : Kept lv r s) :
    Kept lv r (endDischarge sc k s) := by
  unfold endDischarge
  exact reportDischarge_kept sc k (modChan_kept sc _ (.off rfl rfl rfl rfl (by simp)) h)

/-- A discharge request that meets a closed door (R126). -/
theorem requestDischarge_kept {r s : State} (sc : Scale)
    (hd : doorSafe s = true → s.mixer.door = false) (h : Kept lv r s) :
    Kept lv r (requestDischarge sc s) := by
  unfold requestDischarge
  dsimp only
  split
  · split
    · refine h.trans ⟨id, id, ?_, ?_, id, id, id, ?_, id, fun _ => id, id, id, le_refl _, rfl,
        fun _ hs hf => ?_⟩
      · intro hs
        unfold channelsSafe at hs ⊢
        rw [PerScale.all_iff] at hs ⊢
        intro sc'
        rw [State.modChan_ch]
        by_cases e : sc' = sc
        · subst e; rw [PerScale.get_set_same]; simp [chanSafe]
        · rw [PerScale.get_set_other _ _ e]; exact hs sc'
      · intro hs
        unfold lateSafe at hs ⊢
        rw [PerScale.all_iff] at hs ⊢
        intro sc'
        rw [State.modChan_ch]
        by_cases e : sc' = sc
        · subst e; rw [PerScale.get_set_same]; exact hs sc'
        · rw [PerScale.get_set_other _ _ e]; exact hs sc'
      · intro hs
        have := hd hs
        unfold doorSafe
        simp only [State.modChan_mixer, this]
        rfl
      · cases hb : feedsBarred s with
        | false =>
          unfold feedSafe
          rw [show feedsBarred (s.modChan sc _) = false from hb]
          rfl
        | true =>
          refine feedSafe_quiet fun sc' => ?_
          rw [State.modChan_ch]
          by_cases e : sc' = sc
          · subst e; rw [PerScale.get_set_same]; simp [chanQuiet, mayFeed]
          · rw [PerScale.get_set_other _ _ e]; exact quiet_of_barred hf hb sc'
    · exact endDischarge_kept sc _ h
  · exact h

end Sys2Proof.Machine
end

