-- ==== Sys2Proof/Laws/KeptHeat.lean ====
section
/-! SUPPORT. What the operations of the heat controller (Heat.lean) keep. -/

namespace Sys2Proof.Machine

variable {lv : Bool}

/-! ### Firing -/

theorem clampTo_range {lo hi : Int} (h : lo ≤ hi) (v : Int) : lo ≤ clampTo lo hi v ∧ clampTo lo hi v ≤ hi := by
  unfold clampTo; split
  · exact ⟨le_refl _, h⟩
  · split <;> omega

/-- The burner modulates or holds low fire. -/
def fires (b : Burner) : Bool :=
  match b with
  | .lowFire | .modulating => true
  | .off | .requested | .fault => false

theorem fireSafe_none {h : Heat} (hv : h.vals = none) : fireSafe h = true ↔ h.firing = 0 := by
  unfold fireSafe; rw [hv]; simp

theorem fireSafe_some {h : Heat} {v : HeatVals} (hv : h.vals = some v) :
    fireSafe h = true ↔ v.minFire ≤ v.maxFire ∧
      (fires h.burner = true → (v.minFire : Int) ≤ h.firing ∧ h.firing ≤ v.maxFire) ∧
      (fires h.burner = false → h.firing = 0) := by
  unfold fireSafe fires; rw [hv]
  cases h.burner <;> simp [inRange]

/-- How to show a fire safe under working values. -/
theorem fireSafe_intro {x : Heat} {v : HeatVals} (hv : x.vals = some v) (h1 : v.minFire ≤ v.maxFire)
    (h2 : fires x.burner = true → (v.minFire : Int) ≤ x.firing ∧ x.firing ≤ v.maxFire)
    (h3 : fires x.burner = false → x.firing = 0) : fireSafe x = true :=
  (fireSafe_some hv).2 ⟨h1, h2, h3⟩

theorem upperFire_range {v : HeatVals} (h : Heat) (hm : v.minFire ≤ v.maxFire) :
    (v.minFire : Int) ≤ upperFire v h ∧ upperFire v h ≤ v.maxFire := by
  unfold upperFire; split <;> omega

/-- Clamping the fire makes it safe, if it is 0 where the burner does not fire. -/
theorem clampFire_safe {v : HeatVals} {h : Heat} (hv : h.vals = some v) (hm : v.minFire ≤ v.maxFire)
    (h0 : fires h.burner = false → h.firing = 0) : fireSafe (clampFire v h) = true := by
  have hu := upperFire_range h hm
  have hc := clampTo_range hu.1 h.firing
  unfold clampFire
  split
  · rename_i hb
    refine fireSafe_intro (v := v) hv hm (fun _ => ⟨le_refl _, ?_⟩) (fun k => ?_)
    · dsimp only; exact_mod_cast hm
    · simp [hb, fires] at k
  · rename_i hb
    refine fireSafe_intro (v := v) hv hm (fun _ => ?_) (fun k => ?_)
    · dsimp only
      split
      · omega
      · omega
    · simp [hb, fires] at k
  all_goals
    rename_i hb
    exact fireSafe_intro (v := v) hv hm (fun k => by simp [hb, fires] at k)
      (fun _ => h0 (by simp [hb, fires]))

theorem clampFire_same (v : HeatVals) (h : Heat) :
    (clampFire v h).vals = h.vals ∧ (clampFire v h).burner = h.burner ∧
      (clampFire v h).request = h.request ∧ (clampFire v h).bt1 = h.bt1 ∧ (clampFire v h).bt2 = h.bt2 := by
  unfold clampFire; split <;> exact ⟨rfl, rfl, rfl, rfl, rfl⟩

/-- An update of the heat controller that keeps burner and tank heaters, and a safe fire. -/
theorem heat_kept_fire {r s : State} (x : Heat) (k : fireSafe s.heat = true → fireSafe x = true)
    (k2 : x.burner = s.heat.burner) (k3 : x.request = s.heat.request) (k5 : x.bt1 = s.heat.bt1)
    (k6 : x.bt2 = s.heat.bt2) (h : Kept lv r s) : Kept lv r { s with heat := x } := by
  refine heat_kept x k ?_ ?_ ?_ h
  · unfold litSafe; simp only [k2]; exact id
  · unfold requestSafe; rw [k2, k3]; exact id
  · unfold heaterSafe; simp only [k5, k6]; exact id

theorem testClamp_same (h : Heat) :
    (testClamp h).vals = h.vals ∧ (testClamp h).burner = h.burner ∧
      (testClamp h).request = h.request ∧ (testClamp h).bt1 = h.bt1 ∧ (testClamp h).bt2 = h.bt2 := by
  unfold testClamp
  dsimp only
  split
  · split
    · exact clampFire_same _ _
    · exact ⟨rfl, rfl, rfl, rfl, rfl⟩
  · exact ⟨rfl, rfl, rfl, rfl, rfl⟩

theorem testClamp_safe {h : Heat} (k : fireSafe h = true) : fireSafe (testClamp h) = true := by
  unfold testClamp
  dsimp only
  split
  · rename_i v hv
    rw [fireSafe_some hv] at k
    split
    · exact clampFire_safe (h := { h with t7Clamp := t7Test h }) hv k.1 k.2.2
    · exact fireSafe_intro (v := v) hv k.1 k.2.1 k.2.2
  · rename_i hv
    exact (fireSafe_none hv).2 ((fireSafe_none hv).1 k)

theorem testHold_same (h : Heat) :
    (testHold h).vals = h.vals ∧ (testHold h).burner = h.burner ∧
      (testHold h).request = h.request ∧ (testHold h).bt1 = h.bt1 ∧ (testHold h).bt2 = h.bt2 := by
  unfold testHold
  split
  · split <;> exact ⟨rfl, rfl, rfl, rfl, rfl⟩
  · exact ⟨rfl, rfl, rfl, rfl, rfl⟩

theorem fireSafe_same {h x : Heat} (k1 : x.vals = h.vals) (k2 : x.burner = h.burner)
    (k3 : x.firing = h.firing) (k : fireSafe h = true) : fireSafe x = true := by
  unfold fireSafe at k ⊢; rw [k1, k2, k3]; exact k

theorem testHold_safe {h : Heat} (k : fireSafe h = true) : fireSafe (testHold h) = true := by
  unfold testHold
  split
  · rename_i v hb hv
    have k0 := k
    rw [fireSafe_some hv] at k
    split
    · refine fireSafe_intro (v := v) hv k.1 (fun _ => ⟨le_refl _, ?_⟩) (fun c => ?_)
      · dsimp only; exact_mod_cast k.1
      · simp [hb, fires] at c
    · exact fireSafe_same (h := h) rfl rfl rfl k0
  · exact fireSafe_same (h := h) rfl rfl rfl k

theorem testClamp_kept {r s : State} (h : Kept lv r s) : Kept lv r { s with heat := testClamp s.heat } :=
  heat_kept_fire _ testClamp_safe (testClamp_same _).2.1 (testClamp_same _).2.2.1
    (testClamp_same _).2.2.2.1 (testClamp_same _).2.2.2.2 h

theorem testHold_kept {r s : State} (h : Kept lv r s) : Kept lv r { s with heat := testHold s.heat } :=
  heat_kept_fire _ testHold_safe (testHold_same _).2.1 (testHold_same _).2.2.1
    (testHold_same _).2.2.2.1 (testHold_same _).2.2.2.2 h

/-- An update of a safe fire by the regulator stays within the firing limits (R145, R149). -/
theorem regulate_range {v : HeatVals} {up pv f : Int} (g : Regulator) (h1 : (v.minFire : Int) ≤ up)
    (h2 : up ≤ v.maxFire) (hf : (v.minFire : Int) ≤ f ∧ f ≤ v.maxFire) :
    (v.minFire : Int) ≤ (regulate v up pv g f).2 ∧ (regulate v up pv g f).2 ≤ v.maxFire := by
  unfold regulate
  dsimp only
  split
  · exact hf
  · have := clampTo_range h1 (roundDiv (10 * v.kp * (roundDiv g.sp 24 - pv) +
      clampTo (1000 * v.minFire) (1000 * up) (g.integral + v.ki * (roundDiv g.sp 24 - pv)) -
      10 * v.kd * (pv - g.prevPV.getD pv)) 1000)
    omega

theorem regulatorUpdate_safe {h : Heat} (k : fireSafe h = true) : fireSafe (regulatorUpdate h) = true := by
  unfold regulatorUpdate
  split
  · rename_i v g hb hv _
    dsimp only
    split
    · rename_i pv _ _
      have k1 := (fireSafe_some hv).1 k
      have hu := upperFire_range h k1.1
      refine fireSafe_intro (v := v) hv k1.1 (fun _ => ?_) (fun c => by simp [hb, fires] at c)
      have hk := k1.2.1 (by simp [hb, fires])
      exact regulate_range _ hu.1 hu.2 hk
    · exact fireSafe_same (h := h) rfl rfl rfl k
  · exact k

theorem regulatorUpdate_same (h : Heat) :
    (regulatorUpdate h).burner = h.burner ∧ (regulatorUpdate h).request = h.request ∧
      (regulatorUpdate h).bt1 = h.bt1 ∧ (regulatorUpdate h).bt2 = h.bt2 := by
  unfold regulatorUpdate
  split
  · dsimp only; split <;> exact ⟨rfl, rfl, rfl, rfl⟩
  · exact ⟨rfl, rfl, rfl, rfl⟩

theorem regulatorUpdate_kept {r s : State} (h : Kept lv r s) :
    Kept lv r { s with heat := regulatorUpdate s.heat } :=
  heat_kept_fire _ regulatorUpdate_safe (regulatorUpdate_same _).1 (regulatorUpdate_same _).2.1
    (regulatorUpdate_same _).2.2.1 (regulatorUpdate_same _).2.2.2 h

/-- Working values are taken with max fire not below min fire, or keep what they had (R139). -/
theorem heatValsFrom_fires (ws : List Word) {old : HeatVals} (h : old.minFire ≤ old.maxFire) :
    (heatValsFrom ws old).minFire ≤ (heatValsFrom ws old).maxFire := by
  unfold heatValsFrom
  dsimp only
  split
  · rename_i c
    simp only [Bool.and_eq_true, decide_eq_true_eq] at c
    exact c.2
  · exact h

/-! ### Temperature channels -/

theorem postSensor_kept {r s : State} (c : TempCause) (e : Bool) (t : TempChan) (v : Option Int)
    (h : Kept lv r s) : Kept lv r (postSensor c e t v s) := submit_kept _ h

/-- An update of the temperature channels and their link. -/
theorem tc_kept {r s : State} (tc : PerTemp TempCh) (m a : Nat) (h : Kept lv r s) :
    Kept lv r { s with heat := { s.heat with tc := tc, missing := m, age := a } } :=
  heat_kept_same _ rfl rfl rfl rfl rfl rfl h

theorem judgeTemp_kept {r s : State} (t : TempChan) (x : TempReading) (h : Kept lv r s) :
    Kept lv r (judgeTemp t x s) := by
  have hu : ∀ c : TempCh, Kept lv r { s with heat := { s.heat with tc := tempSet s.heat.tc t c } } :=
    fun c => tc_kept _ _ _ h
  unfold judgeTemp
  dsimp only
  split
  · split
    · exact hu _
    · exact postSensor_kept _ _ _ _ (hu _)
  · split
    · split
      · exact hu _
      · split
        · exact hu _
        · exact postSensor_kept _ _ _ _ (hu _)
    · exact hu _

theorem countMissing_kept {r s : State} (h : Kept lv r s) : Kept lv r (countMissing s) := by
  unfold countMissing
  dsimp only
  split
  · exact submit_kept _ (tc_kept _ _ _ h)
  · exact tc_kept _ _ _ h

/-! ### Tank heaters -/

/-- A tank heater that is not on with its latch set. -/
def tankOk (k : TankState) : Bool := !k.latch || !k.heater

theorem heaterCases_latch (sp : Int) (y : Nat) (t : Int) (k : TankState) :
    (heaterCases sp y t k).latch = k.latch := by
  unfold heaterCases; split
  · rfl
  · split <;> rfl

theorem heaterAtFrame_ok (sp : Int) (y : Nat) (t : Int) (k : TankState) :
    tankOk (heaterAtFrame sp y t k) = true := by
  unfold heaterAtFrame
  split
  · simp [tankOk]
  · unfold tankOk; rw [heaterCases_latch]; simp

theorem heaterBetween_ok (sp : Int) (y : Nat) (t : Int) (k : TankState) :
    tankOk (heaterBetween sp y t k) = true := by
  unfold heaterBetween
  split
  · simp [tankOk]
  · rename_i hl
    unfold tankOk; rw [heaterCases_latch]; simp [hl]

/-- One tank's heater set where the heaters run. -/
theorem setTank_kept {r s : State} (t : Tank) (k : TankState) (ho : tankOk k = true)
    (hr : heatersRun s.rc.part = true) (h : Kept lv r s) : Kept lv r { s with heat := setTank s.heat t k } := by
  unfold tankOk at ho
  refine heat_kept _ ?_ ?_ ?_ ?_ h
  · cases t <;> exact fireSafe_same rfl rfl rfl
  · cases t <;> exact id
  · cases t <;> exact id
  · unfold heaterSafe
    cases t <;> simp only [setTank, hr, Bool.true_or, Bool.true_and, Bool.and_eq_true] <;> intro c
    · exact ⟨ho, c.2⟩
    · exact ⟨c.1, ho⟩

/-- One tank's heater switched off, or its setpoint chosen. -/
theorem setTank_kept_less {r s : State} (t : Tank) (k : TankState)
    (hl : k.latch = (tankOfHeat s.heat t).latch)
    (hh : k.heater = true → (tankOfHeat s.heat t).heater = true) (h : Kept lv r s) :
    Kept lv r { s with heat := setTank s.heat t k } := by
  refine heat_kept _ ?_ ?_ ?_ ?_ h
  · cases t <;> exact fireSafe_same rfl rfl rfl
  · cases t <;> exact id
  · cases t <;> exact id
  · unfold heaterSafe
    cases t <;> simp only [setTank, tankOfHeat] at * <;> revert hl hh <;>
      generalize heatersRun s.rc.part = p <;> cases p <;>
      cases k.latch <;> cases k.heater <;> cases s.heat.bt1.latch <;> cases s.heat.bt1.heater <;>
      cases s.heat.bt2.latch <;> cases s.heat.bt2.heater <;> simp

theorem tankFrame_kept {r s : State} (tank : Tank) (t : Int) (v : HeatVals)
    (hr : heatersRun s.rc.part = true) (h : Kept lv r s) : Kept lv r (tankFrame tank t v s) := by
  unfold tankFrame
  dsimp only
  split
  · refine setTank_kept _ _ (heaterAtFrame_ok _ _ _ _) ?_ (submit_kept _ (setTank_kept _ _ ?_ hr h))
    · rw [submit_rc]; exact hr
    · simp [tankOk]
  · exact setTank_kept _ _ (heaterAtFrame_ok _ _ _ _) hr h

theorem testTankFrame_kept {r s : State} (t : Tank) (b : Bool) (h : Kept lv r s) :
    Kept lv r (testTankFrame t b s) := by
  unfold testTankFrame
  split
  · split
    · rename_i c
      simp only [Bool.and_eq_true] at c
      exact tankFrame_kept _ _ _ c.2 h
    · exact h
  · exact setTank_kept_less _ _ rfl (fun c => by simp at c) h
  · exact h

theorem testTankBetween_kept {r s : State} (t : Tank) (h : Kept lv r s) : Kept lv r (testTankBetween t s) := by
  unfold testTankBetween
  split
  · split
    · rename_i c; exact setTank_kept _ _ (heaterBetween_ok _ _ _ _) c h
    · exact h
  · exact h

theorem followTank_kept {r s : State} (t : Tank) (h : Kept lv r s) : Kept lv r (followTank t s) := by
  unfold followTank
  dsimp only
  split
  · exact h
  · exact testTankBetween_kept _ (setTank_kept_less _ _ rfl id h)

theorem heatersOff_kept {r s : State} (h : Kept lv r s) : Kept lv r (heatersOff s) := by
  unfold heatersOff
  refine heat_kept _ (fireSafe_same rfl rfl rfl) id id ?_ h
  unfold heaterSafe
  simp

/-- The heat controller without its held permit request. -/
theorem permit_kept {r s : State} (p : Option PermitReq) (h : Kept lv r s) :
    Kept lv r { s with heat := { s.heat with permit := p } } := heat_kept_same _ rfl rfl rfl rfl rfl rfl h

/-! ### Dryer target -/

theorem target_kept {r s : State} (t : Option Int) (n : Nat) (a : Bool) (h : Kept lv r s) :
    Kept lv r { s with heat := { s.heat with target := t, idle := n, atStandby := a } } :=
  heat_kept_same _ rfl rfl rfl rfl rfl rfl h

theorem followDryer_kept {r s : State} (h : Kept lv r s) : Kept lv r (followDryer s) := by
  unfold followDryer
  split
  · exact h
  · split
    · split
      · exact target_kept _ _ _ h
      · split
        · split
          · exact target_kept _ _ _ h
          · exact h
        · exact target_kept _ _ _ h
    · exact h

theorem followQueue_kept {r s : State} (h : Kept lv r s) : Kept lv r (followQueue s) :=
  followTank_kept _ (followTank_kept _ (followDryer_kept h))

theorem idleExpired_kept {r s : State} (h : Kept lv r s) : Kept lv r (idleExpired s) := by
  unfold idleExpired
  split
  · split
    · exact target_kept _ _ _ h
    · exact h
  · exact h

/-! ### The burner -/

theorem minFire_of {h : Heat} {v : HeatVals} (hv : h.vals = some v) : minFire h = v.minFire := by
  simp [minFire, hv]

theorem minFire_none {h : Heat} (hv : h.vals = none) : minFire h = 0 := by simp [minFire, hv]

/-- Firing set to min fire while the burner fires. -/
theorem fireSafe_min {h x : Heat} (k1 : x.vals = h.vals) (k2 : fires x.burner = true)
    (k3 : x.firing = minFire h) (k : fireSafe h = true) : fireSafe x = true := by
  cases hv : h.vals with
  | none => rw [fireSafe_none (k1.trans hv), k3, minFire_none hv]
  | some v =>
    rw [fireSafe_some (k1.trans hv)]
    rw [fireSafe_some hv] at k
    rw [k3, minFire_of hv]
    exact ⟨k.1, fun _ => ⟨le_refl _, by exact_mod_cast k.1⟩, fun c => by rw [k2] at c; cases c⟩

/-- Firing set to 0 where the burner does not fire. -/
theorem fireSafe_zero {h x : Heat} (k1 : x.vals = h.vals) (k2 : fires x.burner = false)
    (k3 : x.firing = 0) (k : fireSafe h = true) : fireSafe x = true := by
  cases hv : h.vals with
  | none => rw [fireSafe_none (k1.trans hv)]; exact k3
  | some v =>
    rw [fireSafe_some (k1.trans hv)]
    rw [fireSafe_some hv] at k
    exact ⟨k.1, fun c => (by rw [k2] at c; cases c), fun _ => k3⟩

theorem burnerOut_kept {r s : State} (b : Burner) (hb : burnerLit b = false) (h : Kept lv r s) :
    Kept lv r { s with heat := burnerOut b s.heat } := by
  refine heat_kept _ ?_ ?_ ?_ ?_ h
  · exact fireSafe_zero rfl (by cases b <;> simp_all [burnerOut, fires, burnerLit]) rfl
  · intro _; unfold litSafe; simp [burnerOut, hb]
  · intro _; unfold requestSafe; simp [burnerOut, hb]
  · exact id

theorem burnerDrop_kept {r s : State} (h : Kept lv r s) : Kept lv r (burnerDrop s) := by
  unfold burnerDrop
  split
  · exact burnerOut_kept .off rfl h
  · exact h

/-- The burner after a drop asks for no flame (R144). -/
theorem burnerDrop_unlit (s : State) : burnerLit (burnerDrop s).heat.burner = false := by
  unfold burnerDrop
  split
  · rfl
  · rename_i c; simpa using c

theorem burnerTest_kept {r s : State} (h : Kept lv r s) : Kept lv r (burnerTest s) := by
  unfold burnerTest
  split
  · rename_i c
    obtain ⟨_, hp, _⟩ := c
    refine heat_kept _ ?_ ?_ ?_ ?_ h
    · intro k
      unfold enterRequested
      dsimp only
      split
      · exact fireSafe_min (h := s.heat) rfl rfl rfl k
      · exact fireSafe_zero (h := s.heat) rfl rfl rfl k
    · intro _
      unfold litSafe
      simp [hp]
    · intro _
      unfold requestSafe enterRequested
      dsimp only
      split <;> simp [enterLowFire, burnerLit]
    · unfold heaterSafe enterRequested
      dsimp only
      split <;> exact id
  · exact h

theorem burnerFault_kept {r s : State} (c : BurnerCause) (h : Kept lv r s) : Kept lv r (burnerFault c s) :=
  submit_kept _ (burnerOut_kept .fault rfl h)

theorem permitInput_kept {r s : State} (a : Bool) (h : Kept lv r s) : Kept lv r (permitInput a s) := by
  unfold permitInput
  dsimp only
  split
  · exact burnerTest_kept (inp_kept _ h)
  · exact burnerDrop_kept (inp_kept _ h)

theorem flameInput_kept {r s : State} (a : Bool) (h : Kept lv r s) : Kept lv r (flameInput a s) := by
  unfold flameInput
  have h2 := inp_kept { s.inp with flame := a } h
  dsimp only
  split
  · rename_i hb
    refine heat_kept (s := { s with inp := { s.inp with flame := true } }) (enterLowFire s.heat)
      (fireSafe_min (h := s.heat) rfl rfl rfl) ?_ ?_ id h2
    · unfold litSafe
      dsimp only
      rw [hb]
      exact id
    · unfold requestSafe
      dsimp only
      rw [hb]
      exact id
  · exact burnerFault_kept _ h2
  · exact burnerFault_kept _ h2
  · exact h2

theorem ignitionExpired_kept {r s : State} (h : Kept lv r s) : Kept lv r (ignitionExpired s) := by
  unfold ignitionExpired
  split
  · exact burnerFault_kept _ h
  · exact h

theorem lowFireExpired_kept {r s : State} (h : Kept lv r s) : Kept lv r (lowFireExpired s) := by
  unfold lowFireExpired
  split
  · rename_i hb
    refine heat_kept _ (fireSafe_min (h := s.heat) rfl rfl rfl) ?_ ?_ id h
    · unfold litSafe
      dsimp only
      rw [hb]
      exact id
    · unfold requestSafe
      rw [hb]
      exact id
  · exact h

theorem burnerReset_kept {r s : State} (h : Kept lv r s) : Kept lv r (burnerReset s) := by
  unfold burnerReset
  split
  · exact burnerTest_kept (burnerOut_kept .off rfl h)
  · exact h

/-! ### Working values -/

theorem adoptVals_kept {r s : State} (old v : HeatVals) (ho : s.heat.vals = some old)
    (hv : old.minFire ≤ old.maxFire → v.minFire ≤ v.maxFire) (h : Kept lv r s) :
    Kept lv r (adoptVals old v s) := by
  have h2 : Kept lv r { s with heat := testClamp (clampFire v { s.heat with vals := some v }) } := by
    have c1 := clampFire_same v { s.heat with vals := some v }
    have c2 := testClamp_same (clampFire v { s.heat with vals := some v })
    refine heat_kept_fire _ ?_ (c2.2.1.trans c1.2.1) (c2.2.2.1.trans c1.2.2.1)
      (c2.2.2.2.1.trans c1.2.2.2.1) (c2.2.2.2.2.trans c1.2.2.2.2) h
    intro k
    rw [fireSafe_some ho] at k
    exact testClamp_safe (clampFire_safe rfl (hv k.1) k.2.2)
  unfold adoptVals
  have h3 := followDryer_kept h2
  dsimp only
  split
  · split
    · exact testTankBetween_kept _ (testTankBetween_kept _ h3)
    · exact testTankBetween_kept _ h3
  · split
    · exact testTankBetween_kept _ h3
    · exact h3

end Sys2Proof.Machine
end

