-- ==== Sys2Proof/Laws/KeptOrders.lean ====
section
/-! SUPPORT. What the operations of the order engine (Orders.lean) keep; an examination touches the
window and the arbiter only. -/

namespace Sys2Proof.Machine

variable {lv : Bool}

/-- An update of the order engine that keeps the queue within its capacity. -/
theorem oe_kept_cap {r s : State} (o : OrderEngine)
    (k : s.oe.queue.length ≤ Config.queueCapacity → o.queue.length ≤ Config.queueCapacity)
    (h : Kept lv r s) : Kept lv r { s with oe := o } :=
  h.trans ⟨id, id, id, id, id, fun q => by
    simp only [queueSafe, decide_eq_true_eq] at q ⊢; exact k q, id, id, id, fun _ => id, id, id, le_refl _, rfl, fun _ _ => id⟩

/-! ### Queue, tickets, closing -/

theorem modOrder_kept {r s : State} (n : Nat) (w : Word) (f : Order → Order) (h : Kept lv r s) :
    Kept lv r (modOrder n w f s) := oe_kept _ (by simp) h

/-- A batch whose order leaves keeps its number. -/
@[simp] theorem loseOrder_seq (n : Nat) (w : Word) (b : Batch) : (loseOrder n w b).seq = b.seq := by
  unfold loseOrder; split <;> rfl

/-- A batch whose order leaves keeps all but the mark of it. -/
theorem loseOrder_marks (n : Nat) (w : Word) (b : Batch) :
    loseOrder n w b = { b with orderLeft := b.orderLeft || ofOrder n w b } := by
  unfold loseOrder
  split
  · rename_i h; rw [h, Bool.or_true]
  · rename_i h; rw [Bool.eq_false_iff.mpr h, Bool.or_false]

theorem dropOrder_kept {r s : State} (n : Nat) (w : Word) (h : Kept lv r s) : Kept lv r (dropOrder n w s) :=
  followQueue_kept
    (oe_kept _ (List.length_filter_le _ _) (stagesMap_kept _ _ (loseOrder_seq n w) (loseOrder_seq n w) h))

theorem countCharged_kept {r s : State} (b : Batch) (h : Kept lv r s) : Kept lv r (countCharged b s) := by
  unfold countCharged
  refine followQueue_kept ?_
  split
  · exact h
  · exact modOrder_kept _ _ _ h

theorem seizeUnqueued_kept {r s : State} (t : Ticket) (h : Kept lv r s) : Kept lv r (seizeUnqueued t s) :=
  submit_kept _ h

theorem seizeOrder_kept {r s : State} (o : Order) (n : Nat) (d : Detail) (h : Kept lv r s) :
    Kept lv r (seizeOrder o n d s) := by
  unfold seizeOrder
  exact foldl_kept _ (fun s t k => seizeUnqueued_kept t k) _ (dropOrder_kept _ _ (submit_kept _ h))

theorem closeOrder_kept {r s : State} (o : Order) (c : OrderOutcome) (h : Kept lv r s) :
    Kept lv r (closeOrder o c s) := by
  unfold closeOrder
  dsimp only
  have h2 := h.ofRam (guardedSeq_offRam o.slot [slotTaken, slotActive] o.number
      (closeWrites o c s)
      (Win.slot o.slot + Win.slotState, slotClosed) s) (guardedSeq_wf _ _ _ _ _)
  split
  · exact dropOrder_kept _ _ (submit_kept _ h2)
  · exact seizeOrder_kept _ _ _ h2

theorem closeTest_kept {r s : State} (n : Nat) (w : Word) (h : Kept lv r s) : Kept lv r (closeTest n w s) := by
  unfold closeTest
  split
  · exact h
  · split
    · exact h
    · split
      · exact h
      · exact closeOrder_kept _ _ h

theorem closeAllAborted_kept {r s : State} (h : Kept lv r s) : Kept lv r (closeAllAborted s) :=
  foldl_kept _ (fun _ o k => closeOrder_kept o _ k) _ h

theorem writeTicket_kept {r s : State} (o : Order) (t : Ticket) (h : Kept lv r s) :
    Kept lv r (writeTicket o t s) := by
  unfold writeTicket
  dsimp only
  have h2 := h.ofRam (guardedSeq_offRam o.slot [slotTaken, slotActive] o.number
      (writesAt (Win.ticket o.slot t.index) (ticketWords t))
      (Win.slot o.slot + Win.slotTickets, natWord (o.tickets + 1)) s) (guardedSeq_wf _ _ _ _ _)
  split
  · exact seizeOrder_kept _ _ _ h2
  · exact closeTest_kept _ _ (modOrder_kept _ _ _ (submit_kept _ h2))

theorem releaseHeld_kept {r : State} (n : Nat) (w : Word) (k : Nat) :
    ∀ {s : State}, Kept lv r s → Kept lv r (releaseHeld n w k s) := by
  induction k with
  | zero => intro s h; exact h
  | succ k ih =>
    intro s h
    unfold releaseHeld
    split
    · exact h
    · split
      · exact h
      · split
        · exact h
        · exact ih (writeTicket_kept _ _ (modOrder_kept _ _ _ h))

/-- A ticket of a batch whose order has left the queue is a seizure, whatever is queued since. -/
theorem handTicket_left (t : Ticket) (s : State) : handTicket true t s = seizeUnqueued t s := rfl

theorem handTicket_kept {r s : State} (l : Bool) (t : Ticket) (h : Kept lv r s) :
    Kept lv r (handTicket l t s) := by
  unfold handTicket
  split
  · exact seizeUnqueued_kept t h
  · split
    · exact modOrder_kept _ _ _ h
    · exact releaseHeld_kept _ _ _ (writeTicket_kept _ _ h)

/-! ### Withdraw and discard -/

theorem discardBatch_kept {r s : State} (h : Kept lv r s) : Kept lv r (discardBatch s) := by
  unfold discardBatch
  split
  · exact h
  · rename_i b hb
    split
    · exact h
    · apply stopAllChannels_kept
      have h2 := permit_kept none h
      exact weighSet_kept (s := { s with heat := { s.heat with permit := none } }) hb rfl h2

theorem discardIfWeighing_kept {r s : State} (o : Order) (h : Kept lv r s) :
    Kept lv r (discardIfWeighing o s) := by
  unfold discardIfWeighing
  split
  · split
    · exact discardBatch_kept h
    · exact h
  · exact h

theorem raiseLevel_kept {r s : State} (o : Order) (w : Word) (h : Kept lv r s) :
    Kept lv r (raiseLevel o w s) := by
  unfold raiseLevel
  dsimp only
  split
  · apply closeTest_kept
    split
    · exact discardIfWeighing_kept _ (followQueue_kept (modOrder_kept _ _ _ h))
    · exact followQueue_kept (modOrder_kept _ _ _ h)
  · exact h

theorem readWithdraw_kept {r s : State} (o : Order) (h : Kept lv r s) : Kept lv r (readWithdraw o s) :=
  raiseLevel_kept _ _ (gap_kept h)

theorem watchWithdraw_kept {r s : State} (h : Kept lv r s) : Kept lv r (watchWithdraw s) :=
  foldl_kept _ (fun _ o k => readWithdraw_kept o k) _ h

/-! ### Examination: the window and the arbiter only -/

/-- Only the window and the arbiter differ, and the window stays canonical. -/
structure RamOnly (s t : State) : Prop where
  same : t.offRam = s.offRam
  wf : Memory.wf s.mem = true → Memory.wf t.mem = true

theorem RamOnly.refl (s : State) : RamOnly s s := ⟨rfl, id⟩
theorem RamOnly.trans {r s t : State} (h : RamOnly r s) (k : RamOnly s t) : RamOnly r t :=
  ⟨k.same.trans h.same, k.wf ∘ h.wf⟩
theorem RamOnly.oe {s t : State} (h : RamOnly s t) : t.oe = s.oe := by
  have := congrArg State.oe h.same; exact this
theorem RamOnly.kept {r s t : State} (k : RamOnly s t) (h : Kept lv r s) : Kept lv r t := h.ofRam k.same k.wf
theorem readAll_ram (l : List Nat) (s : State) : RamOnly s (readAll l s).2 :=
  ⟨readAll_offRam l s, readAll_wf l⟩

theorem examineLoads_ram (n : Nat) (hdr : List Word) (p : Snapshot) (d : Int) (s : State) :
    RamOnly s (examineLoads n hdr p d s).2 := by
  unfold examineLoads
  dsimp only
  split
  · exact .refl s
  · split
    · exact .refl s
    · have h := (readAll_ram [Win.dryerMax] s).trans
        (readAll_ram (Scale.all.map fun sc => Win.scale sc + 6) _)
      split
      · split
        · exact h
        · exact h
      · exact h

theorem examineFormula_ram (n : Nat) (hdr : List Word) (v : Word) (ws : List Word) (s : State) :
    RamOnly s (examineFormula n hdr v ws s).2 := by
  unfold examineFormula
  dsimp only
  split
  · exact .refl s
  · split
    · exact .refl s
    · split
      · exact .refl s
      · rename_i srcs tank _
        have h := readAll_ram ((srcs ++ [tank.source]).map Win.source) s
        split
        · split
          · exact h.trans (examineLoads_ram _ _ _ _ _)
          · exact h
        · exact h

theorem examineCopy_ram (n : Nat) (hdr : List Word) (f : Nat) (s : State) :
    RamOnly s (examineCopy n hdr f s).2 := by
  unfold examineCopy
  dsimp only
  generalize ((List.range 64).map fun i => Win.formula f + 2 * i) = l
  generalize [Win.formula f, Win.formula f + 2] = m
  have h := readAll_ram m s
  generalize readAll m s = p at h ⊢
  obtain ⟨g, u⟩ := p
  have h2 := readAll_ram l u
  generalize readAll l u = p at h2 ⊢
  obtain ⟨ws, v⟩ := p
  have h3 := readAll_ram m v
  generalize readAll m v = p at h3 ⊢
  obtain ⟨g2, w⟩ := p
  dsimp only at h h2 h3 ⊢
  have h4 := examineFormula_ram n hdr (nthWord g 1) ws w
  generalize examineFormula n hdr (nthWord g 1) ws w = q at h4 ⊢
  split
  · split
    · exact ((h.trans h2).trans h3).trans h4
    · exact (h.trans h2).trans h3
  · exact h

/-- An examination's checks read the window; they change nothing else (R15). -/
theorem examineChecks_ram (n : Nat) (hdr : List Word) (s : State) :
    RamOnly s (examineChecks n hdr s).2 := by
  unfold examineChecks
  split
  · exact .refl s
  · split
    · exact .refl s
    · exact examineCopy_ram _ _ _ _

/-! ### Admission and the walk -/

theorem takePosition_kept {r s : State} (n : Nat) (w : Word) (h : Kept lv r s) :
    Kept lv r (takePosition n w s) := by
  unfold takePosition
  exact oe_kept _ (le_refl _) (put_kept _ _ h)

theorem closeAtAdmission_kept {r s : State} (n : Nat) (hdr : List Word) (c : OrderOutcome)
    (k : RefusalCode) (v : Word) (h : Kept lv r s) : Kept lv r (closeAtAdmission n hdr c k v s) := by
  unfold closeAtAdmission
  dsimp only
  have h2 : ∀ b l, Kept lv r (guardedSeq n [slotPosted] (nthWord hdr 0) b l s).1 := fun b l =>
    h.ofRam (guardedSeq_offRam _ _ _ _ _ s) (guardedSeq_wf _ _ _ _ _)
  split
  · exact h2 _ _
  · exact takePosition_kept _ _ (submit_kept _ (h2 _ _))

theorem takeOrder_kept {r s : State} (o : Order) (hq : s.oe.queue.length < Config.queueCapacity)
    (h : Kept lv r s) : Kept lv r (takeOrder o s) := by
  unfold takeOrder
  dsimp only
  have h2 : ∀ b l, Kept lv r (guardedSeq o.slot [slotPosted] o.number b l s).1 := fun b l =>
    h.ofRam (guardedSeq_offRam _ _ _ _ _ s) (guardedSeq_wf _ _ _ _ _)
  split
  · exact h2 _ _
  · have h3 : ∀ b l, Kept lv r
        { (guardedSeq o.slot [slotPosted] o.number b l s).1 with
          oe := { (guardedSeq o.slot [slotPosted] o.number b l s).1.oe with
            queue := (guardedSeq o.slot [slotPosted] o.number b l s).1.oe.queue ++ [o] } } := fun b l =>
      oe_kept_cap _ (fun _ => by simp; omega) (h2 b l)
    split
    · exact submit_kept _ (followQueue_kept (takePosition_kept _ _ (h3 _ _)))
    · exact followQueue_kept (takePosition_kept _ _ (h3 _ _))

/-- An order joins only through an examination that found the queue short (R19). -/
theorem examine_kept {r s : State} (n : Nat) (w : Word) (hq : s.oe.queue.length < Config.queueCapacity)
    (h : Kept lv r s) : Kept lv r (examine n w s) := by
  unfold examine
  dsimp only
  have k := (readAll_ram (headerAddrs n) s).trans
    (examineChecks_ram n (w :: (readAll (headerAddrs n) s).1) (readAll (headerAddrs n) s).2)
  split
  · exact closeAtAdmission_kept _ _ _ _ _ (k.kept h)
  · split
    · exact takeOrder_kept _ (by rw [k.oe]; exact hq) (k.kept h)
    · exact closeAtAdmission_kept _ _ _ _ _ (k.kept h)

theorem linkEarly_kept {r s : State} (n : Nat) (w : Word) (h : Kept lv r s) : Kept lv r (linkEarly n w s) := by
  unfold linkEarly
  split
  · exact h
  · exact submit_kept _ (oe_kept _ (le_refl _) h)

theorem meetSlot_kept {r s : State} (n : Nat) (g : Word × Word) (h : Kept lv r s) :
    Kept lv r (meetSlot n g s) := by
  unfold meetSlot
  split
  · split
    · rename_i hq; exact examine_kept n _ hq h
    · exact h
  · exact linkEarly_kept n _ h

theorem followLink_kept {r : State} (k : Nat) :
    ∀ {s : State} (e : Bool) (v : Word) (l : List Nat), Kept lv r s → Kept lv r (followLink k e v l s) := by
  induction k with
  | zero => intro s e v l h; exact h
  | succ k ih =>
    intro s e v l h
    unfold followLink
    dsimp only
    split
    · exact h
    · split
      · exact submit_kept _ (oe_kept _ (le_refl _) h)
      · have h2 := gap_kept h
        split
        · split
          · exact h2
          · exact ih _ _ _ (gap_kept (takePosition_kept _ _ h2))
        · exact meetSlot_kept _ _ h2

theorem walk_kept {r s : State} (h : Kept lv r s) : Kept lv r (walk s) := by
  unfold walk
  split
  · exact followLink_kept _ _ _ _ (gap_kept h)
  · split
    · exact h
    · dsimp only
      split
      · exact followLink_kept _ _ _ _ (gap_kept (gap_kept h))
      · exact submit_kept _ (oe_kept _ (le_refl _) (gap_kept h))
  · exact h
  · exact h

theorem lookPoint_kept {r s : State} (h : Kept lv r s) : Kept lv r (lookPoint s) := by
  unfold lookPoint
  split
  · exact walk_kept (watchWithdraw_kept h)
  · exact h

theorem drainLooks_kept {r : State} (n : Nat) :
    ∀ {s : State}, Kept lv r s → Kept lv r (drainLooks n s) := by
  induction n with
  | zero => intro s h; exact oe_kept _ (le_refl _) h
  | succ n ih =>
    intro s h
    unfold drainLooks
    split
    · exact h
    · exact ih (lookPoint_kept (oe_kept _ (le_refl _) h))

theorem restartWalker_kept {r s : State} (h : Kept lv r s) : Kept lv r (restartWalker s) := by
  unfold restartWalker
  exact lookPoint_kept (oe_kept _ (le_refl _) (put_kept _ _ h))

end Sys2Proof.Machine
end

