-- ==== Sys2Proof/Laws/KeptBatch.lean ====
section
/-! SUPPORT. What the operations of the batch coordinator and the mixer controller (Batch.lean,
Mixer.lean) keep. -/

namespace Sys2Proof.Machine

variable {lv b hl : Bool}

/-! ### Stages -/

/-- The mixer stage emptied. -/
theorem mixNone_kept {r s : State} (h : Kept lv r s) : Kept lv r { s with co := { s.co with mix := none } } := by
  refine co_kept _ (fun k => ?_) (le_refl _) h
  revert k
  obtain ⟨n, w, m⟩ := s.co
  cases w <;> cases m <;> simp_all [stagesSafe, numberBelow]

/-- The weigh stage emptied. -/
theorem weighNone_kept {r s : State} (h : Kept lv r s) :
    Kept lv r { s with co := { s.co with weigh := none } } := by
  refine co_kept _ (fun k => ?_) (le_refl _) h
  revert k
  obtain ⟨n, w, m⟩ := s.co
  cases w <;> cases m <;> simp_all [stagesSafe, numberBelow]

/-- The weigh-stage batch moved to the mixer stage. -/
theorem moveToMix_kept {r s : State} {b b' : Batch} (hb : s.co.weigh = some b) (e : b'.seq = b.seq)
    (h : Kept lv r s) : Kept lv r { s with co := { s.co with weigh := none, mix := some b' } } := by
  refine co_kept _ (fun k => ?_) (le_refl _) h
  revert k hb
  obtain ⟨n, w, m⟩ := s.co
  intro hb
  dsimp only at hb
  subst hb
  cases m <;> simp_all [stagesSafe, numberBelow]

/-- A new batch takes the counter's number (R51, R54). -/
theorem newBatch_kept {r s : State} {b : Batch} (e : b.seq = s.co.counter)
    (hc : s.co.counter ≤ Config.lastSequence) (h : Kept lv r s) :
    Kept lv r { s with co := { s.co with weigh := some b, counter := s.co.counter + 1 } } := by
  refine co_kept _ (fun k => ?_) (by dsimp only; omega) h
  revert k e hc
  obtain ⟨n, w, m⟩ := s.co
  unfold Config.lastSequence
  intro e hc k
  dsimp only at e hc
  cases w <;> cases m <;> simp_all [stagesSafe, numberBelow, Config.lastSequence] <;> omega

theorem endMixBatch_kept {r s : State} (h : Kept lv r s) : Kept lv r (endMixBatch s) := by
  unfold endMixBatch
  split
  · exact h
  · exact handTicket_kept _ _ (mixNone_kept h)

theorem endWeighAborted_kept {r s : State} (h : Kept lv r s) : Kept lv r (endWeighAborted s) := by
  unfold endWeighAborted
  split
  · exact h
  · exact handTicket_kept _ _ (weighNone_kept (s := { s with heat := { s.heat with permit := none } })
      (permit_kept none h))

theorem dryTest_kept {r s : State} (h : Kept lv r s) : Kept lv r (dryTest s) := by
  unfold dryTest
  split
  · exact h
  · rename_i b hb
    split
    · dsimp only
      split
      · exact bitHandNoDose_kept (weighSet_kept hb rfl h)
      · exact bitHandBc_kept _ (weighSet_kept hb rfl h)
    · exact h

/-! ### Weigh start -/

theorem activateOrder_kept {r s : State} (o : Order) (h : Kept lv r s) : Kept lv r (activateOrder o s) := by
  unfold activateOrder
  dsimp only
  have h2 := h.ofRam (guardedSeq_offRam o.slot [slotTaken] o.number []
    (Win.slot o.slot + Win.slotState, slotActive) s) (guardedSeq_wf _ _ _ _ _)
  split
  · exact h2
  · exact seizeOrder_kept _ _ _ h2

theorem handLists_kept {r s : State} (a : Attach) (o : Order) (h : Kept lv r s) :
    Kept lv r (handLists a o s) := by
  unfold handLists
  exact refreshBinder_kept (foldl_kept _ (fun _ _ k => startTare_kept _ _ _ k) _ h)

theorem startBatch_kept {r s : State} (o : Order) (hc : s.co.counter ≤ Config.lastSequence)
    (h : Kept lv r s) : Kept lv r (startBatch o s) := by
  unfold startBatch
  dsimp only
  apply handLists_kept
  have h2 := newBatch_kept (b := newBatch s.co.counter o) rfl hc h
  split
  · exact activateOrder_kept _ (modOrder_kept _ _ _ h2)
  · exact modOrder_kept _ _ _ h2

theorem followDryer_co (s : State) : (followDryer s).co = s.co := by
  unfold followDryer; repeat' split
  all_goals rfl

theorem testTankBetween_co (k : Tank) (s : State) : (testTankBetween k s).co = s.co := by
  unfold testTankBetween; repeat' split
  all_goals rfl

theorem followTank_co (k : Tank) (s : State) : (followTank k s).co = s.co := by
  unfold followTank
  dsimp only
  split
  · rfl
  · rw [testTankBetween_co]

/-- The heat controller follows the queue; the coordinator stays. -/
theorem followQueue_co (s : State) : (followQueue s).co = s.co := by
  unfold followQueue; rw [followTank_co, followTank_co, followDryer_co]

theorem dropOrder_counter (n : Nat) (w : Word) (s : State) :
    (dropOrder n w s).co.counter = s.co.counter := by
  unfold dropOrder; rw [followQueue_co]

theorem seizeUnqueued_co (t : Ticket) (s : State) : (seizeUnqueued t s).co = s.co := submit_co _ _

theorem foldl_seize_co (l : List Ticket) : ∀ s : State,
    (l.foldl (fun s t => seizeUnqueued t s) s).co = s.co := by
  induction l with
  | nil => intro s; rfl
  | cons t l ih => intro s; simp only [List.foldl]; rw [ih, seizeUnqueued_co]

theorem seizeOrder_counter (o : Order) (n : Nat) (d : Detail) (s : State) :
    (seizeOrder o n d s).co.counter = s.co.counter := by
  unfold seizeOrder
  dsimp only
  rw [foldl_seize_co, dropOrder_counter, submit_co]

theorem closeOrder_counter (o : Order) (c : OrderOutcome) (s : State) :
    (closeOrder o c s).co.counter = s.co.counter := by
  unfold closeOrder
  dsimp only
  split
  · rw [dropOrder_counter, submit_co, guardedSeq_co]
  · rw [seizeOrder_counter, guardedSeq_co]

theorem closeTest_counter (n : Nat) (w : Word) (s : State) :
    (closeTest n w s).co.counter = s.co.counter := by
  unfold closeTest
  split
  · rfl
  · split
    · rfl
    · split
      · rfl
      · exact closeOrder_counter _ _ _

/-- With no batch in the weigh stage, reading a withdraw request leaves the batch counter alone. -/
theorem readWithdraw_counter (o : Order) (s : State) (hw : s.co.weigh = none) :
    (readWithdraw o s).co.counter = s.co.counter := by
  unfold readWithdraw raiseLevel
  dsimp only
  split
  · rw [closeTest_counter]
    split
    · unfold discardIfWeighing
      simp only [followQueue_co, modOrder, gap_co, hw]
    · simp only [followQueue_co, modOrder, gap_co]
  · rw [gap_co]

theorem tryWeighStart_kept {r : State} (n : Nat) :
    ∀ {s : State}, Kept lv r s → Kept lv r (tryWeighStart n s) := by
  induction n with
  | zero => intro s h; exact h
  | succ n ih =>
    intro s h
    unfold tryWeighStart
    split
    · rename_i hm
      split
      · exact h
      · rename_i o _
        dsimp only
        have h2 := readWithdraw_kept o h
        split
        · split
          · refine startBatch_kept _ ?_ h2
            simp only [weighMayStart, Bool.and_eq_true, decide_eq_true_eq, Option.isNone_iff_eq_none] at hm
            rw [readWithdraw_counter _ _ hm.1.1.2]
            exact hm.2
          · exact ih h2
        · exact ih h2
    · exact h

/-! ### Abort -/

theorem detachChannel_ck (c : Channel) : ChanKept b hl c (detachChannel c) := by
  unfold detachChannel
  split
  · exact .same rfl rfl rfl rfl
  · exact .same rfl rfl rfl rfl
  · exact settleMaterial_ck c

theorem abortWeigh_kept {r s : State} (h : Kept lv r s) : Kept lv r (abortWeigh s) := by
  unfold abortWeigh
  split
  · exact h
  · rename_i b hb
    dsimp only
    have h2 := endWeighAborted_kept (countCharged_kept b
      (stopAllChannels_kept (weighSet_kept (b' := { b with aborted := true, waiting := false }) hb rfl h)))
    revert h2
    generalize endWeighAborted _ = u
    intro h2
    exact rc_kept_same (s := { u with ch := u.ch.map detachChannel }) _ rfl rfl rfl id
      (mapChan_kept detachChannel detachChannel_ck h2)

/-! ### Mixer phases -/

/-- The door is commanded closed, by the laws, in every phase but DOOR_OPEN. -/
theorem closed_of_phase {s : State} (hp : s.mixer.phase ≠ .doorOpen) (k : doorSafe s = true) :
    s.mixer.door = false := by
  unfold doorSafe at k
  cases hd : s.mixer.door with
  | false => rfl
  | true => simp [hd, hp] at k

theorem doorSafe_of_closed {s : State} (h : s.mixer.door = false) : doorSafe s = true := by
  unfold doorSafe; rw [h]; rfl

theorem postMark_kept {r s : State} (p : MarkPhase) (l : Bool) (h : Kept lv r s) :
    Kept lv r (postMark p l s) := submit_kept _ (mixer_kept_same _ rfl rfl h)

theorem postMark_same (p : MarkPhase) (l : Bool) (s : State) :
    (postMark p l s).mixer = { s.mixer with cmPosted := true } ∧ (postMark p l s).ch = s.ch :=
  ⟨submit_mixer _ _, submit_ch _ _⟩

theorem leavePhase_kept {r s : State} (h : Kept lv r s) : Kept lv r (leavePhase s) := by
  unfold leavePhase
  split
  · exact postMark_kept _ _ h
  · exact h

theorem leavePhase_same (s : State) :
    (leavePhase s).mixer.phase = s.mixer.phase ∧ (leavePhase s).mixer.door = s.mixer.door ∧
      (leavePhase s).ch = s.ch := by
  unfold leavePhase
  split
  · rename_i p _
    have := postMark_same p (decide (s.mixer.clock < s.mixer.cmOffset)) s
    rw [this.1, this.2]
    exact ⟨rfl, rfl, rfl⟩
  · exact ⟨rfl, rfl, rfl⟩

theorem enterPhase_same (p : Phase) (s : State) :
    (enterPhase p s).mixer.phase = p ∧ (enterPhase p s).mixer.door = s.mixer.door ∧
      (enterPhase p s).ch = s.ch := by
  unfold enterPhase
  dsimp only
  split
  · rename_i q _
    split
    · have := postMark_same q false
        { s with mixer := { s.mixer with phase := p, clock := 0 } }
      rw [this.1, this.2]
      exact ⟨rfl, rfl, rfl⟩
    · exact ⟨rfl, rfl, rfl⟩
  · exact ⟨rfl, rfl, rfl⟩

/-- A phase is entered from a state with the door commanded closed. -/
theorem enterPhase_kept {r s : State} (p : Phase) (hd : doorSafe s = true → s.mixer.door = false)
    (h : Kept lv r s) : Kept lv r (enterPhase p s) := by
  have h2 : Kept lv r { s with mixer := { s.mixer with phase := p, clock := 0 } } :=
    mixer_kept _ (fun k => doorSafe_of_closed (s := { s with
      mixer := { s.mixer with phase := p, clock := 0 } }) (hd k)) h
  unfold enterPhase
  dsimp only
  split
  · split
    · exact postMark_kept _ _ h2
    · exact h2
  · exact h2

theorem changePhase_same (p : Phase) (s : State) :
    (changePhase p s).mixer.phase = p ∧ (changePhase p s).mixer.door = s.mixer.door ∧
      (changePhase p s).ch = s.ch := by
  unfold changePhase
  have h1 := enterPhase_same p (leavePhase s)
  have h2 := leavePhase_same s
  exact ⟨h1.1, h1.2.1.trans h2.2.1, h1.2.2.trans h2.2.2⟩

theorem changePhase_kept {r s : State} (p : Phase) (hd : doorSafe s = true → s.mixer.door = false)
    (h : Kept lv r s) : Kept lv r (changePhase p s) := by
  unfold changePhase
  have h2 := leavePhase_same s
  refine enterPhase_kept p (fun k => ?_) (leavePhase_kept h)
  rw [h2.2.1]
  apply hd
  unfold doorSafe at k ⊢
  rw [h2.1, h2.2.1, h2.2.2] at k
  exact k

theorem askScale_kept {r s : State} (sc : Scale) (hd : doorSafe s = true → s.mixer.door = false)
    (h : Kept lv r s) : Kept lv r (askScale sc s) := by
  unfold askScale
  split
  · exact requestDischarge_kept sc hd (mixer_kept_same _ rfl rfl h)
  · exact h

/-- Asking a scale leaves phase and door alone. -/
theorem askScale_same (sc : Scale) (s : State) :
    (askScale sc s).mixer.phase = s.mixer.phase ∧ (askScale sc s).mixer.door = s.mixer.door := by
  unfold askScale
  split
  · unfold requestDischarge
    dsimp only
    split
    · split
      · exact ⟨rfl, rfl⟩
      · unfold endDischarge reportDischarge
        split
        · exact ⟨rfl, rfl⟩
        · split <;> exact ⟨rfl, rfl⟩
    · exact ⟨rfl, rfl⟩
  · exact ⟨rfl, rfl⟩

theorem refreshMixer_kept {r s : State} (h : Kept lv r s) : Kept lv r (refreshMixer s) := by
  unfold refreshMixer
  dsimp only
  exact mixer_kept_same _ rfl rfl (readAll_kept _ h)

theorem refreshMixer_door (s : State) :
    (refreshMixer s).mixer.phase = s.mixer.phase ∧ (refreshMixer s).mixer.door = s.mixer.door := by
  unfold refreshMixer
  dsimp only
  rw [readAll_mixer]
  exact ⟨rfl, rfl⟩

theorem mixerCharge_kept {r s : State} (m : MixBatch) (hp : s.mixer.phase ≠ .doorOpen)
    (h : Kept lv r s) : Kept lv r (mixerCharge m s) := by
  unfold mixerCharge
  dsimp only
  have hr := refreshMixer_door s
  have h2 := refreshMixer_kept h
  generalize refreshMixer s = u at hr h2 ⊢
  rw [← hr.1] at hp
  have h3 := mixer_kept_same (r := r) (s := u) { u.mixer with
    batch := some m, disch := ⟨.notAsked, .notAsked, .notAsked, .notAsked⟩
    dryT := 0, fillT := 0, wetT := 0, overT := 0, doorT := 0
    rwPosted := false, omPosted := false, cmPosted := false, t6 := .notTaken
    cmPhase := u.mixer.work.bind MixVals.markPhase
    cmOffset := (u.mixer.work.map MixVals.markOffset).getD 0 } rfl rfl h2
  have h4 := enterPhase_kept .charging (fun k => closed_of_phase (by exact hp) k) h3
  have p4 := (enterPhase_same .charging { u with mixer := { u.mixer with
    batch := some m, disch := ⟨.notAsked, .notAsked, .notAsked, .notAsked⟩
    dryT := 0, fillT := 0, wetT := 0, overT := 0, doorT := 0
    rwPosted := false, omPosted := false, cmPosted := false, t6 := .notTaken
    cmPhase := u.mixer.work.bind MixVals.markPhase
    cmOffset := (u.mixer.work.map MixVals.markOffset).getD 0 } }).1
  dsimp only at h4 p4
  generalize enterPhase .charging _ = v at h4 p4 ⊢
  have c4 : v.mixer.phase ≠ .doorOpen := by rw [p4]; decide
  have h5 := askScale_kept .agg (closed_of_phase c4) h4
  have c5 : (askScale .agg v).mixer.phase ≠ .doorOpen := by rw [(askScale_same .agg v).1]; exact c4
  have h6 := askScale_kept .rap (closed_of_phase c5) h5
  have c6 : (askScale .rap (askScale .agg v)).mixer.phase ≠ .doorOpen := by
    rw [(askScale_same .rap _).1]; exact c5
  split
  · exact askScale_kept .fil (closed_of_phase c6) h6
  · exact h6

/-- The timers going on leave phase and door alone. -/
theorem advanceMixer_same (f : Nat → Nat) (m : Mixer) :
    (advanceMixer f m).phase = m.phase ∧ (advanceMixer f m).door = m.door := by
  unfold advanceMixer
  dsimp only
  split <;> exact ⟨rfl, rfl⟩

/-- The timers going on change the phase clock and timers alone. -/
theorem advanceMixer_timersOnly (f : Nat → Nat) (m : Mixer) :
    advanceMixer f m = { m with
      clock := f m.clock, dryT := (advanceMixer f m).dryT, fillT := (advanceMixer f m).fillT,
      wetT := (advanceMixer f m).wetT, overT := (advanceMixer f m).overT,
      doorT := (advanceMixer f m).doorT } := by
  unfold advanceMixer
  dsimp only
  split <;> rfl

theorem reachLimit_kept {r s : State} (a n : Nat) (h : Kept lv r s) : Kept lv r (reachLimit a n s) :=
  mixer_kept_same _ (advanceMixer_same _ _).1 (advanceMixer_same _ _).2 h

theorem reachLimit_phase (a n : Nat) (s : State) : (reachLimit a n s).mixer.phase = s.mixer.phase :=
  (advanceMixer_same _ _).1

theorem fillerDue_kept {r s : State} (h : Kept lv r s) : Kept lv r (fillerDue s) := by
  unfold fillerDue
  split
  · rename_i c
    refine askScale_kept .fil (fun k => ?_) (reachLimit_kept _ _ h)
    exact closed_of_phase (by rw [reachLimit_phase, c.1]; decide) k
  · exact h

theorem enterWet_kept {r s : State} (hp : s.mixer.phase ≠ .doorOpen) (h : Kept lv r s) :
    Kept lv r (enterWet s) := by
  unfold enterWet
  have p := (changePhase_same .wet s).1
  refine askScale_kept .bit (fun k => ?_)
    (mixer_kept_same _ rfl rfl (changePhase_kept .wet (closed_of_phase hp) h))
  exact closed_of_phase (by dsimp only; rw [p]; decide) k

theorem enterDischargeWait_kept {r s : State} (hp : s.mixer.phase ≠ .doorOpen) (h : Kept lv r s) :
    Kept lv r (enterDischargeWait s) := by
  unfold enterDischargeWait
  exact mixer_kept_same _ rfl rfl (changePhase_kept _ (closed_of_phase hp) h)

theorem noneDischarging {s : State} (h : anyDischarging s = false) :
    (s.ch.all fun c => c.state != .discharging) = true := by
  rw [PerScale.all_iff]
  intro sc
  by_contra hc
  simp only [bne_iff_ne, ne_eq, not_not] at hc
  have : anyDischarging s = true := by
    unfold anyDischarging
    rw [PerScale.any_iff]
    exact ⟨sc, by simp [hc]⟩
  rw [h] at this
  cases this

/-- The door is commanded open with no channel in DISCHARGING (R126). -/
theorem enterDoorOpen_kept {r s : State} (hp : s.mixer.phase ≠ .doorOpen)
    (hc : anyDischarging s = false) (h : Kept lv r s) : Kept lv r (enterDoorOpen s) := by
  unfold enterDoorOpen
  have p := changePhase_same .doorOpen s
  refine mixer_kept _ (fun _ => ?_) (changePhase_kept _ (closed_of_phase hp) h)
  unfold doorSafe
  dsimp only
  rw [p.1, p.2.2, noneDischarging hc]
  rfl

theorem leaveDoorOpen_kept {r s : State} (h : Kept lv r s) : Kept lv r (leaveDoorOpen s) := by
  unfold leaveDoorOpen
  dsimp only
  refine changePhase_kept _ (fun _ => rfl) (mixer_kept _ (fun _ => ?_) h)
  exact doorSafe_of_closed rfl

theorem receiverWait_kept {r s : State} (h : Kept lv r s) : Kept lv r (receiverWait s) := by
  unfold receiverWait
  dsimp only
  split
  · exact submit_kept _ (mixer_kept_same _ rfl rfl (flagBatch_kept _ _ h))
  · exact submit_kept _ (mixer_kept_same _ rfl rfl h)

theorem overmixDue_kept {r s : State} (h : Kept lv r s) : Kept lv r (overmixDue s) := by
  unfold overmixDue
  split
  · split
    · exact submit_kept _ (flagBatch_kept _ _ (mixer_kept_same _ rfl rfl (reachLimit_kept _ _ h)))
    · exact h
  · exact h

theorem markDue_kept {r s : State} (h : Kept lv r s) : Kept lv r (markDue s) := by
  unfold markDue
  split
  · split
    · exact postMark_kept _ _ (reachLimit_kept _ _ h)
    · exact h
  · exact h

theorem reportResults_kept {r s : State} (x : MixResults) (h : Kept lv r s) :
    Kept lv r (reportResults x s) := by
  unfold reportResults
  exact mixMap_kept _ (fun _ => rfl) h

theorem closeBatchDoor_kept {r s : State} (hp : s.mixer.phase ≠ .doorOpen) (h : Kept lv r s) :
    Kept lv r (closeBatchDoor s) := by
  unfold closeBatchDoor
  dsimp only
  refine endMixBatch_kept (mixer_kept _ (fun k => ?_) (reportResults_kept _ (leavePhase_kept h)))
  apply doorSafe_of_closed
  refine closed_of_phase (s := reportResults (mixResults s.mixer) (leavePhase s)) ?_ k
  show (leavePhase s).mixer.phase ≠ .doorOpen
  rw [(leavePhase_same s).1]
  exact hp

theorem mixerStep_kept {r s t : State} (e : mixerStep s = some t) (h : Kept lv r s) : Kept lv r t := by
  unfold mixerStep at e
  split at e
  · rename_i hp
    split at e
    · cases e; exact changePhase_kept _ (closed_of_phase (by rw [hp]; decide)) h
    · cases e
  · rename_i hp
    split at e
    · cases e; exact enterWet_kept (by rw [hp]; decide) h
    · cases e
  · rename_i hp
    split at e
    · cases e; exact enterDischargeWait_kept (by rw [hp]; decide) h
    · cases e
  · rename_i hp
    split at e
    · cases e
    · split at e
      · split at e
        · cases e
        · rename_i hd
          cases e
          exact enterDoorOpen_kept (by rw [hp]; decide) (by simpa using hd) h
      · split at e
        · cases e
        · cases e; exact receiverWait_kept h
  · rename_i hp
    split at e
    · cases e; exact closeBatchDoor_kept (by rw [hp]; decide) h
    · cases e
  all_goals cases e

theorem stopMixer_kept {r s : State} (h : Kept lv r s) : Kept lv r (stopMixer s) := by
  unfold stopMixer
  dsimp only
  exact mixer_kept _ (fun _ => doorSafe_of_closed rfl) (reportResults_kept _ h)

/-! ### The charge decision -/

theorem followQueue_mixer (s : State) : (followQueue s).mixer = s.mixer := by
  have k1 : ∀ s : State, (followDryer s).mixer = s.mixer := fun s => by
    unfold followDryer; repeat' split
    all_goals rfl
  have k2 : ∀ (k : Tank) (s : State), (testTankBetween k s).mixer = s.mixer := fun k s => by
    unfold testTankBetween; repeat' split
    all_goals rfl
  have k3 : ∀ (k : Tank) (s : State), (followTank k s).mixer = s.mixer := fun k s => by
    unfold followTank
    dsimp only
    split
    · rfl
    · rw [k2]
  unfold followQueue; rw [k3, k3, k1]

theorem countCharged_mixer (b : Batch) (s : State) : (countCharged b s).mixer = s.mixer := by
  unfold countCharged; rw [followQueue_mixer]; split <;> rfl

theorem chargeStart_kept {r s : State} (b : Batch) (hb : s.co.weigh = some b)
    (hp : s.mixer.phase ≠ .doorOpen) (h : Kept lv r s) : Kept lv r (chargeStart b s) := by
  unfold chargeStart
  dsimp only
  refine mixerCharge_kept _ (by rw [countCharged_mixer]; exact hp) (countCharged_kept _ ?_)
  exact moveToMix_kept (s := { s with heat := { s.heat with permit := none } }) hb rfl (permit_kept none h)

theorem enterThermalWait_kept {r s : State} (b : Batch) (a : PermitAnswer) (hb : s.co.weigh = some b)
    (h : Kept lv r s) : Kept lv r (enterThermalWait b a s) := by
  unfold enterThermalWait
  dsimp only
  have h2 := readAll_kept [Win.thermalLimit] h
  have hb2 : (readAll [Win.thermalLimit] s).2.co.weigh = some b := by rw [readAll_co]; exact hb
  generalize readAll [Win.thermalLimit] s = p at h2 hb2 ⊢
  obtain ⟨ws, u⟩ := p
  dsimp only at h2 hb2 ⊢
  refine submit_kept _ ?_
  exact weighSet_kept (s := { u with heat := { u.heat with
    permit := some ⟨b.tAgg, b.tank, b.winMin, b.winMax, a⟩ } }) hb2 rfl (permit_kept _ h2)

theorem mixerEmpty_phase {s : State} (h : mixerEmpty s = true) : s.mixer.phase ≠ .doorOpen := by
  unfold mixerEmpty at h
  simp only [Bool.and_eq_true, beq_iff_eq] at h
  rw [h.1]; decide

theorem chargeDecision_kept {r s : State} (h : Kept lv r s) : Kept lv r (chargeDecision s) := by
  unfold chargeDecision
  split
  · rename_i b v hb _
    split
    · rename_i c
      have hp : s.mixer.phase ≠ .doorOpen := by
        unfold chargeDue at c
        simp only [Bool.and_eq_true] at c
        exact mixerEmpty_phase c.1.2
      split
      · exact chargeStart_kept b hb hp h
      · split
        · exact chargeStart_kept b hb hp h
        · exact enterThermalWait_kept b _ hb h
    · exact h
  · exact h

theorem evalHeld_kept {r s : State} (h : Kept lv r s) : Kept lv r (evalHeld s) := by
  unfold evalHeld
  split
  · rename_i q v b _ _ hb
    split
    · rename_i c
      simp only [Bool.and_eq_true] at c
      split
      · exact chargeStart_kept b hb (mixerEmpty_phase c.2) h
      · exact permit_kept _ h
    · exact h
  · exact h

theorem thermalTimeout_kept {r s : State} (h : Kept lv r s) : Kept lv r (thermalTimeout s) := by
  unfold thermalTimeout
  split
  · rename_i b q hb _
    split
    · exact submit_kept _ (weighSet_kept hb rfl h)
    · exact h
  · exact h

end Sys2Proof.Machine
end

