-- ==== Sys2Proof/Laws/KeptRun.lean ====
section
/-! SUPPORT. What run control (RunControl.lean) and the operations of Dose.lean keep. -/

namespace Sys2Proof.Machine

variable {lv b hl : Bool}

/-! ### Changes of part state -/

/-- A change of part state, but for the law on the lit burner (R157). -/
theorem setPart_kept {r s : State} (p : PartState) (c : RunCtl)
    (hr : runSafe s.rc = true → runSafe { c with part := p } = true)
    (hh : heaterSafe s = true → heatersRun p = true ∨ (s.heat.bt1.heater = false ∧ s.heat.bt2.heater = false))
    (h : Kept lv r s) : Kept false r (setPart p { s with rc := c }) := by
  unfold setPart
  apply put_kept
  refine h.weaken.trans ⟨id, id, id, id, id, id, id, id, hr, (fun e => nomatch e), id, ?_, le_refl _, rfl,
    (fun e => nomatch e)⟩
  intro k
  have k2 := hh k
  unfold heaterSafe at k ⊢
  simp only [Bool.and_eq_true, Bool.or_eq_true, Bool.not_eq_true'] at k ⊢
  exact ⟨⟨k2, k.1.2⟩, k.2⟩

theorem setPart_rc (p : PartState) (s : State) : (setPart p s).rc = { s.rc with part := p } := by
  unfold setPart; rw [put_rc]

/-- After the burner's drop the part may be in any state. -/
theorem litSafe_drop (s : State) : litSafe (burnerDrop s) = true := by
  unfold litSafe; rw [burnerDrop_unlit]; rfl

/-- The law on the feeds looks at run control and the channels alone. -/
theorem feedSafe_congr {s t : State} (h : t.rc = s.rc) (k : t.ch = s.ch) : feedSafe t = feedSafe s := by
  unfold feedSafe feedsBarred; rw [h, k]

theorem burnerDrop_same (s : State) : (burnerDrop s).rc = s.rc ∧ (burnerDrop s).ch = s.ch := by
  unfold burnerDrop; split <;> exact ⟨rfl, rfl⟩

theorem setPart_ch (p : PartState) (s : State) : (setPart p s).ch = s.ch := by
  unfold setPart; rw [put_ch]

theorem flagPaused_kept {r s : State} (h : Kept lv r s) : Kept lv r (flagPaused s) := by
  unfold flagPaused
  refine co_kept _ (fun k => ?_) (le_refl _) h
  exact stages_map (c := s.co) _ _ (fun _ => rfl) (fun _ => rfl) k

theorem setPaused_kept {r s : State} (p : PauseSource) (hp : s.rc.part = .run) (h : Kept lv r s) :
    Kept lv r (setPaused p s) := by
  unfold setPaused
  have h2 : Kept lv r { s with
      ch := s.ch.map pauseChannel
      rc := { s.rc with paused := true, pausedAt := s.seconds } } := by
    have h1 := mapChan_kept pauseChannel pauseChannel_ck (Kept.refl (lv := lv) s)
    refine h.withLit (rcOpen_kept (s := { s with ch := s.ch.map pauseChannel }) _ rfl ?_ h1) id
      (fun k _ => feedSafe_quiet fun sc => ?_)
    · unfold runSafe; simp [hp]
    · dsimp only
      rw [PerScale.get_map]
      unfold channelsSafe at k
      rw [PerScale.all_iff] at k
      exact pauseChannel_quiet (k sc)
  exact flagPaused_kept (submit_kept _ h2)

theorem clearPaused_kept {r s : State} (p : PauseSource) (h : Kept lv r s) :
    Kept lv r (clearPaused p s) := by
  unfold clearPaused
  have h2 : Kept lv r { s with rc := { s.rc with paused := false } } := by
    refine rc_kept _ rfl ?_ (fun _ => feedSafe_rc _ rfl (fun k => .inr (by simpa using k))) h
    unfold runSafe
    intro k
    simp only [Bool.and_eq_true] at k ⊢
    exact ⟨⟨by simp, k.1.2⟩, k.2⟩
  exact evalHeld_kept (mapChan_kept _ resume_ck (submit_kept _ h2))

theorem pauseToggle_kept {r s : State} (h : Kept lv r s) : Kept lv r (pauseToggle s) := by
  unfold pauseToggle
  split
  · rename_i hp
    split
    · exact clearPaused_kept _ h
    · exact setPaused_kept _ hp h
  · exact h

theorem stopBinder_kept {r s : State} (h : Kept lv r s) : Kept lv r (stopBinder s) := by
  unfold stopBinder
  split
  · exact cutChangeover_kept h
  · exact bit_kept _ h

theorem abortMix_kept {r s : State} (h : Kept lv r s) : Kept lv r (abortMix s) := by
  unfold abortMix
  exact mixMap_kept _ (fun _ => rfl) h

/-- Clear required set or kept, nothing else of run control. -/
theorem require_kept {r s : State} (v : Bool) (h : Kept lv r s) :
    Kept lv r { s with rc := { s.rc with clearRequired := v } } := rc_kept_same _ rfl rfl rfl id h

theorem stopMixer_same (s : State) : (stopMixer s).rc = s.rc ∧ (stopMixer s).ch = s.ch := by
  unfold stopMixer reportResults; exact ⟨rfl, rfl⟩

theorem stopBlocks_kept {r s : State} (h : Kept lv r s) : Kept lv r (stopBlocks s) := by
  unfold stopBlocks
  dsimp only
  have h1 := stopBinder_kept (submit_kept (plantStopNotice s) h)
  generalize stopBinder (submit (plantStopNotice s) s) = u at h1 ⊢
  have h2 := mapChan_kept stoppedChannel stoppedChannel_ck h1
  have h3 := setPart_kept .stopped
    { u.rc with paused := false, finishing := false, clearStep := .none }
    (fun _ => by simp [runSafe]) (fun _ => .inl rfl) h2
  have ec : (setPart .stopped { u with
      ch := u.ch.map stoppedChannel
      rc := { u.rc with paused := false, finishing := false, clearStep := .none } }).ch =
        u.ch.map stoppedChannel := setPart_ch _ _
  generalize setPart .stopped _ = v at h3 ec ⊢
  have h4 := burnerDrop_kept (stopMixer_kept (require_kept (v.rc.clearRequired || v.ch.any reportsMaterial) h3))
  refine abortMix_kept (h4.upgrade (litSafe_drop _) (feedSafe_quiet fun sc => ?_))
  rw [(burnerDrop_same _).2, (stopMixer_same _).2]
  show chanQuiet _ (v.ch.get sc) = true
  rw [ec, PerScale.get_map]
  exact stoppedChannel_quiet _

theorem stopWrites_kept {r s : State} (h : Kept lv r s) : Kept lv r (stopWrites s) :=
  closeAllAborted_kept (endWeighAborted_kept (endMixBatch_kept h))

theorem cutSequence_kept {r s : State} (k n : Nat) (l : List Word) (w : Word) (x : List (Nat × Word))
    (h : Kept lv r s) : Kept lv r (cutSequence k n l w x s) := by
  unfold cutSequence
  split
  · exact h
  · split
    · exact putAll_kept _ (gap_kept h)
    · exact gap_kept h

theorem withinCut_kept {r : State} (n : Nat) (w : Word) (x : List (Nat × Word)) (f : State → State)
    {p : Option Nat × State} (hf : Kept lv r p.2 → Kept lv r (f p.2)) (h : Kept lv r p.2) :
    Kept lv r (withinCut n w x f p).2 := by
  unfold withinCut
  split
  · exact h
  · dsimp only
    split
    · exact hf h
    · exact cutSequence_kept _ _ _ _ _ h

theorem ticketWithin_kept {r : State} (t : Bool × Ticket) {p : Option Nat × State} (h : Kept lv r p.2) :
    Kept lv r (ticketWithin p t).2 := by
  unfold ticketWithin
  dsimp only
  split
  · exact h
  · exact seizeUnqueued_kept _ h
  · exact withinCut_kept _ _ _ _ (writeTicket_kept _ _) h

theorem closeWithin_kept {r : State} (o : Order) {p : Option Nat × State} (h : Kept lv r p.2) :
    Kept lv r (closeWithin p o).2 := withinCut_kept _ _ _ _ (closeOrder_kept _ _) h

/-- A fold of kept steps over a budget and a state. -/
theorem foldBudget_kept {α : Type} {r : State} (f : Option Nat × State → α → Option Nat × State)
    (hf : ∀ p a, Kept lv r p.2 → Kept lv r (f p a).2) (l : List α) :
    ∀ {p : Option Nat × State}, Kept lv r p.2 → Kept lv r (l.foldl f p).2 := by
  induction l with
  | nil => intro p h; exact h
  | cons a l ih => intro p h; exact ih (hf p a h)

theorem stopWritesCut_kept {r s : State} (h : Kept lv r s) : Kept lv r (stopWritesCut s) := by
  unfold stopWritesCut
  dsimp only
  refine foldBudget_kept _ (fun _ o k => closeWithin_kept o k) _
    (foldBudget_kept _ (fun _ t k => ticketWithin_kept t k) _ ?_)
  have h2 := other_kept s.port s.bit s.inp s.seconds s.clk (s.freeSeed + 1) h
  have h3 := permit_kept none h2
  have h4 := mixNone_kept h3
  exact weighNone_kept h4

theorem enterStopped_kept {r s : State} (h : Kept lv r s) : Kept lv r (enterStopped s) := by
  unfold enterStopped
  dsimp only
  split
  · exact stopWritesCut_kept (stopBlocks_kept h)
  · exact stopWrites_kept (stopBlocks_kept h)

theorem plantStop_kept {r s : State} (h : Kept lv r s) : Kept lv r (plantStop s) := by
  unfold plantStop
  split
  · exact enterStopped_kept h
  all_goals first | exact submit_kept _ h | exact h

theorem haltMixer_kept {r s : State} (h : Kept lv r s) : Kept lv r { s with mixer := haltMixer s.mixer } :=
  mixer_kept _ (fun _ => doorSafe_of_closed rfl) h

theorem enterHalted_kept {r s : State} (c : HaltCause) (h : Kept lv r s) :
    Kept lv r (enterHalted c s) := by
  unfold enterHalted
  dsimp only
  have h2 := setPart_kept .halted { s.rc with paused := false, finishing := false }
    (fun _ => by simp [runSafe]) (fun _ => .inl rfl) (mapChan_kept quietChannel quietChannel_ck h)
  have ec : (setPart .halted { s with
      ch := s.ch.map quietChannel
      rc := { s.rc with paused := false, finishing := false } }).ch = s.ch.map quietChannel := setPart_ch _ _
  have ep : (setPart .halted { s with
      ch := s.ch.map quietChannel
      rc := { s.rc with paused := false, finishing := false } }).rc.part = .halted := by rw [setPart_rc]
  generalize setPart .halted _ = v at h2 ec ep ⊢
  have h3 := submit_kept (stageNotice v (.halt c v.rc.clearStep (weighSeq v))) h2
  have ec3 : (submit (stageNotice v (.halt c v.rc.clearStep (weighSeq v))) v).ch = v.ch := submit_ch _ _
  have ep3 : (submit (stageNotice v (.halt c v.rc.clearStep (weighSeq v))) v).rc = v.rc := submit_rc _ _
  generalize submit _ v = u at h3 ec3 ep3 ⊢
  have h5 := bit_kept { u.bit with tankSelect := false, circulate := false, tankLast := none } h3
  have h6 := haltMixer_kept h5
  refine (burnerDrop_kept h6).upgrade (litSafe_drop _) (feedSafe_quiet fun sc => ?_)
  rw [(burnerDrop_same _).2, (burnerDrop_same _).1]
  show chanQuiet (u.rc.part == .halted) (u.ch.get sc) = true
  rw [ec3, ec, ep3, ep, PerScale.get_map]
  simp [chanQuiet, quietChannel]

theorem doorFault_kept {r s : State} (h : Kept lv r s) : Kept lv r (doorFault s) := by
  unfold doorFault
  exact enterHalted_kept _ (submit_kept _ (mixer_kept _ (fun _ => doorSafe_of_closed rfl) h))

theorem doorTimeout_kept {r s : State} (h : Kept lv r s) : Kept lv r (doorTimeout s) := by
  unfold doorTimeout
  split
  · exact doorFault_kept (reachLimit_kept _ _ h)
  · exact h

/-! ### The clear cycle -/

/-- A clear step and clear record set in RUN or HALTED, over channels that feed nothing. -/
theorem clearStep_kept {r s : State} (x : ClearStep) (c : ClearRec)
    (hp : runSafe s.rc = true → s.rc.part = .run ∨ s.rc.part = .halted)
    (kf : channelsSafe s = true → feedSafe s = true →
      feedSafe { s with rc := { s.rc with clearStep := x, clearRec := c } } = true) (h : Kept lv r s) :
    Kept lv r { s with rc := { s.rc with clearStep := x, clearRec := c } } := by
  refine rc_kept _ rfl (fun k => ?_) kf h
  have k2 := hp k
  unfold runSafe at k ⊢
  simp only [Bool.and_eq_true, Bool.or_eq_true, beq_iff_eq] at k ⊢
  exact ⟨k.1, by rcases k2 with k2 | k2 <;> simp [k2]⟩

/-- A clear cycle that runs goes on to another step. -/
theorem clearOn_kept {r s : State} (x : ClearStep) (c : ClearRec) (hc : s.rc.clearStep ≠ .none)
    (hp : runSafe s.rc = true → s.rc.part = .run ∨ s.rc.part = .halted) (h : Kept lv r s) :
    Kept lv r { s with rc := { s.rc with clearStep := x, clearRec := c } } :=
  clearStep_kept x c hp (fun _ => feedSafe_rc _ rfl (fun _ => .inr hc)) h

theorem clearRec_kept {r s : State} (c : ClearRec) (h : Kept lv r s) :
    Kept lv r { s with rc := { s.rc with clearRec := c } } := rc_kept_same _ rfl rfl rfl id h

/-- A clear cycle that begins in RUN holds every feed (R78). -/
theorem beginClear_kept {r s : State} (hp : s.rc.part = .run) (h : Kept lv r s) :
    Kept lv r (beginClear { s with ch := s.ch.map holdFeed }) := by
  refine clearStep_kept (s := { s with ch := s.ch.map holdFeed }) _ _ (fun _ => .inl hp)
    (fun _ _ => feedSafe_quiet fun sc => ?_) (mapChan_kept holdFeed holdFeed_ck h)
  dsimp only
  rw [PerScale.get_map]
  exact holdFeed_quiet _

/-- A clear step other than NONE stands in RUN or HALTED. -/
theorem clear_part {s : State} (hc : s.rc.clearStep ≠ .none) (k : runSafe s.rc = true) :
    s.rc.part = .run ∨ s.rc.part = .halted := by
  unfold runSafe at k
  simp only [Bool.and_eq_true, Bool.or_eq_true, beq_iff_eq] at k
  rcases k.2 with (k | k) | k
  · exact absurd k hc
  · exact .inl k
  · exact .inr k

theorem clearTake_kept {r s : State} (hc : s.rc.clearStep ≠ .none) (h : Kept lv r s) :
    Kept lv r (clearTake s) := by
  unfold clearTake
  exact mixer_kept_same (s := { s with rc := { s.rc with clearStep := .waitReceiver } }) _ rfl rfl
    (clearOn_kept _ _ hc (clear_part hc) h)

theorem clearReceiverWait_kept {r s : State} (h : Kept lv r s) : Kept lv r (clearReceiverWait s) := by
  unfold clearReceiverWait
  exact submit_kept _ (clearRec_kept _ h)

/-- A discharge request leaves phase and door alone. -/
theorem requestDischarge_same (sc : Scale) (s : State) :
    (requestDischarge sc s).mixer.phase = s.mixer.phase ∧
      (requestDischarge sc s).mixer.door = s.mixer.door := by
  unfold requestDischarge
  dsimp only
  split
  · split
    · exact ⟨rfl, rfl⟩
    · unfold endDischarge reportDischarge
      split
      · exact ⟨rfl, rfl⟩
      · split <;> exact ⟨rfl, rfl⟩
  · exact ⟨rfl, rfl⟩

theorem requestAll_kept {r : State} (l : List Scale) : ∀ {s : State}, s.mixer.phase ≠ .doorOpen →
    Kept lv r s → Kept lv r (l.foldl (fun s sc => requestDischarge sc s) s) := by
  induction l with
  | nil => intro s _ h; exact h
  | cons sc l ih =>
    intro s hp h
    refine ih ?_ (requestDischarge_kept sc (closed_of_phase hp) h)
    rw [(requestDischarge_same sc s).1]; exact hp

theorem mixerHeld_phase {s : State} (h : mixerHeld s = true) : s.mixer.phase ≠ .doorOpen := by
  unfold mixerHeld at h
  simp only [Bool.and_eq_true, beq_iff_eq] at h
  rw [h.2]; decide

theorem clearDischarge_kept {r s : State} (hc : s.rc.clearStep ≠ .none) (hm : mixerHeld s = true)
    (h : Kept lv r s) : Kept lv r (clearDischarge s) := by
  unfold clearDischarge
  exact requestAll_kept Scale.all (s := { s with rc := { s.rc with
    clearStep := .discharge
    clearRec := { s.rc.clearRec with start := s.ch.map Channel.net, ends := ⟨none, none, none, none⟩ } } })
    (mixerHeld_phase hm) (clearOn_kept _ _ hc (clear_part hc) h)

theorem clearMix_kept {r s : State} (hc : s.rc.clearStep ≠ .none) (hm : mixerHeld s = true)
    (h : Kept lv r s) : Kept lv r (clearMix s) := by
  unfold clearMix
  dsimp only
  have h2 := readAll_kept [Win.clearMixTime] h
  have e1 : (readAll [Win.clearMixTime] s).2.rc = s.rc := readAll_rc _ _
  have e2 : (readAll [Win.clearMixTime] s).2.mixer = s.mixer := readAll_mixer _ _
  generalize readAll [Win.clearMixTime] s = p at h2 e1 e2 ⊢
  obtain ⟨ws, u⟩ := p
  dsimp only at h2 e1 e2 ⊢
  have h3 := clearOn_kept .mix u.rc.clearRec (by rw [e1]; exact hc) (clear_part (by rw [e1]; exact hc)) h2
  refine mixer_kept (s := { u with rc := { u.rc with clearStep := .mix } }) _ (fun k => ?_) h3
  have hd : u.mixer.door = false :=
    closed_of_phase (s := { u with rc := { u.rc with clearStep := .mix } })
      (by dsimp only; rw [e2]; exact mixerHeld_phase hm) k
  exact doorSafe_of_closed hd

theorem clearComplete_kept {r s : State} (hp : s.mixer.phase ≠ .doorOpen) (h : Kept lv r s) :
    Kept lv r (clearComplete s) := by
  unfold clearComplete
  dsimp only
  apply submit_kept
  have h2 : Kept lv r { s with rc := { s.rc with clearRequired := false, clearStep := .none } } := by
    refine rc_kept _ rfl ?_ (fun _ => feedSafe_rc _ rfl (fun k => .inl (by simpa using k))) h
    unfold runSafe
    intro k
    simp only [Bool.and_eq_true] at k ⊢
    exact ⟨k.1, by simp⟩
  refine mixer_kept (s := { s with rc := { s.rc with clearRequired := false, clearStep := .none } }) _
    (fun k => ?_) h2
  have hd : s.mixer.door = false := closed_of_phase
    (s := { s with rc := { s.rc with clearRequired := false, clearStep := .none } }) hp k
  exact doorSafe_of_closed hd

theorem clearMixDue_kept {r s : State} (h : Kept lv r s) : Kept lv r (clearMixDue s) := by
  unfold clearMixDue
  split
  · rename_i c
    have h2 := reachLimit_kept s.mixer.clock (10 * ((s.mixer.work.map MixVals.clearMixTime).getD 0)) h
    dsimp only at h2 ⊢
    split
    · exact h2
    · rename_i hd
      exact enterDoorOpen_kept (by rw [reachLimit_phase, c.1]; decide) (by simpa using hd) h2
  · exact h

theorem clearNext_kept {r s t : State} (hp : s.rc.part = .run) (e : clearNext s = some t)
    (h : Kept lv r s) : Kept lv r t := by
  unfold clearNext at e
  split at e
  · split at e
    · cases e; exact beginClear_kept hp h
    · cases e
  · rename_i hc
    split at e
    · cases e; exact clearTake_kept (by rw [hc]; decide) h
    · cases e
  · rename_i hc
    cases e; exact clearOn_kept _ _ (by rw [hc]; decide) (fun _ => .inl hp) h
  · rename_i hc
    split at e
    · cases e
    · split at e
      · split at e
        · rename_i hm; cases e; exact clearDischarge_kept (by rw [hc]; decide) hm h
        · cases e
      · split at e
        · cases e
        · cases e; exact clearReceiverWait_kept h
  · rename_i hc
    split at e
    · rename_i hm
      simp only [Bool.and_eq_true] at hm
      cases e; exact clearMix_kept (by rw [hc]; decide) hm.1.2 h
    · cases e
  · split at e
    · rename_i hd
      cases e; exact clearComplete_kept (by rw [hd.1]; decide) h
    · cases e

/-! ### FINISHING, entry into RUN, what follows at once -/

theorem enterStandby_kept {r s : State} (h : Kept lv r s) : Kept lv r (enterStandby s) := by
  unfold enterStandby
  have h2 := setPart_kept .standby { s.rc with finishing := false, paused := false, clearStep := .none }
    (fun _ => by simp [runSafe]) (fun _ => .inl rfl) (mapChan_kept holdFeed holdFeed_ck h)
  refine (burnerDrop_kept h2).upgrade (litSafe_drop _) (feedSafe_quiet fun sc => ?_)
  rw [(burnerDrop_same _).2, setPart_ch]
  dsimp only
  rw [PerScale.get_map]
  exact holdFeed_quiet _

/-- Entry into RUN from STANDBY or STOPPED, where every feed is off. -/
theorem enterRun_kept {r s : State} (hs : s.rc.part = .standby ∨ s.rc.part = .stopped)
    (h : Kept lv r s) : Kept lv r (enterRun s) := by
  have hq : feedSafe s = true → ∀ sc, chanQuiet false (s.ch.get sc) = true := fun k sc => by
    have hb : feedsBarred s = true := by
      unfold feedsBarred; rcases hs with hs | hs <;> rw [hs] <;> rfl
    have := quiet_of_barred k hb sc
    rcases hs with hs | hs <;> rw [hs] at this <;> exact this
  unfold enterRun
  dsimp only
  have h2 := setPart_kept .run s.rc (fun k => by
    unfold runSafe at k ⊢
    simp) (fun _ => .inl rfl) (Kept.refl (lv := false) s)
  have e : (setPart .run s).rc.part = .run := by rw [setPart_rc]
  have ec : (setPart .run s).ch = s.ch := setPart_ch _ _
  have h2 : Kept false s (setPart .run s) := h2
  have kl : litSafe s = true → litSafe (setPart .run s) = true := fun _ => by unfold litSafe; rw [e]; simp
  have hn : ∀ u : State, u.rc.part = .run → u.ch = s.ch → feedSafe s = true → feedSafe u = true :=
    fun u hu hc k => feedSafe_quiet fun sc => by
      rw [hu, hc]; exact hq k sc
  apply burnerTest_kept
  apply lookPoint_kept
  split
  · refine h.withLit (rcOpen_kept _ rfl (fun k => ?_) h2) kl (fun _ k => hn _ e ec k)
    unfold runSafe
    simp [e]
  · exact h.withLit h2 kl (fun _ k => hn _ e ec k)

theorem nextAtOnce_kept {r s t : State} (e : nextAtOnce s = some t) (h : Kept lv r s) : Kept lv r t := by
  unfold nextAtOnce at e
  split at e
  · rename_i hp
    split at e
    · cases e; exact dryTest_kept h
    · split at e
      · rename_i u hu
        cases e; exact mixerStep_kept hu h
      · split at e
        · cases e; exact enterStandby_kept h
        · exact clearNext_kept hp e h
  · cases e

theorem runAtOnce_kept {r : State} (n : Nat) : ∀ {s : State}, Kept lv r s → Kept lv r (runAtOnce n s) := by
  induction n with
  | zero => intro s h; exact h
  | succ n ih =>
    intro s h
    unfold runAtOnce
    split
    · rename_i t e; exact ih (nextAtOnce_kept e h)
    · exact h

theorem settle_kept {r s : State} (h : Kept lv r s) : Kept lv r (settle s) := by
  unfold settle
  exact followQueue_kept (runAtOnce_kept _ (drainLooks_kept _ (runAtOnce_kept _ h)))

/-! ### SCALE FAULT -/

theorem requireClear_kept {r s : State} (h : Kept lv r s) : Kept lv r (requireClear s) := require_kept _ h

theorem afterFault_kept {r s : State} (sc : Scale) (l : ChanState) (es : List EntryResult)
    (h : Kept lv r s) : Kept lv r (afterFault sc l es s) := by
  have hb : Kept lv r (if attachedToWeigh s sc then
      abortWeigh (enterVerdict sc ((s.modChan sc fun c => { c with results := es }).chan sc).net
        (s.modChan sc fun c => { c with results := es }))
      else requireClear s) := by
    split
    · exact abortWeigh_kept (enterVerdict_kept _ _ (modChan_kept sc _ (.same rfl rfl rfl rfl) h))
    · exact requireClear_kept h
  unfold afterFault
  split
  · exact requireClear_kept (reportDischarge_kept _ _ h)
  · split
    · exact requireClear_kept h
    · exact h
  · split
    · exact abortWeigh_kept h
    · split
      · exact requireClear_kept (mixer_kept_same _ rfl rfl h)
      · exact h
  · exact hb
  · exact hb
  · exact hb
  · exact hb
  · exact h

theorem scaleFault_kept {r s : State} (sc : Scale) (c : ScaleCause) (h : Kept lv r s) :
    Kept lv r (scaleFault sc c s) := by
  unfold scaleFault
  dsimp only
  split
  · exact h
  · refine modChan_kept sc _ (.same rfl rfl rfl rfl) ?_
    have h1 := submit_kept (attachedNotice (s.chan sc).batch
      (.scaleFault sc c (s.chan sc).state (s.chan sc).gross)) h
    have h2 : Kept lv r (if (s.chan sc).state = .changeover then
        cutChangeover (submit (attachedNotice (s.chan sc).batch
          (.scaleFault sc c (s.chan sc).state (s.chan sc).gross)) s)
        else submit (attachedNotice (s.chan sc).batch
          (.scaleFault sc c (s.chan sc).state (s.chan sc).gross)) s) := by
      split
      · exact cutChangeover_kept h1
      · exact h1
    revert h2
    generalize (if (s.chan sc).state = .changeover then _ else _ : State) = u
    intro h2
    have h3 := modChan_kept sc (fun c : Channel => { c with
      state := .fault, feed := none, gate := false, gapHold := false, pauseHold := false
      stopOrder := false }) (.off rfl rfl rfl rfl (by simp)) h2
    split
    · exact h3
    · split
      · exact enterHalted_kept _ h3
      · exact afterFault_kept _ _ _ h3

/-! ### Samples, settles, timers -/

theorem afterComponent_kept {r s : State} (sc : Scale) (a : Int) (o : DoseOutcome) (h : Kept lv r s) :
    Kept lv r (afterComponent sc a o s) := by
  unfold afterComponent
  split
  · exact bitReport_kept _ _ h
  · exact startComponents_kept _ _ _ (modChan_kept sc _ (.same rfl rfl rfl rfl) h)

theorem stallDone_kept {r s : State} (sc : Scale) (m a : Int) (h : Kept lv r s) :
    Kept lv r (stallDone sc m a s) := by
  unfold stallDone
  dsimp only
  have h2 := submit_kept (attachedNotice (s.chan sc).batch (.feedStall sc (s.chan sc).dose.entry.source
    (s.chan sc).dose.entry.target a)) (offerTrace_kept sc (s.chan sc).dose.entry.target m a .stall h)
  split
  · exact bitEnterPrefed_kept _ (bit_kept _ h2)
  · exact afterComponent_kept _ _ _ (addResult_kept _ _ h2)

theorem askJog_ck (c : Channel) : ChanKept b hl c (askJog b c) := by
  unfold askJog
  dsimp only
  refine ChanKept.trans (d := { c with dose := { c.dose with jogsUsed := c.dose.jogsUsed + 1 } })
    (.same rfl rfl rfl rfl) ?_
  cases b
  · exact enterJogging_ck _
  · exact enterPauseHeld_ck _ _

theorem settleDone_kept {r s : State} (sc : Scale) (h : Kept lv r s) : Kept lv r (settleDone sc s) := by
  unfold settleDone
  dsimp only
  split
  · exact stallDone_kept _ _ _ h
  · have h2 := modChan_kept sc (fun c => { c with
      dose := observeInflight (dosed (s.chan sc)) c.dose }) (.same rfl rfl rfl rfl) h
    split
    · exact bitEnterPrefed_kept _ h2
    · split
      · exact modChan_kept sc _ (askJog_ck _) h2
      · exact afterComponent_kept _ _ _ (finalVerify_kept _ _ _ h2)

theorem stallWindow_ck (c : Channel) : ChanKept b hl c (stallWindow c) := by
  unfold stallWindow
  dsimp only
  split
  · exact .same rfl rfl rfl rfl
  · split
    · exact .same rfl rfl rfl rfl
    · generalize (if c.dose.minFlow ≠ 0 ∧ dosed c - c.winStart < c.dose.minFlow then c.stall + 1
        else 0) = n
      split
      · exact .same rfl rfl rfl rfl
      · exact .off rfl rfl rfl rfl (by simp [enterSettling])

theorem pushRing_ck (c : Channel) : ChanKept b hl c (pushRing c) := by
  unfold pushRing
  generalize (c.ring ++ [dosed c]).drop _ = l
  exact .same rfl rfl rfl rfl

/-- A held dose goes on at a sample only while the feeds are not barred (R88, R89). -/
theorem release_ck (c : Channel) : ChanKept b hl c
    (if b = true then { c with gapHold := false } else releaseIfFree { c with gapHold := false }) := by
  refine ChanKept.trans (d := { c with gapHold := false }) (.same rfl rfl rfl rfl) ?_
  cases b
  · exact releaseIfFree_ck _
  · exact .refl _

/-- The fast feed switched to the fine feed; barred, no dose outside HALTED is in FAST (R80). -/
theorem toFine_ck {c : Channel} (hs : c.state = .dosing .fast) : ChanKept b false c (enterFine c) := by
  have k := enterFine_ck (hl := false) c
  refine ⟨k.safe, k.late, k.disch, fun _ _ h => ?_⟩
  simp [chanQuiet, hs, mayFeed] at h

theorem sampleDosing_kept {r s : State} (sc : Scale) (p : SubPhase) (v : Int) (hp : s.rc.part ≠ .halted)
    (hs : (s.chan sc).state = .dosing p) (h : Kept lv r s) : Kept lv r (sampleDosing sc p v s) := by
  unfold sampleDosing
  have h2 := modChan_kept sc pushRing (pushRing_ck _) h
  have hp2 : ((s.modChan sc pushRing).rc.part == .halted) = false := by
    simpa [State.modChan, State.setChan] using hp
  have hs2 : ((s.modChan sc pushRing).chan sc).state = .dosing p := by
    rw [show (s.modChan sc pushRing).chan sc = pushRing (s.chan sc) by
      unfold State.modChan State.setChan State.chan; rw [PerScale.get_set_same]]
    unfold pushRing
    exact hs
  generalize s.modChan sc pushRing = u at h2 hp2 hs2 ⊢
  dsimp only
  split
  · exact modChan_kept sc _ (release_ck _) h2
  · refine modChan_kept sc _ ?_ h2
    rw [hp2]
    split
    · exact cutOff_ck _
    · split
      · exact (toFine_ck hs2).trans (stallWindow_ck _)
      · exact stallWindow_ck _
  · refine modChan_kept sc _ ?_ h2
    split
    · exact cutOff_ck _
    · exact stallWindow_ck _
  · exact h2
  · generalize (if isStill (u.chan sc) v then (u.chan sc).dose.settleCount + 1 else 0) = n
    split
    · exact modChan_kept sc _ (.same rfl rfl rfl rfl) h2
    · exact settleDone_kept _ (modChan_kept sc _ (.same rfl rfl rfl rfl) h2)

theorem endTare_kept {r s : State} (sc : Scale) (h : Kept lv r s) : Kept lv r (endTare sc s) := by
  unfold endTare
  have h2 := modChan_kept sc (fun c : Channel =>
    { c with tare := roundDiv c.tareSum Config.tareSamples
             net := c.gross - roundDiv c.tareSum Config.tareSamples, base := 0 })
    (.same rfl rfl rfl rfl) h
  dsimp only at h2 ⊢
  revert h2
  generalize State.modChan s sc _ = u
  intro h2
  split
  · exact scaleFault_kept _ _ h2
  · split
    · split
      · exact modChan_kept sc _ (settleMaterial_ck _) h2
      · apply reachWeighed_kept
        refine modChan_kept sc _ (.same rfl rfl rfl rfl) ?_
        split
        · exact bit_kept _ h2
        · exact h2
    · split
      · split
        · exact bitUndosed_kept _ h2
        · exact bitAfterTare_kept _ h2
      · exact startComponents_kept _ _ _ h2

theorem sampleTaring_kept {r s : State} (sc : Scale) (h : Kept lv r s) :
    Kept lv r (sampleTaring sc s) := by
  unfold sampleTaring
  dsimp only
  have h2 := modChan_kept sc (fun c : Channel =>
    { c with tareSum := c.tareSum + c.gross, tareCount := c.tareCount + 1 }) (.same rfl rfl rfl rfl) h
  split
  · exact h2
  · exact endTare_kept _ h2

theorem takeSample_kept {r s : State} (sc : Scale) (g : Int) (h : Kept lv r s) :
    Kept lv r (takeSample sc g s) := by
  unfold takeSample
  dsimp only
  have h2 := modChan_kept sc (fun c : Channel =>
    { c with gross := g, net := g - c.tare, frameGood := true }) (.same rfl rfl rfl rfl) h
  split
  · exact h2
  · rename_i hp
    split
    · exact sampleTaring_kept _ h2
    · rename_i p hs
      exact sampleDosing_kept _ _ _ hp hs h2
    · split
      · exact h2
      · exact endDischarge_kept _ _ h2
    all_goals exact h2

theorem weighFrame_kept {r s : State} (sc : Scale) (n : Int) (f : FrameStatus) (h : Kept lv r s) :
    Kept lv r (weighFrame sc n f s) := by
  unfold weighFrame
  dsimp only
  split
  · exact h
  · have h2 := modChan_kept sc (fun c : Channel => { c with late := 0, age := 0 })
      ⟨id, fun _ => Nat.zero_le _, id, fun _ _ => id⟩ h
    split
    · exact takeSample_kept _ _ h2
    · exact scaleFault_kept _ _ (modChan_kept sc _ (.same rfl rfl rfl rfl) h2)

theorem gapHoldDose_ck (c : Channel) : ChanKept b hl c (gapHoldDose c) := by
  unfold gapHoldDose
  dsimp only
  split
  · exact (enterHeld_ck .fast c).trans (.same rfl rfl rfl rfl)
  · exact (enterHeld_ck .fine c).trans (.same rfl rfl rfl rfl)
  · exact (enterHeld_ck .jogCut c).trans (.same rfl rfl rfl rfl)
  · exact .same rfl rfl rfl rfl
  · exact .same rfl rfl rfl rfl
  · exact .refl c

theorem latePeriod_kept {r s : State} (sc : Scale) (h : Kept lv r s) : Kept lv r (latePeriod sc s) := by
  unfold latePeriod
  dsimp only
  split
  · exact h
  · have h2 := modChan_kept sc (fun c : Channel =>
      { c with late := min Config.lateLimit (c.late + 1), age := 0 })
      ⟨id, fun _ => Nat.min_le_left _ _, id, fun _ _ => id⟩ h
    split
    · exact scaleFault_kept _ _ h2
    · split
      · exact h2
      · have h3 := modChan_kept sc gapHoldDose (gapHoldDose_ck _) h2
        split
        · exact flagAttached_kept _ _ h3
        · exact h3

theorem settleTimeout_kept {r s : State} (sc : Scale) (h : Kept lv r s) :
    Kept lv r (settleTimeout sc s) := by
  unfold settleTimeout
  split
  · exact settleDone_kept _ (flagAttached_kept _ _ (modChan_kept sc _ (.same rfl rfl rfl rfl) h))
  · exact h

theorem jogPulseEnd_kept {r s : State} (sc : Scale) (h : Kept lv r s) : Kept lv r (jogPulseEnd sc s) := by
  unfold jogPulseEnd
  split
  · exact modChan_kept sc _ (.off rfl rfl rfl rfl (by simp [enterSettling])) h
  · exact h

theorem dischargeTimeout_kept {r s : State} (sc : Scale) (h : Kept lv r s) :
    Kept lv r (dischargeTimeout sc s) := by
  unfold dischargeTimeout
  split
  · dsimp only
    exact endDischarge_kept _ _ (submit_kept _ (modChan_kept sc _ (.same rfl rfl rfl rfl) h))
  · exact h

theorem purgeExpired_kept {r s : State} (h : Kept lv r s) : Kept lv r (purgeExpired s) := by
  unfold purgeExpired
  split
  · exact bitEndChangeover_kept (bit_kept _ h)
  · exact h

theorem setBinLow_kept {r s : State} (src : Source) (a : Bool) (h : Kept lv r s) :
    Kept lv r (setBinLow src a s) := by
  unfold setBinLow
  dsimp only
  split
  · exact inp_kept _ h
  · exact h

theorem binLowInput_kept {r s : State} (src : Source) (a : Bool) (h : Kept lv r s) :
    Kept lv r (binLowInput src a s) := by
  unfold binLowInput
  dsimp only
  split
  · split
    · exact binLowNotice_kept _ (setBinLow_kept _ _ h)
    · exact postBinLow_kept _ (setBinLow_kept _ _ h)
  · exact setBinLow_kept _ _ h

theorem rearmChannel_ck (c : Channel) : ChanKept b hl c (rearmChannel c) := by
  unfold rearmChannel
  split
  · rename_i hc
    refine ⟨fun k => ?_, id, fun k => (by cases k), fun _ _ k => ?_⟩
    unfold chanSafe at k ⊢
    rw [hc.1] at k
    simp only [mayFeed, Bool.or_false, Bool.and_eq_true, Bool.or_eq_true, Bool.not_eq_true',
      beq_iff_eq] at k ⊢
    exact ⟨k.1, by rcases k.2 with k2 | k2
                   · exact .inl k2
                   · cases k2⟩
    unfold chanQuiet at k ⊢
    simp only [Bool.and_eq_true] at k ⊢
    exact ⟨k.1, by simp [mayFeed]⟩
  · exact .refl c

end Sys2Proof.Machine
end

