-- ==== Sys2Proof/Laws/KeptHost.lean ====
section
/-! SUPPORT. What the host port, the resets, the clock and the meanings of the commands keep. -/

namespace Sys2Proof.Machine

variable {lv b hl : Bool}

/-! ### Window accesses and commands -/

theorem windowAccess_kept {r s : State} (w : Bool) (a d : Word) (n : Nat) (h : Kept lv r s) :
    Kept lv r (windowAccess w a d n s) := by
  unfold windowAccess
  dsimp only
  split
  · exact serveAccess_kept _ h
  · exact port_kept _ h

theorem maskTake_kept {r s : State} (w : Word) (h : Kept lv r s) : Kept lv r (maskTake w s) :=
  h.ofLog rfl id id
theorem vectorTake_kept {r s : State} (h : Kept lv r s) : Kept lv r (vectorTake s) := h.ofLog rfl id id
theorem vectorBase_kept {r s : State} (w : Word) (h : Kept lv r s) : Kept lv r (vectorBase w s) :=
  h.ofLog rfl id id

theorem hostCommand_kept {r s : State} (i : Instr) (act : State → State)
    (ha : Kept lv r s → Kept lv r (act s)) (h : Kept lv r s) : Kept lv r (hostCommand i act s) := by
  unfold hostCommand
  split
  · exact port_kept _ h
  · exact ha h

/-- An accepted command meets the part state its acceptance names. -/
theorem controlWrite_kept {r s : State} (bit : Nat) (act : State → State)
    (ha : ∀ u : State, accepts bit u = true → Kept lv r u → Kept lv r (act u)) (h : Kept lv r s) :
    Kept lv r (controlWrite bit act s) := by
  unfold controlWrite
  split
  · rename_i c
    exact ha _ c (port_kept _ h)
  · exact port_kept _ h

/-! ### CONTROL commands -/

/-- Outside RUN the burner is not lit. -/
theorem unlit_of {s : State} (hp : s.rc.part ≠ .run) (k : litSafe s = true) :
    burnerLit s.heat.burner = false := by
  unfold litSafe at k
  cases hb : burnerLit s.heat.burner with
  | false => rfl
  | true => simp [hb, hp] at k

theorem actLoad_kept {r s : State} (hp : s.rc.part = .unconfigured ∨ s.rc.part = .standby)
    (h : Kept lv r s) : Kept lv r (actLoad s) := by
  have hn : s.rc.part ≠ .run := by rcases hp with hp | hp <;> rw [hp] <;> decide
  unfold actLoad heatersOff setPart
  dsimp only
  have hb : feedsBarred s = true := by
    unfold feedsBarred; rcases hp with hp | hp <;> rw [hp] <;> rfl
  have hh : (s.rc.part == .halted) = false := by rcases hp with hp | hp <;> rw [hp] <;> rfl
  refine h.trans ⟨fun k => put_wf _ _ k, fun k => ?_, ?_, ?_, ?_, ?_, ?_, ?_, ?_, ?_, ?_, ?_, ?_, ?_,
    fun _ _ k => ?_⟩
  · simp only [put_nu]; exact k
  · unfold channelsSafe; simp only [put_ch]; exact id
  · unfold lateSafe; simp only [put_ch]; exact id
  · exact fireSafe_same (by simp only [put_heat]) (by simp only [put_heat]) (by simp only [put_heat])
  · unfold queueSafe; simp only [put_oe]; exact id
  · simp only [put_co]; exact id
  · unfold doorSafe; simp only [put_mixer, put_ch]; exact id
  · simp only [put_rc]
    intro k
    unfold runSafe at k ⊢
    simp only [Bool.and_eq_true, Bool.or_eq_true, beq_iff_eq, hn, or_false] at k ⊢
    refine ⟨⟨.inl k.1.1, .inl k.1.2⟩, ?_⟩
    rcases k.2 with k2 | k2
    · exact .inl (.inl k2)
    · rcases hp with hp | hp <;> rw [hp] at k2 <;> cases k2
  · intro _ k
    unfold litSafe
    simp only [put_heat, unlit_of hn k]
    rfl
  · unfold requestSafe; simp only [put_heat]; exact id
  · unfold heaterSafe; simp
  · simp only [put_co]; exact le_refl _
  · simp only [put_pending]
  · have hq := quiet_of_barred k hb
    rw [hh] at hq
    refine feedSafe_quiet fun sc => ?_
    simp only [put_ch, put_rc]
    exact hq sc

theorem actRun_kept {r s : State} (ha : accepts bitRun s = true) (h : Kept lv r s) : Kept lv r (actRun s) := by
  unfold actRun
  apply settle_kept
  split
  · apply lookPoint_kept
    refine rc_kept_same _ rfl rfl rfl ?_ h
    unfold runSafe
    intro k
    simp only [Bool.and_eq_true] at k ⊢
    exact ⟨⟨k.1.1, by simp⟩, k.2⟩
  · rename_i hr
    refine enterRun_kept ?_ h
    simp only [accepts, bitRun, Bool.or_eq_true, Bool.and_eq_true, beq_iff_eq, hr, false_and,
      or_false] at ha
    exact ha.1

theorem actFinish_kept {r s : State} (hp : s.rc.part = .run) (h : Kept lv r s) :
    Kept lv r (actFinish s) := by
  unfold actFinish
  apply settle_kept
  refine rc_kept_same _ rfl rfl rfl ?_ h
  unfold runSafe
  simp [hp]

theorem actPause_kept {r s : State} (hp : s.rc.part = .run) (h : Kept lv r s) :
    Kept lv r (actPause s) := by
  unfold actPause
  split
  · exact h
  · exact setPaused_kept _ hp h

theorem actResume_kept {r s : State} (h : Kept lv r s) : Kept lv r (actResume s) := by
  unfold actResume
  split
  · exact settle_kept (clearPaused_kept _ h)
  · exact h

theorem actRestart_kept {r s : State} (h : Kept lv r s) : Kept lv r (actRestart s) :=
  settle_kept (restartWalker_kept h)

theorem actRearm_kept {r s : State} (h : Kept lv r s) : Kept lv r (actRearm s) :=
  settle_kept (mapChan_kept _ rearmChannel_ck h)

theorem softResetBlocks_kept {r s : State} (h : Kept lv r s) : Kept lv r (softResetBlocks s) := by
  unfold softResetBlocks
  refine h.trans ⟨id, fun k => ?_, fun _ => ?_, fun _ => ?_, fun _ => ?_, fun _ => ?_, fun k => ?_,
    fun _ => ?_, fun _ => ?_, fun _ _ => ?_, fun _ => ?_, fun _ => ?_, le_refl _, rfl,
    fun _ _ _ => feedSafe_quiet fun sc => by cases sc <;> rfl⟩
  · rw [noticeSafe_iff] at k ⊢
    exact ⟨k.1, k.2.1, k.2.2.1, Nat.zero_le _⟩
  · unfold channelsSafe; rfl
  · unfold lateSafe; rfl
  · rfl
  · unfold queueSafe; rfl
  · revert k
    dsimp only
    generalize s.co = c
    obtain ⟨n, w, m⟩ := c
    simp only [stagesSafe, Bool.and_eq_true]
    intro k
    exact ⟨⟨⟨k.1.1.1, rfl⟩, rfl⟩, rfl⟩
  · exact doorSafe_of_closed rfl
  · rfl
  · rfl
  · rfl
  · unfold heaterSafe; rfl

theorem actSoftReset_kept {r s : State} (h : Kept lv r s) : Kept lv r (actSoftReset s) :=
  putAll_kept _ (softResetBlocks_kept h)

/-- Every accepted CONTROL command keeps the laws. -/
theorem actOf_kept {r s : State} (bit : Nat) (ha : accepts bit s = true) (h : Kept lv r s) :
    Kept lv r (actOf bit s) := by
  unfold actOf
  split
  · refine actLoad_kept ?_ h
    simpa [accepts] using ha
  · exact actRun_kept ha h
  · refine actFinish_kept ?_ h
    simpa [accepts] using ha
  · refine actPause_kept ?_ h
    simpa [accepts] using ha
  · exact actResume_kept h
  · exact actRestart_kept h
  · exact actRearm_kept h
  · exact burnerReset_kept h
  · exact actSoftReset_kept h

theorem controlCommand_kept {r s : State} (i : Instr) (bit : Nat) (h : Kept lv r s) :
    Kept lv r (controlCommand i bit s) :=
  hostCommand_kept _ _ (controlWrite_kept _ _ fun _ c k => actOf_kept _ c k) h

theorem controlWordWrite_kept {r s : State} (w : Word) (h : Kept lv r s) :
    Kept lv r (controlWordWrite w s) := by
  unfold controlWordWrite
  split
  · exact controlWrite_kept _ _ (fun _ c k => actOf_kept _ c k) h
  · split
    · exact h
    · exact port_kept _ h

theorem heldAction_kept {r s : State} (i : Instr) (h : Kept lv r s) : Kept lv r (heldAction i s) := by
  have hc : ∀ bit, Kept lv r (controlWrite bit (actOf bit) s) := fun bit =>
    controlWrite_kept _ _ (fun _ c k => actOf_kept _ c k) h
  cases i <;> first
    | exact hc _
    | exact windowAccess_kept _ _ _ _ h
    | exact controlWordWrite_kept _ h
    | exact vectorTake_kept h
    | exact vectorBase_kept _ h
    | exact maskTake_kept _ h
    | exact h

/-! ### Resets -/

theorem outputsOff_kept {r s : State} (h : Kept lv r s) : Kept lv r (outputsOff s) := by
  have h2 := mapChan_kept quietChannel quietChannel_ck h
  have h3 := burnerOut_kept .off rfl h2
  have h4 := mixer_kept { s.mixer with door := false, routeOut := none }
    (fun _ => doorSafe_of_closed rfl) h3
  have h5 := bit_kept { s.bit with tankSelect := false, circulate := false } h4
  exact heatersOff_kept h5

theorem resetAsserted_kept {r s : State} (h : Kept lv r s) : Kept lv r (resetAsserted s) := by
  unfold resetAsserted
  split
  · exact h
  · exact outputsOff_kept (port_kept _ h)

/-- Every law of Safety.lean holds. -/
structure Lawful (s : State) : Prop where
  mem : memorySafe s = true
  notices : noticeSafe s.nu = true
  chans : channelsSafe s = true
  late : lateSafe s = true
  fire : fireSafe s.heat = true
  queue : queueSafe s = true
  stages : stagesSafe s.co = true
  door : doorSafe s = true
  run : runSafe s.rc = true
  burner : burnerSafe s = true
  heaters : heaterSafe s = true
  feeds : feedSafe s = true

theorem Kept.lawful {s t : State} (h : Kept true s t) (k : Lawful s) : Lawful t := by
  have kb := (burnerSafe_iff s).1 k.burner
  exact ⟨h.mem k.mem, h.notices k.notices, h.chans k.chans, h.late k.late, h.fire k.fire,
    h.queue k.queue, h.stages k.stages, h.door k.door, h.run k.run,
    (burnerSafe_iff t).2 ⟨h.lit rfl kb.1, h.request kb.2⟩, h.heaters k.heaters,
    h.feeds rfl k.chans k.feeds⟩

theorem writeWords_kept {r : State} (l : List (Nat × Word)) :
    ∀ {s : State}, Kept lv r s → Kept lv r (writeWords l s) := by
  induction l with
  | nil => intro s h; exact h
  | cons x l ih => intro s h; obtain ⟨a, w⟩ := x; unfold writeWords; exact ih (wr_kept a w h)

/-- The blocks of a power-on reset satisfy every law, whatever came before (R186). -/
theorem powerOnBlocks_lawful (s : State) : Lawful (powerOnBlocks s) := by
  unfold powerOnBlocks
  refine (writeWords_kept powerOnWrites (Kept.refl _)).lawful ?_
  refine ⟨Memory.ofCells_wf _, ?_, ?_, ?_, ?_, ?_, ?_, doorSafe_of_closed rfl, ?_, ?_, ?_,
    feedSafe_quiet fun sc => by cases sc <;> rfl⟩
  · rfl
  · unfold channelsSafe; rfl
  · unfold lateSafe; rfl
  · rfl
  · unfold queueSafe; rfl
  · rfl
  · rfl
  · rfl
  · unfold heaterSafe; rfl

theorem powerOnReset_lawful (s : State) : Lawful (powerOnReset s) := by
  unfold powerOnReset
  exact (foldl_kept _ (fun _ i k => heldAction_kept i k) _ (serveAll_kept _ (Kept.refl _))).lawful
    (powerOnBlocks_lawful s)

/-- Writing words leaves every other byte. -/
theorem writeWords_byteAt (l : List (Nat × Word)) : ∀ {s : State}, Memory.wf s.mem = true →
    ∀ b, (∀ x ∈ l, b ≠ x.1 ∧ b ≠ x.1 + 1) → (writeWords l s).byteAt b = s.byteAt b := by
  induction l with
  | nil => intro s _ b _; rfl
  | cons x l ih =>
    intro s h b hb
    obtain ⟨a, w⟩ := x
    unfold writeWords
    rw [ih (State.wr_wf h a w) b fun y hy => hb y (List.mem_cons_of_mem _ hy), State.byteAt_wr h]
    obtain ⟨h1, h2⟩ := hb (a, w) (List.mem_cons_self ..)
    dsimp only at h1 h2
    rw [if_neg h2, if_neg h1]

/-- The bytes the part never accesses stay through a power-on reset (R190). -/
theorem windowAfterReset_neverAccessed (s : State) {b : Nat} (hb : b < 0x10000)
    (h : neverAccessed b = true) : Memory.getByte (windowAfterReset s) b = s.byteAt b := by
  unfold windowAfterReset State.byteAt
  rw [Memory.getByte_ofCells _ hb, Memory.getByte_find, List.find?_append, List.find?_filter,
    List.find?_filter]
  have e : (s.mem.find? fun c => decide (neverAccessed c.1 = true ∧ (c.1 == b) = true)) =
      s.mem.find? fun c => c.1 == b := by
    congr 1; funext c
    by_cases k : c.1 = b <;> simp [k, h]
  have e2 : ((Config.powerOnWindow s.freeSeed).find? fun c =>
      decide ((!neverAccessed c.1) = true ∧ (c.1 == b) = true)) = none := by
    rw [List.find?_eq_none]
    intro c _
    by_cases k : c.1 = b <;> simp [k, h]
  rw [e, e2, Option.or_none]

theorem powerOnBlocks_neverAccessed (s : State) {b : Nat} (hb : b < 0x10000)
    (h : neverAccessed b = true) : (powerOnBlocks s).byteAt b = s.byteAt b := by
  unfold powerOnBlocks
  rw [writeWords_byteAt powerOnWrites (Memory.ofCells_wf _) b]
  · exact windowAfterReset_neverAccessed s hb h
  · have k : ∀ x ∈ powerOnWrites, neverAccessed x.1 = false ∧ neverAccessed (x.1 + 1) = false := by
      decide +kernel
    intro x hx
    obtain ⟨k1, k2⟩ := k x hx
    constructor
    · intro e; rw [e, k1] at h; cases h
    · intro e; rw [e, k2] at h; cases h

theorem writeWords_pending (l : List (Nat × Word)) : ∀ s : State, (writeWords l s).pending = s.pending := by
  induction l with
  | nil => intro s; rfl
  | cons x l ih => intro s; obtain ⟨a, w⟩ := x; unfold writeWords; rw [ih]; rfl

theorem powerOnReset_pending (s : State) : (powerOnReset s).pending = s.pending := by
  unfold powerOnReset
  have h : Kept true (powerOnBlocks s) _ := foldl_kept _ (fun _ i k => heldAction_kept i k) s.port.held
    (serveAll_kept s.port.waiting (Kept.refl _))
  rw [h.pending]
  unfold powerOnBlocks
  rw [writeWords_pending]

/-! ### The configuration check -/

theorem runCheck_ram (fs : List CheckField) : ∀ (ws : List Word) (s : State),
    RamOnly s (runCheck fs ws s).2.2 := by
  induction fs with
  | nil => intro ws s; exact .refl s
  | cons f fs ih =>
    intro ws s
    have hg : RamOnly s (readField f.addr f.words s).2 := ⟨gap_offRam s, gap_wf⟩
    unfold runCheck
    dsimp only
    split
    · exact hg.trans (ih _ _)
    · exact hg

theorem fire_zero {h : Heat} (k : fireSafe h = true) (hb : fires h.burner = false) : h.firing = 0 := by
  cases hv : h.vals with
  | none => exact (fireSafe_none hv).1 k
  | some v => exact ((fireSafe_some hv).1 k).2.2 hb

theorem takeScale_ck (ws : List Word) (c : Channel) : ChanKept b hl c (takeScale ws c) :=
  .same rfl rfl rfl rfl

/-- Taking a configuration keeps the laws and the burner. -/
theorem takeConfig_kept {r s : State} (ws : List Word) (h : Kept lv r s) :
    Kept lv r (takeConfig ws s) ∧ (takeConfig ws s).heat.burner = s.heat.burner ∧
      (takeConfig ws s).rc = s.rc ∧ (takeConfig ws s).heat.bt1 = s.heat.bt1 ∧
      (takeConfig ws s).heat.bt2 = s.heat.bt2 := by
  unfold takeConfig
  generalize ws.drop (1 + 36 + 132) = cfg
  dsimp only
  have hm := heatValsFrom_fires cfg (old := blankHeat) (by decide)
  generalize heatValsFrom cfg blankHeat = v at hm ⊢
  generalize mixValsFrom (cfg.drop 27) blankMixer = m
  have c1 := clampFire_same v { s.heat with vals := some v }
  have c2 := testClamp_same (clampFire v { s.heat with vals := some v })
  have hk : ∀ sc : Scale, ChanKept (feedsBarred s) (s.rc.part == .halted) (s.ch.get sc) (PerScale.get
      (⟨takeScale (ws.drop (1 + 9 * Scale.agg.code)) s.ch.agg,
        takeScale (ws.drop (1 + 9 * Scale.rap.code)) s.ch.rap,
        takeScale (ws.drop (1 + 9 * Scale.fil.code)) s.ch.fil,
        takeScale (ws.drop (1 + 9 * Scale.bit.code)) s.ch.bit⟩ : PerScale Channel) sc) :=
    fun sc => by cases sc <;> exact takeScale_ck _ _
  generalize (⟨takeScale (ws.drop (1 + 9 * Scale.agg.code)) s.ch.agg,
        takeScale (ws.drop (1 + 9 * Scale.rap.code)) s.ch.rap,
        takeScale (ws.drop (1 + 9 * Scale.fil.code)) s.ch.fil,
        takeScale (ws.drop (1 + 9 * Scale.bit.code)) s.ch.bit⟩ : PerScale Channel) = c at hk ⊢
  have h1 := ch_kept c hk h
  have h2 := bit_kept (s := { s with ch := c })
    { s.bit with work := some ⟨(nthWord cfg 25).toNat, (nthWord cfg 26).toNat⟩ } h1
  generalize { s.bit with work := some (⟨(nthWord cfg 25).toNat, (nthWord cfg 26).toNat⟩ : BinderVals) } = b at h2 ⊢
  have h3 := mixer_kept_same (s := { s with ch := c, bit := b }) { s.mixer with
    work := some { m with clearMixTime := (nthWord cfg 32).toNat } } rfl rfl h2
  have h4 := heat_kept_fire (s := { s with ch := c, bit := b, mixer := { s.mixer with
    work := some { m with clearMixTime := (nthWord cfg 32).toNat } } })
    (testClamp (clampFire v { s.heat with vals := some v }))
    (fun k => testClamp_safe (clampFire_safe rfl hm (fun hb => fire_zero (h := s.heat) k hb)))
    (c2.2.1.trans c1.2.1) (c2.2.2.1.trans c1.2.2.1) (c2.2.2.2.1.trans c1.2.2.2.1)
    (c2.2.2.2.2.trans c1.2.2.2.2) h3
  split
  · exact ⟨target_kept _ _ _ h4, c2.2.1.trans c1.2.1, rfl, c2.2.2.2.1.trans c1.2.2.2.1,
      c2.2.2.2.2.trans c1.2.2.2.2⟩
  · exact ⟨h4, c2.2.1.trans c1.2.1, rfl, c2.2.2.2.1.trans c1.2.2.2.1, c2.2.2.2.2.trans c1.2.2.2.2⟩

theorem setPart_heat (p : PartState) (s : State) : (setPart p s).heat = s.heat := by
  unfold setPart; rw [put_heat]

/-- Outside RUN and HALTED no clear step stands, and PAUSED and FINISHING are clear. -/
theorem runSafe_leave {c : RunCtl} {p : PartState} (h1 : c.part = .checking) (k : runSafe c = true) :
    runSafe { c with part := p } = true := by
  unfold runSafe at k ⊢
  rw [h1] at k
  simp only [Bool.and_eq_true, Bool.or_eq_true, beq_iff_eq] at k ⊢
  have e1 : c.paused = false := by rcases k.1.1 with e | e
                                   · simpa using e
                                   · cases e
  have e2 : c.finishing = false := by rcases k.1.2 with e | e
                                      · simpa using e
                                      · cases e
  have e3 : c.clearStep = .none := by rcases k.2 with (e | e) | e
                                      · exact e
                                      · cases e
                                      · cases e
  simp [e1, e2, e3]

/-- The law on the feeds through a change between part states outside RUN and HALTED. -/
theorem feedSafe_setPart {s : State} (p : PartState) (h1 : s.rc.part = .unconfigured ∨ s.rc.part = .standby ∨
    s.rc.part = .checking) (h2 : p ≠ .halted) (h : feedSafe s = true) : feedSafe (setPart p s) = true := by
  have hb : feedsBarred s = true := by
    unfold feedsBarred; rcases h1 with h1 | h1 | h1 <;> rw [h1] <;> rfl
  have hh : (s.rc.part == .halted) = false := by rcases h1 with h1 | h1 | h1 <;> rw [h1] <;> rfl
  have hq := quiet_of_barred h hb
  rw [hh] at hq
  refine feedSafe_quiet fun sc => ?_
  rw [setPart_ch, setPart_rc]
  have : (p == .halted) = false := by cases p <;> first | rfl | exact absurd rfl h2
  dsimp only
  rw [this]
  exact hq sc

theorem checkComplete_kept {r s : State} (h : Kept lv r s) : Kept lv r (checkComplete s) := by
  unfold checkComplete
  split
  · rename_i hp
    dsimp only
    have hr := runCheck_ram checkFields [] s
    generalize runCheck checkFields [] s = q at hr ⊢
    obtain ⟨f, ws, u⟩ := q
    dsimp only at hr ⊢
    have hu : Kept lv r u := hr.kept h
    have ep : u.rc.part = .checking := by
      have : u.rc = s.rc := by have := congrArg State.rc hr.same; exact this
      rw [this]; exact hp
    have en : u.rc.part ≠ .run := by rw [ep]; decide
    have eh : heaterSafe u = true → u.heat.bt1.heater = false ∧ u.heat.bt2.heater = false := by
      intro k
      unfold heaterSafe at k
      rw [ep] at k
      simp only [heatersRun, Bool.and_eq_true, Bool.or_eq_true, Bool.not_eq_true'] at k
      rcases k.1.1 with c | c
      · simp at c
      · exact c
    split
    · have ht := takeConfig_kept (lv := true) ws.reverse (Kept.refl u)
      have k := setPart_kept .standby (takeConfig ws.reverse u).rc
        (fun k => runSafe_leave (by rw [ht.2.2.1]; exact ep) k) (fun _ => .inl rfl) ht.1
      refine hu.withLit k (fun kl => ?_) (fun kc kf => feedSafe_setPart _ (.inr (.inr (by
        rw [ht.2.2.1]; exact ep))) (by decide) (ht.1.feeds rfl kc kf))
      unfold litSafe
      have e : (setPart .standby (takeConfig ws.reverse u)).heat.burner = u.heat.burner := by
        rw [setPart_heat]; exact ht.2.1
      show (!burnerLit (setPart .standby (takeConfig ws.reverse u)).heat.burner || _) = true
      rw [e, unlit_of en kl]; rfl
    · rename_i g
      have hv : Kept true u (put Win.checkField (BitVec.ofNat 16 g.offset) u) := put_kept _ _ (Kept.refl u)
      have ev : (put Win.checkField (BitVec.ofNat 16 g.offset) u).rc = u.rc := put_rc _ _ _
      have ew : (put Win.checkField (BitVec.ofNat 16 g.offset) u).heat = u.heat := put_heat _ _ _
      generalize put Win.checkField (BitVec.ofNat 16 g.offset) u = v at hv ev ew ⊢
      have hx := port_kept { v.port with checkRecord := g.record } hv
      have k := setPart_kept (s := { v with port := { v.port with checkRecord := g.record } })
        .unconfigured v.rc (fun k => runSafe_leave (by rw [ev]; exact ep) k) (fun k => .inr (by
          dsimp only
          rw [ew]
          apply eh
          unfold heaterSafe at k ⊢
          dsimp only at k
          rw [ev, ew] at k
          exact k)) hx
      refine hu.withLit k (fun kl => ?_) (fun kc kf => feedSafe_setPart _ (.inr (.inr (by
        dsimp only; rw [ev]; exact ep))) (by decide) (hx.feeds rfl kc kf))
      unfold litSafe
      show (!burnerLit (setPart .unconfigured
        { v with port := { v.port with checkRecord := g.record } }).heat.burner || _) = true
      rw [setPart_heat]
      dsimp only
      rw [ew, unlit_of en kl]; rfl
  · exact h

/-! ### Clock -/

theorem heatSecond_kept {r s : State} (h : Kept lv r s) : Kept lv r (heatSecond s) := by
  unfold heatSecond
  split
  · exact h
  · rename_i old ho
    dsimp only
    have h2 := readAll_kept heatAddrs h
    have ev : (readAll heatAddrs s).2.heat.vals = some old := by rw [readAll_heat]; exact ho
    generalize readAll heatAddrs s = p at h2 ev ⊢
    obtain ⟨ws, u⟩ := p
    dsimp only at h2 ev ⊢
    have h3 := adoptVals_kept old (heatValsFrom ws old) ev (fun k => heatValsFrom_fires ws k) h2
    generalize adoptVals old (heatValsFrom ws old) u = x at h3 ⊢
    have h4 : Kept lv r (if permitValsDiffer old (heatValsFrom ws old) then evalHeld x else x) := by
      split
      · exact evalHeld_kept h3
      · exact h3
    generalize (if permitValsDiffer old (heatValsFrom ws old) then evalHeld x else x) = y at h4 ⊢
    split
    · exact heat_kept_same _ rfl rfl rfl rfl rfl rfl h4
    · exact h4

theorem secondsTick_kept {r s : State} (h : Kept lv r s) : Kept lv r (secondsTick s) := by
  unfold secondsTick
  dsimp only
  apply heatSecond_kept
  have h2 : Kept lv r { s with seconds := s.seconds + 1, clk := { s.clk with secMs := 0 } } :=
    other_kept s.port s.bit s.inp _ _ s.freeSeed h
  exact wr_kept _ _ (wr_kept _ _ (gap_kept h2))

theorem periodicLook_kept {r s : State} (h : Kept lv r s) : Kept lv r (periodicLook s) := by
  unfold periodicLook
  dsimp only
  have h2 := oe_kept (s := s) { s.oe with lookMs := 0 } (le_refl _) h
  split
  · exact lookPoint_kept h2
  · exact h2

theorem periodicWatch_kept {r s : State} (h : Kept lv r s) : Kept lv r (periodicWatch s) := by
  unfold periodicWatch
  dsimp only
  have h2 := oe_kept (s := s) { s.oe with watchMs := 0 } (le_refl _) h
  split
  · exact watchWithdraw_kept h2
  · exact h2

theorem afterTemps_kept {r s : State} (a b : Bool) (h : Kept lv r s) : Kept lv r (afterTemps a b s) := by
  unfold afterTemps
  exact testTankFrame_kept _ _ (testTankFrame_kept _ _
    (testClamp_kept (s := { s with heat := testHold s.heat }) (testHold_kept h)))

theorem temperatureFrame_kept {r s : State} (f : TempFrame) (h : Kept lv r s) :
    Kept lv r (temperatureFrame f s) := by
  unfold temperatureFrame
  have h2 := tc_kept (s := s) s.heat.tc 0 0 h
  exact evalHeld_kept (afterTemps_kept _ _
    (foldl_kept _ (fun _ t k => judgeTemp_kept t (tempGet f t) k) TempChan.all h2))

theorem missingPeriod_kept {r s : State} (h : Kept lv r s) : Kept lv r (missingPeriod s) := by
  unfold missingPeriod
  exact afterTemps_kept _ _ (countMissing_kept (tc_kept (s := s) s.heat.tc s.heat.missing 0 h))

/-- The decoder and its pulse timer. -/
theorem decoder_kept {r s : State} (d : Decoder) (n : Nat) (h : Kept lv r s) :
    Kept lv r { s with rc := { s.rc with decoder := d, pulse := n } } := rc_kept_same _ rfl rfl rfl id h

theorem stopFall_kept {r s : State} (h : Kept lv r s) : Kept lv r (stopFall s) := by
  unfold stopFall
  split
  · exact decoder_kept _ _ h
  · exact h
  · exact h

theorem pulseReached_kept {r s : State} (h : Kept lv r s) : Kept lv r (pulseReached s) := by
  unfold pulseReached
  split
  · exact plantStop_kept (decoder_kept _ _ h)
  · exact h
  · exact h

theorem stopRise_kept {r s : State} (n : Nat) (h : Kept lv r s) : Kept lv r (stopRise n s) := by
  unfold stopRise
  split
  · exact h
  · exact decoder_kept _ s.rc.pulse h
  · dsimp only
    split
    · have h2 := plantStop_kept (decoder_kept .held (max s.rc.pulse n) h)
      revert h2
      generalize plantStop _ = u
      intro h2
      exact decoder_kept .high u.rc.pulse h2
    · split
      · exact pauseToggle_kept (decoder_kept _ _ h)
      · exact decoder_kept _ _ h

theorem stopLevelHigh_kept {r s : State} (h : Kept lv r s) : Kept lv r (stopLevelHigh s) :=
  decoder_kept .high s.rc.pulse h

theorem channelTenth_ck (run paused : Bool) (c : Channel) : ChanKept b hl c (channelTenth run paused c) := by
  unfold channelTenth
  split
  · split <;> exact .same rfl rfl rfl rfl
  · split <;> exact .same rfl rfl rfl rfl
  · split <;> exact .same rfl rfl rfl rfl
  · exact .refl c

theorem burnerTenth_kept {r s : State} (h : Kept lv r s) :
    Kept lv r { s with heat := burnerTenth s.heat } := by
  unfold burnerTenth
  split
  · exact heat_kept_same _ rfl rfl rfl rfl rfl rfl h
  · exact heat_kept_same _ rfl rfl rfl rfl rfl rfl h
  · exact heat_kept_same _ rfl rfl rfl rfl rfl rfl h
  · exact h
  · exact h

theorem mixerTenth_same (m : Mixer) :
    (mixerTenth m).phase = m.phase ∧ (mixerTenth m).door = m.door := by
  exact advanceMixer_same _ m

theorem tenth_kept {r s : State} (h : Kept lv r s) : Kept lv r (tenth s) := by
  unfold tenth
  have h2 := burnerTenth_kept (mapChan_kept (s := s) _
    (channelTenth_ck (s.rc.part == .run) s.rc.paused) h)
  dsimp only at h2 ⊢
  split
  · revert h2
    generalize burnerTenth s.heat = x
    generalize s.ch.map (channelTenth (s.rc.part == .run) s.rc.paused) = c
    intro h2
    have h3 := mixer_kept_same (s := { s with ch := c, heat := x }) (mixerTenth s.mixer)
      (mixerTenth_same _).1 (mixerTenth_same _).2 h2
    have h4 := weighMap_kept (s := { s with ch := c, heat := x, mixer := mixerTenth s.mixer }) waitTenth
      (fun b => by unfold waitTenth; split <;> rfl) h3
    exact h4.trans (bit_kept _ (Kept.refl _))
  · exact h2

theorem ageChannel_ck (c : Channel) : ChanKept b hl c (ageChannel c) := by
  unfold ageChannel
  split
  · exact .same rfl rfl rfl rfl
  · exact .refl c

/-- The millisecond counters. -/
theorem counters_kept {r s : State} (c : PerScale Channel)
    (hk : ∀ sc, ChanKept (feedsBarred s) (s.rc.part == .halted) (s.ch.get sc) (c.get sc)) (age look watch pulse : Nat) (k : Clk)
    (h : Kept lv r s) :
    Kept lv r { s with ch := c, heat := { s.heat with age := age }, clk := k,
                       oe := { s.oe with lookMs := look, watchMs := watch },
                       rc := { s.rc with pulse := pulse } } := by
  have h2 := ch_kept c hk h
  generalize he : ({ s with ch := c } : State) = u at h2
  have e1 : u.heat = s.heat := by rw [← he]
  have h3 := tc_kept (s := u) u.heat.tc u.heat.missing age h2
  generalize hf : ({ u with heat := { u.heat with tc := u.heat.tc, missing := u.heat.missing, age := age } } :
    State) = v at h3
  have h4 := oe_kept (s := v) { v.oe with lookMs := look, watchMs := watch } (le_refl _) h3
  generalize hg : ({ v with oe := { v.oe with lookMs := look, watchMs := watch } } : State) = w at h4
  have h5 := decoder_kept (s := w) w.rc.decoder pulse h4
  generalize hh : ({ w with rc := { w.rc with decoder := w.rc.decoder, pulse := pulse } } : State) = x at h5
  have h6 := other_kept (s := x) x.port x.bit x.inp x.seconds k x.freeSeed h5
  subst hh; subst hg; subst hf; subst he
  exact h6

/-- 1 ms keeps the laws. -/
theorem tickMs_kept {r s : State} (h : Kept lv r s) : Kept lv r (tickMs s) := by
  unfold tickMs
  dsimp only
  have hk : ∀ sc, ChanKept (feedsBarred s) (s.rc.part == .halted) (s.ch.get sc) ((s.ch.map ageChannel).get sc) :=
    fun sc => by cases sc <;> exact ageChannel_ck _
  generalize s.ch.map ageChannel = c at hk ⊢
  split
  · exact counters_kept c hk _ _ _ _ _ h
  · exact tenth_kept (counters_kept c hk _ _ _ _ _ h)

/-! ### Events -/

theorem event_kept {r s : State} (act : State → State) (ha : Kept lv r s → Kept lv r (act s))
    (h : Kept lv r s) : Kept lv r (event act s) := by
  unfold event
  split
  · exact h
  · exact settle_kept (ha h)

theorem plainEvent_kept {r s : State} (act : State → State) (ha : Kept lv r s → Kept lv r (act s))
    (h : Kept lv r s) : Kept lv r (plainEvent act s) := by
  unfold plainEvent
  split
  · exact h
  · exact ha h

theorem ignitionDue_kept {r s : State} (h : Kept lv r s) : Kept lv r (ignitionDue s) := by
  unfold ignitionDue
  dsimp only
  split
  · exact ignitionExpired_kept (heat_kept_same _ rfl rfl rfl rfl rfl rfl h)
  · exact h

theorem lowFireDue_kept {r s : State} (h : Kept lv r s) : Kept lv r (lowFireDue s) := by
  unfold lowFireDue
  dsimp only
  split
  · exact lowFireExpired_kept (heat_kept_same _ rfl rfl rfl rfl rfl rfl h)
  · exact h

theorem dryMixDue_kept {r s : State} (h : Kept lv r s) : Kept lv r (dryMixDue s) := by
  unfold dryMixDue
  split
  · exact reachLimit_kept _ _ h
  · exact h

theorem wetMixDue_kept {r s : State} (h : Kept lv r s) : Kept lv r (wetMixDue s) := by
  unfold wetMixDue
  split
  · exact reachLimit_kept _ _ h
  · exact h

theorem doorOpenDue_kept {r s : State} (h : Kept lv r s) : Kept lv r (doorOpenDue s) := by
  unfold doorOpenDue
  split
  · exact leaveDoorOpen_kept (reachLimit_kept _ _ h)
  · exact h

theorem updateDue_kept {r s : State} (h : Kept lv r s) : Kept lv r (updateDue s) :=
  regulatorUpdate_kept h

end Sys2Proof.Machine
end

