-- ==== Sys2Proof/Laws/KeptStep.lean ====
section
/-! SUPPORT. What every command keeps, and what the part keeps with no command waiting. -/

namespace Sys2Proof.Machine

variable {lv : Bool}

/-- The state `exec` answers. -/
theorem next_inj {s t : State} (h : (.next s : Answer) = .next t) : s = t := by
  injection h

/-- A STOP# rise keeps the laws. -/
theorem settleStop_kept {r s : State} (n : Nat) (h : Kept lv r s) : Kept lv r (settle (stopRise n s)) :=
  settle_kept (stopRise_kept n h)

/-- Every command but POWER_ON_RESET keeps the laws, the queue, and does not lower the counter. -/
theorem exec_kept (i : Instr) (hi : i ≠ .powerOnReset) {s t : State} (h : exec i s = .next t) :
    Kept lv s t := by
  have r := Kept.refl (lv := lv) s
  cases i with
  | hostWindowAccess w a d n =>
    rw [← next_inj h]
    exact hostCommand_kept _ _ (windowAccess_kept _ _ _ _) r
  | load =>
    rw [← next_inj h]
    exact controlCommand_kept _ _ r
  | checkComplete =>
    rw [← next_inj h]
    exact event_kept _ checkComplete_kept r
  | run =>
    rw [← next_inj h]
    exact controlCommand_kept _ _ r
  | finish =>
    rw [← next_inj h]
    exact controlCommand_kept _ _ r
  | pause =>
    rw [← next_inj h]
    exact controlCommand_kept _ _ r
  | resume =>
    rw [← next_inj h]
    exact controlCommand_kept _ _ r
  | restart =>
    rw [← next_inj h]
    exact controlCommand_kept _ _ r
  | rearm =>
    rw [← next_inj h]
    exact controlCommand_kept _ _ r
  | burnerReset =>
    rw [← next_inj h]
    exact controlCommand_kept _ _ r
  | softReset =>
    rw [← next_inj h]
    exact controlCommand_kept _ _ r
  | vectorRead =>
    rw [← next_inj h]
    exact hostCommand_kept _ _ vectorTake_kept r
  | vectorWrite d =>
    rw [← next_inj h]
    exact hostCommand_kept _ _ (vectorBase_kept _) r
  | maskWrite d =>
    rw [← next_inj h]
    exact hostCommand_kept _ _ (maskTake_kept _) r
  | registerWrite d =>
    rw [← next_inj h]
    exact hostCommand_kept _ _ id r
  | resetAsserted =>
    rw [← next_inj h]
    exact resetAsserted_kept r
  | powerOnReset => exact absurd rfl hi
  | secondsTick =>
    rw [← next_inj h]
    exact event_kept _ secondsTick_kept r
  | idleTimerExpiry =>
    rw [← next_inj h]
    exact plainEvent_kept _ idleExpired_kept r
  | lookPoint =>
    rw [← next_inj h]
    exact event_kept _ periodicLook_kept r
  | withdrawWatch =>
    rw [← next_inj h]
    exact event_kept _ periodicWatch_kept r
  | weighStart =>
    rw [← next_inj h]
    exact event_kept _ (tryWeighStart_kept _) r
  | chargeDecision =>
    rw [← next_inj h]
    exact event_kept _ chargeDecision_kept r
  | thermalTimeout =>
    rw [← next_inj h]
    exact plainEvent_kept _ thermalTimeout_kept r
  | weighFrame sc n f =>
    rw [← next_inj h]
    exact event_kept _ (weighFrame_kept _ _ _) r
  | latePeriod sc =>
    rw [← next_inj h]
    exact event_kept _ (latePeriod_kept _) r
  | settleTimeout sc =>
    rw [← next_inj h]
    exact event_kept _ (settleTimeout_kept _) r
  | jogPulseEnd sc =>
    rw [← next_inj h]
    exact plainEvent_kept _ (jogPulseEnd_kept _) r
  | dischargeTimeout sc =>
    rw [← next_inj h]
    exact event_kept _ (dischargeTimeout_kept _) r
  | binLowInput src a =>
    rw [← next_inj h]
    split
    · exact setBinLow_kept _ _ r
    · exact binLowInput_kept _ _ r
  | purgeTimerExpiry =>
    rw [← next_inj h]
    exact event_kept _ purgeExpired_kept r
  | fillerDelayExpiry =>
    rw [← next_inj h]
    exact event_kept _ fillerDue_kept r
  | dryMixExpiry =>
    rw [← next_inj h]
    exact event_kept _ dryMixDue_kept r
  | wetMixExpiry =>
    rw [← next_inj h]
    exact event_kept _ wetMixDue_kept r
  | receiverReadyChange p a =>
    rw [← next_inj h]
    exact event_kept id id (inp_kept _ r)
  | overmix =>
    rw [← next_inj h]
    exact plainEvent_kept _ overmixDue_kept r
  | cycleMark =>
    rw [← next_inj h]
    exact plainEvent_kept _ markDue_kept r
  | doorOpenExpiry =>
    rw [← next_inj h]
    exact event_kept _ doorOpenDue_kept r
  | doorClosed a =>
    rw [← next_inj h]
    exact event_kept id id (inp_kept _ r)
  | doorCloseTimeout =>
    rw [← next_inj h]
    exact event_kept _ doorTimeout_kept r
  | clearMixExpiry =>
    rw [← next_inj h]
    exact event_kept _ clearMixDue_kept r
  | stopLineFall =>
    rw [← next_inj h]
    exact stopFall_kept r
  | stopLineRise n =>
    rw [← next_inj h]
    split
    · exact stopLevelHigh_kept r
    · exact settleStop_kept _ r
  | plantStop =>
    rw [← next_inj h]
    exact event_kept _ pulseReached_kept r
  | temperatureFrame f =>
    rw [← next_inj h]
    exact event_kept _ (temperatureFrame_kept _) r
  | missingPeriod =>
    rw [← next_inj h]
    exact plainEvent_kept _ missingPeriod_kept r
  | burnerPermitChange a =>
    rw [← next_inj h]
    split
    · exact inp_kept _ r
    · exact permitInput_kept _ r
  | flameProvenChange a =>
    rw [← next_inj h]
    split
    · exact inp_kept _ r
    · exact flameInput_kept _ r
  | ignitionTimeout =>
    rw [← next_inj h]
    exact plainEvent_kept _ ignitionDue_kept r
  | lowFireHoldExpiry =>
    rw [← next_inj h]
    exact plainEvent_kept _ lowFireDue_kept r
  | regulatorUpdate =>
    rw [← next_inj h]
    exact plainEvent_kept _ updateDue_kept r
  | noticeWrite =>
    rw [← next_inj h]
    exact plainEvent_kept _ writeOldest_kept r
  | captureWrite =>
    rw [← next_inj h]
    exact plainEvent_kept _ judgeOldest_kept r
  | controlWriteNamingNoCommand d =>
    rw [← next_inj h]
    exact hostCommand_kept _ _ (controlWordWrite_kept _) r

/-- The part with no command waiting keeps the laws; it may queue commands of its own. -/
theorem idle_lawful {s : State} (k : Lawful s) : Lawful (idle s) := by
  unfold idle
  split
  · exact k
  · split
    · exact (serveAll_kept s.port.waiting (Kept.refl s)).lawful k
    · split
      · exact (tickMs_kept (Kept.refl s)).lawful k
      · exact ⟨k.mem, k.notices, k.chans, k.late, k.fire, k.queue, k.stages, k.door, k.run, k.burner,
          k.heaters, k.feeds⟩

end Sys2Proof.Machine
end

