-- ==== Sys2Proof/Laws/Settle.lean ====
section
/-! SUPPORT. What follows at once after a command: `settle` in the cases where it is short. -/

namespace Sys2Proof.Machine

theorem runAtOnce_of_none {s : State} (h : nextAtOnce s = none) (n : Nat) : runAtOnce n s = s := by
  cases n with
  | zero => rfl
  | succ n => unfold runAtOnce; rw [h]

theorem runAtOnce_step {s t : State} (h : nextAtOnce s = some t) (n : Nat) :
    runAtOnce (n + 1) s = runAtOnce n t := by
  unfold runAtOnce; rw [h]; cases n <;> rfl

theorem drainLooks_none {s : State} (h : s.oe.lookOwed = 0) (n : Nat) : drainLooks (n + 1) s = s := by
  unfold drainLooks; rw [if_pos h]

/-- With nothing following at once and no look point owed, only the heat controller follows. -/
theorem settle_of_none {s : State} (h : nextAtOnce s = none) (k : s.oe.lookOwed = 0) :
    settle s = followQueue s := by
  unfold settle
  dsimp only
  rw [runAtOnce_of_none h, show s.oe.lookOwed + 4 + s.port.waiting.length =
    (s.oe.lookOwed + 3 + s.port.waiting.length) + 1 by omega, drainLooks_none k, runAtOnce_of_none h]

/-- With one thing following at once, it is taken and the heat controller follows. -/
theorem settle_of_one {s t : State} (h : nextAtOnce s = some t) (h2 : nextAtOnce t = none)
    (k : t.oe.lookOwed = 0) : settle s = followQueue t := by
  unfold settle
  dsimp only
  rw [show atOnceBound = 23 + 1 from rfl, runAtOnce_step h, runAtOnce_of_none h2,
    show t.oe.lookOwed + 4 + t.port.waiting.length =
    (t.oe.lookOwed + 3 + t.port.waiting.length) + 1 by omega, drainLooks_none k, runAtOnce_of_none h2]

/-- With two things following at once, both are taken. -/
theorem settle_of_two {s t u : State} (h : nextAtOnce s = some t) (h1 : nextAtOnce t = some u)
    (h2 : nextAtOnce u = none) (k : u.oe.lookOwed = 0) : settle s = followQueue u := by
  unfold settle
  dsimp only
  rw [show atOnceBound = 22 + 1 + 1 from rfl, runAtOnce_step h, runAtOnce_step h1, runAtOnce_of_none h2,
    show u.oe.lookOwed + 4 + u.port.waiting.length =
    (u.oe.lookOwed + 3 + u.port.waiting.length) + 1 by omega, drainLooks_none k, runAtOnce_of_none h2]

/-- A calm state settles to itself. -/
theorem settle_of_calm {s : State} (h : calm s = true) : settle s = s := by
  unfold calm at h
  simp only [Bool.and_eq_true, Option.isNone_iff_eq_none, beq_iff_eq, decide_eq_true_eq] at h
  rw [settle_of_none h.1.1 h.1.2, h.2]

/-- Outside RUN nothing follows at once. -/
theorem nextAtOnce_of_part {s : State} (h : s.rc.part ≠ .run) : nextAtOnce s = none := by
  unfold nextAtOnce; rw [if_neg h]

/-- Outside RUN, with no look point owed, only the heat controller follows. -/
theorem settle_outside_run {s : State} (h : s.rc.part ≠ .run) (k : s.oe.lookOwed = 0) :
    settle s = followQueue s := settle_of_none (nextAtOnce_of_part h) k

/-- In plain RUN, a mixer with no phase change due has nothing following at once. -/
theorem nextAtOnce_plain {s : State} (hp : s.rc.part = .run) (hd : dryTestHere s = false)
    (hm : mixerStep s = none) (hf : s.rc.finishing = false) (hc : s.rc.clearStep = .none)
    (hr : s.rc.clearRequired = false) : nextAtOnce s = none := by
  unfold nextAtOnce
  rw [if_pos hp, hd, hm]
  simp [finishDue, clearNext, hf, hc, hr]

/-- In RUN with no dry shortfall test due, a phase change of the mixer is next. -/
theorem nextAtOnce_mixer {s t : State} (hp : s.rc.part = .run) (hd : dryTestHere s = false)
    (hm : mixerStep s = some t) : nextAtOnce s = some t := by
  unfold nextAtOnce
  rw [if_pos hp, hd, hm]
  rfl

theorem followDryer_frame (s : State) : followDryer s = { s with heat := (followDryer s).heat } := by
  unfold followDryer
  repeat' split
  all_goals rfl

theorem testTankBetween_frame (k : Tank) (s : State) :
    testTankBetween k s = { s with heat := (testTankBetween k s).heat } := by
  unfold testTankBetween
  repeat' split
  all_goals rfl

theorem followTank_frame (k : Tank) (s : State) :
    followTank k s = { s with heat := (followTank k s).heat } := by
  unfold followTank
  dsimp only
  split
  · rfl
  · rw [testTankBetween_frame]

/-- Following the queue touches the heat controller alone. -/
theorem followQueue_frame (s : State) : followQueue s = { s with heat := (followQueue s).heat } := by
  unfold followQueue
  rw [followTank_frame .bt2, followTank_frame .bt1, followDryer_frame]

/-- What the heat controller follows: its own state, the part state, the queue and the stages. -/
theorem followDryer_congr {s t : State} (h : s.heat = t.heat) (p : s.rc.part = t.rc.part)
    (q : s.oe.queue = t.oe.queue) (c : s.co = t.co) : (followDryer s).heat = (followDryer t).heat := by
  unfold followDryer headOrder stagesEmpty
  rw [h, p, q, c]
  repeat' split
  all_goals first | rfl | exact h

theorem testTankBetween_congr (k : Tank) {s t : State} (h : s.heat = t.heat) (p : s.rc.part = t.rc.part) :
    (testTankBetween k s).heat = (testTankBetween k t).heat := by
  unfold testTankBetween
  rw [h, p]
  repeat' split
  all_goals first | rfl | exact h

theorem followTank_congr (k : Tank) {s t : State} (h : s.heat = t.heat) (p : s.rc.part = t.rc.part)
    (q : s.oe.queue = t.oe.queue) : (followTank k s).heat = (followTank k t).heat := by
  unfold followTank
  rw [show tankInUse s k = tankInUse t k by unfold tankInUse; rw [q], h]
  dsimp only
  split
  · exact h
  · exact testTankBetween_congr k rfl p

theorem followQueue_congr {s t : State} (h : s.heat = t.heat) (p : s.rc.part = t.rc.part)
    (q : s.oe.queue = t.oe.queue) (c : s.co = t.co) : (followQueue s).heat = (followQueue t).heat := by
  unfold followQueue
  have d := followDryer_congr h p q c
  have ds := followDryer_frame s
  have dt := followDryer_frame t
  have k1 : (followTank .bt1 (followDryer s)).heat = (followTank .bt1 (followDryer t)).heat :=
    followTank_congr _ d (by rw [ds, dt]; exact p) (by rw [ds, dt]; exact q)
  exact followTank_congr _ k1
    (by rw [followTank_frame .bt1 (followDryer s), followTank_frame .bt1 (followDryer t), ds, dt]; exact p)
    (by rw [followTank_frame .bt1 (followDryer s), followTank_frame .bt1 (followDryer t), ds, dt]; exact q)

/-- A state whose heat controller agrees with the queue keeps agreeing when nothing it follows changes. -/
theorem followQueue_fixed {s t : State} (f : followQueue s = s) (h : t.heat = s.heat)
    (p : t.rc.part = s.rc.part) (q : t.oe.queue = s.oe.queue) (c : t.co = s.co) : followQueue t = t := by
  have e := followQueue_congr h p q c
  rw [f, ← h] at e
  rw [followQueue_frame, e]

theorem arbiterFree_iff (s : State) :
    arbiterFree s = true ↔ s.port.resetLow = false ∧ s.port.waiting = [] := by
  simp [arbiterFree]

/-- An event with RESET# high acts and settles. -/
theorem event_of_high {s : State} (h : s.port.resetLow = false) (act : State → State) :
    event act s = settle (act s) := by
  unfold event; rw [h]; rfl

theorem plainEvent_of_high {s : State} (h : s.port.resetLow = false) (act : State → State) :
    plainEvent act s = act s := by
  unfold plainEvent; rw [h]; rfl

theorem hostCommand_of_high {s : State} (h : s.port.resetLow = false) (i : Instr) (act : State → State) :
    hostCommand i act s = act s := by
  unfold hostCommand; rw [h]; rfl

end Sys2Proof.Machine
end

