-- ==== Sys2Proof/Tests/Slice0.lean ====
section
/-! SUPPORT. Tests on small states: what well-formedness refuses, that the hypotheses of every
statement are met by concrete states, clause by clause, and one step of every command. -/

namespace Sys2Proof.Tests

open Sys2Proof Sys2Proof.Machine

set_option Elab.async false

/-! ### Well-formedness -/

theorem test_controlWord_names : Instr.wellFormed (.controlWriteNamingNoCommand 0x0001) = false := by decide
theorem test_controlWord_names_last :
    Instr.wellFormed (.controlWriteNamingNoCommand 0x0100) = false := by decide
theorem test_controlWord_two_bits :
    Instr.wellFormed (.controlWriteNamingNoCommand 0x0003) = true := by decide
theorem test_controlWord_zero : Instr.wellFormed (.controlWriteNamingNoCommand 0) = true := by decide
theorem test_binLow_filler : Instr.wellFormed (.binLowInput .fs1 true) = false := by decide
theorem test_binLow_tank : Instr.wellFormed (.binLowInput .bt1 true) = false := by decide
theorem test_binLow_hot : Instr.wellFormed (.binLowInput .hb6 true) = true := by decide
theorem test_no_word_spells : decodeTableWord 16 1 = none := by decide
theorem test_fetchWord_same : State.reset.withFetchWord 16 1 = State.reset := by rfl

/-! ### States -/

/-- Working values of a scale: span 1000 makes a gross equal its count. -/
def scaleVals : ScaleParams := ⟨0, 1000, 30000, 200, 5, 30, 50, 20⟩

/-- A channel with working values. -/
def chan : Channel := { Channel.reset with work := some scaleVals }

/-- Working heat values. -/
def heatVals : HeatVals :=
  { blankHeat with standby := 600, maximum := 2000, idleTime := 60, period := 8, kp := 250, ki := 40,
                   kd := 300, deadband := 10, minFire := 120, maxFire := 900, lowBand := 50,
                   highBand := 80, lineMin := 1400 }

/-- The part in RUN with nothing to do. -/
def base : State :=
  { State.reset with
    rc := { RunCtl.reset with part := .run }
    ch := ⟨chan, chan, chan, chan⟩
    bit := { BitState.reset with work := some ⟨80, 200⟩ }
    mixer := { Mixer.reset with suspect := false, work := some ⟨10, 20, 20, none, 0, 2⟩ }
    heat := { Heat.reset with vals := some heatVals } }

/-- The same in another part state. -/
def inPart (p : PartState) : State := { base with rc := { base.rc with part := p } }

/-- The same with another mixer. -/
def withMixer (f : Mixer → Mixer) : State := { base with mixer := f base.mixer }

/-- The same with another heat controller. -/
def withHeat (f : Heat → Heat) : State := { base with heat := f base.heat }

/-- The same with one channel in another state. -/
def withChan (sc : Scale) (f : Channel → Channel) : State := base.modChan sc f

/-- RESET# low. -/
def low : State := { base with port := { base.port with resetLow := true } }

/-- A host access waiting. -/
def waits : State := { base with port := { base.port with waiting := [⟨true, 8, 5, 0⟩] } }

/-- A formula snapshot of one component. -/
def snap : Snapshot :=
  { revision := 48, mixTemp := 1600, superheat := 0, b := 50, r := 0, tank := .bt1, binderTol := 8,
    binderReject := 30, winMin := 1500, winMax := 1750, dryTime := 80, wetTime := 250, overLimit := 20,
    comps := [⟨.hb1, 1000, 30, 150, 38000⟩] }

/-- An order at slot 4. -/
def order : Order :=
  { slot := 4, number := 101, load := List.replicate 8 0, count := 3, mass := 40000, dest := .truck,
    snap := snap, dn := 38000, s := 0, pn := 0, bn := 2000, tAgg := 1600, tAggRaw := 1600,
    clamped := false, started := 0, charged := 0, finished := 0, tickets := 0, abortedTickets := 0,
    level := .none, held := [] }

/-- Orders queued. -/
def queued (q : List Order) : State := { base with oe := { base.oe with queue := q } }

/-- A batch of the order that all four scales have reported. -/
def ready : Batch :=
  { newBatch 1 order with
    reported := ⟨true, true, true, true⟩, nets := ⟨38000, 0, 0, 2000⟩, dryTotal := some 38000 }

/-- A batch in the weigh stage. -/
def weighing (b : Batch) : State := { base with co := ⟨2, some b, none⟩ }

/-- A batch as the mixer holds it. -/
def mixing : MixBatch := ⟨1, 4, 101, .truck, 80, 250, 20⟩

/-- A dose record of HB1 to 5000. -/
def dose : Dose :=
  { Dose.clear with entry := ⟨.hb1, 5000, 30, 150⟩, fine := 600, allow := 180, jogPulse := 4,
                    jogLimit := 2, lowUsed := true }

/-- AGG in a dose. -/
def dosing (p : SubPhase) (net : Int) : State :=
  withChan .agg fun c =>
    { c with state := .dosing p, dose := dose, net := net, batch := some ⟨1, 4, 101⟩ }

/-- A window holding words. -/
def window (ws : List (Nat × Word)) : State := writeWords ws base

/-- Temperature channels GOOD with a reading. -/
def warm (v : Int) : PerTemp TempCh := tempAll ⟨none, some v, 0⟩

/-- A reading of a frame. -/
def reading (valid : Bool) (v : Int) : TempReading := ⟨valid, BitVec.ofInt 16 v⟩

/-- The state after a command. -/
def after (c : Instr) (s : State) : State := (nextState (exec c s)).getD s

/-! ### Hypotheses met, clause by clause -/

theorem witness_StepWithNoCommand :
    base.pending = [] ∧ low.pending = [] ∧ low.port.resetLow = true ∧ waits.port.resetLow = false ∧
      waits.port.waiting ≠ [] ∧ arbiterFree base = true ∧ dueNow base = [] ∧
      dueNow { base with clk := ⟨0, 1000⟩ } = [.secondsTick] ∧ base.clk.tenthMs + 1 < 100 ∧
      dueNow { base with clk := ⟨99, 5⟩ } = [] ∧ dueNow { inPart .stopped with clk := ⟨99, 5⟩ } = [] ∧
      base.rc.part = .run ∧ base.rc.paused = false := by decide

theorem witness_PowerOnReset :
    base.port.held = [] ∧ base.port.waiting = [] ∧ neverAccessed 0x18 = true ∧
      neverAccessed 0x17 = false ∧ neverAccessed 0x112 = true ∧ neverAccessed 0x1FF = true ∧
      neverAccessed 0x215 = false ∧ neverAccessed 0x4D6 = true ∧ neverAccessed 0x541 = false ∧
      neverAccessed 0x1C0F = false ∧ neverAccessed 0x1C10 = true ∧ neverAccessed 0x1FFF = true ∧
      neverAccessed 0x203F = true ∧ neverAccessed 0x2040 = false ∧ neverAccessed 0x6DFF = true ∧
      neverAccessed 0x6E00 = false ∧ neverAccessed 0xFFFF = true := by decide +kernel

theorem witness_ResetAsserted : base.port.resetLow = false := by decide

theorem witness_HostCommandsWait :
    hostSends .load = true ∧ hostSends .vectorRead = true ∧ low.port.resetLow = true ∧
      base.port.resetLow = false ∧ (1 : Nat) ≠ 0 ∧ waits.port.resetLow = false ∧
      waits.port.waiting ≠ [] := by decide

theorem witness_WindowAccessServed : arbiterFree base = true ∧ Memory.wf base.mem = true := by decide

theorem witness_VectorRead :
    base.nu.pend = 0 ∧ (0b00001#5).getLsbD 0 = true ∧ (0b10000#5).getLsbD 4 = true ∧
      (∀ d, d < 4 → (0b10000#5).getLsbD d = false) := by decide

theorem witness_RegisterWords :
    base.port.checkRecord ≤ 18 ∧ (18 : Nat) ≤ 18 ∧
      statusWord { inPart .halted with port := { base.port with checkRecord := 18, refused := true }
                                       oe := { base.oe with walker := .lost } } = 0x4AC5 := by decide +kernel

theorem witness_ControlRefuses :
    acceptedWhen base .load = some false ∧ acceptedWhen base .run = some false ∧
      acceptedWhen (inPart .standby) .finish = some false ∧
      acceptedWhen (inPart .halted) .rearm = some false ∧
      acceptedWhen { inPart .stopped with rc := { (inPart .stopped).rc with decoder := .timing } } .run
        = some false ∧
      (0x0003 : Word) ≠ 0 ∧ namesCommand 0x0003 = false ∧ namesCommand 0x0200 = false := by decide

theorem witness_Load :
    arbiterFree State.reset = true ∧ State.reset.rc.part = .unconfigured ∧
      Memory.wf State.reset.mem = true ∧ arbiterFree (inPart .standby) = true := by decide

theorem witness_RunEnters :
    arbiterFree (inPart .standby) = true ∧ (inPart .stopped).rc.decoder = .high ∧
      (inPart .standby).mixer.suspect = false ∧ State.reset.mixer.suspect = true ∧
      ({ base.rc with finishing := true } : RunCtl).finishing = true := by decide

theorem witness_Finish :
    arbiterFree base = true ∧ base.rc.part = .run ∧ base.co.weigh = none ∧ base.co.mix = none ∧
      base.oe.lookOwed = 0 ∧ (mixerStep base).isNone = true ∧ base.rc.clearStep = .none ∧
      Memory.wf base.mem = true ∧ channelsSafe base = true ∧
      (∀ sc : Scale, (base.chan sc).state = .idle) := by
  refine ⟨by decide, by decide, by decide, by decide, by decide, by decide, by decide, by decide,
    by decide, fun sc => by cases sc <;> rfl⟩

theorem witness_PauseAndResume :
    base.port.resetLow = false ∧ base.rc.part = .run ∧ base.rc.paused = false ∧
      base.nu.list.length < 16 ∧ channelsSafe base = true := by decide

theorem witness_Rearm_Restart_BurnerReset :
    arbiterFree (inPart .stopped) = true ∧ (inPart .standby).rc.part ≠ .run ∧
      (inPart .standby).oe.lookOwed = 0 ∧
      (withHeat fun h => { h with burner := .fault }).heat.burner = .fault ∧
      base.heat.burner ≠ .fault ∧ base.inp.permit = false ∧
      { base with inp := { base.inp with permit := true, flame := true } }.inp.flame = true := by decide

theorem witness_SecondsAndIdle :
    arbiterFree base = true ∧ Memory.wf base.mem = true ∧ State.reset.heat.vals = none ∧
      base.heat.vals = some heatVals ∧ headOrder base = none ∧ base.co.weigh = none ∧
      headOrder (queued [order]) ≠ none ∧ (inPart .halted).rc.part = .halted ∧
      (let z := fun k : Nat => (([600, 2000] : List Word).getD k 0).toInt
       200 ≤ z 0 ∧ z 0 ≤ 2500 ∧ 1000 ≤ z 1 ∧ z 1 ≤ 2500 ∧ z 0 ≤ z 1) ∧
      ¬(200 ≤ (([] : List Word).getD 0 0).toInt) ∧
      (let w := fun k : Nat => (((List.replicate 9 0 ++ [120, 900]) : List Word).getD k 0).toNat
       50 ≤ w 9 ∧ w 9 ≤ 300 ∧ w 9 ≤ w 10 ∧ w 10 ≤ 1000) ∧
      ¬(50 ≤ (([] : List Word).getD 9 0).toNat) := by decide

/-- The heat controller over working words in the window. -/
def secondOver (f : Heat → Heat) (q : List Order) : State :=
  { window (writesAt Win.config [700, 2000, 60]) with
    heat := f base.heat, oe := { base.oe with queue := q } }

theorem witness_SecondsFollowDryer :
    arbiterFree (secondOver id []) = true ∧ (secondOver id []).rc.part = .run ∧
      (secondOver id []).heat.vals = some heatVals ∧ (secondOver id []).heat.permit = none ∧
      headOrder (secondOver id [order]) = some order ∧ headOrder (secondOver id []) = none ∧
      (secondOver id []).co.mix = none ∧ (secondOver id []).heat.atStandby = false ∧
      (secondOver id []).heat.idle < 60 ∧
      (let words := (List.range 24).map fun i => (secondOver id []).rd (Win.config + 2 * i)
       (heatValsFrom words heatVals).idleTime = 60) ∧
      60 ≤ (secondOver (fun h => { h with idle := 60 }) []).heat.idle ∧
      (secondOver (fun h => { h with atStandby := true }) []).heat.atStandby = true := by
  decide +kernel

theorem witness_LookPoint :
    arbiterFree base = true ∧ (queued [order, order, order]).oe.queue.length = 3 ∧
      base.oe.queue = [] ∧ base.oe.walker = .noEntry ∧ base.oe.pos = none ∧
      (window [(8, 255)]).rd Win.chainEntry = 255 ∧
      32 ≤ ((window [(8, 32)]).rd Win.chainEntry).toNat ∧
      ((window [(8, 31)]).rd Win.chainEntry).toNat < 32 ∧
      (window [(8, 31)]).rd (Win.slot 31) ≠ 1 ∧ base.oe.linkEarly = none ∧
      base.rd (Win.slot 4) ∉ [(2 : Word), 3, 4] ∧
      (window [(Win.slot 4, 2)]).rd (Win.slot 4 + 2) ≠ 101 := by decide

/-- The walker at slot 4, the slot reading as taken with a link. -/
def walkingTo (link : Word) : State :=
  { window [(Win.slot 4, 2), (Win.slot 4 + 2, 101), (Win.slot 4 + 4, link)] with
    oe := { base.oe with walker := .walking, pos := some ⟨4, 101⟩ } }

/-- The chain entry names the slot of the one queued order, which is the last of the chain. -/
def entryQueued : State :=
  { window [(8, 4), (Win.slot 4 + 2, 101), (Win.slot 4 + 4, 255)] with
    oe := { base.oe with queue := [order] } }

theorem witness_LookPoint_walking :
    (walkingTo 255).rd (Win.slot 4) ∈ [(2 : Word), 3, 4] ∧ (walkingTo 255).rd (Win.slot 4 + 2) = 101 ∧
      (walkingTo 255).rd (Win.slot 4 + Win.slotLink) = 255 ∧
      32 ≤ ((walkingTo 32).rd (Win.slot 4 + Win.slotLink)).toNat ∧
      ((walkingTo 31).rd (Win.slot 4 + Win.slotLink)).toNat < 32 ∧
      (walkingTo 31).rd (Win.slot 31) ≠ 1 ∧ (walkingTo 31).oe.linkEarly = none ∧
      ({ base.oe with linkEarly := some 31 } : OrderEngine).linkEarly = some 31 ∧
      arbiterFree (walkingTo 31) = true := by decide +kernel

theorem witness_LookPoint_queued :
    entryQueued.oe.queue = [order] ∧ entryQueued.oe.walker = .noEntry ∧ entryQueued.oe.pos = none ∧
      entryQueued.rd Win.chainEntry = BitVec.ofNat 16 order.slot ∧
      entryQueued.rd (Win.slot 4 + 2) = order.number ∧
      entryQueued.rd (Win.slot 4 + Win.slotLink) = 255 ∧
      (Level.ofWord (entryQueued.rd (Win.slot 4 + Win.slotWithdraw))).rank ≤ order.level.rank ∧
      Memory.wf entryQueued.mem = true := by decide +kernel

/-- The chain entry names slot 4, POSTED with a formula, a destination and a withdraw request; formula 0
has one component of HB1 and binder from BT1; every record is in range. -/
def posted (formula dest withdraw : Word) : State :=
  writeWords (writesAt 8 [4] ++ writesAt (Win.slot 4) [1, 101, 255, formula, 3, 20000, dest, withdraw]
    ++ writesAt 0x600 [2, 48, 1600, 0, 50, 0, 10, 8, 30, 1500, 1750, 80, 250, 20, 1]
    ++ writesAt (0x600 + 48) [0, 1000, 30, 150] ++ [(Win.source .hb1, 1), (Win.source .bt1, 1)]
    ++ (Scale.all.map fun sc => (Win.scale sc + 6, 30000)) ++ [(Win.dryerMax, 1500)]) base

/-- The header words an examination of slot 4 reads. -/
def header (s : State) : List Word :=
  [2, 6, 8, 10, 12, 14, 16, 18, 20, 22].map fun o => s.rd (Win.slot 4 + o)

theorem witness_Admission :
    let s := posted 0 0 0
    (examineChecks 4 (header s) s).1.isRight = true ∧ s.rd (Win.slot 4) = 1 ∧
      s.rd Win.chainEntry = BitVec.ofNat 16 4 ∧ arbiterFree s = true ∧ Memory.wf s.mem = true ∧
      Level.ofWord (s.rd (Win.slot 4 + 14)) = .none ∧
      Level.ofWord ((posted 0 0 1).rd (Win.slot 4 + 14)) ≠ .none ∧
      (examineChecks 4 (header (posted 0 0 1)) (posted 0 0 1)).1.isRight = true := by decide +kernel

theorem witness_Admission_refused :
    (examineChecks 4 (header (posted 24 0 0)) (posted 24 0 0)).1 = .inl (.formulaRange, 0) ∧
      (examineChecks 4 (header (posted 1 0 0)) (posted 1 0 0)).1 = .inl (.formulaNotReady, 0) ∧
      (examineChecks 4 (header (posted 0 4 0)) (posted 0 4 0)).1 = .inl (.destination, 48) := by
  decide +kernel

/-- The walker at slot 3, whose link names the POSTED slot 4; another order queued. -/
def walkingToPosted : State :=
  { writeWords [(Win.slot 3, 4), (Win.slot 3 + 2, 77), (Win.slot 3 + 4, 4)] (posted 0 0 0) with
    oe := { base.oe with walker := .walking, pos := some ⟨3, 77⟩, queue := [{ order with number := 7 }] } }

theorem witness_Admission_walking :
    let s := walkingToPosted
    arbiterFree s = true ∧ Memory.wf s.mem = true ∧ s.rc.part = .run ∧ s.oe.queue.length < 3 ∧
      findOrder s 4 (s.rd (Win.slot 4 + 2)) = none ∧ s.oe.walker = .walking ∧ s.oe.pos = some ⟨3, 77⟩ ∧
      (∀ x ∈ s.oe.queue,
        (Level.ofWord (s.rd (Win.slot x.slot + Win.slotWithdraw))).rank ≤ x.level.rank) ∧
      s.rd (Win.slot 3) ∈ [(2 : Word), 3, 4] ∧ s.rd (Win.slot 3 + 2) = 77 ∧
      s.rd (Win.slot 3 + Win.slotLink) = BitVec.ofNat 16 4 ∧ s.rd (Win.slot 4) = 1 ∧
      (examineChecks 4 (header s) s).1.isRight = true := by decide +kernel

/-- The POSTED slot 4 with an order number, and a host write that frees it behind some part accesses. -/
def freed (number : Word) (behind : Nat) : State :=
  let s := writeWords [(Win.slot 4 + 2, number)] (posted 0 0 0)
  { s with port := { s.port with waiting := [⟨true, Win.slot 4, 0, behind⟩] } }

theorem witness_Admission_abandoned :
    (freed 101 2).port.resetLow = false ∧ (freed 101 11).port.waiting = [⟨true, Win.slot 4, 0, 11⟩] ∧
      Memory.wf (freed 101 2).mem = true ∧ (freed 101 2).oe.queue = [] ∧
      (freed 101 2).oe.walker = .noEntry ∧ (freed 101 2).rd Win.chainEntry = BitVec.ofNat 16 4 ∧
      (freed 101 2).rd (Win.slot 4) = 1 ∧ (freed 0 12).rd (Win.slot 4 + 2) = 0 ∧
      (freed 0 20).port.waiting = [⟨true, Win.slot 4, 0, 20⟩] ∧ (0 : Word) ≠ 1 := by decide +kernel

/-- What the host and the log show of slot 4 after a look point: state, outcome, notices. -/
def slotAfterLook (s : State) : Word × Word × Nat :=
  let t := after .lookPoint s
  (t.rd (Win.slot 4), t.rd (Win.slot 4 + 0x40), t.nu.list.length)

/-- A freed slot is left alone behind the read, keeps part-written fields behind the opening guard, and has
been closed behind the closing guard. -/
theorem test_examination_abandoned :
    slotAfterLook (freed 101 2) = (0, 0, 0) ∧ slotAfterLook (freed 0 11) = (0, 0, 0) ∧
      slotAfterLook (freed 0 12) = (0, 3, 0) ∧ slotAfterLook (freed 0 20) = (0, 3, 0) ∧
      (slotAfterLook (freed 0 21)).2 = (3, 1) := by decide +kernel

theorem witness_OrderNumberZero :
    let s := window [(8, 31), (Win.slot 31, 1)]
    arbiterFree s = true ∧ Memory.wf s.mem = true ∧ s.rc.part = .run ∧ s.oe.queue = [] ∧
      s.oe.walker = .noEntry ∧ s.rd Win.chainEntry = BitVec.ofNat 16 31 ∧ s.rd (Win.slot 31) = 1 ∧
      s.rd (Win.slot 31 + 2) = 0 := by decide

theorem witness_WithdrawWatch :
    (inPart .stopped).rc.part ≠ .run ∧ (inPart .stopped).rc.part ≠ .standby ∧
      (Level.ofWord ((queued [order]).rd (Win.slot 4 + Win.slotWithdraw))).rank ≤ Level.none.rank ∧
      (window [(Win.slot 4 + Win.slotWithdraw, 1)]).rd (Win.slot 4 + Win.slotWithdraw) = 1 ∧
      ({ order with started := 1 } : Order).finished < 1 := by decide

/-- A withdraw request at the slot of the one queued order; the slot in a state with a number. -/
def requesting (request state number : Word) (o : Order) : State :=
  { window [(Win.slot 4, state), (Win.slot 4 + 2, number), (Win.slot 4 + Win.slotWithdraw, request)] with
    oe := { base.oe with queue := [o] } }

theorem witness_WithdrawWatch_several :
    let q := [{ order with slot := 3 }, { order with started := 1 }, { order with slot := 5 }]
    let s := { requesting 1 2 101 order with oe := { base.oe with queue := q } }
    s.oe.queue = [{ order with slot := 3 }] ++ { order with started := 1 } :: [{ order with slot := 5 }] ∧
      s.rd (Win.slot 4 + Win.slotWithdraw) = 1 ∧
      (Level.ofWord (s.rd (Win.slot 3 + Win.slotWithdraw))).rank ≤ order.level.rank ∧
      (Level.ofWord (s.rd (Win.slot 5 + Win.slotWithdraw))).rank ≤ order.level.rank := by decide +kernel

theorem witness_WithdrawWatch_discard :
    let s := { requesting 2 3 101 { order with started := 1 } with co := ⟨2, some ready, none⟩ }
    s.rd (Win.slot 4 + Win.slotWithdraw) = 2 ∧ order.level ≠ .discard ∧ (0 : Nat) < 1 ∧ 1 ≤ order.count ∧
      s.co.weigh = some ready ∧ ready.slot = 4 ∧ ready.order = 101 ∧ ready.aborted = false ∧
      ready.orderLeft = false ∧ (loseOrder 4 101 ready).orderLeft = true := by
  decide +kernel

theorem witness_WithdrawWatch_closes :
    let o := { order with started := 1, finished := 1 }
    let s := requesting 1 2 101 order
    order.started = 0 ∧ 0 < o.started ∧ o.started < o.count ∧ o.finished = o.started ∧
      s.rd (Win.slot 4) = 2 ∧ s.rd (Win.slot 4 + 2) = order.number ∧ order.slot < 32 ∧
      Memory.wf s.mem = true ∧ (requesting 1 3 101 o).rd (Win.slot 4) = 3 ∧
      (requesting 1 2 102 o).rd (Win.slot 4 + 2) ≠ o.number ∧ o.held = [] := by decide +kernel

theorem witness_WeighStart :
    arbiterFree (queued [order]) = true ∧ weighMayStart (queued [order]) = true ∧
      nextOrder (queued [order]) = some order ∧ findOrder (queued [order]) 4 101 = some order ∧
      (queued [order]).rd (Win.slot 4 + Win.slotWithdraw) = 0 ∧
      weighMayStart (inPart .stopped) = false ∧ nextOrder base = none ∧
      nextOrder (queued [{ order with started := 2 }]) = some { order with started := 2 } ∧
      order.started = 0 ∧ order.held = [] ∧ (requesting 0 2 101 order).rd (Win.slot 4) = 2 ∧
      (requesting 0 2 101 order).rd (Win.slot 4 + 2) = order.number ∧
      weighMayStart (requesting 0 2 101 order) = true ∧ Memory.wf (requesting 0 2 101 order).mem = true ∧
      (queued [order]).rd (Win.slot 4) ≠ 2 ∧ (queued [order]).nu.list.length < 16 := by decide

/-- Slot 4 taken, the scale and binder records at the ends of their ranges or just past them. -/
def rereading : State :=
  { writeWords ([(Win.slot 4, 2), (Win.slot 4 + 2, 101), (Win.preFeedPercent, 96), (Win.purgeTime, 600)]
      ++ writesAt (Win.scale .agg) [5, 1, 0, 0xFFFF, 5000, 501, 5, 2000, 61]) base with
    oe := { base.oe with queue := [order] } }

theorem witness_WeighStart_rereads :
    arbiterFree rereading = true ∧ weighMayStart rereading = true ∧ nextOrder rereading = some order ∧
      findOrder rereading 4 101 = some order ∧ rereading.rd (Win.slot 4 + Win.slotWithdraw) = 0 ∧
      (rereading.chan .agg).work = some scaleVals ∧ rereading.bit.work = some ⟨80, 200⟩ ∧
      (State.reset.chan .agg).work = none ∧ State.reset.bit.work = none := by decide +kernel

/-- A weigh start takes the fields in range and keeps the values held for the others. -/
theorem test_weighStart_rereads :
    let t := after .weighStart rereading
    (t.chan .agg).work = some ⟨65541, 1000, 65535, 5000, 5, 5, 2000, 20⟩ ∧
      t.bit.work = some ⟨80, 600⟩ := by decide +kernel

theorem witness_Charge :
    let s := weighing { ready with discard := true }
    let g := { weighing ready with heat := { base.heat with tc := warm 1600 } }
    chargeDue s = true ∧ s.rc.clearStep ≠ .discharge ∧ s.heat.vals = some heatVals ∧
      chargeDue base = false ∧ chargeDue g = true ∧
      judgePermit heatVals g.heat 1600 .bt1 1500 1750 = none ∧
      (let a := (s.modChan .agg fun c => { c with state := .weighed, net := 50 }).chan .agg
       a.state = .weighed ∧ emptyThr a ≤ a.net) ∧ (base.chan .agg).net < emptyThr (base.chan .agg) ∧
      (base.chan .rap).state ≠ .weighed ∧
      s.mixer.work = some ⟨10, 20, 20, none, 0, 2⟩ ∧
      0 < ((window [(Win.fillerDelay, 100)]).rd Win.fillerDelay).toNat ∧
      ((window [(Win.fillerDelay, 100)]).rd Win.fillerDelay).toNat ≤ 100 := by decide

theorem witness_ThermalWait :
    let s := weighing ready
    chargeDue s = true ∧ ready.discard = false ∧ s.nu.list.length < 16 ∧
      judgePermit heatVals s.heat 1600 .bt1 1500 1750 = some ⟨.aggregate, none, 1550⟩ ∧
      (∃ b : Batch, b = { ready with waiting := true, waitLimit := 10, wait := 100 } ∧
        b.wait = 10 * b.waitLimit) := by
  refine ⟨by decide, by decide, by decide, by decide, _, rfl, by decide⟩

theorem witness_WeighFrameSample :
    (base.chan .agg).work = some scaleVals ∧ (0 : Nat) < scaleVals.span ∧
      (2 * 1000 * 123 : Int) ≤ 2000 * (123 - 0) + 1000 ∧
      (2000 * (123 - 0) + 1000 : Int) < 2 * 1000 * (123 + 1) ∧ (30000 : Int) ≤ scaleVals.capacity ∧
      (base.chan .agg).state = .idle ∧ (State.reset.chan .agg).work = none := by decide

/-- AGG in the last sample but `left` of a tare whose sum so far is `sum`. -/
def taring (left : Nat) (sum : Int) (todo : List DoseEntry) : State :=
  { window [(Win.source .hb1, 1), (Win.source .hb1 + 2, 600), (Win.source .hb1 + 0x0E, 180)] with
    ch := { base.ch with agg := { chan with
      state := .taring, tareCount := 7 - left, tareSum := sum, todo := todo } } }

theorem witness_WeighFrame_tare :
    ((taring 1 70 []).chan .agg).tareCount < 7 ∧ 7 ≤ ((taring 0 70 []).chan .agg).tareCount ∧
      (16 * 10 : Int) ≤ 2 * (70 + 10) + 8 ∧ (2 * (70 + 10) + 8 : Int) < 16 * (10 + 1) ∧
      (10 : Int).natAbs ≤ scaleVals.zeroLimit ∧ scaleVals.zeroLimit < (201 : Int).natAbs ∧
      (16 * 201 : Int) ≤ 2 * (1407 + 201) + 8 ∧ (2 * (1407 + 201) + 8 : Int) < 16 * (201 + 1) ∧
      (taring 0 1407 []).nu.list.length < 13 ∧ (taring 0 1407 []).oe.queue = [] ∧
      arbiterFree (taring 0 70 []) = true ∧ feedsBarred (taring 0 70 []) = false ∧
      (taring 0 70 []).rd (Win.source .hb1) = 1 ∧ ((taring 0 70 []).chan .agg).stopOrder = false := by
  decide +kernel

/-- BIT in the last sample of a tare, its source BT2 enabled or not, its target held. -/
def bitTaring (target : HeldTarget) (enabled : Word) (last : Option Tank) (purge : Nat) : State :=
  { window [(Win.source .bt2, enabled), (Win.source .bt2 + 2, 600), (Win.source .bt2 + 0x0E, 180)] with
    ch := { base.ch with bit := { chan with
      state := .taring, tareCount := 7, tareSum := 70, todo := [⟨.bt2, 2000, 8, 30⟩]
      batch := some ⟨1, 4, 101⟩ } }
    bit := { base.bit with target := target, tankLast := last, work := some ⟨80, purge⟩ }
    co := ⟨2, some ready, none⟩ }

theorem witness_WeighFrame_bitTare :
    let s := bitTaring .none 1 none 200
    (s.chan .bit).state = .taring ∧ 7 ≤ (s.chan .bit).tareCount ∧ (s.chan .bit).stopOrder = false ∧
      (s.chan .bit).todo = [⟨.bt2, 2000, 8, 30⟩] ∧ arbiterFree s = true ∧
      s.bit.work = some ⟨80, 200⟩ ∧ s.bit.target = .none ∧ s.rd (Win.source .bt2) = 1 ∧
      tankOf .bt2 = some .bt2 ∧ s.bit.tankLast ≠ some .bt2 ∧ 0 < 200 ∧ 0 < prefeedLevel 2000 80 ∧
      (s.chan .bit).batch = some ⟨1, 4, 101⟩ ∧ s.co.weigh = some ready ∧ ready.seq = 1 ∧
      (bitTaring .noDose 1 none 200).bit.target = .noDose ∧
      (bitTaring (.bc 2000) 0 none 200).bit.target = .bc 2000 ∧
      (bitTaring (.bc 2000) 0 none 200).rd (Win.source .bt2) ≠ 1 ∧
      (bitTaring .none 1 (some .bt2) 0).bit.tankLast = some .bt2 ∧
      feedsBarred s = false := by decide +kernel

theorem witness_WeighFrame_discharge :
    let s := withChan .agg fun c => { c with state := .discharging, gate := true }
    (s.chan .agg).state = .discharging ∧ emptyThr (s.chan .agg) ≤ (50 : Int) ∧
      (49 : Int) < emptyThr (s.chan .agg) ∧ s.rc.clearStep ≠ .discharge := by decide

theorem witness_WeighFrameCutsOff :
    (dosing .fast 0).rc.part ≠ .halted ∧ grossOf scaleVals 4820 ≤ scaleVals.capacity ∧
      ((dosing .fast 0).chan .agg).state = .dosing .fast ∧ (5000 - 180 : Int) ≤ grossOf scaleVals 4820 ∧
      grossOf scaleVals 4819 < (5000 - 180 : Int) ∧ (5000 - 600 : Int) ≤ grossOf scaleVals 4400 ∧
      ((dosing .fine 0).chan .agg).state = .dosing .fine ∧
      ((dosing .fast 0).chan .agg).winCount = none := by decide

/-- AGG in a sub-phase with a least flow, its stall window full. -/
def windowEnds (p : SubPhase) (stall : Nat) : State :=
  (dosing p 1000).modChan .agg fun c =>
    { c with dose := { dose with minFlow := 20 }, winCount := some 24, winStart := 1000, stall := stall }

theorem witness_WeighFrame_stall :
    let c := (windowEnds .fast 2).chan .agg
    c.winCount = some 24 ∧ c.state = .dosing .fast ∧ (1019 : Int) < 5000 - 600 ∧ (1019 : Int) < 5000 - 180 ∧
      c.dose.minFlow ≠ 0 ∧ (1019 - c.winStart : Int) < c.dose.minFlow ∧ 2 ≤ c.stall ∧
      (c.dose.minFlow : Int) ≤ 1020 - c.winStart ∧ ((windowEnds .fine 1).chan .agg).stall < 2 := by decide

/-- AGG in SETTLING after some still samples. -/
def settling (count : Nat) (net : Int) : State :=
  (dosing .settling net).modChan .agg fun c => { c with dose := { dose with settleCount := count } }

theorem witness_WeighFrame_settles :
    ((settling 8 4970).chan .agg).dose.settleCount < 9 ∧
      9 ≤ ((settling 9 4970).chan .agg).dose.settleCount ∧ scaleVals.motionBand < (4976 - 4970 : Int).natAbs ∧
      (4975 - 4970 : Int).natAbs ≤ scaleVals.motionBand ∧
      ((settling 9 4970).chan .agg).dose.stallAt = none ∧ isPrefeed (settling 9 4970) .agg = false ∧
      (4969 : Int) < 5000 - 30 ∧ dose.jogsUsed < dose.jogLimit ∧ feedsBarred (settling 9 4969) = false ∧
      (5000 - 30 : Int) ≤ 4970 ∧ ((settling 9 4970).chan .agg).todo = [] ∧
      Memory.wf (settling 9 4970).mem = true ∧ arbiterFree (settling 9 4970) = true := by decide

/-- A settle of a dose whose jogs are used up. -/
def usedUp (count : Nat) (net : Int) : State :=
  (settling count net).modChan .agg fun c => { c with dose.jogsUsed := 2 }

/-- A settle of a dose that stalled. -/
def stalled (count : Nat) : State :=
  (settling count 4000).modChan .agg fun c => { c with dose.stallAt := some 3980 }

/-- A settle of BIT, in its pre-feed or in its continuation. -/
def prefeeding (continuing : Bool) (net : Int) : State :=
  { withChan .bit fun c => { c with
      state := .dosing .settling, net := net
      dose := { dose with entry := ⟨.bt1, 1600, 8, 30⟩, settleCount := 9, jogsUsed := 2 } } with
    bit := { base.bit with continuing := continuing } }

/-- A settle while PAUSED. -/
def settlesPaused : State :=
  { settling 9 4969 with rc := { base.rc with paused := true } }

theorem witness_SettleEnds :
    ((usedUp 9 4900).chan .agg).dose.stallAt = none ∧ isPrefeed (usedUp 9 4900) .agg = false ∧
      ((usedUp 9 4900).chan .agg).todo = [] ∧ ((usedUp 9 4900).chan .agg).dose.jogLimit = 2 ∧
      (usedUp 9 4900).rc.part = .run ∧ arbiterFree (usedUp 9 4900) = true ∧
      Memory.wf (usedUp 9 4900).mem = true ∧
      [4900, 4970, 5030, 5031, 5150, 5151].map (fun m => endOutcome dose.entry (m - 5000)) =
        [.short, .inTol, .inTol, .overTol, .overTol, .overReject] ∧
      ((stalled 9).chan .agg).dose.stallAt = some 3980 ∧ isPrefeed (stalled 9) .agg = false ∧
      ((stalled 9).chan .agg).todo = [] ∧ (stalled 9).nu.list.length < 16 ∧
      isPrefeed (prefeeding false 1600) .bit = true ∧ (prefeeding false 1600).bit.target = .none ∧
      ((prefeeding false 1600).chan .bit).dose.stallAt = none ∧
      isPrefeed (prefeeding true 1600) .bit = false ∧
      ((prefeeding true 1600).chan .bit).state = .dosing .settling ∧
      feedsBarred settlesPaused = true ∧ (settlesPaused.chan .agg).state = .dosing .settling ∧
      (settlesPaused.chan .agg).dose.jogsUsed < dose.jogLimit := by decide

/-- AGG with a component that ends and another of its list behind it. -/
def followed (next : DoseEntry) (enabled : Word) (stall : Option Int) : State :=
  (window [(Win.source .hb2, enabled), (Win.source .hb2 + 2, 600)]).modChan .agg fun c =>
    { c with
      state := .dosing .settling, net := 5000, batch := some ⟨1, 4, 101⟩, todo := [next]
      dose := { dose with settleCount := 9, stallAt := stall } }

theorem witness_GoesOn :
    let s := followed ⟨.hb2, 3000, 30, 150⟩ 1 none
    (s.chan .agg).todo = [⟨.hb2, 3000, 30, 150⟩] ∧ arbiterFree s = true ∧ Memory.wf s.mem = true ∧
      s.nu.list.length < 15 ∧ (s.chan .agg).dose.stallAt = none ∧ (5000 - 30 : Int) ≤ 5000 ∧
      s.rd (Win.source .hb2) = 1 ∧ feedsBarred s = false ∧
      feedsBarred { s with rc := { s.rc with paused := true } } = true ∧
      ((followed ⟨.hb2, 0, 30, 150⟩ 1 (some 3980)).chan .agg).dose.stallAt = some 3980 ∧
      (followed ⟨.hb2, 3000, 30, 150⟩ 0 none).rd (Win.source .hb2) ≠ 1 := by decide +kernel

/-- A sample ends a component by its verify, and the next one of the list feeds from the net accepted. -/
theorem test_goesOn :
    let t := after (.weighFrame .agg 5000 .ok) (followed ⟨.hb2, 3000, 30, 150⟩ 1 none)
    (t.chan .agg).state = .dosing .fast ∧ (t.chan .agg).feed = some (.hb2, .fast) ∧
      (t.chan .agg).base = 5000 ∧ (t.chan .agg).results = [⟨.hb1, 5000, .inTol⟩] := by decide +kernel

/-- AGG in HELD, by the gap cause and the pause cause or not. -/
def heldDose (back : Remembered) (pause : Bool) : State :=
  (dosing (.held back) 0).modChan .agg fun c => { c with gapHold := true, pauseHold := pause }

theorem witness_Held :
    ((heldDose .fast false).chan .agg).state = .dosing (.held .fast) ∧
      ((heldDose .fast false).chan .agg).pauseHold = false ∧
      ((heldDose .jogDue true).chan .agg).pauseHold = true ∧ feedsBarred (heldDose .fine false) = false ∧
      (5000 - 180 : Int) ≤ grossOf scaleVals 4820 ∧ grossOf scaleVals 4819 < (5000 - 180 : Int) ∧
      (5000 - 600 : Int) ≤ grossOf scaleVals 4400 ∧ grossOf scaleVals 4399 < (5000 - 600 : Int) ∧
      (heldDose .jogCut false).rc.part ≠ .halted ∧
      ((dosing .jogging 0).chan .agg).state = .dosing .jogging := by decide

/-- A frame clears the gap cause: FAST goes on as the thresholds have it, a pulse not begun is given now. -/
theorem test_held :
    let on := fun (back : Remembered) (pause : Bool) (n : Int) =>
      ((after (.weighFrame .agg n .ok) (heldDose back pause)).chan .agg).state
    on .fast false 4399 = .dosing .fast ∧ on .fast false 4400 = .dosing .fine ∧
      on .fast false 4820 = .dosing .settling ∧ on .jogDue false 0 = .dosing .jogging ∧
      on .fast true 4820 = .dosing (.held .fast) := by decide +kernel

theorem witness_FaultFrame :
    (scaleVals.capacity : Int) < grossOf scaleVals 30001 ∧ (base.chan .agg).state = .idle ∧
      ((withChan .agg fun c => { c with state := .fault }).chan .agg).state = .fault ∧
      base.rc.clearStep = .none ∧ base.nu.list.length < 16 ∧ (inPart .standby).rc.part ≠ .halted ∧
      ({ base.mixer.disch with agg := .asked } : PerScale Disch).get .agg = .asked ∧
      ((dosing .fast 0).chan .agg).batch = some ⟨1, 4, 101⟩ ∧ ready.seq = 1 ∧
      (dosing .fast 0).rc.part ≠ .halted ∧ channelsSafe base = true := by decide

/-- AGG in a state, a batch attached, in the clear cycle at a step. -/
def clearFault (st : ChanState) (step : ClearStep) : State :=
  { withChan .agg (fun c => { c with state := st, late := 2, batch := some ⟨1, 4, 101⟩ }) with
    rc := { base.rc with clearStep := step } }

theorem witness_FaultFrame_clear :
    let s := clearFault .discharging .discharge
    (s.chan .agg).state ≠ .fault ∧ (s.chan .agg).late = 2 ∧ s.rc.part ≠ .halted ∧
      s.nu.list.length < 15 ∧ clearPastFaults .take = true ∧ clearPastFaults .waitReceiver = true ∧
      clearPastFaults s.rc.clearStep = true ∧ clearPastFaults .mix = true ∧
      clearPastFaults .waitFaults = false ∧ arbiterFree s = true ∧ Memory.wf s.mem = true ∧
      burnerLit s.heat.burner = false ∧ burnerLit .modulating = true := by decide

theorem witness_FaultFrame_weighed :
    let s := clearFault .weighed .none
    let m := { s with co := ⟨2, none, some ready⟩ }
    (s.chan .agg).state = .weighed ∧ s.rc.clearStep = .none ∧ s.nu.list.length < 16 ∧
      (m.chan .agg).batch = some ⟨1, 4, 101⟩ ∧ m.co.mix = some ready ∧ m.co.weigh = none ∧
      ready.seq = 1 ∧ ((withChan .agg fun c => { c with state := .weighed }).chan .agg).batch = none ∧
      ofWeighStage .weighed = true ∧ ofWeighStage .taring = true ∧ ofWeighStage (.dosing .fast) = true ∧
      ofWeighStage .prefed = true ∧ ofWeighStage .changeover = true ∧
      ({ s with co := ⟨2, some ready, none⟩ } : State).co.weigh = some ready := by decide

/-- A fault in the clear cycle past WAIT FAULTS posts SCALE FAULT and HALT and halts the part. -/
theorem test_faultFrame_halts :
    let t := after (.weighFrame .agg 0 .overload) (clearFault .discharging .waitReceiver)
    t.rc.part = .halted ∧ t.rd Win.partState = 5 ∧ t.rc.clearStep = .waitReceiver ∧
      t.nu.list.map (fun n => n.detail) = [.scaleFault .agg .overload .discharging 0,
        .halt .scaleFaultInClear .waitReceiver 0] := by decide +kernel

/-- A fault of a scale that waits in WEIGHED with the mixer-stage batch ends its discharge. -/
theorem test_faultFrame_weighed :
    let s := { clearFault .weighed .none with co := ⟨2, none, some ready⟩ }
    let t := after (.weighFrame .agg 0 .overload) s
    t.mixer.disch.agg = .ended .faulted ∧ t.rc.clearRequired = true ∧ t.co.mix = some ready := by
  decide +kernel

theorem witness_LatePeriod :
    (State.reset.chan .agg).work = none ∧ (base.chan .agg).work.isSome = true ∧
      ((withChan .agg fun c => { c with late := 2 }).chan .agg).late = 2 ∧
      (base.chan .agg).late < 2 ∧ ((dosing .jogging 0).chan .agg).state = .dosing .jogging ∧
      ((dosing .settling 0).chan .agg).state = .dosing .settling ∧
      ((dosing (.held .fine) 0).chan .agg).state = .dosing (.held .fine) ∧
      (dosing .fast 0).rc.part ≠ .halted := by decide

/-- AGG in a state two periods late, a batch attached and in the weigh stage. -/
def twoLate (st : ChanState) : State :=
  { withChan .agg (fun c => { c with state := st, late := 2, net := 50, batch := some ⟨1, 4, 101⟩ }) with
    co := ⟨2, some ready, none⟩, mixer := { base.mixer with disch := ⟨.asked, .asked, .asked, .asked⟩ } }

theorem witness_LatePeriod_third :
    let s := twoLate (.dosing .fast)
    (s.chan .agg).work.isSome = true ∧ (s.chan .agg).late = 2 ∧ s.rc.part ≠ .halted ∧
      s.rc.clearStep = .none ∧ s.nu.list.length < 13 ∧ s.oe.queue = [] ∧
      (s.chan .agg).batch = some ⟨1, 4, 101⟩ ∧ s.co.weigh = some ready ∧ ready.seq = 1 ∧
      ((twoLate .idle).chan .agg).state = .idle ∧ ((twoLate .fault).chan .agg).state = .fault ∧
      ((twoLate .discharging).chan .agg).state = .discharging ∧
      (twoLate .discharging).mixer.disch.get .agg = .asked := by decide

/-- The third late period of a discharge faults the channel and posts SCALE FAULT. -/
theorem test_latePeriod_third :
    let t := after (.latePeriod .agg) (twoLate .discharging)
    (t.chan .agg).state = .fault ∧ (t.chan .agg).batch = none ∧
      t.mixer.disch.agg = .ended .faulted ∧ t.rc.clearRequired = true ∧
      t.nu.list.map (fun n => n.detail) = 
        [.scaleFault .agg .lost .discharging ((twoLate .discharging).chan .agg).gross] := by
  decide +kernel

theorem witness_SettleTimeout :
    (base.chan .agg).state ≠ .dosing .settling ∧
      ((dosing .settling 4969).chan .agg).dose.stallAt = none ∧
      isPrefeed (dosing .settling 4969) .agg = false ∧ (4969 - 5000 : Int) < -(30 : Int) ∧
      dose.jogsUsed < dose.jogLimit ∧ (-(30 : Int)) ≤ (4970 - 5000 : Int) ∧
      (5030 - 5000 : Int) ≤ 30 ∧ ((dosing .settling 4970).chan .agg).todo = [] ∧
      Memory.wf (dosing .settling 4970).mem = true := by decide

theorem witness_ChannelTimers :
    let s := withChan .agg fun c => { c with state := .discharging, gate := true }
    let m := { s with mixer := { s.mixer with disch := ⟨.asked, .asked, .asked, .asked⟩ } }
    (s.chan .agg).state = .discharging ∧ (s.chan .agg).work = some scaleVals ∧
      m.mixer.disch.get .agg = .asked ∧ m.rc.clearStep ≠ .discharge ∧
      ({ s.rc with clearStep := .discharge } : RunCtl).clearStep = .discharge ∧
      ((dosing .jogging 0).chan .agg).state = .dosing .jogging ∧ (base.chan .agg).state ≠ .discharging := by
  decide

theorem witness_BinLow :
    Source.fs1.hasLowInput = false ∧ Source.hb1.hasLowInput = true ∧ Source.rb2.hasLowInput = true ∧
      (dosing .fast 0).inp.binLow.getLsbD 0 = false ∧ ((dosing .fast 0).chan .agg).dose.lowUsed = true ∧
      ((dosing .fast 0).chan .agg).batch = some ⟨1, 4, 101⟩ ∧ (dosing .fast 0).rc.part ≠ .halted ∧
      (inPart .halted).rc.part = .halted := by decide

/-- BIT in CHANGEOVER for a binder mass. -/
def changing (bn : Int) : State :=
  withChan .bit fun c =>
    { c with state := .changeover, dose := { dose with entry := ⟨.bt2, bn, 8, 30⟩ } }

theorem witness_Purge :
    ((changing 2000).chan .bit).state = .changeover ∧ (changing 2000).bit.work = some ⟨80, 200⟩ ∧
      (200 * 1600 : Int) ≤ 2 * 2000 * 80 + 100 ∧ (2 * 2000 * 80 + 100 : Int) < 200 * (1600 + 1) ∧
      (600 : Int) < 1600 ∧ (180 : Int) < 240 ∧ (240 : Int) ≤ 600 ∧ (80 : Int) ≤ 180 ∧
      (base.chan .bit).state ≠ .changeover := by decide

/-- The third dry scale has reported; BIT in a state with a pre-fed mass. -/
def dryReady (agg : Int) (st : ChanState) (prefed : Int) : State :=
  let b := { ready with reported := ⟨true, true, true, false⟩, nets := ⟨agg, 0, 0, 0⟩, dryTotal := none }
  { (weighing b).modChan .bit fun c => { c with
      state := st, dose := { dose with entry := ⟨.bt1, 1600, 8, 30⟩ } } with
    bit := { base.bit with prefed := prefed } }

theorem witness_Corrected :
    let b := { ready with reported := ⟨true, true, true, false⟩, nets := ⟨38000, 0, 0, 0⟩, dryTotal := none }
    (dryReady 38000 .prefed 1600).co.weigh = some b ∧ dryReported b = true ∧ b.dryTotal = none ∧
      b.discard = false ∧ b.aborted = false ∧ binderMass 50 0 38000 0 = 2000 ∧
      (10 * 34199 : Int) < 9 * b.dn ∧ (9 * b.dn : Int) ≤ 10 * 34200 ∧
      ((dryReady 38000 .prefed 1600).chan .bit).state = .prefed ∧ (1600 : Int) < 2000 ∧
      (2000 - 180 : Int) ≤ 1820 ∧ (1399 : Int) < 2000 - 600 ∧ (2000 - 600 : Int) ≤ 1400 ∧
      (1400 : Int) < 2000 - 180 ∧ (2000 : Int) ≤ 2008 := by decide

theorem witness_Corrected_ends :
    let z := { (dryReady 38000 .prefed 1600) with
      co := ⟨2, some { ready with
        reported := ⟨true, true, true, false⟩, nets := ⟨38000, 0, 0, 0⟩, dryTotal := none, b := 0 }, none⟩ }
    ((dryReady 34199 .changeover 0).chan .bit).state = .changeover ∧
      ((dryReady 34199 .taring 0).chan .bit).state = .taring ∧
      ((dryReady 34199 (.dosing .fast) 0).chan .bit).state = .dosing .fast ∧
      (dryReady 38000 .prefed 2000).bit.notDosed = false ∧
      (dryReady 38000 .prefed 2000).bit.preStalled = false ∧ binderMass 0 0 38000 0 = 0 ∧
      z.rc.part = .run ∧ dryTestHere z = true ∧ (z.chan .bit).state = .prefed ∧
      arbiterFree (dryReady 38000 .prefed 2000) = true ∧
      Memory.wf (dryReady 38000 .prefed 2000).mem = true := by decide +kernel

/-- BIT's results as the dry shortfall test leaves them. -/
def bitEnds (s : State) : List (Int × DoseOutcome) :=
  (((nextAtOnce s).getD s).chan .bit).results.map fun r => (r.actual, r.outcome)

/-- The binder entry at each end in PREFED and CHANGEOVER. -/
theorem test_corrected_ends :
    let p := dryReady 38000 .prefed 1600
    bitEnds { p with bit := { p.bit with notDosed := true, prefed := 0 } } = [(0, .notDosed)] ∧
      bitEnds { p with bit := { p.bit with preStalled := true } } = [(1600, .stall)] ∧
      bitEnds (dryReady 38000 .prefed 2031) = [(2031, .overReject)] ∧
      bitEnds (dryReady 3000 .changeover 0) = [(0, .notDosed)] := by decide +kernel

/-- A mixer phase with the batch in the mixer. -/
def mixPhase (p : Phase) : State := withMixer fun m => { m with phase := p, batch := some mixing }

/-- The same with a scale holding material in WEIGHED. -/
def loaded (p : Phase) (sc : Scale) (net : Int) : State :=
  (mixPhase p).modChan sc fun c => { c with state := .weighed, net := net }

theorem witness_FillerDelay :
    let s := loaded .charging .fil 50
    s.mixer.phase = .charging ∧ s.mixer.disch.fil = .notAsked ∧ (s.chan .fil).state = .weighed ∧
      emptyThr (s.chan .fil) ≤ 50 ∧ (49 : Int) < emptyThr (s.chan .fil) ∧ s.rc.clearStep = .none ∧
      ({ s.mixer.disch with fil := .asked } : PerScale Disch).fil ≠ .notAsked := by
  decide

/-- The filler delay timer counts a tenth in CHARGING until FIL is asked, and not after (log 63). -/
theorem test_fillerTimer_stops :
    let m := (mixPhase .charging).mixer
    (mixerTenth { m with fillT := 3 }).fillT = 4 ∧
      (mixerTenth { m with fillT := 3, disch := { m.disch with fil := .asked } }).fillT = 3 := by
  decide +kernel

theorem witness_DryMix :
    let s := loaded .dry .bit 50
    plainRun s = true ∧ s.mixer.phase = .dry ∧ s.mixer.batch = some mixing ∧ s.mixer.cmPhase = none ∧
      s.mixer.disch.bit = .notAsked ∧ (s.chan .bit).state = .weighed ∧
      emptyThr (s.chan .bit) ≤ (s.chan .bit).net := by decide

theorem witness_WetMix :
    let s := mixPhase .wet
    let e := { s with mixer := { s.mixer with disch := { s.mixer.disch with bit := .ended .empty } } }
    plainRun s = true ∧ hasEnded s.mixer.disch.bit = false ∧ plainRun e = true ∧
      hasEnded e.mixer.disch.bit = true ∧ e.mixer.cmPhase = none ∧ e.inp.ready.get .truck = false ∧
      e.mixer.rwPosted = false := by decide

/-- WET with the spray ended: the truck ready, RECEIVER WAIT posted, RAP discharging. -/
def sprayed (ready posted disch : Bool) : State :=
  { (mixPhase .wet).modChan .rap (fun c => { c with state := if disch then .discharging else .idle }) with
    inp := { base.inp with ready := base.inp.ready.set .truck ready }
    mixer := { (mixPhase .wet).mixer with
      rwPosted := posted, disch := { base.mixer.disch with bit := .ended .empty } } }

theorem witness_WetMix_ready :
    plainRun (sprayed true false false) = true ∧ mixing.route = .truck ∧
      (sprayed true false false).inp.ready.get .truck = true ∧
      anyDischarging (sprayed true false false) = false ∧
      anyDischarging (sprayed true false true) = true ∧ plainRun (sprayed false true false) = true ∧
      (sprayed false true false).inp.ready.get .truck = false ∧
      (sprayed false true false).mixer.rwPosted = true := by decide

/-- At the end of WET a ready receiver opens the door at once, or once no channel discharges. -/
theorem test_wetMix_ready :
    (after .wetMixExpiry (sprayed true false false)).mixer.phase = .doorOpen ∧
      (after .wetMixExpiry (sprayed true false false)).mixer.door = true ∧
      (after .wetMixExpiry (sprayed true false true)).mixer.phase = .dischargeWait ∧
      (after .wetMixExpiry (sprayed false true false)).nu.list = [] := by decide +kernel

theorem witness_ReceiverReady :
    let s := mixPhase .dischargeWait
    plainRun s = true ∧ s.mixer.batch = some mixing ∧ anyDischarging s = false ∧
      Route.silo1 ≠ mixing.route ∧ plainRun base = true ∧ base.mixer.phase = .empty ∧
      low.port.resetLow = true := by decide

/-- A clear cycle at a step, the mixer held. -/
def clearing (step : ClearStep) : State :=
  { withMixer fun m => { m with clearHold := true } with rc := { base.rc with clearStep := step } }

theorem witness_ClearSteps :
    let s := clearing .waitReceiver
    let e := { clearing .discharge with rc := { (clearing .discharge).rc with
      clearRec := { ClearRec.empty with ends := ⟨some .empty, some .timedOut, some .empty, some .empty⟩ } } }
    s.rc.part = .run ∧ dryTestHere s = false ∧ s.mixer.phase = .empty ∧ s.mixer.clearHold = true ∧
      s.rc.paused = false ∧ s.rc.clearRec.rwPosted = false ∧ s.oe.lookOwed = 0 ∧
      (base.chan .agg).net < emptyThr (base.chan .agg) ∧ (base.chan .agg).state = .idle ∧
      emptyThr (base.chan .agg) ≤ 50 ∧ arbiterFree e = true ∧ anyDischarging e = false ∧
      e.rc.clearRec.ends.all Option.isSome = true := by decide

theorem witness_MixerPostsOnce :
    let s := mixPhase .dischargeWait
    let o := { s with mixer := { s.mixer with overT := 201 } }
    let c := { s with mixer := { s.mixer with cmPhase := some .dischargeWait, cmOffset := 3, clock := 3 } }
    o.mixer.overT = 10 * mixing.overLimit + 1 ∧ o.mixer.omPosted = false ∧
      c.mixer.cmPhase = some .dischargeWait ∧ MarkPhase.dischargeWait.phase = c.mixer.phase ∧
      c.mixer.clock = c.mixer.cmOffset ∧ c.mixer.cmPosted = false ∧ s.mixer.cmPhase = none := by decide

theorem witness_DoorPhases :
    plainRun (mixPhase .doorOpen) = true ∧ (mixPhase .doorOpen).inp.doorClosed = false ∧
      (withMixer fun m => { m with phase := .clearMix }).mixer.phase = .clearMix ∧
      anyDischarging base = false ∧
      anyDischarging (withChan .rap fun c => { c with state := .discharging }) = true := by decide

theorem witness_DoorClosed :
    let c := { withMixer fun m => { m with phase := .doorClosing, clearHold := true } with
      rc := { base.rc with clearStep := .mix } }
    plainRun (mixPhase .doorClosing) = true ∧ (mixPhase .doorClosing).mixer.clearHold = false ∧
      c.rc.clearStep = .mix ∧ c.rc.finishing = false ∧ c.co.weigh = none ∧ c.mixer.clearHold = true := by
  decide

/-- The door of a batch closing, its order queued, its slot in a state with a number. -/
def closing (state number : Word) : State :=
  { requesting 0 state number { order with started := 3, finished := 1 } with
    mixer := (mixPhase .doorClosing).mixer
    co := ⟨2, none, some ready⟩ }

theorem witness_Ticket :
    let s := closing 3 101
    plainRun s = true ∧ s.mixer.phase = .doorClosing ∧ s.mixer.clearHold = false ∧ s.mixer.cmPhase = none ∧
      s.co.mix = some ready ∧ findOrder s 4 101 = some { order with started := 3, finished := 1 } ∧
      order.held = [] ∧ ready.slot < 32 ∧ ready.index = 1 ∧ Memory.wf s.mem = true ∧
      s.rd (Win.slot 4) = 3 ∧ s.rd (Win.slot 4 + 2) = ready.order ∧ 1 + 1 < 3 ∧
      (closing 3 102).rd (Win.slot 4 + 2) ≠ ready.order ∧ ready.orderLeft = false ∧
      (loseOrder 4 101 ready).orderLeft = true ∧
      findOrder { closing 3 101 with oe := base.oe } 4 101 = none ∧
      verdictOf { ready with aborted := true } = .aborted ∧ verdictOf { ready with short := true } = .reject ∧
      verdictOf ready = .flagged ∧ verdictOf { ready with comps := [] } = .good := by decide +kernel

/-- The door of a batch of one queued order closing. -/
def closingOf (o : Order) : State := { closing 3 101 with oe := { base.oe with queue := [o] } }

/-- The last ticket of an order whose three batches have started. -/
def lastTicket : Order := { order with started := 3, finished := 2, tickets := 2 }

theorem witness_Ticket_closes :
    let w := { order with started := 2, finished := 1, level := .withdraw }
    let a := { lastTicket with abortedTickets := 1 }
    findOrder (closingOf lastTicket) 4 101 = some lastTicket ∧ lastTicket.finished + 1 = lastTicket.started ∧
      lastTicket.started = lastTicket.count ∧ lastTicket.abortedTickets = 0 ∧
      findOrder (closingOf w) 4 101 = some w ∧ w.finished + 1 = w.started ∧ w.started < w.count ∧
      w.level ≠ .none ∧ 0 < a.abortedTickets ∧ plainRun (closingOf lastTicket) = true ∧
      (closingOf lastTicket).nu.list.length < 15 ∧ Memory.wf (closingOf lastTicket).mem = true ∧
      ({ order with started := 1 } : Order).started < order.count ∧ order.level = .none := by decide +kernel

/-- Slot state, outcome and notices after the door of a batch has closed. -/
def ticketEnds (o : Order) : Word × Word × List Nat :=
  let t := (nextAtOnce { closingOf o with inp := { base.inp with doorClosed := true } }).getD base
  (t.rd (Win.slot 4), t.rd (Win.slot 4 + 0x40), t.nu.list.map fun n => kindCode n.detail)

/-- The last ticket of an order closes it COMPLETE, or PARTIAL with an ABORTED ticket; one whose batches are
still to start stays. -/
theorem test_lastTicket :
    ticketEnds lastTicket = (4, BitVec.ofNat 16 OrderOutcome.complete.code, [13, 11]) ∧
      ticketEnds { lastTicket with abortedTickets := 1 } =
        (4, BitVec.ofNat 16 OrderOutcome.partialDone.code, [13, 11]) ∧
      ticketEnds { order with started := 1 } = (3, 0, [13]) := by decide +kernel

theorem witness_DoorTimeout :
    arbiterFree (mixPhase .doorClosing) = true ∧ (mixPhase .doorClosing).rc.paused = false ∧
      (mixPhase .doorClosing).nu.list.length < 15 ∧ (mixPhase .doorClosing).oe.lookOwed = 0 ∧
      base.mixer.phase ≠ .doorClosing := by decide

/-- STOP# low for some milliseconds. -/
def lineLow (s : State) (n : Nat) : State := { s with rc := { s.rc with decoder := .timing, pulse := n } }

theorem witness_StopLine :
    base.rc.decoder = .high ∧ (lineLow base 39).rc.decoder = .timing ∧ max 39 0 < 40 ∧ 40 ≤ max 39 40 ∧
      max 399 40 < 400 ∧ 400 ≤ max 0 400 ∧ (inPart .standby).rc.part = .standby ∧
      (lineLow base 40).rc.paused = false ∧
      ({ base.rc with decoder := .held } : RunCtl).decoder = .held := by decide

/-- RUN, PAUSED since second 3, STOP# timing, ten seconds counted. -/
def pausedRun : State :=
  { base with rc := { base.rc with decoder := .timing, paused := true, pausedAt := 3 }, seconds := 10 }

theorem witness_StopLine_more :
    pausedRun.rc.decoder = .timing ∧ pausedRun.rc.part = .run ∧ pausedRun.rc.paused = true ∧
      pausedRun.nu.list.length < 16 ∧ (lineLow base 400).rc.part = .run ∧
      (lineLow (inPart .unconfigured) 400).rc.part = .unconfigured ∧
      (lineLow (inPart .checking) 400).rc.part = .checking ∧
      (lineLow (inPart .halted) 400).rc.part = .halted := by decide

/-- A pause toggle while PAUSED resumes and posts RESUMED with the seconds of the pause (log 17). -/
theorem test_stopLine_resumes :
    let t := after (.stopLineRise 100) pausedRun
    t.rc.paused = false ∧ t.nu.list.map (fun n => n.detail) = [.resumed .line 7] := by decide +kernel

theorem witness_PlantStop :
    arbiterFree (lineLow base 400) = true ∧ (lineLow base 400).rc.decoder = .timing ∧
      (lineLow base 400).rc.part = .run ∧ (lineLow (inPart .checking) 400).rc.part = .checking ∧
      (lineLow (inPart .halted) 400).rc.part = .halted ∧ base.rc.decoder ≠ .timing ∧
      (lineLow (inPart .standby) 400).oe.lookOwed = 0 ∧
      followQueue (lineLow (inPart .standby) 400) = lineLow (inPart .standby) 400 ∧
      (lineLow (inPart .standby) 400).rc.decoder ≠ .high ∧ base.pending.head? ≠ some .softReset ∧
      base.co.weigh = none ∧ base.co.mix = none ∧ base.oe.queue = [] ∧ base.nu.list.length < 16 := by
  decide +kernel

/-- A line low for 399 ms, an order queued with its slot in a state, a batch of it in a stage. -/
def stopping (state : Word) (co : Coord) : State :=
  { lineLow (window [(Win.slot 4, state), (Win.slot 4 + 2, 101)]) 399 with
    oe := { base.oe with queue := [{ order with started := 1 }] }
    co := co
    mixer := (mixPhase .wet).mixer }

theorem witness_PlantStop_closes :
    let s := stopping 3 ⟨2, none, some ready⟩
    s.rc.decoder = .timing ∧ s.rc.part = .run ∧ arbiterFree s = true ∧ s.pending.head? ≠ some .softReset ∧
      s.oe.queue = [{ order with started := 1 }] ∧ order.held = [] ∧ order.slot < 32 ∧
      ready.slot = 4 ∧ ready.order = 101 ∧ ready.orderLeft = false ∧ 1 ≤ ready.index ∧ ready.index ≤ 8 ∧
      Memory.wf s.mem = true ∧ s.nu.list.length < 14 ∧ s.co.mix = some ready ∧ s.co.weigh = none ∧
      (stopping 3 ⟨2, some ready, none⟩).co.weigh = some ready ∧
      (stopping 3 ⟨2, some ready, none⟩).co.mix = none ∧ s.rd (Win.slot 4) = 3 ∧
      s.rd (Win.slot 4 + 2) = 101 ∧ (stopping 4 ⟨2, none, none⟩).rd (Win.slot 4) = 4 ∧
      s.oe.queue.Pairwise (fun o p => o.slot ≠ p.slot) ∧ s.nu.list.length + s.oe.queue.length < 16 := by
  decide +kernel

/-- A plant stop hands the mixer-stage batch's ticket over ABORTED and closes its order ABORTED. -/
theorem test_plantStop_closes :
    let t := after .plantStop (stopping 3 ⟨2, none, some ready⟩)
    t.rd (Win.slot 4) = 4 ∧ t.rd (Win.slot 4 + 0x40) = 4 ∧ t.rd (Win.slot 4 + 0x46) = 1 ∧
      t.nu.list.map (fun n => kindCode n.detail) = [10, 13, 11] := by decide +kernel

/-- GOOD channels at a reading, a working and a latched heater, and the burner in MODULATING. -/
def heating (v : Int) (k : TankState) : State := withHeat fun h =>
  { h with burner := .modulating, firing := 300, tc := warm v, bt1 := k
           vals := some { heatVals with bt1 := ⟨1600, 1500, 1800⟩, hysteresis := 30, baghouse := 2000 } }

theorem witness_TemperatureFrame :
    let s := heating 1600 ⟨true, true, false⟩
    let h := { weighing ready with heat := { base.heat with
      tc := warm 1600, permit := some ⟨1600, .bt1, 1500, 1750, ⟨.aggregate, none, 1550⟩⟩ } }
    s.heat.permit = none ∧ s.nu.list.length < 8 ∧ s.heat.burner = .modulating ∧
      heatersRun s.rc.part = true ∧ (1600 : Int) ≤ 1600 ∧ (1569 : Int) < 1600 - 30 ∧
      (1600 - 30 : Int) ≤ 1570 ∧ (1570 : Int) < 1600 ∧ (1570 : Int) < 1800 ∧ h.co.weigh = some ready ∧
      h.rc.part = .run ∧ h.rc.paused = false ∧ h.mixer.phase = .empty ∧ h.mixer.clearHold = false ∧
      h.heat.vals = some heatVals ∧ judgePermit heatVals h.heat 1600 .bt1 1500 1750 = none ∧
      judgePermit heatVals h.heat 1700 .bt1 1500 1750 ≠ none ∧
      (heating 1600 ⟨true, false, false⟩).heat.bt1.latch = false ∧ (1800 : Int) ≤ 1900 := by decide

/-- A reading at the high limit latches the tank and posts TANK HIGH, once. -/
theorem test_tankHigh :
    let f : TempFrame := { tempAll (reading true 1600) with t3 := reading true 1800 }
    let t := after (.temperatureFrame f) (heating 1600 ⟨true, false, false⟩)
    t.heat.bt1.latch = true ∧ t.nu.list.map Notice.detail = [.tankHigh .bt1 1800 1800 1600,
      .tankHigh .bt2 1600 1001 1000] ∧
      (after (.temperatureFrame f) t).nu.list.length = 2 := by decide +kernel

theorem witness_Missing :
    (withHeat fun h => { h with missing := 3, tc := warm 1600 }).heat.missing = 3 ∧
      (warm 1600).t1.fault = none ∧ base.heat.missing < 4 ∧ (TempCh.reset).fault ≠ none := by decide

/-- The fourth missing period in MODULATING: the T1 hold and the T7 clamp at min fire, both heaters off. -/
theorem test_missing_fourth :
    let s := withHeat fun h => { h with missing := 3, tc := warm 1600, burner := .modulating, firing := 500
                                        reg := some ⟨38400, 500000, some 1600⟩
                                        bt1 := ⟨true, true, false⟩, bt2 := ⟨true, false, false⟩ }
    let t := (after .missingPeriod s).heat
    t.t1Hold = true ∧ t.t7Clamp = true ∧ t.firing = 120 ∧ t.reg = some ⟨38400, 120000, none⟩ ∧
      t.bt1 = ⟨false, true, false⟩ ∧ t.bt2 = ⟨false, false, false⟩ := by decide +kernel

theorem witness_BurnerInputs :
    base.heat.burner = .off ∧ base.rc.part = .run ∧ base.inp.flame = false ∧
      burnerLit base.heat.burner = false ∧ burnerLit .modulating = true ∧
      (inPart .standby).rc.part ≠ .run := by decide

theorem witness_BurnerTimers :
    let s := withHeat fun h => { h with burner := .lowFire, tc := warm 1500 }
    s.heat.vals = some heatVals ∧ s.heat.burner = .lowFire ∧
      goodReading s.heat.tc.t1 = some 1500 ∧ s.heat.burner ≠ .requested := by decide

/-- MODULATING at a T1 reading with the setpoint at the target. -/
def modulating (pv : Int) : State := withHeat fun h =>
  { h with burner := .modulating, firing := 300, tc := warm pv, target := some 1600, period := 8,
           reg := some ⟨24 * 1600, 300000, some pv⟩ }

theorem witness_Regulator :
    (modulating 1590).heat.reg = some ⟨24 * 1600, 300000, some 1590⟩ ∧
      (modulating 1590).heat.target = some 1600 ∧ (modulating 1590).heat.t1Hold = false ∧
      (roundDiv (24 * 1600) 24 - 1590).natAbs ≤ heatVals.deadband ∧
      heatVals.deadband < (roundDiv (24 * 1600) 24 - 1589).natAbs ∧
      goodReading (modulating 1590).heat.tc.t1 = some 1590 := by decide

/-- A notice to write. -/
def notice : Notice := ⟨4, 101, 1, .receiverWait .truck⟩

theorem witness_Notice :
    base.nu.list = [] ∧ base.nu.pos < 64 ∧ arbiterFree base = true ∧ Memory.wf base.mem = true ∧
      ({ base.nu with list := [notice], pos := 63 } : NoticeUnit).pos < 64 ∧
      waits.port.resetLow = false ∧ [notice] ≠ [] := by decide

/-- An offer of two samples. -/
def offer : Offer := ⟨.agg, .hb1, 1, 101, 5000, 4820, 4900, .short, [10, -1]⟩

theorem witness_Capture :
    base.nu.offers = [] ∧ offer.samples.length ≤ 128 ∧ base.rd Win.captureState = 0 ∧
      (window [(Win.captureState, 1)]).rd Win.captureState ≠ 0 ∧ [offer] ≠ [] ∧
      waits.nu.list.length < 16 := by decide

theorem witness_DerivedMasses :
    let den : Int := (1000 - 50) * 1000
    let num : Int := 1000 * 50 * 38000 - 0
    dryMass 5000 90 = 4550 ∧ dryMass 60000 20 = 58800 ∧
    50 < 1000 ∧ 2 * den * 2000 ≤ 2 * num + den ∧ 2 * num + den < 2 * den * (2000 + 1) ∧
    (let d := { dose with observed := some 200, gain := 4 }
     d.gain ≠ 0 ∧ d.held = false ∧ d.unsettled = false ∧ d.sampleGap = false ∧ 0 ≤ d.fine ∧
       (16 * 190 : Int) ≤ 2 * (8 * 180 + (200 - 180) * 4) + 8 ∧
       (2 * (8 * 180 + (200 - 180) * 4) + 8 : Int) < 16 * (190 + 1)) := by decide

theorem witness_Laws :
    channelsSafe base = true ∧ doorSafe base = true ∧ fireSafe base.heat = true ∧
      queueSafe base = true ∧ stagesSafe base.co = true ∧ runSafe base.rc = true ∧
      burnerSafe base = true ∧ heaterSafe base = true ∧ memorySafe base = true ∧
      noticeSafe base.nu = true ∧ lateSafe base = true ∧ feedSafe base = true ∧
      feedsBarred (inPart .stopped) = true ∧ feedSafe (inPart .stopped) = true := by decide

/-! ### The configuration check -/

/-- Words at rising addresses. -/
def wordsAt (a : Nat) (ws : List Word) : List (Nat × Word) := writesAt a ws

/-- A configuration every field of which is in range. -/
def goodConfig : List (Nat × Word) :=
  [(Win.layoutVersion, 3)]
  ++ (Scale.all.flatMap fun sc => wordsAt (Win.scale sc) [0, 0, 1000, 30000, 200, 5, 30, 50, 20])
  ++ ((List.range 12).flatMap fun n => wordsAt (0x200 + 64 * n) [1, 600, 4, 0, 4, 2, 1, 180])
  ++ wordsAt Win.config [600, 2000, 60, 10, 8, 250, 40, 300, 10, 120, 900, 30, 60, 2200, 1300, 1600,
      2000, 1300, 1600, 2000, 30, 50, 80, 1400, 120, 80, 200, 30, 40, 60, 3, 100, 5]

/-- The part in CHECKING over that configuration. -/
def checking : State :=
  { writeWords goodConfig State.reset with rc := { RunCtl.reset with part := .checking } }

theorem witness_CheckEnds :
    arbiterFree checking = true ∧ checking.oe.lookOwed = 0 ∧ checking.rc.part = .checking ∧
      Memory.wf checking.mem = true ∧ firstFailing checking.rd checkFields [] = none ∧
      (inPart .checking).rd Win.layoutVersion ≠ 3 ∧
      ((firstFailing (checking.wr (Win.scale .rap + 6) 0).rd checkFields []).map fun f =>
        (f.record, f.offset)) = some (3, 3) ∧ base.rc.part ≠ .checking := by decide +kernel

/-- The part in CHECKING with orders queued and another target. -/
def checkingWith (q : List Order) (target : Option Int) (atStandby : Bool) : State :=
  { checking with
    heat := { checking.heat with target := target, atStandby := atStandby }
    oe := { checking.oe with queue := q } }

theorem witness_CheckEnds_target :
    headOrder (checkingWith [order] none false) = some order ∧
      headOrder (checkingWith [] none false) = none ∧
      (checkingWith [] none false).heat.target = none ∧
      (checkingWith [] (some 1500) true).heat.atStandby = true ∧
      firstFailing (checkingWith [order] none false).rd checkFields [] = none := by decide +kernel

/-! ### One step of every command -/

theorem test_window_write :
    let t := after (.hostWindowAccess true 0x101 0xABCD 0) base
    t.rd 0x100 = 0xABCD ∧ t.byteAt 0x102 = 0 ∧ t.port = base.port := by decide +kernel
theorem test_window_read :
    (after (.hostWindowAccess false 0 0 0) base).port.hostData = 0x00B0 := by decide +kernel
theorem test_load :
    let t := after .load State.reset
    t.rc.part = .checking ∧ t.rd Win.partState = 1 := by decide +kernel
theorem test_check_passes :
    let t := after .checkComplete checking
    t.rc.part = .standby ∧ t.rd Win.partState = 2 ∧ t.rd Win.checkField = 0 ∧
      (t.chan .fil).work = some scaleVals ∧ t.bit.work = some ⟨80, 200⟩ ∧
      t.mixer.work = some ⟨30, 40, 60, some .wet, 100, 5⟩ ∧ t.heat.vals = some {
        standby := 600, maximum := 2000, idleTime := 60, ramp := 10, period := 8, kp := 250, ki := 40,
        kd := 300, deadband := 10, minFire := 120, maxFire := 900, ignitionTimeout := 30, lowFireHold := 60,
        baghouse := 2200, bt1 := ⟨1300, 1600, 2000⟩, bt2 := ⟨1300, 1600, 2000⟩, hysteresis := 30,
        lowBand := 50, highBand := 80, lineMin := 1400 } := by decide +kernel
theorem test_check_fails :
    let t := after .checkComplete (inPart .checking)
    t.rc.part = .unconfigured ∧ t.port.checkRecord = 1 ∧ t.rd Win.checkField = 2 := by decide +kernel
theorem test_run_clears_first :
    let t := after .run { inPart .standby with mixer := Mixer.reset }
    t.rc.part = .run ∧ t.rc.clearStep = .waitReceiver ∧ t.mixer.routeOut = some .reject ∧
      t.rd Win.partState = 3 := by decide +kernel
theorem test_finish :
    let t := after .finish base
    t.rc.part = .standby ∧ t.rc.finishing = false ∧ t.rd Win.partState = 2 := by decide +kernel
theorem test_pause_closes_gate :
    let t := after .pause (withChan .agg fun c => { c with state := .discharging, gate := true })
    t.rc.paused = true ∧ (t.chan .agg).gate = false ∧ t.nu.list.length = 1 := by decide +kernel
theorem test_resume :
    let t := after .resume { base with rc := { base.rc with paused := true, pausedAt := 3 }, seconds := 10 }
    t.rc.paused = false ∧ t.nu.list = [⟨255, 0, 0, .resumed .control 7⟩] := by decide +kernel
theorem test_restart :
    let s := { inPart .standby with oe := { base.oe with walker := .lost, pos := some ⟨4, 101⟩ } }
    (after .restart s).oe.walker = .noEntry ∧ (after .restart s).rd Win.chainPosition = 255 := by
  decide +kernel
theorem test_rearm :
    let s := withChan .rap fun c => { c with state := .fault, frameGood := true }
    ((after .rearm s).chan .rap).state = .idle ∧
      ((after .rearm (withChan .rap fun c => { c with state := .fault })).chan .rap).state = .fault := by
  decide +kernel
theorem test_burnerReset :
    let s := withHeat fun h => { h with burner := .fault }
    (after .burnerReset s).heat.burner = .off ∧
      (after .burnerReset { s with inp := { s.inp with permit := true } }).heat.burner = .requested := by
  decide +kernel
theorem test_softReset :
    let t := after .softReset { weighing ready with nu := { base.nu with mask := 3, pend := 1 } }
    t.rc.part = .unconfigured ∧ t.co = ⟨2, none, none⟩ ∧ t.nu.mask = 3 ∧ t.nu.pend = 0 ∧
      t.mixer.suspect = true := by decide +kernel
theorem test_vectorRead :
    let t := after .vectorRead { base with nu := { base.nu with pend := 0b11000, base := 0x40 } }
    t.port.hostData = 0x4003 ∧ t.nu.pend = 0b10000 := by decide +kernel
theorem test_vectorRead_none : (after .vectorRead base).port.hostData = 7 := by decide +kernel
theorem test_vectorWrite : (after (.vectorWrite 0x40FF) base).nu.base = 0x40 := by decide +kernel
theorem test_maskWrite : (after (.maskWrite 0xFFE1) base).nu.mask = 1 := by decide +kernel
theorem test_registerWrite : after (.registerWrite 0xFFFF) base = base := by decide +kernel
theorem test_noCommand :
    (after (.controlWriteNamingNoCommand 3) base).port.refused = true ∧
      after (.controlWriteNamingNoCommand 0) base = base := by decide +kernel
theorem test_resetAsserted :
    let t := after .resetAsserted (dosing .fast 0)
    t.port.resetLow = true ∧ (t.chan .agg).feed = none := by decide +kernel
theorem test_powerOnReset_part : (after .powerOnReset base).co = ⟨1, none, none⟩ := by rfl
theorem test_secondsTick :
    let t := after .secondsTick { base with seconds := 0xFFFF }
    t.seconds = 0x10000 ∧ t.rd Win.seconds = 0 ∧ t.rd (Win.seconds + 2) = 1 ∧ t.heat.idle = 1 := by
  decide +kernel
theorem test_idleTimer : (after .idleTimerExpiry base).heat.target = some 600 := by decide +kernel
theorem test_lookPoint_broken :
    let t := after .lookPoint (window [(8, 32)])
    t.oe.walker = .broken ∧ t.nu.list = [⟨255, 0, 0, .chainBroken 32 true⟩] := by decide +kernel
theorem test_lookPoint_zero :
    let t := after .lookPoint (window [(8, 31), (Win.slot 31, 1)])
    t.rd (Win.slot 31) = 4 ∧ t.rd (Win.slot 31 + 0x40) = 3 ∧ t.rd (Win.slot 31 + 0x42) = 1 ∧
      t.oe.pos = some ⟨31, 0⟩ ∧ t.rd Win.chainPosition = 31 := by decide +kernel
theorem test_withdrawWatch :
    let s := { window [(Win.slot 4 + Win.slotWithdraw, 1)] with
      oe := { base.oe with queue := [{ order with started := 1 }] } }
    (after .withdrawWatch s).oe.queue.map Order.level = [.withdraw] := by decide +kernel
theorem test_weighStart :
    let t := after .weighStart (queued [{ order with started := 1 }])
    t.co.counter = 2 ∧ t.co.weigh.map Batch.index = some 2 ∧ (t.chan .bit).state = .taring ∧
      (t.chan .agg).todo = [⟨.hb1, 38000, 30, 150⟩] ∧ t.oe.queue.map Order.started = [2] := by
  decide +kernel
theorem test_chargeDecision :
    let t := after .chargeDecision (weighing { ready with discard := true })
    t.co.weigh = none ∧ t.mixer.phase = .charging ∧ t.mixer.batch.map MixBatch.route = some .reject := by
  decide +kernel
theorem test_chargeDecision_refused :
    let t := after .chargeDecision (weighing ready)
    t.co.weigh.map Batch.waiting = some true ∧ t.co.weigh.map Batch.waitLimit = some 10 := by
  decide +kernel
theorem test_thermalTimeout :
    let s := { weighing { ready with waiting := true, waitLimit := 10, wait := 100 } with
      heat := { base.heat with permit := some ⟨1600, .bt1, 1500, 1750, ⟨.line, none, 1400⟩⟩ } }
    (after .thermalTimeout s).nu.list =
      [⟨4, 101, 1, .thermalTimeout ready.load ⟨.line, none, 1400⟩ 10⟩] := by decide +kernel
theorem test_weighFrame_cutoff :
    let t := after (.weighFrame .agg 4820 .ok) (dosing .fast 0)
    (t.chan .agg).state = .dosing .settling ∧ (t.chan .agg).dose.cutoff = some 4820 := by decide +kernel
theorem test_weighFrame_overload :
    let t := after (.weighFrame .agg 0 .overload) base
    (t.chan .agg).state = .fault ∧
      t.nu.list = [⟨255, 0, 0, .scaleFault .agg .overload .idle 0⟩] := by decide +kernel
theorem test_latePeriod :
    let t := after (.latePeriod .agg) (dosing .jogging 0)
    (t.chan .agg).state = .dosing (.held .jogCut) ∧ (t.chan .agg).late = 1 := by decide +kernel
theorem test_settleTimeout_jog :
    let t := after (.settleTimeout .agg) (dosing .settling 4969)
    (t.chan .agg).state = .dosing .jogging ∧ (t.chan .agg).dose.jogsUsed = 1 := by decide +kernel
theorem test_settleTimeout_inTol :
    let t := after (.settleTimeout .agg) (dosing .settling 4970)
    (t.chan .agg).state = .weighed ∧ (t.chan .agg).results = [⟨.hb1, 4970, .inTol⟩] ∧
      t.rd (Win.source .hb1 + 0x14) = 1 ∧ t.rd (Win.source .hb1 + 0x0E) = 180 := by decide +kernel
theorem test_jogPulseEnd :
    ((after (.jogPulseEnd .agg) (dosing .jogging 0)).chan .agg).state = .dosing .settling := by
  decide +kernel
theorem test_dischargeTimeout :
    let t := after (.dischargeTimeout .agg)
      (withChan .agg fun c => { c with state := .discharging, gate := true, net := 77 })
    (t.chan .agg).state = .idle ∧ t.nu.list = [⟨255, 0, 0, .scaleResidue .agg 77⟩] := by decide +kernel
theorem test_binLow :
    let t := after (.binLowInput .hb1 true) (dosing .fast 1200)
    t.inp.binLow = 1 ∧ t.nu.list = [⟨4, 101, 1, .binLow .agg .hb1 1200⟩] ∧
      (t.chan .agg).state = .dosing .fast := by decide +kernel
theorem test_purge :
    let t := after .purgeTimerExpiry (changing 2000)
    t.bit.q = 1600 ∧ t.bit.tankLast = some .bt2 ∧ (t.chan .bit).state = .dosing .fast ∧
      (t.chan .bit).feed = some (.bt2, .fast) := by decide +kernel
theorem test_fillerDelay :
    let t := after .fillerDelayExpiry (loaded .charging .fil 50)
    (t.chan .fil).gate = true ∧ t.mixer.disch.fil = .asked := by decide +kernel
theorem test_dryMix :
    let t := after .dryMixExpiry (loaded .dry .bit 50)
    t.mixer.phase = .wet ∧ (t.chan .bit).gate = true ∧ t.mixer.dryT = 80 := by decide +kernel
theorem test_wetMix :
    let s := mixPhase .wet
    let t := after .wetMixExpiry
      { s with mixer := { s.mixer with disch := { s.mixer.disch with bit := .ended .empty } } }
    t.mixer.phase = .dischargeWait ∧ t.mixer.routeOut = some .truck ∧ t.mixer.rwPosted = true := by
  decide +kernel
theorem test_receiverReady :
    (after (.receiverReadyChange .truck true) (mixPhase .dischargeWait)).mixer.door = true ∧
      (after (.receiverReadyChange .silo1 true) (mixPhase .dischargeWait)).mixer.door = false := by
  decide +kernel
theorem test_overmix :
    let s := mixPhase .dischargeWait
    (after .overmix { s with mixer := { s.mixer with overT := 201 } }).nu.list =
      [⟨4, 101, 1, .overmix .truck 20 201⟩] := by decide +kernel
theorem test_cycleMark :
    let s := mixPhase .wet
    (after .cycleMark { s with mixer := { s.mixer with cmPhase := some .wet, cmOffset := 3, clock := 3 } }).nu.list =
      [⟨4, 101, 1, .cycleMark .wet 3 3 false⟩] := by decide +kernel
theorem test_doorOpen :
    let t := after .doorOpenExpiry { mixPhase .doorOpen with heat := { base.heat with tc := warm 1550 } }
    t.mixer.phase = .doorClosing ∧ t.mixer.door = false ∧ t.mixer.t6 = .present 1550 := by decide +kernel
theorem test_doorClosed :
    (after (.doorClosed true) (mixPhase .doorClosing)).mixer.phase = .empty ∧
      (after (.doorClosed false) (mixPhase .doorClosing)).mixer.phase = .doorClosing := by decide +kernel
theorem test_doorTimeout :
    let t := after .doorCloseTimeout (mixPhase .doorClosing)
    t.rc.part = .halted ∧ t.rd Win.partState = 5 ∧ t.mixer.suspect = true ∧ t.nu.list.length = 2 := by
  decide +kernel
theorem test_clearMix :
    let t := after .clearMixExpiry (withMixer fun m => { m with phase := .clearMix, clearHold := true })
    t.mixer.phase = .doorOpen ∧ t.mixer.door = true := by decide +kernel
theorem test_stopFall : (after .stopLineFall base).rc.decoder = .timing := by decide +kernel
theorem test_stopRise :
    (after (.stopLineRise 40) (lineLow base 0)).rc.paused = true ∧
      (after (.stopLineRise 39) (lineLow base 0)).rc.paused = false := by decide +kernel
theorem test_plantStop :
    let t := after .plantStop (lineLow { weighing ready with oe := { base.oe with queue := [order] } } 400)
    t.rc.part = .stopped ∧ t.co.weigh = none ∧ t.oe.queue = [] ∧ t.rd Win.partState = 4 := by
  decide +kernel
theorem test_cutSequence :
    let s := base.wr (Win.slot 0) slotTaken
    let s := s.wr (Win.slot 0 + 2) 7
    let cut k := cutSequence k 0 [slotTaken, slotActive] 7 [(0x400, 5), (0x402, 6)] s
    (cut 2).rd 0x400 = 5 ∧ (cut 2).rd 0x402 = 0 ∧ (cut 3).rd 0x402 = 6 ∧ cut 1 = s ∧
      sequenceCost 0 [slotTaken, slotActive] 7 [(0x400, 5), (0x402, 6)] s = 4 ∧
      resetFollows { s with pending := [.softReset] } = true := by decide +kernel
theorem test_temperatureFrame :
    let s := withHeat fun h => { h with tc := tempAll ⟨some .start, some 0, 3⟩ }
    let t := after (.temperatureFrame { tempAll (reading true 1600) with t2 := reading false 0 }) s
    t.heat.tc.t1 = ⟨none, some 1600, 4⟩ ∧ t.heat.tc.t2 = ⟨some .start, some 0, 0⟩ := by decide +kernel
theorem test_missingPeriod :
    let t := after .missingPeriod (withHeat fun h => { h with missing := 3, tc := warm 1600 })
    t.heat.tc.t7 = ⟨some .noFrames, some 1600, 0⟩ ∧ t.nu.list.length = 1 := by decide +kernel
theorem test_permit :
    (after (.burnerPermitChange true) base).heat.burner = .requested ∧
      (after (.burnerPermitChange false) (modulating 1600)).heat.burner = .off := by decide +kernel
theorem test_flame :
    (after (.flameProvenChange true) (withHeat fun h => { h with burner := .requested })).heat.firing = 120 ∧
      (after (.flameProvenChange false) (modulating 1600)).heat.burner = .fault := by decide +kernel
theorem test_ignition :
    (after .ignitionTimeout (withHeat fun h => { h with burner := .requested })).heat.burner = .fault := by
  decide +kernel
theorem test_lowFire :
    (after .lowFireHoldExpiry (withHeat fun h => { h with burner := .lowFire, tc := warm 1500 })).heat.reg =
      some ⟨36000, 120000, some 1500⟩ := by decide +kernel
theorem test_regulator :
    (after .regulatorUpdate (modulating 1590)).heat.firing = 300 ∧
      (after .regulatorUpdate (modulating 1580)).heat.firing = 351 := by decide +kernel
theorem test_noticeWrite :
    let t := after .noticeWrite { base with nu := { base.nu with list := [notice], pos := 63 } }
    t.rd (Win.log 63) = 1 ∧ t.rd (Win.log 63 + 4) = 1 ∧ t.rd Win.lastFill = 1 ∧ t.nu.pos = 0 ∧
      t.nu.fill = 2 ∧ t.nu.pend = 0b10000 := by decide +kernel
theorem test_captureWrite :
    let t := after .captureWrite { base with nu := { base.nu with offers := [offer] } }
    t.rd Win.captureState = 1 ∧ t.rd (Win.capture + 20) = 0xFFFF ∧ t.nu.list.length = 1 := by
  decide +kernel

/-! ### An order seized and posted again (R26, R55), and the standby setpoint refreshed (R147) -/

/-- The ticket of a batch that has lost its order is not written for an order of the same slot and number. -/
theorem test_lost_order_ticket :
    let lost := { closing 3 101 with co := ⟨2, none, some (loseOrder 4 101 ready)⟩ }
    let t := after (.doorClosed true) lost
    t.mem = lost.mem ∧ t.oe.queue = lost.oe.queue ∧
      (t.nu.list.map fun n => match n.detail with | .slotSeizedNotQueued _ => true | _ => false) = [true] := by
  decide +kernel

/-- With the idle time reached the dryer target follows the working standby setpoint. -/
theorem test_standby_refreshed :
    let idles := secondOver (fun h => { h with idle := 3, target := some 600, atStandby := true }) []
    (after .secondsTick idles).heat.target = some 700 := by decide +kernel

end Sys2Proof.Tests
end

section
/-! SUPPORT. Bytes and words, words written at rising addresses (what reads back, what stays, that only
the window changes), and what a part access and the arbiter leave to each other. -/

namespace Sys2Proof.Machine

@[simp] theorem State.byteAt_setNu (s : State) (u : NoticeUnit) (b : Nat) :
    ({ s with nu := u } : State).byteAt b = s.byteAt b := rfl

@[simp] theorem State.rd_setNu (s : State) (u : NoticeUnit) (a : Nat) :
    ({ s with nu := u } : State).rd a = s.rd a := rfl

@[simp] theorem State.rd_setPort (s : State) (p : Port) (a : Nat) :
    ({ s with port := p } : State).rd a = s.rd a := rfl

/-- A word is its low byte and, times 256, its high byte. -/
theorem joinBytes_natByte {c : Nat} (hc : c < 256) (hi : Byte) :
    joinBytes (natByte c) hi = BitVec.ofNat 16 (256 * hi.toNat + c) := by
  apply BitVec.eq_of_toNat_eq
  have hlo : (natByte c).toNat = c := by simp [natByte]; omega
  have hhi := hi.isLt
  rw [joinBytes, BitVec.toNat_append, ← Nat.shiftLeft_add_eq_or_of_lt (natByte c).isLt, hlo,
    Nat.shiftLeft_eq, BitVec.toNat_ofNat]
  omega

theorem Word.highByte_toNat (w : Word) : (Word.highByte w).toNat = w.toNat / 256 := by
  have h := w.isLt
  simp only [Word.highByte, BitVec.toNat_setWidth, BitVec.toNat_ushiftRight, Nat.shiftRight_eq_div_pow]
  omega

/-- Writing words changes the window alone. -/
theorem wrWords_frame (ws : List Word) : ∀ (s : State) (a : Nat),
    s.wrWords a ws = { s with mem := (s.wrWords a ws).mem } := by
  induction ws with
  | nil => intros; rfl
  | cons w ws ih => intro s a; unfold State.wrWords; rw [ih]; rfl

/-- What the host port holds does not enter into the words written. -/
theorem wrWords_setPort (p : Port) (ws : List Word) : ∀ (s : State) (a : Nat),
    ({ s with port := p } : State).wrWords a ws = { s.wrWords a ws with port := p } := by
  induction ws with
  | nil => intros; rfl
  | cons w ws ih => intro s a; exact ih (s.wr a w) (a + 2)

/-- A byte apart from the words written stays. -/
theorem byteAt_wrWords_outside (ws : List Word) : ∀ {s : State} {a b : Nat}, Memory.wf s.mem = true →
    (b < a ∨ a + 2 * ws.length ≤ b) → (s.wrWords a ws).byteAt b = s.byteAt b := by
  induction ws with
  | nil => intros; rfl
  | cons w ws ih =>
    intro s a b h hb
    rw [List.length_cons] at hb
    unfold State.wrWords
    rw [ih (State.wr_wf h a w) (by omega), State.byteAt_wr h, if_neg (by omega), if_neg (by omega)]

/-- A word apart from the words written reads as before. -/
theorem rd_wrWords_outside (ws : List Word) {s : State} {a b : Nat} (h : Memory.wf s.mem = true)
    (hb : b + 2 ≤ a ∨ a + 2 * ws.length ≤ b) : (s.wrWords a ws).rd b = s.rd b := by
  unfold State.rd
  rw [byteAt_wrWords_outside ws h (by omega), byteAt_wrWords_outside ws h (by omega)]

/-- Each word written reads back at its place. -/
theorem rd_wrWords_inside (ws : List Word) : ∀ {s : State} {a k : Nat}, Memory.wf s.mem = true →
    k < ws.length → (s.wrWords a ws).rd (a + 2 * k) = ws.getD k 0 := by
  induction ws with
  | nil => intro s a k _ hk; exact absurd hk (Nat.not_lt_zero k)
  | cons w ws ih =>
    intro s a k h hk
    unfold State.wrWords
    cases k with
    | zero =>
      rw [rd_wrWords_outside ws (State.wr_wf h a w) (by omega)]
      exact State.rd_wr_same h a w
    | succ k =>
      have hw := ih (a := a + 2) (State.wr_wf h a w) (Nat.lt_of_succ_lt_succ hk)
      rw [show a + 2 * (k + 1) = a + 2 + 2 * k by omega, hw, List.getD_cons_succ]

theorem wordsOfBytes_length (d : List Byte) : (wordsOfBytes d).length = (d.length + 1) / 2 := by
  induction d using wordsOfBytes.induct with
  | case1 lo hi r ih => simp only [wordsOfBytes, List.length_cons, ih]; omega
  | case2 lo => simp [wordsOfBytes]
  | case3 => rfl

/-- The notice unit does not enter into what the arbiter serves. -/
theorem serveDue_setNu (u : NoticeUnit) (hs : List HostAccess) : ∀ s : State,
    serveDue hs { s with nu := u } = { serveDue hs s with nu := u } := by
  have served (h : HostAccess) (s : State) :
      serveAccess h { s with nu := u } = { serveAccess h s with nu := u } := by
    unfold serveAccess; split <;> rfl
  induction hs with
  | nil => intro s; rfl
  | cons h hs ih =>
    intro s
    unfold serveDue
    split
    · rw [served, ih]
    · rfl

theorem gap_setNu (u : NoticeUnit) (s : State) : gap { s with nu := u } = { gap s with nu := u } :=
  serveDue_setNu u _ s

/-- The state once the host accesses that are due before a part access are served, without those that
wait on behind it (R180). -/
def afterGap (s : State) : State := { gap s with port.waiting := [] }

theorem afterGap_resetLow (s : State) : (afterGap s).port.resetLow = s.port.resetLow := gap_resetLow s

theorem afterGap_nu (s : State) : (afterGap s).nu = s.nu := gap_nu s

theorem gap_afterGap (s : State) : gap (afterGap s) = afterGap s := gap_of_none rfl

/-- A part access that does not look at the host port leaves the accesses that wait on behind it as they
are. -/
theorem access_keeps_waiting {g : State → State}
    (hg : ∀ (p : Port) (s : State), g { s with port := p } = { g s with port := p })
    (s : State) (w : List HostAccess) :
    g { s with port.waiting := w } = { g s with port.waiting := w } := by
  have hsame : g s = { g s with port := s.port } := hg s.port s
  have hport : (g s).port = s.port := by rw [hsame]
  exact (hg _ s).trans (by simp only [hport])

theorem writeWords_nu (l : List (Nat × Word)) : ∀ s : State, (writeWords l s).nu = s.nu := by
  induction l with
  | nil => intro s; rfl
  | cons x l ih => intro s; exact ih (s.wr x.1 x.2)

end Sys2Proof.Machine
end

section
/-! VECTOR (R177): the read, the write and the base over both resets. -/

namespace Sys2Proof.Machine

theorem exec_vectorRead {s : State} (h : s.port.resetLow = false) :
    exec .vectorRead s = .next (vectorTake s) := by
  change execVectorRead s = _
  rw [execVectorRead, hostCommand_of_high h]

theorem exec_vectorWrite {s : State} (h : s.port.resetLow = false) (d : Word) :
    exec (.vectorWrite d) s = .next { s with nu.base := Word.highByte d } := by
  change execVectorWrite d s = _
  rw [execVectorWrite, hostCommand_of_high h, vectorBase]

/-- SOFT_RESET is accepted in every part state. -/
theorem exec_softReset {s : State} (h : s.port.resetLow = false) :
    exec .softReset s = .next (actSoftReset { s with port.refused := false }) := by
  change execSoftReset s = _
  rw [execSoftReset, controlCommand, hostCommand_of_high h]
  rfl

theorem actSoftReset_base (s : State) : (actSoftReset s).nu.base = s.nu.base := by
  unfold actSoftReset; rw [putAll_nu]; rfl

theorem powerOnBlocks_nu (s : State) : (powerOnBlocks s).nu = NoticeUnit.reset := by
  unfold powerOnBlocks; rw [writeWords_nu]; rfl

/-- With no host command held and no access waiting, the reset is that of the blocks. -/
theorem powerOnReset_nu {s : State} (hh : s.port.held = []) (hw : s.port.waiting = []) :
    (powerOnReset s).nu = NoticeUnit.reset := by
  unfold powerOnReset
  rw [hh, hw, List.foldl_nil, serveAll_nu, powerOnBlocks_nu]

theorem highestPending_zero : highestPending 0 = none := by decide

/-- The highest pending class is the one with no pending class before it. -/
theorem highestPending_eq_some {p : BitVec 5} {c : Nat} (hc : c < 5) (hp : p.getLsbD c = true)
    (hlow : ∀ d, d < c → p.getLsbD d = false) : highestPending p = some c := by
  unfold highestPending
  obtain rfl | rfl | rfl | rfl | rfl : c = 0 ∨ c = 1 ∨ c = 2 ∨ c = 3 ∨ c = 4 := by omega
  · simp only [hp, if_true]
  · simp only [hlow 0 (by decide), hp, Bool.false_eq_true, if_false, if_true]
  · simp only [hlow 0 (by decide), hlow 1 (by decide), hp, Bool.false_eq_true, if_false, if_true]
  · simp only [hlow 0 (by decide), hlow 1 (by decide), hlow 2 (by decide), hp, Bool.false_eq_true,
      if_false, if_true]
  · simp only [hlow 0 (by decide), hlow 1 (by decide), hlow 2 (by decide), hlow 3 (by decide), hp,
      Bool.false_eq_true, if_false, if_true]

/-- The bit of one class, 0 to 4. -/
theorem getLsbD_classBit {c : Nat} (hc : c < 5) (k : Nat) : (1#5 <<< c).getLsbD k = decide (k = c) := by
  rw [BitVec.getLsbD_shiftLeft, BitVec.getLsbD_one]
  by_cases h : k = c
  · subst h; simp [hc]
  · by_cases hk : k < c
    · simp [hk, h]
    · simp [h, show ¬ k - c = 0 by omega]

/-- Clearing one class keeps the bits of the others. -/
theorem getLsbD_clearClass (p : BitVec 5) {c : Nat} (hc : c < 5) (k : Nat) :
    (p &&& ~~~(1#5 <<< c)).getLsbD k = (p.getLsbD k && decide (k ≠ c)) := by
  rw [BitVec.getLsbD_and, BitVec.getLsbD_not, getLsbD_classBit hc]
  by_cases hk : k < 5
  · simp [hk]
  · rw [BitVec.getLsbD_of_ge p k (by omega)]; rfl

theorem vectorTake_of_none {s : State} (h : highestPending s.nu.pend = none) :
    vectorTake s = { s with port.hostData := BitVec.ofNat 16 (256 * s.nu.base.toNat + 7) } := by
  unfold vectorTake vectorWord pendAfterRead
  rw [h, Option.getD_none, joinBytes_natByte (by decide)]

theorem vectorTake_of_some {s : State} {c : Nat} (hc : c < 5) (h : highestPending s.nu.pend = some c) :
    vectorTake s = { s with
      port.hostData := BitVec.ofNat 16 (256 * s.nu.base.toNat + c)
      nu.pend := s.nu.pend &&& ~~~(1#5 <<< c) } := by
  unfold vectorTake vectorWord pendAfterRead
  rw [h, Option.getD_some, joinBytes_natByte (by omega)]

/-- Settles O10: the write, the base over SOFT_RESET and over POWER_ON_RESET, the read with no class
pending and the read that takes the highest one. -/
theorem vectorReadTakesHighest : Obligations.VectorReadTakesHighest := by
  intro s hr
  refine ⟨fun d => ⟨_, exec_vectorWrite hr d, Word.highByte_toNat d⟩,
    fun _ => ⟨_, exec_softReset hr, actSoftReset_base _⟩,
    fun hh hw => ⟨powerOnReset s, rfl, by rw [powerOnReset_nu hh hw]; rfl⟩, fun hp => ?_,
    fun c hc hp hlow => ⟨s.nu.pend &&& ~~~(1#5 <<< c), ?_, getLsbD_clearClass _ hc⟩⟩
  · rw [exec_vectorRead hr, vectorTake_of_none (hp ▸ highestPending_zero)]
  · rw [exec_vectorRead hr, vectorTake_of_some hc (highestPending_eq_some hc hp hlow)]

end Sys2Proof.Machine
end

section
/-! The notice log (R172, R175): one entry written whole in a single part access. -/

namespace Sys2Proof.Machine

/-- The window after one entry write: overrun count, entry, last fill sequence (R172). -/
def entryLogged (n : Notice) (s : State) : State :=
  ((countOverrun s).wrWords (Win.log s.nu.pos) (entryWords s.nu.fill s.seconds n)).wr Win.lastFill
    (BitVec.ofNat 16 s.nu.fill)

theorem countOverrun_seconds (s : State) : (countOverrun s).seconds = s.seconds := by
  unfold countOverrun; split <;> rfl

theorem writeEntry_eq (n : Notice) (s : State) :
    writeEntry n s = { entryLogged n s with nu := { s.nu with
      fill := nextFill s.nu.fill, pos := nextPos s.nu.pos
      pend := pendAfter s.nu.mask s.nu.pend (classCode n.detail) } } := by
  unfold writeEntry entryLogged
  simp only [State.wr_nu, wrWords_nu, countOverrun_nu, countOverrun_seconds]

theorem countOverrun_frame (s : State) : countOverrun s = { s with mem := (countOverrun s).mem } := by
  unfold countOverrun; split <;> rfl

theorem countOverrun_of_counted {s : State}
    (h : s.rd (Win.log s.nu.pos + 4) ≠ 0 ∧ s.rd Win.overrun ≠ 65535) :
    countOverrun s = s.wr Win.overrun (s.rd Win.overrun + 1) := if_pos h

theorem countOverrun_of_uncounted {s : State}
    (h : ¬ (s.rd (Win.log s.nu.pos + 4) ≠ 0 ∧ s.rd Win.overrun ≠ 65535)) : countOverrun s = s := if_neg h

theorem countOverrun_setPort (p : Port) (s : State) :
    countOverrun { s with port := p } = { countOverrun s with port := p } := by
  by_cases h : s.rd (Win.log s.nu.pos + 4) ≠ 0 ∧ s.rd Win.overrun ≠ 65535
  · rw [countOverrun_of_counted h, countOverrun_of_counted (s := { s with port := p }) h]
    rfl
  · rw [countOverrun_of_uncounted h, countOverrun_of_uncounted (s := { s with port := p }) h]

theorem entryLogged_frame (n : Notice) (s : State) :
    entryLogged n s = { s with mem := (entryLogged n s).mem } := by
  unfold entryLogged; rw [wrWords_frame, countOverrun_frame]; rfl

/-- An entry write does not look at the host port. -/
theorem writeEntry_setPort (p : Port) (n : Notice) (s : State) :
    writeEntry n { s with port := p } = { writeEntry n s with port := p } := by
  rw [writeEntry_eq, writeEntry_eq]
  unfold entryLogged
  rw [countOverrun_setPort, wrWords_setPort]
  rfl

/-- An entry write changes the window, fill sequence, write position and pending bits alone. -/
theorem writeEntry_frame (n : Notice) (s : State) :
    writeEntry n s = { s with
      nu := { s.nu with
        fill := nextFill s.nu.fill, pos := nextPos s.nu.pos
        pend := pendAfter s.nu.mask s.nu.pend (classCode n.detail) }
      mem := (writeEntry n s).mem } := by
  rw [writeEntry_eq, entryLogged_frame]

theorem classCode_lt (d : Detail) : classCode d < 5 := by
  unfold classCode; dsimp only; split_ifs <;> decide

/-- The pending bit of an unmasked class is set, every other one stays (R175). -/
theorem getLsbD_pendAfter (mask pend : BitVec 5) {c : Nat} (hc : c < 5) (k : Nat) :
    (pendAfter mask pend c).getLsbD k = (pend.getLsbD k || (decide (k = c) && !mask.getLsbD k)) := by
  unfold pendAfter
  split
  case isTrue h =>
    by_cases hk : k = c
    · simp [hk, h]
    · simp [hk]
  case isFalse h =>
    rw [BitVec.getLsbD_or, getLsbD_classBit hc]
    by_cases hk : k = c
    · simp [hk, h]
    · simp [hk]

theorem detail16_length (d : List Byte) : (detail16 d).length = 16 := by simp [detail16]

theorem entryWords_length (fill : Nat) (sec : DWord) (n : Notice) : (entryWords fill sec n).length = 16 := by
  simp [entryWords, wordsOfBytes_length, detail16_length]

theorem entryWords_fill (fill : Nat) (sec : DWord) (n : Notice) :
    (entryWords fill sec n).getD 0 0 = BitVec.ofNat 16 fill := rfl

/-- The third word marks the entry unseen. -/
theorem entryWords_unseen (fill : Nat) (sec : DWord) (n : Notice) :
    (entryWords fill sec n).getD 2 0 = 1 := rfl

/-- The overrun count after step 1 of R172. -/
theorem rd_overrun_countOverrun {s : State} (h : Memory.wf s.mem = true) :
    (countOverrun s).rd Win.overrun =
      if s.rd (Win.log s.nu.pos + 4) ≠ 0 ∧ s.rd Win.overrun ≠ 65535
      then s.rd Win.overrun + 1 else s.rd Win.overrun := by
  unfold countOverrun
  split
  · exact State.rd_wr_same h _ _
  · rfl

theorem byteAt_countOverrun {s : State} (h : Memory.wf s.mem = true) {b : Nat}
    (hb : b < Win.overrun ∨ Win.overrun + 2 ≤ b) : (countOverrun s).byteAt b = s.byteAt b := by
  unfold countOverrun
  split
  · rw [State.byteAt_wr h, if_neg (by omega), if_neg (by omega)]
  · rfl

/-- The log lies above the header. -/
theorem Win.header_lt_log (p : Nat) : Win.lastFill + 2 ≤ Win.log p ∧ Win.overrun + 2 ≤ Win.log p := by
  unfold Win.lastFill Win.overrun Win.log; omega

section
variable {s : State} (h : Memory.wf s.mem = true) (n : Notice)
include h

theorem loggedWords_wf : Memory.wf ((countOverrun s).wrWords (Win.log s.nu.pos)
    (entryWords s.nu.fill s.seconds n)).mem = true := wrWords_wf _ _ (countOverrun_wf h)

/-- The entry at the write position reads as the 16 words of the notice. -/
theorem writeEntry_rd_entry {k : Nat} (hk : k < 16) :
    (writeEntry n s).rd (Win.log s.nu.pos + 2 * k) = (entryWords s.nu.fill s.seconds n).getD k 0 := by
  have hlog := Win.header_lt_log s.nu.pos
  rw [writeEntry_eq, State.rd_setNu, entryLogged, State.rd_wr_other (loggedWords_wf h n) _ (by omega),
    rd_wrWords_inside _ (countOverrun_wf h) (by rw [entryWords_length]; exact hk)]

theorem writeEntry_rd_lastFill :
    (writeEntry n s).rd Win.lastFill = BitVec.ofNat 16 s.nu.fill := by
  rw [writeEntry_eq, State.rd_setNu, entryLogged, State.rd_wr_same (loggedWords_wf h n)]

/-- The overrun count is written in step 1 only. -/
theorem writeEntry_rd_overrun : (writeEntry n s).rd Win.overrun = (countOverrun s).rd Win.overrun := by
  have hlog := Win.header_lt_log s.nu.pos
  rw [writeEntry_eq, State.rd_setNu, entryLogged,
    State.rd_wr_other (loggedWords_wf h n) _ (by decide), rd_wrWords_outside _ (countOverrun_wf h) (by omega)]

/-- Bytes apart from the entry, the last fill sequence and the overrun count stay. -/
theorem writeEntry_byteAt {b : Nat} (hb : b < Win.lastFill ∨ Win.overrun + 2 ≤ b)
    (ha : b < Win.log s.nu.pos ∨ Win.log s.nu.pos + 32 ≤ b) :
    (writeEntry n s).byteAt b = s.byteAt b := by
  have hheader : Win.overrun = Win.lastFill + 2 := rfl
  rw [writeEntry_eq, State.byteAt_setNu, entryLogged, State.byteAt_wr (loggedWords_wf h n),
    if_neg (by omega), if_neg (by omega),
    byteAt_wrWords_outside _ (countOverrun_wf h) (by rw [entryWords_length]; exact ha),
    byteAt_countOverrun h (by omega)]

end

theorem exec_noticeWrite {s : State} (h : s.port.resetLow = false) :
    exec .noticeWrite s = .next (writeOldest s) := by
  change execNoticeWrite s = _
  rw [execNoticeWrite, plainEvent_of_high h]

theorem writeOldest_nil {s : State} (h : s.nu.list = []) : writeOldest s = s := by
  unfold writeOldest; rw [h]

/-- Host accesses that are due come first, then the oldest submission is written. -/
theorem writeOldest_cons {s : State} {n : Notice} {r : List Notice} (h : s.nu.list = n :: r) :
    writeOldest s = writeEntry n { gap s with nu := { s.nu with list := r } } := by
  unfold writeOldest; rw [h]; exact congrArg (writeEntry n) (gap_setNu _ s)

/-- Settles O52: the entry write word by word, and the accesses that wait, which are served before it
or stay for after it. -/
theorem noticeWriteLogs : Obligations.NoticeWriteLogs := by
  refine ⟨fun s hfree hwf _ => ?_, fun s hr hl => ?_⟩
  · obtain ⟨hr, hw⟩ := (arbiterFree_iff s).mp hfree
    rw [exec_noticeWrite hr]
    refine ⟨fun hl => by rw [writeOldest_nil hl], fun n r hl => ?_⟩
    rw [writeOldest_cons hl, gap_of_none hw]
    have hwf' : Memory.wf ({ s with nu.list := r } : State).mem = true := hwf
    have entry {k : Nat} (hk : k < 16) := writeEntry_rd_entry hwf' n hk
    exact ⟨_, _, rfl, writeEntry_frame n _,
      fun k _ => getLsbD_pendAfter _ _ (classCode_lt n.detail) k, fun k hk => entry hk,
      (entry (k := 0) (by decide)).trans (entryWords_fill _ _ n),
      (entry (k := 2) (by decide)).trans (entryWords_unseen _ _ n), writeEntry_rd_lastFill hwf' n,
      (writeEntry_rd_overrun hwf' n).trans (rd_overrun_countOverrun hwf'),
      fun b hb ha => writeEntry_byteAt hwf' n hb ha⟩
  · obtain ⟨n, r, hl⟩ := List.exists_cons_of_ne_nil hl
    refine ⟨writeEntry n { afterGap s with nu := { s.nu with list := r } }, ?_, ?_⟩
    · have hl' : (afterGap s).nu.list = n :: r := by rw [afterGap_nu, hl]
      change exec .noticeWrite (afterGap s) = _
      rw [exec_noticeWrite ((afterGap_resetLow s).trans hr), writeOldest_cons hl', gap_afterGap, afterGap_nu]
    · rw [exec_noticeWrite hr, writeOldest_cons hl]
      exact congrArg _ (access_keeps_waiting (fun p => writeEntry_setPort p n)
        { afterGap s with nu := { s.nu with list := r } } _)

end Sys2Proof.Machine
end

section
/-! The capture record (R178): an offer judged in a single part access. -/

namespace Sys2Proof.Machine

/-- The window after an offer was taken: the record, then the capture state FULL (R178). -/
def captureStored (o : Offer) (s : State) : State :=
  (s.wrWords Win.capture (captureWords o)).wr Win.captureState captureFull

/-- CAPTURE TAKEN for an offer (R178). -/
def takenNotice (o : Offer) : Notice :=
  ⟨255, o.order, o.batch, .captureTaken o.scale o.source o.outcome o.samples.length⟩

/-- An offer judged, with room for the notice in the submission list. -/
def offerJudged (o : Offer) (s : State) : State :=
  if s.rd Win.captureState = captureEmpty then
    { captureStored o s with nu := { s.nu with list := s.nu.list ++ [takenNotice o] } }
  else s

theorem captureStored_frame (o : Offer) (s : State) :
    captureStored o s = { s with mem := (captureStored o s).mem } := by
  unfold captureStored; rw [wrWords_frame]; rfl

theorem captureStored_setPort (p : Port) (o : Offer) (s : State) :
    captureStored o { s with port := p } = { captureStored o s with port := p } := by
  unfold captureStored; rw [wrWords_setPort]; rfl

theorem captureStored_nu (o : Offer) (s : State) : (captureStored o s).nu = s.nu := by
  rw [captureStored_frame]

theorem offerJudged_of_empty {s : State} (h : s.rd Win.captureState = captureEmpty) (o : Offer) :
    offerJudged o s =
      { captureStored o s with nu := { s.nu with list := s.nu.list ++ [takenNotice o] } } := if_pos h

theorem offerJudged_of_full {s : State} (h : s.rd Win.captureState ≠ captureEmpty) (o : Offer) :
    offerJudged o s = s := if_neg h

/-- Judging an offer does not look at the host port. -/
theorem offerJudged_setPort (o : Offer) (p : Port) (s : State) :
    offerJudged o { s with port := p } = { offerJudged o s with port := p } := by
  by_cases h : s.rd Win.captureState = captureEmpty
  · rw [offerJudged_of_empty h, offerJudged_of_empty (s := { s with port := p }) h, captureStored_setPort]
  · rw [offerJudged_of_full h, offerJudged_of_full (s := { s with port := p }) h]

/-- With the record FULL after the accesses that are due, the offer is dropped. -/
theorem judgeOffer_of_full {s : State} (h : (gap s).rd Win.captureState ≠ captureEmpty) (o : Offer) :
    judgeOffer o s = gap s := if_neg h

/-- With room in the submission list, the accesses that are due come first, then the offer is judged. -/
theorem judgeOffer_of_room {s : State} (h : s.nu.list.length < Config.listCapacity) (o : Offer) :
    judgeOffer o s = offerJudged o (gap s) := by
  by_cases hc : (gap s).rd Win.captureState = captureEmpty
  · have hroom : (captureStored o (gap s)).nu.list.length < Config.listCapacity := by
      rw [captureStored_nu, gap_nu]; exact h
    calc judgeOffer o s = submit (takenNotice o) (captureStored o (gap s)) := if_pos hc
      _ = offerJudged o (gap s) := by
        rw [submit_of_room hroom, offerJudged_of_empty hc, captureStored_nu]
  · rw [judgeOffer_of_full hc, offerJudged_of_full hc]

theorem captureWords_length (o : Offer) : (captureWords o).length = 8 + 2 * o.samples.length := by
  have hsamples : (o.samples.flatMap sampleWords).length = 2 * o.samples.length := by
    simp [sampleWords, List.length_flatMap, Nat.mul_comm]
  rw [captureWords, List.length_append, hsamples]
  rfl

/-! ### An offer taken: the record is EMPTY -/

section
variable {s : State} (hempty : s.rd Win.captureState = captureEmpty) (o : Offer)
include hempty

/-- Beside the window, an offer taken adds its notice alone. -/
theorem offerTaken_frame :
    offerJudged o s = { s with
      nu := { s.nu with list := s.nu.list ++ [takenNotice o] }
      mem := (offerJudged o s).mem } := by
  rw [offerJudged_of_empty hempty, captureStored_frame]

variable (h : Memory.wf s.mem = true)
include h

theorem offerTaken_rd_state : (offerJudged o s).rd Win.captureState = captureFull := by
  rw [offerJudged_of_empty hempty, State.rd_setNu, captureStored, State.rd_wr_same (wrWords_wf _ _ h)]

/-- The capture record reads as the words of the offer. -/
theorem offerTaken_rd_record {k : Nat} (hk : k < 8 + 2 * o.samples.length) :
    (offerJudged o s).rd (Win.capture + 2 * k) = (captureWords o).getD k 0 := by
  have habove : Win.captureState + 2 ≤ Win.capture := by decide
  rw [offerJudged_of_empty hempty, State.rd_setNu, captureStored,
    State.rd_wr_other (wrWords_wf _ _ h) _ (by omega),
    rd_wrWords_inside _ h (by rw [captureWords_length]; exact hk)]

/-- Bytes apart from the capture state and the record stay. -/
theorem offerTaken_byteAt {b : Nat} (h0 : b ≠ Win.captureState) (h1 : b ≠ Win.captureState + 1)
    (hb : b < Win.capture ∨ Win.capture + 16 + 4 * o.samples.length ≤ b) :
    (offerJudged o s).byteAt b = s.byteAt b := by
  rw [offerJudged_of_empty hempty, State.byteAt_setNu, captureStored,
    State.byteAt_wr (wrWords_wf _ _ h), if_neg h1, if_neg h0,
    byteAt_wrWords_outside _ h (by rw [captureWords_length]; omega)]

end

theorem exec_captureWrite {s : State} (h : s.port.resetLow = false) :
    exec .captureWrite s = .next (judgeOldest s) := by
  change execCaptureWrite s = _
  rw [execCaptureWrite, plainEvent_of_high h]

theorem judgeOldest_nil {s : State} (h : s.nu.offers = []) : judgeOldest s = s := by
  unfold judgeOldest; rw [h]

theorem judgeOldest_cons {s : State} {o : Offer} {r : List Offer} (h : s.nu.offers = o :: r) :
    judgeOldest s = judgeOffer o { s with nu := { s.nu with offers := r } } := by
  unfold judgeOldest; rw [h]

/-- The oldest offer judged with room in the submission list, behind the accesses that are due. -/
theorem judgeOldest_of_room {s : State} {o : Offer} {r : List Offer} (h : s.nu.offers = o :: r)
    (hroom : s.nu.list.length < Config.listCapacity) :
    judgeOldest s = offerJudged o { gap s with nu := { s.nu with offers := r } } := by
  rw [judgeOldest_cons h, judgeOffer_of_room (s := { s with nu := { s.nu with offers := r } }) hroom,
    gap_setNu]

/-- Settles O53: no offer, the record FULL, the record EMPTY word by word, and the accesses that wait,
which are served before it or stay for after it. -/
theorem captureWriteJudges : Obligations.CaptureWriteJudges := by
  refine ⟨fun s hfree hwf => ?_, fun s hr ho hroom => ?_⟩
  · obtain ⟨hr, hw⟩ := (arbiterFree_iff s).mp hfree
    rw [exec_captureWrite hr]
    refine ⟨fun ho => by rw [judgeOldest_nil ho], fun o r ho _ => ⟨fun hfull => ?_, fun hempty hroom => ?_⟩⟩
    · have hgap : gap { s with nu := { s.nu with offers := r } } =
          { s with nu := { s.nu with offers := r } } := gap_of_none hw
      rw [judgeOldest_cons ho, judgeOffer_of_full (by rw [hgap]; exact hfull), hgap]
    · have hempty' : ({ s with nu.offers := r } : State).rd Win.captureState = captureEmpty := hempty
      rw [judgeOldest_of_room ho hroom, gap_of_none hw]
      exact ⟨_, rfl, offerTaken_frame hempty' o, offerTaken_rd_state hempty' o hwf,
        fun k hk => offerTaken_rd_record hempty' o hwf hk,
        fun b h0 h1 hb => offerTaken_byteAt hempty' o hwf h0 h1 hb⟩
  · obtain ⟨o, r, ho⟩ := List.exists_cons_of_ne_nil ho
    refine ⟨offerJudged o { afterGap s with nu := { s.nu with offers := r } }, ?_, ?_⟩
    · have ho' : (afterGap s).nu.offers = o :: r := by rw [afterGap_nu, ho]
      have hroom' : (afterGap s).nu.list.length < Config.listCapacity := by rw [afterGap_nu]; exact hroom
      change exec .captureWrite (afterGap s) = _
      rw [exec_captureWrite ((afterGap_resetLow s).trans hr), judgeOldest_of_room ho' hroom', gap_afterGap,
        afterGap_nu]
    · rw [exec_captureWrite hr, judgeOldest_of_room ho hroom]
      exact congrArg _ (access_keeps_waiting (offerJudged_setPort o)
        { afterGap s with nu := { s.nu with offers := r } } _)

end Sys2Proof.Machine
end

section
/-! The laws every step keeps (O55 to O60): a step with no command waiting, POWER_ON_RESET, every other
command. -/

namespace Sys2Proof.Machine

/-- The part with no command waiting keeps every law; beside that it may queue commands of its own, of
which no law speaks. -/
theorem idle_kept_to (s : State) : ∃ l, Kept true s { idle s with pending := l } := by
  unfold idle
  split
  · exact ⟨s.pending, Kept.refl s⟩
  · split
    · exact ⟨_, serveAll_kept s.port.waiting (Kept.refl s)⟩
    · split
      · exact ⟨_, tickMs_kept (Kept.refl s)⟩
      · exact ⟨s.pending, Kept.refl s⟩

/-- Taking the front command off the queue changes no law. -/
theorem Kept.of_dequeued {s t : State} {l l' : List Instr}
    (h : Kept true { s with pending := l } { t with pending := l' }) :
    Kept true s { t with pending := s.pending } :=
  ⟨h.mem, h.notices, h.chans, h.late, h.fire, h.queue, h.stages, h.door, h.run, h.lit, h.request,
    h.heaters, h.counter, rfl, h.feeds⟩

/-- What a step does to the laws: it is a power-on reset, which establishes them all, or it keeps each, the
queue of commands aside. -/
theorem step_keeps {s t : State} (h : step s = .next t) :
    (s.pending.head? = some .powerOnReset ∧ Lawful t) ∨ Kept true s { t with pending := s.pending } := by
  unfold step at h
  split at h
  case h_1 =>
    obtain ⟨l, k⟩ := idle_kept_to s
    rw [← next_inj h]
    exact .inr (k.of_dequeued (l := s.pending))
  case h_2 c rest hp =>
    by_cases hc : c = .powerOnReset
    · subst hc
      refine .inl ⟨by rw [hp]; rfl, ?_⟩
      rw [← next_inj h]
      exact powerOnReset_lawful _
    · exact .inr ((exec_kept (lv := true) c hc h).of_dequeued (l' := t.pending))

/-- Settles O55. -/
theorem stepKeepsOutputs : Obligations.StepKeepsOutputs := by
  refine ⟨fun s t hc h => ?_, fun s t hc hf h => ?_, fun s t hd h => ?_⟩
  · obtain ⟨-, law⟩ | kept := step_keeps h
    · exact law.chans
    · exact kept.chans hc
  · obtain ⟨-, law⟩ | kept := step_keeps h
    · exact law.feeds
    · exact kept.feeds rfl hc hf
  · obtain ⟨-, law⟩ | kept := step_keeps h
    · exact law.door
    · exact kept.door hd

/-- Settles O56. -/
theorem stepKeepsFiring : Obligations.StepKeepsFiring := by
  intro s t hf h
  obtain ⟨-, law⟩ | kept := step_keeps h
  · exact law.fire
  · exact kept.fire hf

/-- Settles O57. -/
theorem stepKeepsQueue : Obligations.StepKeepsQueue := by
  intro s t hq h
  obtain ⟨-, law⟩ | kept := step_keeps h
  · exact law.queue
  · exact kept.queue hq

/-- Settles O58. -/
theorem stepKeepsStages : Obligations.StepKeepsStages := by
  intro s t hs h
  obtain ⟨reset, law⟩ | kept := step_keeps h
  · exact ⟨law.stages, fun other => absurd reset other⟩
  · exact ⟨kept.stages hs, fun _ => kept.counter⟩

/-- Settles O59. -/
theorem stepKeepsRun : Obligations.StepKeepsRun := by
  refine ⟨fun s t h => ⟨fun hr => ?_, fun hb => ?_⟩, fun s t hh h => ?_⟩
  · obtain ⟨-, law⟩ | kept := step_keeps h
    · exact law.run
    · exact kept.run hr
  · obtain ⟨-, law⟩ | kept := step_keeps h
    · exact law.burner
    · obtain ⟨hlit, hrequest⟩ := (burnerSafe_iff s).1 hb
      exact (burnerSafe_iff t).2 ⟨kept.lit rfl hlit, kept.request hrequest⟩
  · obtain ⟨-, law⟩ | kept := step_keeps h
    · exact law.heaters
    · exact kept.heaters hh

/-- Settles O60. -/
theorem stepKeepsMemory : Obligations.StepKeepsMemory := by
  intro s t h
  obtain ⟨-, law⟩ | kept := step_keeps h
  · exact ⟨fun _ => law.mem, fun _ => law.notices, fun _ => law.late⟩
  · exact ⟨kept.mem, kept.notices, kept.late⟩

/-! ### The step itself and what every command answers -/

/-- Settles O1. -/
theorem stepRunsFront : Obligations.StepRunsFront := fun _ _ _ => rfl

/-- `exec` answers a next state for every command. -/
theorem exec_answers (c : Instr) (s : State) : ∃ t, exec c s = .next t := by
  cases c <;> exact ⟨_, rfl⟩

/-- Settles O3. -/
theorem everyCommandAnswers : Obligations.EveryCommandAnswers := by
  intro c s
  obtain ⟨t, h⟩ := exec_answers c s
  refine ⟨t, h, ?_⟩
  by_cases hc : c = .powerOnReset
  · subst hc
    rw [← next_inj h]
    exact powerOnReset_pending s
  · exact (exec_kept (lv := true) c hc h).pending

/-- Settles O4. -/
theorem resetValues : Obligations.ResetValues := by
  unfold Obligations.ResetValues
  refine ⟨rfl, rfl, rfl, rfl, rfl, rfl, rfl, rfl, rfl, rfl, rfl, rfl, rfl, rfl, rfl, fun sc => ?_,
    rfl, rfl, rfl, rfl, rfl, rfl, rfl, rfl, fun c => ?_, rfl, rfl, rfl, rfl, rfl, by decide, by decide,
    by decide, by decide, by decide, by decide, by decide, by decide, by decide⟩
  · cases sc <;> exact ⟨rfl, rfl, rfl, rfl, rfl, rfl, rfl⟩
  · cases c <;> rfl

/-- Settles O5. -/
theorem lawsHoldAtReset : Obligations.LawsHoldAtReset := by
  unfold Obligations.LawsHoldAtReset
  decide

end Sys2Proof.Machine
end

section
/-! Steps with no command waiting (O2), the resets (O6, O7) and the host commands that wait (O8). -/

namespace Sys2Proof.Machine

/-! ### No command waits -/

theorem step_of_nil {s : State} (h : s.pending = []) : step s = .next (idle s) := by
  unfold step; rw [h]

theorem idle_of_low {s : State} (h : s.port.resetLow = true) : idle s = s := if_pos h

theorem idle_of_waiting {s : State} (h : s.port.resetLow = false) (hw : s.port.waiting ≠ []) :
    idle s = serveAll s.port.waiting s := by
  unfold idle; rw [h, if_neg Bool.false_ne_true, if_pos hw]

theorem idle_of_due {s : State} (h : arbiterFree s = true) {c : Instr} {rest : List Instr}
    (hd : dueNow s = c :: rest) : idle s = { s with pending := c :: rest } := by
  obtain ⟨hr, hw⟩ := (arbiterFree_iff s).mp h
  unfold idle
  rw [hr, if_neg Bool.false_ne_true, if_neg (not_not_intro hw), hd]

theorem idle_of_nothing_due {s : State} (h : arbiterFree s = true) (hd : dueNow s = []) :
    idle s = tickMs s := by
  obtain ⟨hr, hw⟩ := (arbiterFree_iff s).mp h
  unfold idle
  rw [hr, if_neg Bool.false_ne_true, if_neg (not_not_intro hw), hd]

/-- The millisecond counters one higher, before the 0.1 s count is judged. -/
def agedMs (s : State) : State :=
  { s with
    ch := s.ch.map ageChannel
    heat.age := s.heat.age + 1
    clk.secMs := s.clk.secMs + 1
    oe.lookMs := s.oe.lookMs + 1
    oe.watchMs := s.oe.watchMs + 1
    rc.pulse := if s.rc.decoder = .timing then s.rc.pulse + 1 else s.rc.pulse }

theorem tickMs_within_tenth {s : State} (h : s.clk.tenthMs + 1 < 100) :
    tickMs s = { agedMs s with clk.tenthMs := s.clk.tenthMs + 1 } := if_pos h

theorem tickMs_at_tenth {s : State} (h : 100 ≤ s.clk.tenthMs + 1) :
    tickMs s = tenth { agedMs s with clk.tenthMs := 0 } := if_neg (Nat.not_lt.mpr h)

/-- The timers of the channels and the burner after 0.1 s; they alone go on where the mixer does not. -/
theorem tenth_of_mixerStands {s : State} (h : mixerRuns s = false) :
    tenth s = { s with
      ch := s.ch.map (channelTenth (s.rc.part == .run) s.rc.paused)
      heat := burnerTenth s.heat } := if_neg (Bool.eq_false_iff.mp h)

theorem tenth_of_mixerRuns {s : State} (h : mixerRuns s = true) :
    tenth s = { s with
      ch := s.ch.map (channelTenth (s.rc.part == .run) s.rc.paused)
      heat := burnerTenth s.heat
      mixer := mixerTenth s.mixer
      co.weigh := s.co.weigh.map waitTenth
      bit.purge := if (channelTenth (s.rc.part == .run) s.rc.paused (s.chan .bit)).state = .changeover
        then upCount s.bit.purge else s.bit.purge } := if_pos h

theorem channelTenth_state (run paused : Bool) (c : Channel) :
    (channelTenth run paused c).state = c.state := by
  unfold channelTenth
  split <;> first | rfl | (split <;> rfl)

theorem ageChannel_state (c : Channel) : (ageChannel c).state = c.state := by
  unfold ageChannel; split <;> rfl

theorem mixerRuns_iff (s : State) : mixerRuns s = true ↔ s.rc.part = .run ∧ s.rc.paused = false := by
  simp [mixerRuns]

/-- Settles O2. -/
theorem stepWithNoCommand : Obligations.StepWithNoCommand := by
  intro s hp
  rw [step_of_nil hp]
  refine ⟨fun h => by rw [idle_of_low h], fun h hw => by rw [idle_of_waiting h hw],
    fun c rest h hd => by rw [idle_of_due h hd], fun h hd => ?_⟩
  rw [idle_of_nothing_due h hd]
  refine ⟨fun hlt => congrArg _ (tickMs_within_tenth hlt), fun hge hstands => congrArg _ ?_,
    fun hge hrun hpaused => congrArg _ ?_⟩
  · have hm : mixerRuns { agedMs s with clk.tenthMs := 0 } = false := by
      rw [Bool.eq_false_iff, ne_eq, mixerRuns_iff]
      rintro ⟨hrun, hpaused⟩
      rcases hstands with hs | hs
      · exact hs hrun
      · exact Bool.false_ne_true (hpaused.symm.trans hs)
    exact (tickMs_at_tenth hge).trans (tenth_of_mixerStands hm)
  · have hm : mixerRuns { agedMs s with clk.tenthMs := 0 } = true :=
      (mixerRuns_iff _).mpr ⟨hrun, hpaused⟩
    have hbit : (channelTenth (s.rc.part == .run) s.rc.paused (ageChannel (s.chan .bit))).state =
        (s.chan .bit).state := (channelTenth_state ..).trans (ageChannel_state _)
    rw [tickMs_at_tenth hge, tenth_of_mixerRuns hm, ← hbit]
    rfl

/-! ### POWER_ON_RESET -/

/-- Writing words changes the window alone. -/
theorem writeWords_frame (l : List (Nat × Word)) : ∀ s : State,
    writeWords l s = { s with mem := (writeWords l s).mem } := by
  induction l with
  | nil => intro s; rfl
  | cons x l ih => intro s; unfold writeWords; rw [ih]; rfl

/-- Two words at these addresses share no byte. -/
def wordsApart (x y : Nat × Word) : Prop := x.1 + 2 ≤ y.1 ∨ y.1 + 2 ≤ x.1

/-- A word apart from all written reads as before. -/
theorem rd_writeWords_other (l : List (Nat × Word)) : ∀ {s : State} {a : Nat}, Memory.wf s.mem = true →
    (∀ x ∈ l, a + 2 ≤ x.1 ∨ x.1 + 2 ≤ a) → (writeWords l s).rd a = s.rd a := by
  induction l with
  | nil => intro s a _ _; rfl
  | cons x l ih =>
    intro s a h hx
    unfold writeWords
    rw [ih (State.wr_wf h x.1 x.2) fun y hy => hx y (List.mem_cons_of_mem _ hy),
      State.rd_wr_other h _ (hx x (List.mem_cons_self ..))]

/-- Of words that share no byte, each reads back as written. -/
theorem rd_writeWords_of_mem (l : List (Nat × Word)) : ∀ {s : State} {a : Nat} {w : Word},
    Memory.wf s.mem = true → l.Pairwise wordsApart → (a, w) ∈ l → (writeWords l s).rd a = w := by
  induction l with
  | nil => intro s a w _ _ hm; cases hm
  | cons x l ih =>
    intro s a w h hp hm
    obtain ⟨hx, hl⟩ := List.pairwise_cons.mp hp
    unfold writeWords
    rcases List.mem_cons.mp hm with rfl | hm
    · rw [rd_writeWords_other l (State.wr_wf h a w) hx, State.rd_wr_same h]
    · exact ih (State.wr_wf h x.1 x.2) hl hm

/-- The words of a power-on reset share no byte (R170, R186). -/
theorem powerOnWrites_apart : powerOnWrites.Pairwise wordsApart := by
  unfold wordsApart; decide +kernel

theorem powerOnBlocks_rd (s : State) {a : Nat} {w : Word} (h : (a, w) ∈ powerOnWrites) :
    (powerOnBlocks s).rd a = w :=
  rd_writeWords_of_mem _ (Memory.ofCells_wf _) powerOnWrites_apart h

/-- The header words, which come first. -/
theorem powerOnBlocks_rd_header (s : State) {a : Nat} {w : Word} (h : (a, w) ∈ powerOnWrites.take 10) :
    (powerOnBlocks s).rd a = w := powerOnBlocks_rd s (List.mem_of_mem_take h)

theorem powerOnBlocks_rd_log (s : State) {n : Nat} (h : n < 64) :
    (powerOnBlocks s).rd (Win.log n) = 0 ∧ (powerOnBlocks s).rd (Win.log n + 4) = 0 := by
  have written : ∀ x ∈ [(Win.log n, (0 : Word)), (Win.log n + 4, 0)], x ∈ powerOnWrites := fun x hx =>
    List.mem_append_right _ (List.mem_flatMap.mpr ⟨n, List.mem_range.mpr h, hx⟩)
  exact ⟨powerOnBlocks_rd s (written _ (by simp)), powerOnBlocks_rd s (written _ (by simp))⟩

/-- A power-on reset, but for the window: the values after reset, with the decoder by the level of the line,
the input levels, the free values used and the queue of commands. -/
theorem powerOnBlocks_frame (s : State) :
    powerOnBlocks s = { State.reset with
      rc := { RunCtl.reset with decoder := decoderAfterReset s.rc.decoder }
      inp := s.inp
      freeSeed := s.freeSeed + 1
      pending := s.pending
      mem := (powerOnBlocks s).mem } := writeWords_frame _ _

theorem serveAll_nil {s : State} (h : s.port.waiting = []) : serveAll [] s = s := by
  unfold serveAll; rw [← h]

theorem powerOnBlocks_port (s : State) : (powerOnBlocks s).port = Port.reset := by
  rw [powerOnBlocks_frame]; rfl

/-- What the host port holds does not enter into the blocks after reset. -/
theorem powerOnBlocks_setPort (s : State) (p : Port) : powerOnBlocks { s with port := p } = powerOnBlocks s := by
  unfold powerOnBlocks windowAfterReset; rfl

theorem powerOnReset_of_none {s : State} (hh : s.port.held = []) (hw : s.port.waiting = []) :
    powerOnReset s = powerOnBlocks s := by
  unfold powerOnReset
  rw [hh, hw, serveAll_nil (by rw [powerOnBlocks_port]; rfl)]
  rfl

theorem decoderAfterReset_eq (d : Decoder) :
    decoderAfterReset d = if d = .high then .high else .timing := by
  cases d <;> rfl

theorem exec_powerOnReset (s : State) : exec .powerOnReset s = .next (powerOnReset s) := rfl

/-- Settles O6. -/
theorem Settled.powerOnReset : Obligations.PowerOnReset := by
  refine ⟨fun s hh hw => ⟨powerOnBlocks s, by rw [exec_powerOnReset, powerOnReset_of_none hh hw], ?_⟩,
    fun s => ⟨powerOnBlocks s, ?_, exec_powerOnReset s⟩⟩
  case refine_2 =>
    rw [exec_powerOnReset, powerOnReset_of_none (s := { s with port.held := [], port.waiting := [] }) rfl rfl,
      powerOnBlocks_setPort]
  have header {a : Nat} {w : Word} (h : (a, w) ∈ powerOnWrites.take 10) := powerOnBlocks_rd_header s h
  have zero32 : (powerOnBlocks s).rd32 Win.seconds = 0 := by
    unfold State.rd32
    rw [header (a := Win.seconds) (w := 0) (by decide), header (a := Win.seconds + 2) (w := 0) (by decide)]
    rfl
  refine ⟨header (by decide), header (by decide), header (by decide), header (by decide),
    header (by decide), header (by decide), header (by decide), header (by decide), zero32,
    fun n hn => powerOnBlocks_rd_log s hn, fun b hb hn => powerOnBlocks_neverAccessed s hb hn, ?_⟩
  rw [powerOnBlocks_frame]
  refine ⟨rfl, rfl, rfl, rfl, rfl, rfl, rfl, rfl, fun sc => by cases sc <;> rfl, rfl, rfl, ?_⟩
  rw [← decoderAfterReset_eq]

/-! ### RESET_ASSERTED and the commands that wait -/

/-- Settles O7. -/
theorem resetAssertedDropsOutputs : Obligations.ResetAssertedDropsOutputs := by
  intro s h
  have hexec : exec .resetAsserted s = .next (outputsOff { s with port.resetLow := true }) := by
    change Host.Outcome.next (resetAsserted s) = _
    unfold resetAsserted
    rw [h]
    rfl
  exact ⟨_, hexec, rfl, fun sc => by cases sc <;> exact ⟨rfl, rfl⟩, rfl, rfl, rfl, rfl, rfl, rfl, rfl, rfl,
    rfl, rfl, rfl, rfl, rfl, rfl, rfl⟩

theorem hostCommand_of_low {s : State} (h : s.port.resetLow = true) (i : Instr) (act : State → State) :
    hostCommand i act s = { s with port.held := s.port.held ++ [i] } := if_pos h

/-- While RESET# is low a command the host sends is held. -/
theorem exec_of_low {c : Instr} {s : State} (hc : hostSends c = true) (h : s.port.resetLow = true) :
    exec c s = .next { s with port.held := s.port.held ++ [c] } := by
  cases c <;> first | exact congrArg _ (hostCommand_of_low h _ _) | exact nomatch hc

theorem rdyLow_of_held {s : State} {c : Instr} {l : List Instr} (h : s.port.held = l ++ [c]) :
    rdyLow s = true := by
  simp [rdyLow, h]

theorem rdyLow_of_waiting {s : State} {a : HostAccess} {l : List HostAccess}
    (h : s.port.waiting = l ++ [a]) : rdyLow s = true := by
  simp [rdyLow, h]

theorem evenAddr_eq (a : Word) : evenAddr a = 2 * (a.toNat / 2) := Nat.mul_comm _ _

theorem windowAccess_of_behind {s : State} {n : Nat} (h : n ≠ 0 ∨ s.port.waiting ≠ []) (w : Bool)
    (a d : Word) : windowAccess w a d n s =
      { s with port.waiting := s.port.waiting ++ [⟨w, 2 * (a.toNat / 2), d, n⟩] } := by
  unfold windowAccess
  dsimp only
  rw [if_neg (not_and_or.mpr h), evenAddr_eq]

theorem exec_hostWindowAccess {s : State} (h : s.port.resetLow = false) (w : Bool) (a d : Word) (n : Nat) :
    exec (.hostWindowAccess w a d n) s = .next (windowAccess w a d n s) :=
  congrArg _ (hostCommand_of_high h _ _)

/-- Settles O8. -/
theorem hostCommandsWait : Obligations.HostCommandsWait := by
  refine ⟨fun c s hc h => ⟨_, exec_of_low hc h, rfl, rdyLow_of_held rfl⟩, fun s w a d n h hn => ?_⟩
  exact ⟨_, exec_hostWindowAccess h w a d n, by rw [windowAccess_of_behind hn]; exact rdyLow_of_waiting rfl,
    windowAccess_of_behind hn w a d⟩

end Sys2Proof.Machine
end

section
/-! What the heat controller's operations leave unchanged, field by field, and what the window reads after an
operation that does not write it. -/

namespace Sys2Proof.Machine

/-! ### Following the queue: only `heat` changes -/

@[simp] theorem followQueue_port (s : State) : (followQueue s).port = s.port := by rw [followQueue_frame]
@[simp] theorem followQueue_rc (s : State) : (followQueue s).rc = s.rc := by rw [followQueue_frame]
@[simp] theorem followQueue_oe (s : State) : (followQueue s).oe = s.oe := by rw [followQueue_frame]
@[simp] theorem followQueue_ch (s : State) : (followQueue s).ch = s.ch := by rw [followQueue_frame]
@[simp] theorem followQueue_bit (s : State) : (followQueue s).bit = s.bit := by rw [followQueue_frame]
@[simp] theorem followQueue_nu (s : State) : (followQueue s).nu = s.nu := by rw [followQueue_frame]
@[simp] theorem followQueue_inp (s : State) : (followQueue s).inp = s.inp := by rw [followQueue_frame]
@[simp] theorem followQueue_seconds (s : State) : (followQueue s).seconds = s.seconds := by rw [followQueue_frame]
@[simp] theorem followQueue_clk (s : State) : (followQueue s).clk = s.clk := by rw [followQueue_frame]
@[simp] theorem followQueue_mem (s : State) : (followQueue s).mem = s.mem := by rw [followQueue_frame]
@[simp] theorem followQueue_freeSeed (s : State) : (followQueue s).freeSeed = s.freeSeed := by rw [followQueue_frame]
@[simp] theorem followQueue_pending (s : State) : (followQueue s).pending = s.pending := by rw [followQueue_frame]

/-! ### The burner goes out: only `heat` changes -/

theorem burnerDrop_frame (s : State) : burnerDrop s = { s with heat := (burnerDrop s).heat } := by
  unfold burnerDrop; split <;> rfl

@[simp] theorem burnerDrop_port (s : State) : (burnerDrop s).port = s.port := by rw [burnerDrop_frame]
@[simp] theorem burnerDrop_rc (s : State) : (burnerDrop s).rc = s.rc := by rw [burnerDrop_frame]
@[simp] theorem burnerDrop_oe (s : State) : (burnerDrop s).oe = s.oe := by rw [burnerDrop_frame]
@[simp] theorem burnerDrop_co (s : State) : (burnerDrop s).co = s.co := by rw [burnerDrop_frame]
@[simp] theorem burnerDrop_ch (s : State) : (burnerDrop s).ch = s.ch := by rw [burnerDrop_frame]
@[simp] theorem burnerDrop_bit (s : State) : (burnerDrop s).bit = s.bit := by rw [burnerDrop_frame]
@[simp] theorem burnerDrop_mixer (s : State) : (burnerDrop s).mixer = s.mixer := by rw [burnerDrop_frame]
@[simp] theorem burnerDrop_nu (s : State) : (burnerDrop s).nu = s.nu := by rw [burnerDrop_frame]
@[simp] theorem burnerDrop_inp (s : State) : (burnerDrop s).inp = s.inp := by rw [burnerDrop_frame]
@[simp] theorem burnerDrop_seconds (s : State) : (burnerDrop s).seconds = s.seconds := by rw [burnerDrop_frame]
@[simp] theorem burnerDrop_clk (s : State) : (burnerDrop s).clk = s.clk := by rw [burnerDrop_frame]
@[simp] theorem burnerDrop_mem (s : State) : (burnerDrop s).mem = s.mem := by rw [burnerDrop_frame]
@[simp] theorem burnerDrop_freeSeed (s : State) : (burnerDrop s).freeSeed = s.freeSeed := by rw [burnerDrop_frame]
@[simp] theorem burnerDrop_pending (s : State) : (burnerDrop s).pending = s.pending := by rw [burnerDrop_frame]

theorem burnerDrop_of_unlit {s : State} (h : burnerLit s.heat.burner = false) : burnerDrop s = s :=
  if_neg (Bool.eq_false_iff.mp h)

theorem burnerDrop_of_lit {s : State} (h : burnerLit s.heat.burner = true) :
    burnerDrop s = { s with heat := burnerOut .off s.heat } := if_pos h

/-! ### Reads of an equal window -/

theorem State.rd_of_mem {s t : State} (h : t.mem = s.mem) (a : Nat) : t.rd a = s.rd a := by
  unfold State.rd State.byteAt; rw [h]

theorem State.byteAt_of_mem {s t : State} (h : t.mem = s.mem) (b : Nat) : t.byteAt b = s.byteAt b := by
  unfold State.byteAt; rw [h]

/-- A byte apart from the word written stays. -/
theorem State.byteAt_wr_other {s : State} (h : Memory.wf s.mem = true) {a b : Nat} (w : Word)
    (h0 : b ≠ a) (h1 : b ≠ a + 1) : (s.wr a w).byteAt b = s.byteAt b := by
  rw [State.byteAt_wr h, if_neg h1, if_neg h0]

/-! ### Following the queue leaves the burner as it is -/

theorem followDryer_burner (s : State) : (followDryer s).heat.burner = s.heat.burner := by
  unfold followDryer
  repeat' split
  all_goals rfl

theorem setTank_burner (h : Heat) (t : Tank) (v : TankState) : (setTank h t v).burner = h.burner := by
  cases t <;> rfl

theorem testTankBetween_burner (t : Tank) (s : State) :
    (testTankBetween t s).heat.burner = s.heat.burner := by
  unfold testTankBetween
  split
  · split
    · exact setTank_burner _ _ _
    · rfl
  · rfl

theorem followTank_burner (t : Tank) (s : State) : (followTank t s).heat.burner = s.heat.burner := by
  unfold followTank
  dsimp only
  split
  · rfl
  · rw [testTankBetween_burner]; exact setTank_burner _ _ _

@[simp] theorem followQueue_burner (s : State) : (followQueue s).heat.burner = s.heat.burner := by
  unfold followQueue
  rw [followTank_burner, followTank_burner, followDryer_burner]

/-! ### The part state and what falls due at once -/

theorem setPart_of_none {s : State} (h : s.port.waiting = []) (p : PartState) :
    setPart p s = { s.wr Win.partState (BitVec.ofNat 16 p.code) with rc.part := p } := by
  unfold setPart
  rw [put_of_none (s := { s with rc.part := p }) h]
  rfl

/-- What a phase change of the mixer that falls due at once depends on. -/
theorem mixerStep_eq_none_congr {s t : State} (hm : t.mixer = s.mixer) (hp : t.rc.paused = s.rc.paused)
    (hi : t.inp = s.inp) (hc : t.ch = s.ch) (h : mixerStep s = none) : mixerStep t = none := by
  unfold mixerStep mixRoute anyDischarging at h ⊢
  rw [hm, hp, hi, hc]
  cases hph : s.mixer.phase <;> rw [hph] at h <;>
    simp only [ite_eq_right_iff, reduceCtorEq, imp_false] at h ⊢
  case dischargeWait => grind
  all_goals exact h

theorem PerScale.map_eq_self {α : Type} {f : α → α} {p : PerScale α} (h : ∀ sc, f (p.get sc) = p.get sc) :
    p.map f = p := by
  unfold PerScale.map
  rw [show f p.agg = p.agg from h .agg, show f p.rap = p.rap from h .rap,
    show f p.fil = p.fil from h .fil, show f p.bit = p.bit from h .bit]

end Sys2Proof.Machine
end

section
/-! Window accesses (O9), the register words (O11) and the CONTROL commands (O12, O13, O15 to O21). -/

namespace Sys2Proof.Machine

/-! ### Window accesses served at once -/

theorem windowAccess_served {s : State} (h : s.port.waiting = []) (w : Bool) (a d : Word) :
    windowAccess w a d 0 s = serveAccess ⟨w, 2 * (a.toNat / 2), d, 0⟩ s := by
  unfold windowAccess
  dsimp only
  rw [if_pos ⟨rfl, h⟩, evenAddr_eq]

/-- Settles O9. -/
theorem windowAccessServed : Obligations.WindowAccessServed := by
  intro s a d hfree hwf
  obtain ⟨hr, hw⟩ := (arbiterFree_iff s).mp hfree
  rw [exec_hostWindowAccess hr, exec_hostWindowAccess hr, windowAccess_served hw, windowAccess_served hw]
  exact ⟨⟨s.wr (2 * (a.toNat / 2)) d, rfl, State.rd_wr_same hwf _ d,
    fun b h0 h1 => State.byteAt_wr_other hwf d h0 h1, rfl⟩, rfl⟩

/-! ### The register words -/

theorem exec_maskWrite {s : State} (h : s.port.resetLow = false) (d : Word) :
    exec (.maskWrite d) s = .next { s with nu.mask := d.setWidth 5 } :=
  congrArg _ (hostCommand_of_high h _ _)

theorem exec_registerWrite {s : State} (h : s.port.resetLow = false) (d : Word) :
    exec (.registerWrite d) s = .next s := congrArg _ (hostCommand_of_high h _ _)

theorem PartState.code_lt (p : PartState) : p.code < 8 := by cases p <;> decide

theorem Walker.code_lt (w : Walker) : w.code < 4 := by cases w <;> decide

/-- One bit as a number. -/
def bitNat (b : Bool) : Nat := if b then 1 else 0

theorem bitNat_lt (b : Bool) : bitNat b < 2 := by cases b <;> decide

theorem decide_bitNat (b : Bool) : decide (bitNat b = 1) = b := by cases b <;> rfl

theorem natOfBits_cons (b : Bool) (bs : List Bool) : natOfBits (b :: bs) = bitNat b + 2 * natOfBits bs := rfl

theorem natOfBits_nil : natOfBits [] = 0 := rfl

/-- The fields of STATUS side by side (R183). -/
theorem statusWord_toNat {s : State} (h : s.port.checkRecord ≤ 18) :
    (statusWord s).toNat = s.rc.part.code + 8 * bitNat s.rc.paused + 16 * bitNat s.rc.finishing
      + 32 * bitNat (decide (s.rc.clearStep ≠ .none)) + 64 * s.oe.walker.code
      + 256 * bitNat (intAsserted s) + 512 * bitNat s.port.refused + 1024 * s.port.checkRecord := by
  have hpart := s.rc.part.code_lt
  have hwalker := s.oe.walker.code_lt
  have h3 := bitNat_lt s.rc.paused
  have h4 := bitNat_lt s.rc.finishing
  have h5 := bitNat_lt (decide (s.rc.clearStep ≠ .none))
  have h8 := bitNat_lt (intAsserted s)
  have h9 := bitNat_lt s.port.refused
  unfold statusWord
  simp only [natOfBits_cons, natOfBits_nil]
  rw [BitVec.toNat_ofNat, Nat.mod_eq_of_lt (by omega)]
  omega

/-- A bit of a word, from the number the word is. -/
theorem getLsbD_eq_decide (w : Word) (k : Nat) : w.getLsbD k = decide (w.toNat / 2 ^ k % 2 = 1) := by
  rw [BitVec.getLsbD, Nat.testBit_eq_decide_div_mod_eq]

/-- INT# is asserted exactly while some pending bit is set (R176). -/
theorem intAsserted_iff (s : State) :
    intAsserted s = true ↔ ∃ k, k < 5 ∧ s.nu.pend.getLsbD k = true := by
  unfold intAsserted
  rw [bne_iff_ne, ne_eq, ← not_iff_not, not_not]
  constructor
  · rintro h ⟨k, -, hk⟩
    rw [h] at hk
    simp at hk
  · intro h
    refine BitVec.eq_of_getLsbD_eq fun k hk => ?_
    refine Eq.trans ?_ BitVec.getLsbD_zero.symm
    exact Bool.eq_false_iff.mpr fun hset => h ⟨k, hk, hset⟩

/-- Settles O11. -/
theorem registerWrites : Obligations.RegisterWrites := by
  refine ⟨fun s d hr => ⟨⟨_, exec_vectorWrite hr d, Word.highByte_toNat d⟩, ⟨_, exec_maskWrite hr d, ?_⟩,
    exec_registerWrite hr d⟩, fun s hrec => ?_, fun s => ⟨?_, rfl, intAsserted_iff s⟩⟩
  · rw [BitVec.toNat_setWidth]
  · have hword := statusWord_toNat hrec
    have hpart := s.rc.part.code_lt
    have hwalker := s.oe.walker.code_lt
    have h3 := bitNat_lt s.rc.paused
    have h4 := bitNat_lt s.rc.finishing
    have h5 := bitNat_lt (decide (s.rc.clearStep ≠ .none))
    have h8 := bitNat_lt (intAsserted s)
    have h9 := bitNat_lt s.port.refused
    have bit {k : Nat} {b : Bool} (h : (statusWord s).toNat / 2 ^ k % 2 = bitNat b) :
        (statusWord s).getLsbD k = b := by
      rw [getLsbD_eq_decide, h, decide_bitNat]
    refine ⟨?_, bit (by omega), bit (by omega), bit (by omega), ?_, bit (by omega), bit (by omega), by omega⟩
    · have hfield : (statusWord s).toNat % 8 = s.rc.part.code := by omega
      rw [hfield]
      cases s.rc.part <;> rfl
    · have hfield : (statusWord s).toNat / 64 % 4 = s.oe.walker.code := by omega
      rw [hfield]
      cases s.oe.walker <;> rfl
  · rw [maskWord, BitVec.toNat_setWidth, Nat.mod_eq_of_lt (by have := s.nu.mask.isLt; omega)]

/-! ### Accepted and refused -/

theorem controlWrite_of_refused {bit : Nat} {s : State} (h : accepts bit s = false) (act : State → State) :
    controlWrite bit act s = { s with port.refused := true } := if_neg (Bool.eq_false_iff.mp h)

theorem controlWrite_of_accepted {bit : Nat} {s : State} (h : accepts bit s = true) (act : State → State) :
    controlWrite bit act s = act { s with port.refused := false } := if_pos h

theorem controlCommand_of_refused {s : State} (h : s.port.resetLow = false) (i : Instr) {bit : Nat}
    (ha : accepts bit s = false) : controlCommand i bit s = { s with port.refused := true } := by
  rw [controlCommand, hostCommand_of_high h, controlWrite_of_refused ha]

theorem controlCommand_of_accepted {s : State} (h : s.port.resetLow = false) (i : Instr) {bit : Nat}
    (ha : accepts bit s = true) : controlCommand i bit s = actOf bit { s with port.refused := false } := by
  rw [controlCommand, hostCommand_of_high h, controlWrite_of_accepted ha]

theorem accepts_run (s : State) : accepts bitRun s =
    ((s.rc.part == .standby && s.rc.decoder == .high) || (s.rc.part == .stopped && s.rc.decoder == .high)
      || (s.rc.part == .run && s.rc.finishing)) := by
  change ((s.rc.part == .standby || s.rc.part == .stopped) && s.rc.decoder == .high
    || (s.rc.part == .run && s.rc.finishing)) = _
  rw [Bool.and_or_distrib_right]

/-- A word that names no command by the list of R182 has no command bit. -/
theorem commandBit_of_unnamed {w : Word} (h : namesCommand w = false) : commandBit w = none := by
  unfold commandBit
  rw [List.find?_eq_none]
  intro k hk hw
  have hk9 : k < 9 := List.mem_range.mp hk
  have hword : w = BitVec.ofNat 16 (2 ^ k) := by
    rw [← of_decide_eq_true hw, BitVec.ofNat_toNat, BitVec.setWidth_eq]
  rw [hword] at h
  interval_cases k <;> revert h <;> decide

theorem exec_controlWord_of_unnamed {s : State} (hr : s.port.resetLow = false) {w : Word}
    (h : namesCommand w = false) : exec (.controlWriteNamingNoCommand w) s =
      .next (if w = 0 then s else { s with port.refused := true }) := by
  change Host.Outcome.next (hostCommand _ (controlWordWrite w) s) = _
  rw [hostCommand_of_high hr, controlWordWrite, commandBit_of_unnamed h]

/-- Settles O12. -/
theorem controlRefuses : Obligations.ControlRefuses := by
  intro s hr
  refine ⟨fun c hc => ?_, fun w hw hn => by rw [exec_controlWord_of_unnamed hr hn, if_neg hw],
    by rw [exec_controlWord_of_unnamed hr (by decide), if_pos rfl]⟩
  have refused {i : Instr} {bit : Nat} (ha : accepts bit s = false) :
      (.next (controlCommand i bit s) : Answer) = .next { s with port.refused := true } :=
    congrArg _ (controlCommand_of_refused hr i ha)
  cases c
  case load => exact refused (Option.some.inj hc)
  case run => exact refused ((accepts_run s).trans (Option.some.inj hc))
  case finish => exact refused (bit := bitFinish) (Option.some.inj hc)
  case pause => exact refused (bit := bitPause) (Option.some.inj hc)
  case resume => exact refused (bit := bitResume) (Option.some.inj hc)
  case restart => exact refused (bit := bitRestart) (Option.some.inj hc)
  case rearm => exact refused (bit := bitRearm) (Option.some.inj hc)
  case burnerReset => exact refused (bit := bitBurnerReset) (Option.some.inj hc)
  case softReset => exact nomatch hc
  all_goals exact nomatch hc

end Sys2Proof.Machine
end

section
/-! The CONTROL commands that are accepted (O13, O15 to O21). -/

namespace Sys2Proof.Machine

/-! ### LOAD -/

theorem exec_load {s : State} (hr : s.port.resetLow = false)
    (hp : s.rc.part = .unconfigured ∨ s.rc.part = .standby) :
    exec .load s = .next (actLoad { s with port.refused := false }) := by
  have ha : (s.rc.part == .unconfigured || s.rc.part == .standby) = true := by
    rcases hp with h | h <;> rw [h] <;> rfl
  exact congrArg _ (controlCommand_of_accepted hr .load (bit := bitLoad) ha)

theorem actLoad_of_none {s : State} (h : s.port.waiting = []) :
    actLoad s = heatersOff { ({ s with port.checkRecord := 0 } : State).wr Win.partState 1 with
      rc.part := .checking } := by
  unfold actLoad
  rw [setPart_of_none (s := { s with port.checkRecord := 0 }) h]
  rfl

/-- Settles O13. -/
theorem loadStartsCheck : Obligations.LoadStartsCheck := by
  intro s hfree hp hwf
  obtain ⟨hr, hw⟩ := (arbiterFree_iff s).mp hfree
  rw [exec_load hr hp, actLoad_of_none (s := { s with port.refused := false }) hw]
  exact ⟨_, rfl, rfl, State.rd_wr_same hwf _ _, fun b h0 h1 => State.byteAt_wr_other hwf _ h0 h1⟩

/-! ### RUN -/

theorem exec_run {s : State} (hr : s.port.resetLow = false) (ha : accepts bitRun s = true) :
    exec .run s = .next (actRun { s with port.refused := false }) :=
  congrArg _ (controlCommand_of_accepted hr .run ha)

/-- RUN accepted outside RUN enters RUN. -/
theorem actRun_enters {s : State} (h : s.rc.part ≠ .run) : actRun s = settle (enterRun s) := by
  unfold actRun; rw [if_neg h]

theorem actRun_in_run {s : State} (h : s.rc.part = .run) :
    actRun s = settle (lookPoint { s with rc.finishing := false }) := by
  unfold actRun; rw [if_pos h]

/-- Settles O15. -/
theorem runEnters : Obligations.RunEnters := by
  intro s hfree
  obtain ⟨hr, hw⟩ := (arbiterFree_iff s).mp hfree
  refine ⟨fun hp hd => ?_, fun hp hf => ?_⟩
  · have ha : accepts bitRun s = true := by
      rw [accepts_run, hd]
      rcases hp with h | h <;> rw [h] <;> rfl
    have hne : s.rc.part ≠ .run := by rcases hp with h | h <;> rw [h] <;> decide
    have henter : enterRun { s with port.refused := false } = burnerTest (lookPoint
        (if (s.rc.clearRequired || s.mixer.suspect) = true then
          beginClear { s.wr Win.partState 3 with rc.part := .run, port.refused := false }
        else { s.wr Win.partState 3 with rc.part := .run, port.refused := false })) := by
      unfold enterRun
      rw [setPart_of_none (s := { s with port.refused := false }) hw]
      rfl
    rw [exec_run hr ha, actRun_enters (s := { s with port.refused := false }) hne, henter]
    simp only [Bool.or_eq_true]
    rfl
  · have ha : accepts bitRun s = true := by rw [accepts_run, hp, hf]; rfl
    rw [exec_run hr ha, actRun_in_run (s := { s with port.refused := false }) hp]

/-! ### FINISH -/

theorem exec_finish {s : State} (hr : s.port.resetLow = false) (hp : s.rc.part = .run) :
    exec .finish s = .next (settle { s with rc.finishing := true, port.refused := false }) :=
  congrArg _ (controlCommand_of_accepted hr .finish (bit := bitFinish) (beq_iff_eq.mpr hp))

/-- Entry into STANDBY, but for the burner. -/
def standbyEntered (s : State) : State :=
  { s.wr Win.partState 2 with
    rc := { s.rc with part := .standby, finishing := false, paused := false, clearStep := .none }
    ch := s.ch.map holdFeed }

theorem enterStandby_of_none {s : State} (h : s.port.waiting = []) :
    enterStandby s = burnerDrop (standbyEntered s) := by
  unfold enterStandby
  rw [setPart_of_none (s := { s with
    rc.finishing := false, rc.paused := false, rc.clearStep := .none, ch := s.ch.map holdFeed }) h]
  rfl

/-- FINISHING that has run out takes the part to STANDBY, where nothing more follows at once. -/
theorem settle_finished {s : State} (hp : s.rc.part = .run) (hd : dryTestHere s = false)
    (hm : mixerStep s = none) (hf : finishDue s = true) (ho : s.oe.lookOwed = 0)
    (hw : s.port.waiting = []) : settle s = followQueue (burnerDrop (standbyEntered s)) := by
  have hnext : nextAtOnce s = some (enterStandby s) := by
    unfold nextAtOnce
    rw [if_pos hp, hd, hm, hf]
    rfl
  rw [enterStandby_of_none hw] at hnext
  exact settle_of_one hnext (nextAtOnce_of_part (by simp [standbyEntered])) (by simpa [standbyEntered])

theorem holdFeed_feed (c : Channel) : (holdFeed c).feed = none := by
  unfold holdFeed; split <;> rfl

/-- A channel that does not dose feeds nothing, so holding its feed changes nothing. -/
theorem holdFeed_of_safe {c : Channel} (h : chanSafe c = true) (hd : ∀ p, c.state ≠ .dosing p) :
    holdFeed c = c := by
  have hfeed : c.feed = none := by
    have hmay : mayFeed c.state = false := by
      cases hs : c.state <;> first | rfl | exact absurd hs (hd _)
    simp only [chanSafe, hmay, Bool.and_eq_true, Bool.or_false, Option.isNone_iff_eq_none] at h
    exact h.1
  unfold holdFeed
  split
  · next hs => exact absurd hs (hd _)
  · next hs => exact absurd hs (hd _)
  · next hs => exact absurd hs (hd _)
  · rw [← hfeed]

theorem burnerDrop_of_fault {s : State} (h : s.heat.burner = .fault) :
    (burnerDrop s).heat.burner = .fault := by
  rw [burnerDrop_of_unlit (by rw [h]; rfl), h]

/-- Settles O16. -/
theorem finishReachesStandby : Obligations.FinishReachesStandby := by
  intro s hfree hp
  obtain ⟨hr, hw⟩ := (arbiterFree_iff s).mp hfree
  refine ⟨exec_finish hr hp, fun hweigh hmix howed hstep hclear hwf => ?_⟩
  have hdue : finishDue { s with rc.finishing := true, port.refused := false } = true := by
    rcases hclear with h | h <;> simp [finishDue, stagesEmpty, hweigh, hmix, h]
  have hdry : dryTestHere { s with rc.finishing := true, port.refused := false } = false := by
    simp [dryTestHere, hweigh]
  have hsettle := settle_finished (s := { s with rc.finishing := true, port.refused := false }) hp hdry
    (mixerStep_eq_none_congr (s := s) rfl rfl rfl rfl hstep) hdue howed hw
  refine ⟨_, (exec_finish hr hp).trans (congrArg _ hsettle), ?_⟩
  simp only [followQueue_rc, followQueue_burner, followQueue_oe, followQueue_co, followQueue_mixer,
    followQueue_nu, followQueue_ch, burnerDrop_rc, burnerDrop_oe, burnerDrop_co, burnerDrop_mixer,
    burnerDrop_nu, burnerDrop_ch, State.chan]
  refine ⟨rfl, burnerDrop_unlit _, fun hfault => ?_, rfl, rfl, rfl, rfl, fun sc => ?_, fun hsafe hidle => ?_,
    ?_, fun b h0 h1 => ?_⟩
  · exact burnerDrop_of_fault hfault
  · exact (congrArg Channel.feed (PerScale.get_map holdFeed s.ch sc)).trans (holdFeed_feed _)
  · exact PerScale.map_eq_self fun sc =>
      holdFeed_of_safe ((PerScale.all_iff chanSafe s.ch).mp hsafe sc) (hidle sc)
  · rw [State.rd_of_mem (followQueue_mem _), State.rd_of_mem (burnerDrop_mem _)]
    exact State.rd_wr_same hwf _ _
  · rw [State.byteAt_of_mem (followQueue_mem _), State.byteAt_of_mem (burnerDrop_mem _)]
    exact State.byteAt_wr_other hwf _ h0 h1

/-! ### PAUSE and RESUME -/

theorem exec_pause {s : State} (hr : s.port.resetLow = false) (hp : s.rc.part = .run) :
    exec .pause s = .next (actPause { s with port.refused := false }) :=
  congrArg _ (controlCommand_of_accepted hr .pause (bit := bitPause) (beq_iff_eq.mpr hp))

theorem exec_resume {s : State} (hr : s.port.resetLow = false) (hp : s.rc.part = .run) :
    exec .resume s = .next (actResume { s with port.refused := false }) :=
  congrArg _ (controlCommand_of_accepted hr .resume (bit := bitResume) (beq_iff_eq.mpr hp))

theorem actPause_of_paused {s : State} (h : s.rc.paused = true) : actPause s = s := if_pos h

theorem actPause_of_clear {s : State} (h : s.rc.paused = false) : actPause s = setPaused .control s :=
  if_neg (Bool.eq_false_iff.mp h)

theorem actResume_of_clear {s : State} (h : s.rc.paused = false) : actResume s = s :=
  if_neg (Bool.eq_false_iff.mp h)

theorem actResume_of_paused {s : State} (h : s.rc.paused = true) :
    actResume s = settle (clearPaused .control s) := if_pos h

/-- PAUSED set with room for its notice (R160). -/
theorem setPaused_of_room {s : State} (h : s.nu.list.length < 16) (src : PauseSource) :
    setPaused src s = { s with
      rc := { s.rc with paused := true, pausedAt := s.seconds }
      nu := { s.nu with list := s.nu.list ++
        [⟨255, 0, mixSeq s, .paused src s.rc.clearStep s.rc.finishing (weighSeq s)⟩] }
      co := { s.co with weigh := s.co.weigh.map fun b => { b with flags.paused := true },
                        mix := s.co.mix.map fun b => { b with flags.paused := true } }
      ch := s.ch.map pauseChannel } := by
  unfold setPaused
  dsimp only
  rw [submit_of_room (s := { s with
    rc := { s.rc with paused := true, pausedAt := s.seconds }, ch := s.ch.map pauseChannel }) h]
  rfl

/-- In RUN the feeds are barred exactly by PAUSED and a clear cycle. -/
theorem feedsBarred_in_run {s : State} (hp : s.rc.part = .run) (h : s.rc.paused = false) :
    feedsBarred s = decide (s.rc.clearStep ≠ .none) := by
  rw [feedsBarred, hp, h]
  cases s.rc.clearStep <;> rfl

/-- What a channel does as PAUSED is cleared in RUN: under a clear cycle the gates alone go on (R97). -/
theorem channelsGoOn {s : State} (hp : s.rc.part = .run) (h : s.rc.paused = false) :
    (if feedsBarred s then reopenGate else resumeChannel) = fun c : Channel =>
      if s.rc.clearStep = .none then resumeChannel c
      else if c.state = .discharging then { c with gate := true } else c := by
  rw [feedsBarred_in_run hp h]
  by_cases hc : s.rc.clearStep = .none
  · simp [hc]
  · simp [hc]; rfl

/-- PAUSED cleared in RUN with room for its notice (R160). -/
theorem clearPaused_of_room {s : State} (hp : s.rc.part = .run) (h : s.nu.list.length < 16)
    (src : PauseSource) :
    clearPaused src s = evalHeld { s with
      rc.paused := false
      nu.list := s.nu.list ++ [⟨255, 0, 0, .resumed src (s.seconds - s.rc.pausedAt).toNat⟩]
      ch := s.ch.map fun c =>
        if s.rc.clearStep = .none then resumeChannel c
        else if c.state = .discharging then { c with gate := true } else c } := by
  unfold clearPaused
  dsimp only
  rw [submit_of_room (s := { s with rc.paused := false }) h]
  rw [channelsGoOn (by exact hp) rfl]
  rfl

/-- PAUSED leaves a safe channel with its outputs off. -/
theorem pauseChannel_off {c : Channel} (h : chanSafe c = true) :
    (pauseChannel c).feed = none ∧ (pauseChannel c).gate = false := by
  simp only [chanSafe, Bool.and_eq_true, Bool.or_eq_true, Bool.not_eq_true', beq_iff_eq,
    Option.isNone_iff_eq_none] at h
  obtain ⟨hfeed, hgate⟩ := h
  unfold pauseChannel
  split
  · exact ⟨rfl, rfl⟩
  · exact ⟨rfl, rfl⟩
  · exact ⟨rfl, rfl⟩
  · next hs => simpa [hs, mayFeed] using And.intro hfeed hgate
  · next hs => simpa [hs, mayFeed] using hfeed
  · next hfast hfine hjog _ hdis =>
    refine ⟨hfeed.resolve_right fun hmay => ?_, hgate.resolve_right hdis⟩
    unfold mayFeed at hmay
    split at hmay
    · next hs => exact hfast hs
    · next hs => exact hfine hs
    · next hs => exact hjog hs
    · cases hmay

/-- Settles O17. -/
theorem pauseAndResume : Obligations.PauseAndResume := by
  refine ⟨fun s hr hp => ⟨fun hpaused => ?_, fun hclear hroom => ?_⟩,
    fun s hr hp => ⟨fun hclear => ?_, fun hpaused hroom => ?_⟩⟩
  · rw [exec_pause hr hp, actPause_of_paused (s := { s with port.refused := false }) hpaused]
  · rw [exec_pause hr hp, actPause_of_clear (s := { s with port.refused := false }) hclear,
      setPaused_of_room (s := { s with port.refused := false }) hroom]
    refine ⟨_, rfl, rfl, fun hsafe sc => ?_⟩
    have hoff := pauseChannel_off ((PerScale.all_iff chanSafe s.ch).mp hsafe sc)
    rw [← PerScale.get_map pauseChannel s.ch sc] at hoff
    exact hoff
  · rw [exec_resume hr hp, actResume_of_clear (s := { s with port.refused := false }) hclear]
  · rw [exec_resume hr hp, actResume_of_paused (s := { s with port.refused := false }) hpaused,
      clearPaused_of_room (s := { s with port.refused := false }) hp hroom]

/-! ### RESTART, REARM and BURNER_RESET -/

/-- RESTART, REARM and BURNER_RESET are accepted in STANDBY, RUN and STOPPED. -/
theorem accepts_five_to_seven {s : State} (h : s.rc.part = .standby ∨ s.rc.part = .run ∨ s.rc.part = .stopped) :
    (s.rc.part == .standby || s.rc.part == .run || s.rc.part == .stopped) = true := by
  rcases h with h | h | h <;> rw [h] <;> rfl

theorem restartWalker_of_none {s : State} (h : s.port.waiting = []) :
    restartWalker s = lookPoint { s.wr Win.chainPosition 255 with
      oe.walker := .noEntry, oe.pos := none, oe.linkEarly := none } := by
  unfold restartWalker
  rw [put_of_none h]

theorem lookPoint_outside_run {s : State} (h : s.rc.part ≠ .run) : lookPoint s = s := by
  unfold lookPoint
  rw [if_neg]
  simp [looksAllowed, h]

/-- Settles O18. -/
theorem restartDropsPosition : Obligations.RestartDropsPosition := by
  intro s hfree hp
  obtain ⟨hr, hw⟩ := (arbiterFree_iff s).mp hfree
  have hexec : exec .restart s = .next (settle (lookPoint { s.wr Win.chainPosition 255 with
      oe.walker := .noEntry, oe.pos := none, oe.linkEarly := none, port.refused := false })) := by
    refine (congrArg _ (controlCommand_of_accepted hr .restart (bit := bitRestart)
      (accepts_five_to_seven hp))).trans (congrArg (fun u => Host.Outcome.next (settle u)) ?_)
    exact restartWalker_of_none (s := { s with port.refused := false }) hw
  refine ⟨hexec, fun hne howed => ?_⟩
  rw [hexec, lookPoint_outside_run (by exact hne), settle_outside_run (by exact hne) (by exact howed)]

/-- Settles O19. -/
theorem rearmReturnsChannels : Obligations.RearmReturnsChannels := by
  intro s hr hp
  exact congrArg _ (controlCommand_of_accepted hr .rearm (bit := bitRearm) (accepts_five_to_seven hp))

theorem exec_burnerReset {s : State} (hr : s.port.resetLow = false)
    (hp : s.rc.part = .standby ∨ s.rc.part = .run ∨ s.rc.part = .stopped) :
    exec .burnerReset s = .next (burnerReset { s with port.refused := false }) :=
  congrArg _ (controlCommand_of_accepted hr .burnerReset (bit := bitBurnerReset) (accepts_five_to_seven hp))

theorem burnerReset_of_other {s : State} (h : s.heat.burner ≠ .fault) : burnerReset s = s := if_neg h

theorem burnerReset_of_fault {s : State} (h : s.heat.burner = .fault) :
    burnerReset s = burnerTest { s with heat := burnerOut .off s.heat } := if_pos h

theorem burnerTest_of_lighting {s : State} (hb : s.heat.burner = .off) (hp : s.rc.part = .run)
    (hi : s.inp.permit = true) : burnerTest s = { s with heat := enterRequested s.inp.flame s.heat } :=
  if_pos ⟨hb, hp, hi⟩

theorem burnerTest_of_barred {s : State} (h : s.rc.part ≠ .run ∨ s.inp.permit = false) :
    burnerTest s = s := by
  refine if_neg fun ⟨_, hp, hi⟩ => ?_
  rcases h with h | h
  · exact h hp
  · exact Bool.false_ne_true (h.symm.trans hi)

/-- Settles O20. -/
theorem burnerResetLeavesFault : Obligations.BurnerResetLeavesFault := by
  intro s hr hp
  rw [exec_burnerReset hr hp]
  have fault (h : s.heat.burner = .fault) := burnerReset_of_fault (s := { s with port.refused := false }) h
  have lit (h : s.rc.part = .run) (hi : s.inp.permit = true) := burnerTest_of_lighting
    (s := { s with port.refused := false, heat := burnerOut .off s.heat }) rfl h hi
  refine ⟨fun h => ?_, fun h hb => ?_, fun h hrun hi hflame => ?_, fun h hrun hi hflame => ?_⟩
  · rw [burnerReset_of_other (s := { s with port.refused := false }) h]
  · rw [fault h, burnerTest_of_barred (by exact hb)]
    rfl
  · rw [fault h, lit hrun hi]
    dsimp only
    rw [hflame]
    rfl
  · rw [fault h, lit hrun hi]
    dsimp only
    rw [hflame]
    rfl

/-! ### SOFT_RESET -/

/-- With no access waiting, part accesses that write one word each are writes in a row. -/
theorem putAll_of_none (l : List (Nat × Word)) : ∀ {s : State}, s.port.waiting = [] →
    putAll l s = writeWords l s := by
  induction l with
  | nil => intro s _; rfl
  | cons x l ih =>
    intro s h
    unfold putAll writeWords
    rw [put_of_none h]
    exact ih h

theorem actSoftReset_of_none {s : State} (h : s.port.waiting = []) :
    actSoftReset s = (((softResetBlocks s).wr Win.chainPosition 255).wr Win.partState 0).wr Win.checkField 0 := by
  unfold actSoftReset
  rw [putAll_of_none _ (by exact h)]
  rfl

/-- Settles O21. -/
theorem softResetKeeps : Obligations.SoftResetKeeps := by
  intro s hfree hwf
  obtain ⟨hr, hw⟩ := (arbiterFree_iff s).mp hfree
  rw [exec_softReset hr, actSoftReset_of_none (s := { s with port.refused := false }) hw]
  generalize hu : softResetBlocks { s with port.refused := false } = u
  have hmem : u.mem = s.mem := by rw [← hu]; rfl
  have h0 : Memory.wf u.mem = true := by rw [hmem]; exact hwf
  have h1 := State.wr_wf h0 Win.chainPosition 255
  have h2 := State.wr_wf h1 Win.partState 0
  refine ⟨_, rfl, ?_, ?_, ?_, State.rd_wr_same h2 _ _, fun b p0 p1 q0 q1 r0 r1 => ?_⟩
  · rw [← hu, ← decoderAfterReset_eq]
    rfl
  · rw [State.rd_wr_other h2 _ (by decide), State.rd_wr_other h1 _ (by decide), State.rd_wr_same h0]
  · rw [State.rd_wr_other h2 _ (by decide), State.rd_wr_same h1]
  · rw [State.byteAt_wr_other h2 _ r0 r1, State.byteAt_wr_other h1 _ q0 q1, State.byteAt_wr_other h0 _ p0 p1,
      State.byteAt_of_mem hmem]

end Sys2Proof.Machine
end

section
/-! The burner and its regulator (O49 to O51). -/

namespace Sys2Proof.Machine

/-! ### The burner's inputs -/

theorem exec_burnerPermitChange {s : State} (h : s.port.resetLow = false) (active : Bool) :
    exec (.burnerPermitChange active) s = .next (permitInput active s) :=
  congrArg _ (if_neg (Bool.eq_false_iff.mp h))

theorem exec_flameProvenChange {s : State} (h : s.port.resetLow = false) (active : Bool) :
    exec (.flameProvenChange active) s = .next (flameInput active s) :=
  congrArg _ (if_neg (Bool.eq_false_iff.mp h))

theorem permitInput_true (s : State) : permitInput true s = burnerTest { s with inp.permit := true } := rfl

theorem permitInput_false (s : State) : permitInput false s = burnerDrop { s with inp.permit := false } := rfl

theorem burnerTest_of_other {s : State} (h : s.heat.burner ≠ .off ∨ s.rc.part ≠ .run) :
    burnerTest s = s := by
  refine if_neg fun ⟨hb, hp, _⟩ => ?_
  rcases h with h | h
  · exact h hb
  · exact h hp

/-- BURNER FAULT posted with room, and the burner out (R143). -/
theorem burnerFault_of_room {s : State} (h : s.nu.list.length < 16) (cause : BurnerCause) :
    burnerFault cause s = { s with
      heat := burnerOut .fault s.heat
      nu.list := s.nu.list ++ [⟨255, 0, 0, .burnerFault cause s.heat.burner s.heat.firing
        (goodReading s.heat.tc.t1)⟩] } := by
  unfold burnerFault
  dsimp only
  rw [submit_of_room (s := { s with heat := burnerOut .fault s.heat }) h]
  rfl

theorem flameInput_lights {s : State} (h : s.heat.burner = .requested) :
    flameInput true s = { s with inp.flame := true, heat := enterLowFire s.heat } := by
  unfold flameInput
  dsimp only
  rw [h]

theorem flameInput_true_of_other {s : State} (h : s.heat.burner ≠ .requested) :
    flameInput true s = { s with inp.flame := true } := by
  unfold flameInput
  dsimp only
  cases hb : s.heat.burner
  case requested => exact absurd hb h
  all_goals rfl

theorem flameInput_lost {s : State} (h : s.heat.burner = .lowFire ∨ s.heat.burner = .modulating) :
    flameInput false s = burnerFault .flameLost { s with inp.flame := false } := by
  unfold flameInput
  dsimp only
  rcases h with h | h <;> rw [h]

theorem flameInput_false_of_other {s : State} (hl : s.heat.burner ≠ .lowFire)
    (hm : s.heat.burner ≠ .modulating) : flameInput false s = { s with inp.flame := false } := by
  unfold flameInput
  dsimp only
  cases hb : s.heat.burner
  case lowFire => exact absurd hb hl
  case modulating => exact absurd hb hm
  all_goals rfl

/-- Settles O49. -/
theorem burnerInputsAct : Obligations.BurnerInputsAct := by
  intro s hr
  simp only [exec_burnerPermitChange hr, exec_flameProvenChange hr, permitInput_true, permitInput_false]
  have lit (hb : s.heat.burner = .off) (hp : s.rc.part = .run) :=
    burnerTest_of_lighting (s := { s with inp.permit := true }) hb hp rfl
  refine ⟨fun h => ?_, fun hb hp hf => ?_, fun hb hp hf => ?_, fun h => ?_, fun h => ?_, fun h => ?_,
    fun h => ?_, fun h hroom => ?_, fun hl hm => ?_⟩
  · rw [burnerTest_of_other (by exact h)]
  · rw [lit hb hp]
    dsimp only
    rw [hf]
    rfl
  · rw [lit hb hp]
    dsimp only
    rw [hf]
    rfl
  · rw [burnerDrop_of_lit (by exact h)]
    rfl
  · rw [burnerDrop_of_unlit (by exact h)]
  · rw [flameInput_lights h]
    rfl
  · rw [flameInput_true_of_other h]
  · rw [flameInput_lost h, burnerFault_of_room (s := { s with inp.flame := false }) hroom]
    rfl
  · rw [flameInput_false_of_other hl hm]

/-! ### The burner's timers -/

theorem exec_ignitionTimeout {s : State} (h : s.port.resetLow = false) :
    exec .ignitionTimeout s = .next (ignitionDue s) := congrArg _ (plainEvent_of_high h _)

theorem exec_lowFireHoldExpiry {s : State} (h : s.port.resetLow = false) :
    exec .lowFireHoldExpiry s = .next (lowFireDue s) := congrArg _ (plainEvent_of_high h _)

theorem ignitionDue_of_other {s : State} (h : s.heat.burner ≠ .requested) : ignitionDue s = s := if_neg h

theorem ignitionDue_of_requested {s : State} (h : s.heat.burner = .requested) {v : HeatVals}
    (hv : s.heat.vals = some v) : ignitionDue s = burnerFault .ignition
      { s with heat.ignition := max s.heat.ignition (10 * v.ignitionTimeout) } := by
  unfold ignitionDue ignitionExpired
  dsimp only
  rw [if_pos h, if_pos h, hv]
  rfl

theorem lowFireDue_of_other {s : State} (h : s.heat.burner ≠ .lowFire) : lowFireDue s = s := if_neg h

theorem lowFireDue_of_lowFire {s : State} (h : s.heat.burner = .lowFire) {v : HeatVals}
    (hv : s.heat.vals = some v) : lowFireDue s = { s with
      heat := enterModulating { s.heat with lowFire := max s.heat.lowFire (10 * v.lowFireHold) } } := by
  unfold lowFireDue lowFireExpired
  dsimp only
  rw [if_pos h, if_pos h, hv]
  rfl

/-- With T1 GOOD the regulator starts at the reading, without the hold (R148). -/
theorem enterModulating_of_good {h : Heat} {v : HeatVals} {pv : Int} (hv : h.vals = some v)
    (hpv : goodReading h.tc.t1 = some pv) : enterModulating h = { h with
      burner := .modulating, firing := v.minFire, update := 0, period := v.period, t1Hold := false
      reg := some ⟨24 * pv, 1000 * v.minFire, some pv⟩ } := by
  unfold enterModulating minFire
  rw [hv, hpv]
  rfl

/-- Settles O50. -/
theorem burnerTimersAct : Obligations.BurnerTimersAct := by
  intro s v hr hv
  rw [exec_ignitionTimeout hr, exec_lowFireHoldExpiry hr]
  refine ⟨fun h => by rw [ignitionDue_of_other h], fun h hroom => ?_, fun h => by rw [lowFireDue_of_other h],
    fun pv h hpv => ?_⟩
  · rw [ignitionDue_of_requested h hv, burnerFault_of_room (by exact hroom), ← h]
    rfl
  · rw [lowFireDue_of_lowFire h hv, enterModulating_of_good (by exact hv) (by exact hpv)]

/-! ### The regulator -/

theorem exec_regulatorUpdate {s : State} (h : s.port.resetLow = false) :
    exec .regulatorUpdate s = .next { s with heat := regulatorUpdate s.heat } :=
  congrArg _ (plainEvent_of_high h _)

theorem regulatorUpdate_of_other {h : Heat} (hb : h.burner ≠ .modulating) : regulatorUpdate h = h := by
  unfold regulatorUpdate
  split
  · next hm _ _ => exact absurd hm hb
  · rfl

section
variable {h : Heat} {v : HeatVals} {r : Regulator} {target : Int}
  (hb : h.burner = .modulating) (hv : h.vals = some v) (hr : h.reg = some r) (ht : h.target = some target)
include hb hv hr ht

/-- Under the T1 hold, or with T1 in fault, the setpoint alone moves (R150). -/
theorem regulatorUpdate_of_held (hold : h.t1Hold = true ∨ goodReading h.tc.t1 = none) :
    regulatorUpdate h = { h with
      update := 0, period := v.period
      reg := some ⟨moveToward (24 * target) (v.ramp * h.period) r.sp, r.integral, none⟩ } := by
  unfold regulatorUpdate
  simp only [hb, hv, hr, ht]
  split
  · next pv hpv hfree =>
    rcases hold with hold | hold
    · exact absurd (hold.symm.trans hfree) (by decide)
    · exact absurd (hold.symm.trans hpv) (by simp)
  · rfl

/-- With T1 GOOD and no hold the error is formed at the moved setpoint (R149). -/
theorem regulatorUpdate_of_good {pv : Int} (hfree : h.t1Hold = false) (hpv : goodReading h.tc.t1 = some pv) :
    regulatorUpdate h =
      let n := regulate v (upperFire v h) pv
        { r with sp := moveToward (24 * target) (v.ramp * h.period) r.sp } h.firing
      { h with update := 0, period := v.period, reg := some n.1, firing := n.2 } := by
  unfold regulatorUpdate
  simp only [hb, hv, hr, ht, hfree, hpv]
  rfl

end

/-- An error within the deadband leaves integral and output (R149). -/
theorem regulate_within {v : HeatVals} {pv : Int} {r : Regulator}
    (h : (roundDiv r.sp 24 - pv).natAbs ≤ v.deadband) (up firing : Int) :
    regulate v up pv r firing = ({ r with prevPV := some pv }, firing) := if_pos h

theorem regulate_outside {v : HeatVals} {pv : Int} {r : Regulator}
    (h : v.deadband < (roundDiv r.sp 24 - pv).natAbs) (up firing : Int) :
    regulate v up pv r firing =
      let e := roundDiv r.sp 24 - pv
      let integral := clampTo (1000 * v.minFire) (1000 * up) (r.integral + v.ki * e)
      ({ r with integral := integral, prevPV := some pv }, clampTo v.minFire up (roundDiv
        (10 * v.kp * e + integral - 10 * v.kd * (pv - r.prevPV.getD pv)) 1000)) :=
  if_neg (Nat.not_le.mpr h)

/-- Settles O51. -/
theorem regulatorUpdates : Obligations.RegulatorUpdates := by
  intro s v r target hlow hv hreg ht
  rw [exec_regulatorUpdate hlow]
  refine ⟨fun hb => ?_, fun hb hold => ?_, fun pv hb hfree hpv hin => ?_, fun pv hb hfree hpv hout => ?_⟩
  · rw [regulatorUpdate_of_other hb]
  · rw [regulatorUpdate_of_held hb hv hreg ht hold]
  · rw [regulatorUpdate_of_good hb hv hreg ht hfree hpv, regulate_within (by exact hin)]
  · rw [regulatorUpdate_of_good hb hv hreg ht hfree hpv, regulate_outside (by exact hout)]
    rfl

end Sys2Proof.Machine
end

section
/-! Derived masses (O54): values rounded half-up once. -/

namespace Sys2Proof.Machine

/-- Rounding half-up: twice the value against twice the numerator. -/
theorem roundDiv_bounds (n : Int) {d : Int} (hd : 0 < d) :
    2 * d * roundDiv n d ≤ 2 * n + d ∧ 2 * n + d < 2 * d * (roundDiv n d + 1) := by
  unfold roundDiv
  have hpos : 0 < 2 * d := by omega
  exact ⟨Int.mul_ediv_self_le hpos.ne', by
    have h := Int.lt_mul_ediv_self_add (x := 2 * n + d) hpos
    rwa [Int.mul_add, Int.mul_one]⟩

/-- The bounds of a half-up value fix it. -/
theorem roundDiv_eq {n d k : Int} (hd : 0 < d) (hlo : 2 * d * k ≤ 2 * n + d)
    (hhi : 2 * n + d < 2 * d * (k + 1)) : roundDiv n d = k := by
  obtain ⟨lo, hi⟩ := roundDiv_bounds n hd
  have hpos : 0 < 2 * d := by omega
  have h1 : k < roundDiv n d + 1 := lt_of_mul_lt_mul_left (lt_of_le_of_lt hlo hi) hpos.le
  have h2 : roundDiv n d < k + 1 := lt_of_mul_lt_mul_left (lt_of_le_of_lt lo hhi) hpos.le
  omega

theorem roundDiv_thousand_bounds (n : Int) :
    2000 * roundDiv n 1000 ≤ 2 * n + 1000 ∧ 2 * n + 1000 < 2000 * (roundDiv n 1000 + 1) :=
  roundDiv_bounds n (by decide)

theorem dryMass_bounds (m b : Nat) : 2000 * dryMass m b ≤ 2 * m * (1000 - b) + 1000 ∧
    2 * (m : Int) * (1000 - b) + 1000 < 2000 * (dryMass m b + 1) := by
  rw [Int.mul_assoc]
  exact roundDiv_thousand_bounds _

/-- The dry mass of a batch R15 admits, at the binder contents R34 admits. -/
theorem dryMass_range {m b : Nat} (hlo : 5000 ≤ m) (hhi : m ≤ 60000) (hb : 20 ≤ b) (hb' : b ≤ 90) :
    4550 ≤ dryMass m b ∧ dryMass m b ≤ 58800 := by
  obtain ⟨lo, hi⟩ := dryMass_bounds m b
  have low : (5000 * 910 : Int) ≤ m * (1000 - b) :=
    mul_le_mul (by omega) (by omega) (by omega) (by omega)
  have high : (m * (1000 - b) : Int) ≤ 60000 * 980 :=
    mul_le_mul (by omega) (by omega) (by omega) (by omega)
  rw [Int.mul_assoc] at lo hi
  constructor <;> omega

theorem shareMass_bounds (dn : Int) (share : Nat) : 2000 * shareMass dn share ≤ 2 * dn * share + 1000 ∧
    2 * dn * share + 1000 < 2000 * (shareMass dn share + 1) := by
  rw [Int.mul_assoc]
  exact roundDiv_thousand_bounds _

theorem newAllowance_kept {d : Dose} (h : d.observed = none ∨ d.gain = 0 ∨ d.held = true ∨
    d.unsettled = true ∨ d.sampleGap = true) : newAllowance d = d.allow := by
  unfold newAllowance
  split
  · next o ho =>
    rw [if_pos]
    exact h.resolve_left (by rw [ho]; simp)
  · rfl

theorem newAllowance_learned {d : Dose} {o : Int} (ho : d.observed = some o) (hg : d.gain ≠ 0)
    (hh : d.held = false) (hu : d.unsettled = false) (hs : d.sampleGap = false) :
    newAllowance d = clampTo 0 d.fine (roundDiv (8 * d.allow + (o - d.allow) * d.gain) 8) := by
  simp [newAllowance, ho, hg, hh, hu, hs]

theorem clampTo_eq {lo hi : Int} (h : lo ≤ hi) (v : Int) : clampTo lo hi v = max lo (min v hi) := by
  unfold clampTo
  split_ifs <;> omega

/-- Settles O54. -/
theorem derivedMasses : Obligations.DerivedMasses := by
  refine ⟨dryMass_bounds, fun m b => dryMass_range, shareMass_bounds, fun b r dn pn k hb => ?_,
    fun d => ⟨newAllowance_kept, fun o k ho hg hh hu hs hf lo hi => ?_⟩⟩
  · intro den num lo hi
    have hnum : (b * dn * 1000 - pn * r * (1000 - b) : Int) = num := by ring
    unfold binderMass
    rw [hnum, roundDiv_eq (d := den) (by omega) lo hi]
  · rw [newAllowance_learned ho hg hh hu hs, roundDiv_eq (k := k) (by decide) lo hi, clampTo_eq hf]

end Sys2Proof.Machine
end

section
/-! The temperature link (O47, O48): channels judged, overrides and heaters brought up to date. -/

namespace Sys2Proof.Machine

/-! ### One home for seven channels -/

@[simp] theorem tempGet_tempSet_same {α : Type} (p : PerTemp α) (t : TempChan) (v : α) :
    tempGet (tempSet p t v) t = v := by cases t <;> rfl

theorem tempGet_tempSet_other {α : Type} (p : PerTemp α) {t k : TempChan} (v : α) (h : k ≠ t) :
    tempGet (tempSet p t v) k = tempGet p k := by
  cases t <;> cases k <;> first | rfl | exact absurd rfl h

@[simp] theorem tempGet_tempMap {α β : Type} (g : α → β) (p : PerTemp α) (k : TempChan) :
    tempGet (tempMap g p) k = g (tempGet p k) := by cases k <;> rfl

@[simp] theorem tempGet_tempZip {α β γ : Type} (g : α → β → γ) (p : PerTemp α) (q : PerTemp β)
    (k : TempChan) : tempGet (tempZip g p q) k = g (tempGet p k) (tempGet q k) := by cases k <;> rfl

theorem tempAny_iff {α : Type} (g : α → Bool) (p : PerTemp α) :
    tempAny g p = true ↔ ∃ k, g (tempGet p k) = true := by
  constructor
  · intro h
    simp only [tempAny, Bool.or_eq_true] at h
    rcases h with (((((h | h) | h) | h) | h) | h) | h
    · exact ⟨.t1, h⟩
    · exact ⟨.t2, h⟩
    · exact ⟨.t3, h⟩
    · exact ⟨.t4, h⟩
    · exact ⟨.t5, h⟩
    · exact ⟨.t6, h⟩
    · exact ⟨.t7, h⟩
  · rintro ⟨k, h⟩
    cases k <;> simp_all [tempAny, tempGet]

/-! ### A notice that may be posted -/

/-- Submit a notice, if there is one. -/
def submitIf : Option Notice → State → State
  | none, s => s
  | some n, s => submit n s

@[simp] theorem submitIf_heat (o : Option Notice) (s : State) : (submitIf o s).heat = s.heat := by
  cases o
  · rfl
  · exact submit_heat _ _
@[simp] theorem submitIf_rc (o : Option Notice) (s : State) : (submitIf o s).rc = s.rc := by
  cases o
  · rfl
  · exact submit_rc _ _
@[simp] theorem submitIf_co (o : Option Notice) (s : State) : (submitIf o s).co = s.co := by
  cases o
  · rfl
  · exact submit_co _ _
@[simp] theorem submitIf_oe (o : Option Notice) (s : State) : (submitIf o s).oe = s.oe := by
  cases o
  · rfl
  · exact submit_oe _ _
@[simp] theorem submitIf_mixer (o : Option Notice) (s : State) : (submitIf o s).mixer = s.mixer := by
  cases o
  · rfl
  · exact submit_mixer _ _

theorem submitIf_of_room {o : Option Notice} {s : State} (h : s.nu.list.length < 16) :
    submitIf o s = { s with nu.list := s.nu.list ++ o.toList } := by
  cases o with
  | none => simp [submitIf]
  | some n => exact submit_of_room h n

/-! ### The channels of a frame (R136, R138) -/

/-- A channel after one reading. -/
def judgedTemp (c : TempCh) (r : TempReading) : TempCh :=
  match c.fault, r.valid with
  | none, true => { c with reading := some r.value.toInt }
  | none, false => { c with fault := some .invalid, good := 0 }
  | some _, true =>
    if c.good < 3 then { c with reading := some r.value.toInt, good := c.good + 1 }
    else ⟨none, some r.value.toInt, 4⟩
  | some _, false => { c with good := 0 }

/-- A SENSOR FAULT notice of one channel. -/
def sensorNotice (cause : TempCause) (entered : Bool) (k : TempChan) (reading : Option Int) : Notice :=
  ⟨255, 0, 0, .sensorFault cause entered (tempSet (tempAll false) k true)
    (tempSet (tempAll none) k reading)⟩

/-- The notice that one reading of a channel posts. -/
def judgedNotice (k : TempChan) (c : TempCh) (r : TempReading) : Option Notice :=
  match c.fault, r.valid with
  | none, false => some (sensorNotice .invalid true k c.reading)
  | some cause, true =>
    if c.good < 3 ∨ cause = .start then none else some (sensorNotice cause false k (some r.value.toInt))
  | _, _ => none

theorem judgeTemp_eq (k : TempChan) (r : TempReading) (s : State) :
    judgeTemp k r s = submitIf (judgedNotice k (tempGet s.heat.tc k) r)
      { s with heat.tc := tempSet s.heat.tc k (judgedTemp (tempGet s.heat.tc k) r) } := by
  unfold judgeTemp judgedNotice judgedTemp
  generalize tempGet s.heat.tc k = c
  obtain ⟨fault, reading, good⟩ := c
  cases fault with
  | none => cases hv : r.valid <;> rfl
  | some cause =>
    cases hv : r.valid
    · rfl
    · by_cases hg : good < 3
      · have hcount : good + 1 < Config.frameCount := by unfold Config.frameCount; omega
        simp only [hg, hcount, if_true, true_or]
        rfl
      · have hcount : ¬ good + 1 < Config.frameCount := by unfold Config.frameCount; omega
        by_cases hc : cause = .start
        · simp only [hg, hcount, hc, if_true, if_false, or_true]
          rfl
        · simp only [hg, hcount, hc, if_false, or_self]
          rfl

/-- The channels of a list judged one after another. -/
def judgeAll (f : TempFrame) (l : List TempChan) (s : State) : State :=
  l.foldl (fun s t => judgeTemp t (tempGet f t) s) s

/-- The readings of a list of channels entered one after another. -/
def judgedAll (f : TempFrame) (l : List TempChan) (p : PerTemp TempCh) : PerTemp TempCh :=
  l.foldl (fun p t => tempSet p t (judgedTemp (tempGet p t) (tempGet f t))) p

theorem judgedAll_all (f : TempFrame) (p : PerTemp TempCh) :
    judgedAll f TempChan.all p = tempZip judgedTemp p f := rfl

theorem judgeAll_fields (f : TempFrame) (l : List TempChan) : ∀ s : State,
    (judgeAll f l s).heat = { s.heat with tc := judgedAll f l s.heat.tc } ∧
      (judgeAll f l s).rc = s.rc ∧ (judgeAll f l s).co = s.co ∧ (judgeAll f l s).oe = s.oe ∧
      (judgeAll f l s).mixer = s.mixer := by
  induction l with
  | nil => intro s; exact ⟨rfl, rfl, rfl, rfl, rfl⟩
  | cons t l ih =>
    intro s
    obtain ⟨hheat, hrc, hco, hoe, hmixer⟩ := ih (judgeTemp t (tempGet f t) s)
    refine ⟨hheat.trans ?_, hrc.trans ?_, hco.trans ?_, hoe.trans ?_, hmixer.trans ?_⟩ <;>
      rw [judgeTemp_eq] <;> simp [judgedAll]

/-- With room for their notices the channels judged change the heat controller and add the notices alone. -/
theorem judgeAll_of_room (f : TempFrame) (l : List TempChan) : ∀ s : State, l.Nodup →
    s.nu.list.length + l.length ≤ 16 →
    judgeAll f l s = { s with
      heat.tc := judgedAll f l s.heat.tc
      nu.list := s.nu.list ++ l.filterMap fun k => judgedNotice k (tempGet s.heat.tc k) (tempGet f k) } := by
  induction l with
  | nil => intro s _ _; simp [judgeAll, judgedAll]
  | cons t l ih =>
    intro s hnd hroom
    obtain ⟨hnot, hnd⟩ := List.nodup_cons.mp hnd
    rw [List.length_cons] at hroom
    change judgeAll f l (judgeTemp t (tempGet f t) s) = _
    have hlist : (judgedNotice t (tempGet s.heat.tc t) (tempGet f t)).toList.length ≤ 1 := by
      cases judgedNotice t (tempGet s.heat.tc t) (tempGet f t) <;> simp
    have hcongr : (l.filterMap fun k => judgedNotice k
        (tempGet (tempSet s.heat.tc t (judgedTemp (tempGet s.heat.tc t) (tempGet f t))) k) (tempGet f k)) =
        l.filterMap fun k => judgedNotice k (tempGet s.heat.tc k) (tempGet f k) :=
      List.filterMap_congr fun k hk => by
        have hne : k ≠ t := fun e => hnot (e ▸ hk)
        rw [tempGet_tempSet_other _ _ hne]
    rw [judgeTemp_eq, submitIf_of_room (by exact (by omega : s.nu.list.length < 16)),
      ih _ hnd (by simp only [List.length_append]; omega)]
    simp only [hcongr, List.filterMap_cons, List.append_assoc]
    cases judgedNotice t (tempGet s.heat.tc t) (tempGet f t) <;> rfl

end Sys2Proof.Machine
end

section
/-! The overrides and the heaters after a frame or a missing period (R150 to R154), MISSING_PERIOD (O48). -/

namespace Sys2Proof.Machine

/-! ### The T1 hold and the T7 clamp: firing, regulator and their own marks alone change -/

theorem clampFire_frame (v : HeatVals) (h : Heat) :
    clampFire v h = { h with firing := (clampFire v h).firing, reg := (clampFire v h).reg } := by
  unfold clampFire; split <;> rfl

theorem testClamp_frame (h : Heat) : testClamp h = { h with
    t7Clamp := t7Test h, firing := (testClamp h).firing, reg := (testClamp h).reg } := by
  unfold testClamp
  dsimp only
  split
  · split
    · rw [clampFire_frame]
    · rfl
  · rfl

theorem testHold_frame (h : Heat) : testHold h = { h with
    t1Hold := (testHold h).t1Hold, firing := (testHold h).firing, reg := (testHold h).reg } := by
  unfold testHold
  split
  · split <;> rfl
  · rfl

/-- The heat controller with both overrides tested. -/
def overridden (h : Heat) : Heat := testClamp (testHold h)

theorem overridden_frame (h : Heat) : overridden h = { h with
    t1Hold := (overridden h).t1Hold, t7Clamp := t7Test h, firing := (overridden h).firing
    reg := (overridden h).reg } := by
  unfold overridden
  rw [testClamp_frame, testHold_frame]
  rfl

theorem testHold_lit {h : Heat} {v : HeatVals} (hb : h.burner = .modulating) (hv : h.vals = some v)
    (ht : goodReading h.tc.t1 = none) :
    testHold h = { h with t1Hold := true, firing := v.minFire, reg := h.reg.map dropPV } := by
  unfold testHold
  simp only [hb, hv, ht, Option.isNone_none, if_true]

theorem testHold_free {h : Heat} (hfree : h.burner ≠ .modulating ∨ h.vals = none ∨ goodReading h.tc.t1 ≠ none) :
    testHold h = { h with t1Hold := false } := by
  unfold testHold
  split
  · next v hb hv =>
    rcases hfree with h1 | h1 | h1
    · exact absurd hb h1
    · exact absurd (hv.symm.trans h1) (by simp)
    · rw [if_neg (by rw [Option.isNone_iff_eq_none]; exact h1)]
  · rfl

theorem testClamp_free {h : Heat} (ht : t7Test h = false) : testClamp h = { h with t7Clamp := false } := by
  unfold testClamp
  rw [ht]
  dsimp only
  split <;> rfl

theorem testClamp_set {h : Heat} {v : HeatVals} (hv : h.vals = some v) (ht : t7Test h = true) :
    testClamp h = clampFire v { h with t7Clamp := true } := by
  unfold testClamp
  rw [ht]
  simp only [hv, if_true]

theorem clampTo_self (m v : Int) : clampTo m m v = m := by
  unfold clampTo; split_ifs <;> omega

/-- Under the T7 clamp a modulating burner goes to min fire, output and integral (R151). -/
theorem clampFire_clamped {v : HeatVals} {h : Heat} (hb : h.burner = .modulating) (hc : h.t7Clamp = true) :
    clampFire v h = { h with
      firing := v.minFire, reg := h.reg.map fun r => { r with integral := 1000 * v.minFire } } := by
  unfold clampFire upperFire
  simp only [hb, hc, if_true, clampTo_self, ite_self]

theorem clampFire_reg_of_other {v : HeatVals} {h : Heat} (hb : h.burner ≠ .modulating) :
    (clampFire v h).reg = h.reg := by
  unfold clampFire
  split
  · rfl
  · next hm => exact absurd hm hb
  all_goals rfl

theorem t7Test_some {h : Heat} {v : HeatVals} (hv : h.vals = some v) :
    t7Test h = (goodReading h.tc.t7).elim true fun t => decide (v.baghouse < t) := by
  unfold t7Test
  rw [hv]
  cases goodReading h.tc.t7 <;> rfl

theorem overridden_t1Hold {h : Heat} {v : HeatVals} (hv : h.vals = some v) :
    (overridden h).t1Hold = (h.burner == .modulating && (goodReading h.tc.t1).isNone) := by
  have hclamp : (overridden h).t1Hold = (testHold h).t1Hold := by
    unfold overridden; rw [testClamp_frame]
  rw [hclamp]
  by_cases hb : h.burner = .modulating
  · cases ht : goodReading h.tc.t1 with
    | none => rw [testHold_lit hb hv ht, hb]; rfl
    | some t => rw [testHold_free (.inr (.inr (by rw [ht]; simp))), hb]; rfl
  · rw [testHold_free (.inl hb), beq_eq_false_iff_ne.mpr hb]; rfl

/-- A modulating burner under either override stands at min fire (R150, R151). -/
theorem overridden_firing {h : Heat} {v : HeatVals} (hb : h.burner = .modulating) (hv : h.vals = some v) :
    (overridden h).firing =
      if (goodReading h.tc.t1).isNone || t7Test h then (v.minFire : Int) else h.firing := by
  have hvals : (testHold h).vals = some v := by rw [testHold_frame]; exact hv
  have hburner : (testHold h).burner = .modulating := by rw [testHold_frame]; exact hb
  have htest : t7Test (testHold h) = t7Test h := by rw [testHold_frame]; rfl
  unfold overridden
  cases hc : t7Test h with
  | true =>
    rw [testClamp_set hvals (htest.trans hc), clampFire_clamped (h := { testHold h with t7Clamp := true }) hburner rfl,
      Bool.or_true]
    rfl
  | false =>
    rw [testClamp_free (htest.trans hc), Bool.or_false]
    cases ht : goodReading h.tc.t1 with
    | none => rw [testHold_lit hb hv ht]; rfl
    | some t => rw [testHold_free (.inr (.inr (by rw [ht]; simp)))]; rfl

/-! ### One tank -/

@[simp] theorem tankOfHeat_setTank_same (h : Heat) (t : Tank) (k : TankState) :
    tankOfHeat (setTank h t k) t = k := by cases t <;> rfl

theorem setTank_frame (h : Heat) (t : Tank) (k : TankState) :
    setTank h t k = { h with bt1 := (setTank h t k).bt1, bt2 := (setTank h t k).bt2 } := by
  cases t <;> rfl

/-- A channel in fault keeps its tank's heater off (R154). -/
theorem testTankFrame_of_fault {s : State} {tank : Tank} (h : goodReading (tankChan s.heat tank) = none)
    (valid : Bool) : testTankFrame tank valid s =
      { s with heat := setTank s.heat tank { tankOfHeat s.heat tank with heater := false } } := by
  unfold testTankFrame
  split
  · next t _ ht => exact absurd (h.symm.trans ht) (by simp)
  · rfl
  · next t _ ht => exact absurd (h.symm.trans ht) (by simp)

/-- With the channel GOOD, a tank without a valid reading is left as it is. -/
theorem testTankFrame_of_invalid {s : State} {tank : Tank} (h : goodReading (tankChan s.heat tank) ≠ none) :
    testTankFrame tank false s = s := by
  unfold testTankFrame
  split
  · rfl
  · next ht => exact absurd ht h
  · rfl

/-- A tank tested without a valid reading: its heater off with its channel in fault. -/
def faultOff (tank : Tank) (h : Heat) : Heat :=
  if goodReading (tankChan h tank) = none then
    setTank h tank { tankOfHeat h tank with heater := false } else h

theorem faultOff_of_fault {tank : Tank} {h : Heat} (hf : goodReading (tankChan h tank) = none) :
    faultOff tank h = setTank h tank { tankOfHeat h tank with heater := false } := if_pos hf

theorem faultOff_of_good {tank : Tank} {h : Heat} (hg : goodReading (tankChan h tank) ≠ none) :
    faultOff tank h = h := if_neg hg

theorem faultOff_frame (tank : Tank) (h : Heat) : faultOff tank h =
    { h with bt1 := (faultOff tank h).bt1, bt2 := (faultOff tank h).bt2 } := by
  unfold faultOff
  split
  · exact setTank_frame _ _ _
  · rfl

theorem testTankFrame_false (tank : Tank) (s : State) :
    testTankFrame tank false s = { s with heat := faultOff tank s.heat } := by
  by_cases h : goodReading (tankChan s.heat tank) = none
  · rw [testTankFrame_of_fault h, faultOff_of_fault h]
  · rw [testTankFrame_of_invalid h, faultOff_of_good h]

/-- Both tanks tested without a valid reading. -/
def heatersInvalid (h : Heat) : Heat := faultOff .bt2 (faultOff .bt1 h)

theorem afterTemps_false (s : State) :
    afterTemps false false s = { s with heat := heatersInvalid (overridden s.heat) } := by
  unfold afterTemps
  rw [testTankFrame_false, testTankFrame_false]
  rfl

theorem heatersInvalid_frame (h : Heat) : heatersInvalid h =
    { h with bt1 := (heatersInvalid h).bt1, bt2 := (heatersInvalid h).bt2 } := by
  unfold heatersInvalid
  rw [faultOff_frame .bt2, faultOff_frame .bt1]

/-- With both tanks' channels in fault both heaters are off, latches and setpoints kept. -/
theorem heatersInvalid_faulted {h : Heat} (h3 : goodReading h.tc.t3 = none) (h4 : goodReading h.tc.t4 = none) :
    heatersInvalid h = { h with
      bt1 := { h.bt1 with heater := false }, bt2 := { h.bt2 with heater := false } } := by
  unfold heatersInvalid
  rw [faultOff_of_fault (tank := .bt1) h3, faultOff_of_fault (by exact h4)]
  rfl

/-! ### MISSING_PERIOD (R137) -/

/-- A channel at the end of a missing period; `limit` is the period that reaches the limit. -/
def missedTemp (limit : Bool) (c : TempCh) : TempCh :=
  match c.fault with
  | some _ => { c with good := 0 }
  | none => if limit then { c with fault := some .noFrames, good := 0 } else c

theorem missedTemp_false (c : TempCh) :
    missedTemp false c = if c.fault = none then c else { c with good := 0 } := by
  obtain ⟨fault, reading, good⟩ := c
  cases fault <;> rfl

theorem missedTemp_true (c : TempCh) :
    missedTemp true c = { c with good := 0, fault := some (c.fault.getD .noFrames) } := by
  obtain ⟨fault, reading, good⟩ := c
  cases fault <;> rfl

/-- The missing period that ends is the one that reaches the limit. -/
def missesLimit (h : Heat) : Bool :=
  decide (min Config.frameCount (h.missing + 1) = Config.frameCount ∧ h.missing ≠ Config.frameCount)

/-- The heat controller's channels and count after a missing period. -/
def missedHeat (h : Heat) : Heat :=
  { h with tc := tempMap (missedTemp (missesLimit h)) h.tc, missing := min 4 (h.missing + 1) }

/-- The notice of the missing period that reaches the limit, if a channel enters fault by it. -/
def missedNotice (h : Heat) : Option Notice :=
  let entering := tempMap (fun c : TempCh => missesLimit h && c.fault == none) h.tc
  if tempAny id entering then
    some ⟨255, 0, 0, .sensorFault .noFrames true entering (tempMap TempCh.reading h.tc)⟩
  else none

theorem countMissing_eq (s : State) :
    countMissing s = submitIf (missedNotice s.heat) { s with heat := missedHeat s.heat } := by
  unfold missedNotice
  dsimp only
  by_cases h : tempAny id (tempMap (fun c : TempCh => missesLimit s.heat && c.fault == none) s.heat.tc) = true
  · rw [if_pos h]
    exact if_pos h
  · rw [if_neg h]
    exact if_neg h

theorem exec_missingPeriod {s : State} (h : s.port.resetLow = false) :
    exec .missingPeriod s = .next (missingPeriod s) := congrArg _ (plainEvent_of_high h _)

theorem missingPeriod_of_room {s : State} (h : s.nu.list.length < 16) : missingPeriod s = { s with
    heat := heatersInvalid (overridden (missedHeat { s.heat with age := 0 }))
    nu.list := s.nu.list ++ (missedNotice s.heat).toList } := by
  unfold missingPeriod
  rw [countMissing_eq, submitIf_of_room (by exact h), afterTemps_false]
  rfl

theorem missesLimit_iff {h : Heat} : missesLimit h = true ↔ 3 ≤ h.missing ∧ h.missing ≠ 4 := by
  unfold missesLimit
  rw [decide_eq_true_iff]
  change min 4 (h.missing + 1) = 4 ∧ h.missing ≠ 4 ↔ _
  omega

theorem missedNotice_of_earlier {h : Heat} (hm : missesLimit h = false) : missedNotice h = none := by
  unfold missedNotice
  rw [hm, if_neg]
  rw [tempAny_iff]
  rintro ⟨k, hk⟩
  simp at hk

theorem missedNotice_of_limit {h : Heat} (hm : missesLimit h = true) (k : TempChan)
    (hk : (tempGet h.tc k).fault = none) : missedNotice h = some ⟨255, 0, 0, .sensorFault .noFrames true
      (tempMap (fun c => decide (c.fault = none)) h.tc) (tempMap TempCh.reading h.tc)⟩ := by
  have hset : (fun c : TempCh => missesLimit h && c.fault == none) = fun c => decide (c.fault = none) := by
    funext c
    rw [hm]
    cases c.fault <;> rfl
  unfold missedNotice
  rw [hset, if_pos]
  rw [tempAny_iff]
  exact ⟨k, by simpa using hk⟩

theorem missedNotice_of_faulted {h : Heat} (hk : ∀ k, (tempGet h.tc k).fault ≠ none) :
    missedNotice h = none := by
  unfold missedNotice
  rw [if_neg]
  rw [tempAny_iff]
  rintro ⟨k, h⟩
  simp only [tempGet_tempMap, id, Bool.and_eq_true, beq_iff_eq] at h
  exact hk k h.2

/-- A channel that a missing period leaves has no good reading once the limit is reached. -/
theorem goodReading_missed (c : TempCh) : goodReading (missedTemp true c) = none := by
  rw [missedTemp_true]; rfl

/-- Settles O48. -/
theorem missingPeriodCounts : Obligations.MissingPeriodCounts := by
  intro s hr hroom
  refine ⟨_, (exec_missingPeriod hr).trans (congrArg _ (missingPeriod_of_room hroom)), ?_⟩
  generalize hh : missedHeat { s.heat with age := 0 } = h
  have htc : h.tc = tempMap (missedTemp (missesLimit s.heat)) s.heat.tc := by rw [← hh]; rfl
  have hmissing : h.missing = min 4 (s.heat.missing + 1) := by rw [← hh]; rfl
  have hvals : h.vals = s.heat.vals := by rw [← hh]; rfl
  have hburner : h.burner = s.heat.burner := by rw [← hh]; rfl
  have hreg : h.reg = s.heat.reg := by rw [← hh]; rfl
  have hage : h.age = 0 := by rw [← hh]; rfl
  have hbt1 : h.bt1 = s.heat.bt1 := by rw [← hh]; rfl
  have hbt2 : h.bt2 = s.heat.bt2 := by rw [← hh]; rfl
  dsimp only
  refine ⟨?_, ?_, rfl, rfl, rfl, rfl, fun hm => ?_, fun hm => ?_, fun hne hle => ⟨?_, fun k => ?_⟩,
    fun hthree => ?_⟩
  · rw [heatersInvalid_frame, overridden_frame]; exact hage
  · rw [heatersInvalid_frame, overridden_frame]; exact hburner
  · rw [heatersInvalid_frame, overridden_frame]; exact hmissing.trans (by omega)
  · rw [heatersInvalid_frame, overridden_frame]; exact hmissing.trans (by omega)
  · have hlimit : missesLimit s.heat = false := by
      rw [Bool.eq_false_iff, ne_eq, missesLimit_iff]; omega
    rw [missedNotice_of_earlier hlimit, Option.toList_none, List.append_nil]
  · have hlimit : missesLimit s.heat = false := by
      rw [Bool.eq_false_iff, ne_eq, missesLimit_iff]; omega
    rw [heatersInvalid_frame, overridden_frame]
    change tempGet h.tc k = _
    rw [htc, hlimit, tempGet_tempMap, missedTemp_false]
  · have hlimit : missesLimit s.heat = true := by rw [missesLimit_iff]; omega
    rw [hlimit] at htc
    have hgood (k : TempChan) : goodReading (tempGet h.tc k) = none := by
      rw [htc, tempGet_tempMap, goodReading_missed]
    have hover : (overridden h).tc = h.tc := by rw [overridden_frame]
    have hoff := heatersInvalid_faulted (h := overridden h) (by rw [hover]; exact hgood .t3)
      (by rw [hover]; exact hgood .t4)
    have htest : t7Test h = true := by unfold t7Test; rw [show goodReading h.tc.t7 = none from hgood .t7]
    refine ⟨fun k => ?_, ?_, ?_, ?_, fun v hv hmod => ?_, fun hother => ?_, fun hall => ?_, fun k hk => ?_⟩
    · rw [hoff]
      change tempGet (overridden h).tc k = _
      rw [hover, htc, tempGet_tempMap, missedTemp_true]
    · rw [hoff]
      change (overridden h).t7Clamp = true
      rw [overridden_frame]
      exact htest
    · rw [hoff, overridden_frame, ← hbt1]
    · rw [hoff, overridden_frame, ← hbt2]
    · have hlit := testHold_lit (hburner.trans hmod) (hvals.trans hv) (hgood .t1)
      have hheat : overridden h = { h with
          t1Hold := true, t7Clamp := true, firing := v.minFire
          reg := (h.reg.map dropPV).map fun r => { r with integral := 1000 * v.minFire } } := by
        unfold overridden
        rw [hlit, testClamp_set (v := v) (by exact hvals.trans hv) (by exact htest),
          clampFire_clamped (by exact hburner.trans hmod) rfl]
      rw [hoff, hheat, ← hreg]
      refine ⟨rfl, rfl, ?_⟩
      rw [Option.map_map]
      rfl
    · have hfree := testHold_free (h := h) (.inl (by rw [hburner]; exact hother))
      rw [hoff, ← hreg]
      unfold overridden
      rw [hfree]
      refine ⟨by rw [testClamp_frame], ?_⟩
      unfold testClamp
      dsimp only
      split
      · split
        · exact clampFire_reg_of_other (by rw [hburner]; exact hother)
        · rfl
      · rfl
    · rw [missedNotice_of_faulted hall, Option.toList_none, List.append_nil]
    · rw [missedNotice_of_limit hlimit k hk]
      rfl

end Sys2Proof.Machine
end

section
/-! What the mixer's operations leave unchanged, field by field. -/

namespace Sys2Proof.Machine

/-! ### A discharge request: channels, mixer and clear record alone change -/

theorem reportDischarge_frame (sc : Scale) (k : EndKind) (s : State) : reportDischarge sc k s =
    { s with rc := (reportDischarge sc k s).rc, mixer := (reportDischarge sc k s).mixer } := by
  unfold reportDischarge
  split
  · rfl
  · split <;> rfl

theorem endDischarge_frame (sc : Scale) (k : EndKind) (s : State) : endDischarge sc k s =
    { s with ch := (endDischarge sc k s).ch, rc := (endDischarge sc k s).rc
             mixer := (endDischarge sc k s).mixer } := by
  unfold endDischarge; rw [reportDischarge_frame]; rfl

theorem requestDischarge_frame (sc : Scale) (s : State) : requestDischarge sc s =
    { s with ch := (requestDischarge sc s).ch, rc := (requestDischarge sc s).rc
             mixer := (requestDischarge sc s).mixer } := by
  unfold requestDischarge
  dsimp only
  split
  · split
    · rfl
    · rw [endDischarge_frame]
  · rfl

theorem askScale_frame (sc : Scale) (s : State) : askScale sc s =
    { s with ch := (askScale sc s).ch, rc := (askScale sc s).rc, mixer := (askScale sc s).mixer } := by
  unfold askScale
  split
  · rw [requestDischarge_frame]
  · rfl

@[simp] theorem requestDischarge_port (sc : Scale) (s : State) : (requestDischarge sc s).port = s.port := by rw [requestDischarge_frame]
@[simp] theorem requestDischarge_oe (sc : Scale) (s : State) : (requestDischarge sc s).oe = s.oe := by rw [requestDischarge_frame]
@[simp] theorem requestDischarge_co (sc : Scale) (s : State) : (requestDischarge sc s).co = s.co := by rw [requestDischarge_frame]
@[simp] theorem requestDischarge_bit (sc : Scale) (s : State) : (requestDischarge sc s).bit = s.bit := by rw [requestDischarge_frame]
@[simp] theorem requestDischarge_heat (sc : Scale) (s : State) : (requestDischarge sc s).heat = s.heat := by rw [requestDischarge_frame]
@[simp] theorem requestDischarge_nu (sc : Scale) (s : State) : (requestDischarge sc s).nu = s.nu := by rw [requestDischarge_frame]
@[simp] theorem requestDischarge_inp (sc : Scale) (s : State) : (requestDischarge sc s).inp = s.inp := by rw [requestDischarge_frame]
@[simp] theorem requestDischarge_seconds (sc : Scale) (s : State) : (requestDischarge sc s).seconds = s.seconds := by rw [requestDischarge_frame]
@[simp] theorem requestDischarge_clk (sc : Scale) (s : State) : (requestDischarge sc s).clk = s.clk := by rw [requestDischarge_frame]
@[simp] theorem requestDischarge_mem (sc : Scale) (s : State) : (requestDischarge sc s).mem = s.mem := by rw [requestDischarge_frame]
@[simp] theorem requestDischarge_freeSeed (sc : Scale) (s : State) : (requestDischarge sc s).freeSeed = s.freeSeed := by rw [requestDischarge_frame]
@[simp] theorem requestDischarge_pending (sc : Scale) (s : State) : (requestDischarge sc s).pending = s.pending := by rw [requestDischarge_frame]

@[simp] theorem askScale_port (sc : Scale) (s : State) : (askScale sc s).port = s.port := by rw [askScale_frame]
@[simp] theorem askScale_oe (sc : Scale) (s : State) : (askScale sc s).oe = s.oe := by rw [askScale_frame]
@[simp] theorem askScale_co (sc : Scale) (s : State) : (askScale sc s).co = s.co := by rw [askScale_frame]
@[simp] theorem askScale_bit (sc : Scale) (s : State) : (askScale sc s).bit = s.bit := by rw [askScale_frame]
@[simp] theorem askScale_heat (sc : Scale) (s : State) : (askScale sc s).heat = s.heat := by rw [askScale_frame]
@[simp] theorem askScale_nu (sc : Scale) (s : State) : (askScale sc s).nu = s.nu := by rw [askScale_frame]
@[simp] theorem askScale_inp (sc : Scale) (s : State) : (askScale sc s).inp = s.inp := by rw [askScale_frame]
@[simp] theorem askScale_seconds (sc : Scale) (s : State) : (askScale sc s).seconds = s.seconds := by rw [askScale_frame]
@[simp] theorem askScale_clk (sc : Scale) (s : State) : (askScale sc s).clk = s.clk := by rw [askScale_frame]
@[simp] theorem askScale_mem (sc : Scale) (s : State) : (askScale sc s).mem = s.mem := by rw [askScale_frame]
@[simp] theorem askScale_freeSeed (sc : Scale) (s : State) : (askScale sc s).freeSeed = s.freeSeed := by rw [askScale_frame]
@[simp] theorem askScale_pending (sc : Scale) (s : State) : (askScale sc s).pending = s.pending := by rw [askScale_frame]

/-! ### Phases: beside the notices the mixer alone changes -/

/-- A state without what phase changes touch: mixer, window, notices and the accesses served. -/
def State.offMixer (s : State) : State := { s with mixer := Mixer.reset }.offLog

theorem State.rc_of_offMixer {s t : State} (h : t.offMixer = s.offMixer) : t.rc = s.rc := by
  have k := congrArg State.rc h; exact k
theorem State.oe_of_offMixer {s t : State} (h : t.offMixer = s.offMixer) : t.oe = s.oe := by
  have k := congrArg State.oe h; exact k
theorem State.co_of_offMixer {s t : State} (h : t.offMixer = s.offMixer) : t.co = s.co := by
  have k := congrArg State.co h; exact k
theorem State.ch_of_offMixer {s t : State} (h : t.offMixer = s.offMixer) : t.ch = s.ch := by
  have k := congrArg State.ch h; exact k
theorem State.bit_of_offMixer {s t : State} (h : t.offMixer = s.offMixer) : t.bit = s.bit := by
  have k := congrArg State.bit h; exact k
theorem State.heat_of_offMixer {s t : State} (h : t.offMixer = s.offMixer) : t.heat = s.heat := by
  have k := congrArg State.heat h; exact k
theorem State.inp_of_offMixer {s t : State} (h : t.offMixer = s.offMixer) : t.inp = s.inp := by
  have k := congrArg State.inp h; exact k
theorem State.seconds_of_offMixer {s t : State} (h : t.offMixer = s.offMixer) : t.seconds = s.seconds := by
  have k := congrArg State.seconds h; exact k
theorem State.clk_of_offMixer {s t : State} (h : t.offMixer = s.offMixer) : t.clk = s.clk := by
  have k := congrArg State.clk h; exact k
theorem State.freeSeed_of_offMixer {s t : State} (h : t.offMixer = s.offMixer) : t.freeSeed = s.freeSeed := by
  have k := congrArg State.freeSeed h; exact k
theorem State.pending_of_offMixer {s t : State} (h : t.offMixer = s.offMixer) : t.pending = s.pending := by
  have k := congrArg State.pending h; exact k

theorem submit_offMixer (n : Notice) (s : State) : (submit n s).offMixer = s.offMixer :=
  calc (submit n s).offMixer = { (submit n s).offLog with mixer := Mixer.reset } := rfl
    _ = { s.offLog with mixer := Mixer.reset } := by rw [submit_offLog]
    _ = s.offMixer := rfl

theorem postMark_offMixer (p : MarkPhase) (late : Bool) (s : State) :
    (postMark p late s).offMixer = s.offMixer := submit_offMixer _ _

theorem leavePhase_offMixer (s : State) : (leavePhase s).offMixer = s.offMixer := by
  unfold leavePhase
  split
  · exact postMark_offMixer _ _ _
  · rfl

theorem enterPhase_offMixer (p : Phase) (s : State) : (enterPhase p s).offMixer = s.offMixer := by
  unfold enterPhase
  dsimp only
  split
  · split
    · exact postMark_offMixer _ _ _
    · rfl
  · rfl

theorem changePhase_offMixer (p : Phase) (s : State) : (changePhase p s).offMixer = s.offMixer :=
  (enterPhase_offMixer _ _).trans (leavePhase_offMixer _)

@[simp] theorem leavePhase_rc (s : State) : (leavePhase s).rc = s.rc := State.rc_of_offMixer (leavePhase_offMixer s)
@[simp] theorem leavePhase_oe (s : State) : (leavePhase s).oe = s.oe := State.oe_of_offMixer (leavePhase_offMixer s)
@[simp] theorem leavePhase_co (s : State) : (leavePhase s).co = s.co := State.co_of_offMixer (leavePhase_offMixer s)
@[simp] theorem leavePhase_ch (s : State) : (leavePhase s).ch = s.ch := State.ch_of_offMixer (leavePhase_offMixer s)
@[simp] theorem leavePhase_bit (s : State) : (leavePhase s).bit = s.bit := State.bit_of_offMixer (leavePhase_offMixer s)
@[simp] theorem leavePhase_heat (s : State) : (leavePhase s).heat = s.heat := State.heat_of_offMixer (leavePhase_offMixer s)
@[simp] theorem leavePhase_inp (s : State) : (leavePhase s).inp = s.inp := State.inp_of_offMixer (leavePhase_offMixer s)
@[simp] theorem leavePhase_seconds (s : State) : (leavePhase s).seconds = s.seconds := State.seconds_of_offMixer (leavePhase_offMixer s)
@[simp] theorem leavePhase_clk (s : State) : (leavePhase s).clk = s.clk := State.clk_of_offMixer (leavePhase_offMixer s)
@[simp] theorem leavePhase_freeSeed (s : State) : (leavePhase s).freeSeed = s.freeSeed := State.freeSeed_of_offMixer (leavePhase_offMixer s)
@[simp] theorem leavePhase_pending (s : State) : (leavePhase s).pending = s.pending := State.pending_of_offMixer (leavePhase_offMixer s)

@[simp] theorem enterPhase_rc (p : Phase) (s : State) : (enterPhase p s).rc = s.rc := State.rc_of_offMixer (enterPhase_offMixer p s)
@[simp] theorem enterPhase_oe (p : Phase) (s : State) : (enterPhase p s).oe = s.oe := State.oe_of_offMixer (enterPhase_offMixer p s)
@[simp] theorem enterPhase_co (p : Phase) (s : State) : (enterPhase p s).co = s.co := State.co_of_offMixer (enterPhase_offMixer p s)
@[simp] theorem enterPhase_ch (p : Phase) (s : State) : (enterPhase p s).ch = s.ch := State.ch_of_offMixer (enterPhase_offMixer p s)
@[simp] theorem enterPhase_bit (p : Phase) (s : State) : (enterPhase p s).bit = s.bit := State.bit_of_offMixer (enterPhase_offMixer p s)
@[simp] theorem enterPhase_heat (p : Phase) (s : State) : (enterPhase p s).heat = s.heat := State.heat_of_offMixer (enterPhase_offMixer p s)
@[simp] theorem enterPhase_inp (p : Phase) (s : State) : (enterPhase p s).inp = s.inp := State.inp_of_offMixer (enterPhase_offMixer p s)
@[simp] theorem enterPhase_seconds (p : Phase) (s : State) : (enterPhase p s).seconds = s.seconds := State.seconds_of_offMixer (enterPhase_offMixer p s)
@[simp] theorem enterPhase_clk (p : Phase) (s : State) : (enterPhase p s).clk = s.clk := State.clk_of_offMixer (enterPhase_offMixer p s)
@[simp] theorem enterPhase_freeSeed (p : Phase) (s : State) : (enterPhase p s).freeSeed = s.freeSeed := State.freeSeed_of_offMixer (enterPhase_offMixer p s)
@[simp] theorem enterPhase_pending (p : Phase) (s : State) : (enterPhase p s).pending = s.pending := State.pending_of_offMixer (enterPhase_offMixer p s)

@[simp] theorem changePhase_rc (p : Phase) (s : State) : (changePhase p s).rc = s.rc := State.rc_of_offMixer (changePhase_offMixer p s)
@[simp] theorem changePhase_oe (p : Phase) (s : State) : (changePhase p s).oe = s.oe := State.oe_of_offMixer (changePhase_offMixer p s)
@[simp] theorem changePhase_co (p : Phase) (s : State) : (changePhase p s).co = s.co := State.co_of_offMixer (changePhase_offMixer p s)
@[simp] theorem changePhase_ch (p : Phase) (s : State) : (changePhase p s).ch = s.ch := State.ch_of_offMixer (changePhase_offMixer p s)
@[simp] theorem changePhase_bit (p : Phase) (s : State) : (changePhase p s).bit = s.bit := State.bit_of_offMixer (changePhase_offMixer p s)
@[simp] theorem changePhase_heat (p : Phase) (s : State) : (changePhase p s).heat = s.heat := State.heat_of_offMixer (changePhase_offMixer p s)
@[simp] theorem changePhase_inp (p : Phase) (s : State) : (changePhase p s).inp = s.inp := State.inp_of_offMixer (changePhase_offMixer p s)
@[simp] theorem changePhase_seconds (p : Phase) (s : State) : (changePhase p s).seconds = s.seconds := State.seconds_of_offMixer (changePhase_offMixer p s)
@[simp] theorem changePhase_clk (p : Phase) (s : State) : (changePhase p s).clk = s.clk := State.clk_of_offMixer (changePhase_offMixer p s)
@[simp] theorem changePhase_freeSeed (p : Phase) (s : State) : (changePhase p s).freeSeed = s.freeSeed := State.freeSeed_of_offMixer (changePhase_offMixer p s)
@[simp] theorem changePhase_pending (p : Phase) (s : State) : (changePhase p s).pending = s.pending := State.pending_of_offMixer (changePhase_offMixer p s)

end Sys2Proof.Machine
end

section
/-! The charge (R59 to R63, R119): what a charge start does to the batch, the mixer and the channels it asks;
TEMPERATURE_FRAME (O47). -/

namespace Sys2Proof.Machine

/-! ### Rounds of the heat controller that follow the queue -/

/-- What of the heat controller the queue and the stages do not reach. -/
def Heat.core (h : Heat) : Heat :=
  { h with target := none, idle := 0, atStandby := false, bt1 := .reset, bt2 := .reset, permit := none }

theorem setTank_core (h : Heat) (t : Tank) (k : TankState) : (setTank h t k).core = h.core := by
  cases t <;> rfl

theorem followDryer_core (s : State) : (followDryer s).heat.core = s.heat.core := by
  unfold followDryer
  repeat' split
  all_goals rfl

theorem testTankBetween_core (t : Tank) (s : State) : (testTankBetween t s).heat.core = s.heat.core := by
  unfold testTankBetween
  split
  · split
    · exact setTank_core _ _ _
    · rfl
  · rfl

theorem followTank_core (t : Tank) (s : State) : (followTank t s).heat.core = s.heat.core := by
  unfold followTank
  dsimp only
  split
  · rfl
  · rw [testTankBetween_core]; exact setTank_core _ _ _

theorem followQueue_core (s : State) : (followQueue s).heat.core = s.heat.core := by
  unfold followQueue
  rw [followTank_core, followTank_core, followDryer_core]

theorem setTank_permit (h : Heat) (t : Tank) (k : TankState) : (setTank h t k).permit = h.permit := by
  cases t <;> rfl

theorem followDryer_permit (s : State) : (followDryer s).heat.permit = s.heat.permit := by
  unfold followDryer
  repeat' split
  all_goals rfl

theorem testTankBetween_permit (t : Tank) (s : State) :
    (testTankBetween t s).heat.permit = s.heat.permit := by
  unfold testTankBetween
  split
  · split
    · exact setTank_permit _ _ _
    · rfl
  · rfl

theorem followTank_permit (t : Tank) (s : State) : (followTank t s).heat.permit = s.heat.permit := by
  unfold followTank
  dsimp only
  split
  · rfl
  · rw [testTankBetween_permit]; exact setTank_permit _ _ _

theorem followQueue_permit (s : State) : (followQueue s).heat.permit = s.heat.permit := by
  unfold followQueue
  rw [followTank_permit, followTank_permit, followDryer_permit]

/-! ### Counting a batch charged -/

theorem countCharged_frame (b : Batch) (s : State) : countCharged b s =
    { s with
      oe.queue := if b.orderLeft then s.oe.queue else s.oe.queue.map fun o =>
        if isOrder b.slot b.order o then { o with charged := o.charged + 1 } else o
      heat := (countCharged b s).heat } := by
  unfold countCharged
  rw [followQueue_frame]
  split <;> rfl

theorem countCharged_core (b : Batch) (s : State) : (countCharged b s).heat.core = s.heat.core := by
  unfold countCharged
  rw [followQueue_core]
  split <;> rfl

theorem countCharged_permit (b : Batch) (s : State) : (countCharged b s).heat.permit = s.heat.permit := by
  unfold countCharged
  rw [followQueue_permit]
  split <;> rfl

/-! ### The mixer takes a charge request (R119) -/

/-- The mixer's values for a new charge, before it enters CHARGING. -/
def chargeValues (m : MixBatch) (s : State) : State :=
  { s with
    mixer.batch := some m, mixer.disch := ⟨.notAsked, .notAsked, .notAsked, .notAsked⟩,
    mixer.dryT := 0, mixer.fillT := 0, mixer.wetT := 0, mixer.overT := 0, mixer.doorT := 0,
    mixer.rwPosted := false, mixer.omPosted := false, mixer.cmPosted := false, mixer.t6 := .notTaken,
    mixer.cmPhase := s.mixer.work.bind MixVals.markPhase,
    mixer.cmOffset := (s.mixer.work.map MixVals.markOffset).getD 0 }

/-- CHARGING entered, before any scale is asked. -/
def chargeEntered (m : MixBatch) (s : State) : State :=
  enterPhase .charging (chargeValues m (refreshMixer s))

theorem mixerCharge_eq (m : MixBatch) (s : State) : mixerCharge m s =
    let u := askScale .rap (askScale .agg (chargeEntered m s))
    if (u.mixer.work.map MixVals.fillerDelay).getD 0 = 0 then askScale .fil u else u := rfl

theorem enterPhase_mixer (p : Phase) (s : State) : (enterPhase p s).mixer =
    { s.mixer with phase := p, clock := 0, cmPosted := (enterPhase p s).mixer.cmPosted } := by
  unfold enterPhase
  dsimp only
  split
  · split
    · rw [(postMark_same _ _ _).1]
    · rfl
  · rfl

theorem chargeEntered_heat (m : MixBatch) (s : State) : (chargeEntered m s).heat = s.heat :=
  (enterPhase_heat _ _).trans (by simp [chargeValues, refreshMixer])

theorem chargeEntered_co (m : MixBatch) (s : State) : (chargeEntered m s).co = s.co :=
  (enterPhase_co _ _).trans (by simp [chargeValues, refreshMixer])

theorem chargeEntered_oe (m : MixBatch) (s : State) : (chargeEntered m s).oe = s.oe :=
  (enterPhase_oe _ _).trans (by simp [chargeValues, refreshMixer])

theorem chargeEntered_rc (m : MixBatch) (s : State) : (chargeEntered m s).rc = s.rc :=
  (enterPhase_rc _ _).trans (by simp [chargeValues, refreshMixer])

theorem chargeEntered_ch (m : MixBatch) (s : State) : (chargeEntered m s).ch = s.ch :=
  (enterPhase_ch _ _).trans (by simp [chargeValues, refreshMixer])

theorem mixerCharge_heat (m : MixBatch) (s : State) : (mixerCharge m s).heat = s.heat := by
  rw [mixerCharge_eq]
  dsimp only
  split <;> simp [chargeEntered_heat]

theorem mixerCharge_co (m : MixBatch) (s : State) : (mixerCharge m s).co = s.co := by
  rw [mixerCharge_eq]
  dsimp only
  split <;> simp [chargeEntered_co]

theorem mixerCharge_phase (m : MixBatch) (s : State) : (mixerCharge m s).mixer.phase = .charging := by
  have hentered : (chargeEntered m s).mixer.phase = .charging := (enterPhase_same _ _).1
  rw [mixerCharge_eq]
  dsimp only
  split <;> simp only [(askScale_same _ _).1, hentered]

/-! ### Charge start (R63) -/

/-- The batch as it enters the mixer stage. -/
def chargedBatch (b : Batch) : Batch :=
  { b with route := some (if batchReject b then .reject else b.dest), waiting := false }

/-- The mixer batch of a charge. -/
def mixBatchOf (b : Batch) : MixBatch :=
  ⟨b.seq, b.slot, b.order, if batchReject b then .reject else b.dest, b.dryTime, b.wetTime, b.overLimit⟩

/-- The stages moved on and the order's count raised, before the mixer charges. -/
def stagesCharged (b : Batch) (s : State) : State :=
  countCharged b { s with
    co := { s.co with weigh := none, mix := some (chargedBatch b) }, heat.permit := none }

theorem chargeStart_eq (b : Batch) (s : State) :
    chargeStart b s = mixerCharge (mixBatchOf b) (stagesCharged b s) := rfl

theorem chargeStart_co (b : Batch) (s : State) :
    (chargeStart b s).co = { s.co with weigh := none, mix := some (chargedBatch b) } := by
  rw [chargeStart_eq, mixerCharge_co, stagesCharged, countCharged_frame]

theorem chargeStart_permit (b : Batch) (s : State) : (chargeStart b s).heat.permit = none := by
  rw [chargeStart_eq, mixerCharge_heat, stagesCharged, countCharged_permit]

theorem chargeStart_core (b : Batch) (s : State) : (chargeStart b s).heat.core = s.heat.core := by
  rw [chargeStart_eq, mixerCharge_heat, stagesCharged, countCharged_core]
  rfl

theorem chargeStart_phase (b : Batch) (s : State) : (chargeStart b s).mixer.phase = .charging :=
  mixerCharge_phase _ _

/-! ### A held permit request (R156) -/

theorem evalHeld_of_none {s : State} (h : s.heat.permit = none) : evalHeld s = s := by
  unfold evalHeld
  split
  · next hr _ _ => exact absurd (hr.symm.trans h) (by simp)
  · rfl

section
variable {s : State} {r : PermitReq} {v : HeatVals} {b : Batch} (hr : s.heat.permit = some r)
  (hv : s.heat.vals = some v) (hb : s.co.weigh = some b) (hruns : mixerRuns s = true)
  (hempty : mixerEmpty s = true)
include hr hv hb hruns hempty

theorem evalHeld_refused {a : PermitAnswer}
    (hj : judgePermit v s.heat r.tAgg r.tank r.winMin r.winMax = some a) :
    evalHeld s = { s with heat.permit := some { r with answer := a } } := by
  unfold evalHeld
  simp only [hr, hv, hb, hruns, hempty, hj, Bool.and_self, if_true]

theorem evalHeld_granted (hj : judgePermit v s.heat r.tAgg r.tank r.winMin r.winMax = none) :
    evalHeld s = chargeStart b s := by
  unfold evalHeld
  simp only [hr, hv, hb, hruns, hempty, hj, Bool.and_self, if_true]

end

theorem evalHeld_core (s : State) : (evalHeld s).heat.core = s.heat.core := by
  unfold evalHeld
  split
  · split
    · split
      · exact chargeStart_core _ _
      · rfl
    · rfl
  · rfl

end Sys2Proof.Machine
end

section
/-! TEMPERATURE_FRAME (O47): the tanks at a frame, and the frame as a whole. -/

namespace Sys2Proof.Machine

/-! ### One tank at a frame (R152, R153) -/

/-- A tank whose reading reaches its high limit latches. -/
def latchedTank (tv : TankVals) (t : Int) (k : TankState) : TankState :=
  if tv.high ≤ t ∧ k.latch = false then { k with heater := false, latch := true } else k

/-- A tank's state once a valid reading has been tested against its limit and its heater. -/
def testedTank (h : Heat) (tank : Tank) (t : Int) (v : HeatVals) : TankState :=
  heaterAtFrame (setpointOf (tankVals v tank) (tankOfHeat h tank)) v.hysteresis t
    (latchedTank (tankVals v tank) t (tankOfHeat h tank))

/-- A tank's heater state after a frame. -/
def framedTank (part : PartState) (h : Heat) (tank : Tank) (valid : Bool) : TankState :=
  let k := tankOfHeat h tank
  match h.vals, goodReading (tankChan h tank) with
  | some v, some t =>
    if valid && heatersRun part then testedTank h tank t v else k
  | _, none => { k with heater := false }
  | none, some _ => k

/-- TANK HIGH of one tank at a frame. -/
def framedNotice (part : PartState) (h : Heat) (tank : Tank) (valid : Bool) : Option Notice :=
  match h.vals, goodReading (tankChan h tank) with
  | some v, some t =>
    let k := tankOfHeat h tank
    let tv := tankVals v tank
    if valid = true ∧ heatersRun part = true ∧ tv.high ≤ t ∧ k.latch = false then
      some ⟨255, 0, 0, .tankHigh tank t tv.high (setpointOf tv k)⟩
    else none
  | _, _ => none

@[simp] theorem setTank_setTank (h : Heat) (t : Tank) (a b : TankState) :
    setTank (setTank h t a) t b = setTank h t b := by cases t <;> rfl

@[simp] theorem setTank_tankOfHeat (h : Heat) (t : Tank) : setTank h t (tankOfHeat h t) = h := by
  cases t <;> rfl

/-- A valid reading at the limit with the latch clear: TANK HIGH, then the heater test (R153). -/
theorem tankFrame_high {tank : Tank} {t : Int} {v : HeatVals} {s : State}
    (h : (tankVals v tank).high ≤ t ∧ (tankOfHeat s.heat tank).latch = false) :
    tankFrame tank t v s =
      let setpoint := setpointOf (tankVals v tank) (tankOfHeat s.heat tank)
      { submit ⟨255, 0, 0, .tankHigh tank t (tankVals v tank).high setpoint⟩ { s with
          heat := setTank s.heat tank (latchedTank (tankVals v tank) t (tankOfHeat s.heat tank)) } with
        heat := setTank s.heat tank (testedTank s.heat tank t v) } := by
  unfold tankFrame testedTank latchedTank
  dsimp only
  rw [if_pos h, if_pos h, submit_heat, tankOfHeat_setTank_same, setTank_setTank]
  rfl

theorem tankFrame_below {tank : Tank} {t : Int} {v : HeatVals} {s : State}
    (h : ¬((tankVals v tank).high ≤ t ∧ (tankOfHeat s.heat tank).latch = false)) :
    tankFrame tank t v s = { s with heat := setTank s.heat tank (testedTank s.heat tank t v) } := by
  unfold tankFrame testedTank latchedTank
  dsimp only
  rw [if_neg h, if_neg h]

/-- The frame test of one tank: its notice, if any, and then its heater state. -/
theorem testTankFrame_cases (tank : Tank) (valid : Bool) (s : State) : ∃ u : State,
    u = submitIf (framedNotice s.rc.part s.heat tank valid) { s with heat := u.heat } ∧
    testTankFrame tank valid s =
      { u with heat := setTank s.heat tank (framedTank s.rc.part s.heat tank valid) } := by
  unfold testTankFrame framedNotice framedTank
  dsimp only
  cases hv : s.heat.vals with
  | none => cases hg : goodReading (tankChan s.heat tank) <;> exact ⟨s, rfl, by simp⟩
  | some v =>
    cases hg : goodReading (tankChan s.heat tank) with
    | none => exact ⟨s, rfl, rfl⟩
    | some t =>
      dsimp only
      by_cases hrun : (valid && heatersRun s.rc.part) = true
      · obtain ⟨hvalid, hruns⟩ := Bool.and_eq_true_iff.mp hrun
        rw [if_pos hrun, if_pos hrun]
        by_cases hh : (tankVals v tank).high ≤ t ∧ (tankOfHeat s.heat tank).latch = false
        · rw [if_pos ⟨hvalid, hruns, hh⟩]
          refine ⟨_, ?_, tankFrame_high hh⟩
          rw [submit_heat]
          rfl
        · rw [if_neg (fun hall => hh hall.2.2)]
          exact ⟨s, rfl, tankFrame_below hh⟩
      · rw [if_neg hrun, if_neg hrun, if_neg (fun hall => hrun (by rw [hall.1, hall.2.1]; rfl))]
        exact ⟨s, rfl, by simp⟩

theorem testTankFrame_fields (tank : Tank) (valid : Bool) (s : State) :
    (testTankFrame tank valid s).heat =
        setTank s.heat tank (framedTank s.rc.part s.heat tank valid) ∧
      (testTankFrame tank valid s).rc = s.rc ∧ (testTankFrame tank valid s).co = s.co ∧
      (testTankFrame tank valid s).oe = s.oe ∧ (testTankFrame tank valid s).mixer = s.mixer := by
  obtain ⟨u, hu, heq⟩ := testTankFrame_cases tank valid s
  rw [heq]
  dsimp only
  rw [hu]
  exact ⟨rfl, submitIf_rc _ _, submitIf_co _ _, submitIf_oe _ _, submitIf_mixer _ _⟩

theorem testTankFrame_of_room {tank : Tank} {valid : Bool} {s : State} (h : s.nu.list.length < 16) :
    testTankFrame tank valid s = { s with
      heat := setTank s.heat tank (framedTank s.rc.part s.heat tank valid)
      nu.list := s.nu.list ++ (framedNotice s.rc.part s.heat tank valid).toList } := by
  obtain ⟨u, hu, heq⟩ := testTankFrame_cases tank valid s
  rw [heq, hu, submitIf_of_room (by exact h)]

/-! ### Both tanks -/

/-- The heat controller after both tanks' frame tests. -/
def framedHeat (part : PartState) (h : Heat) (v3 v4 : Bool) : Heat :=
  { h with bt1 := framedTank part h .bt1 v3, bt2 := framedTank part h .bt2 v4 }

theorem framedTank_bt2 (part : PartState) (h : Heat) (k : TankState) (valid : Bool) :
    framedTank part (setTank h .bt1 k) .bt2 valid = framedTank part h .bt2 valid := rfl

theorem framedNotice_bt2 (part : PartState) (h : Heat) (k : TankState) (valid : Bool) :
    framedNotice part (setTank h .bt1 k) .bt2 valid = framedNotice part h .bt2 valid := rfl

theorem afterTemps_fields (v3 v4 : Bool) (s : State) :
    (afterTemps v3 v4 s).heat = framedHeat s.rc.part (overridden s.heat) v3 v4 ∧
      (afterTemps v3 v4 s).rc = s.rc ∧ (afterTemps v3 v4 s).co = s.co ∧ (afterTemps v3 v4 s).oe = s.oe ∧
      (afterTemps v3 v4 s).mixer = s.mixer := by
  obtain ⟨h1, r1, c1, o1, m1⟩ := testTankFrame_fields .bt1 v3 { s with heat := overridden s.heat }
  obtain ⟨h2, r2, c2, o2, m2⟩ := testTankFrame_fields .bt2 v4
    (testTankFrame .bt1 v3 { s with heat := overridden s.heat })
  refine ⟨h2.trans ?_, r2.trans r1, c2.trans c1, o2.trans o1, m2.trans m1⟩
  rw [h1, r1, framedTank_bt2]
  rfl

theorem afterTemps_of_room {v3 v4 : Bool} {s : State} (h : s.nu.list.length < 15) :
    afterTemps v3 v4 s = { s with
      heat := framedHeat s.rc.part (overridden s.heat) v3 v4
      nu.list := s.nu.list ++ (framedNotice s.rc.part (overridden s.heat) .bt1 v3).toList
        ++ (framedNotice s.rc.part (overridden s.heat) .bt2 v4).toList } := by
  have hone : (framedNotice s.rc.part (overridden s.heat) .bt1 v3).toList.length ≤ 1 := by
    cases framedNotice s.rc.part (overridden s.heat) .bt1 v3 <;> simp
  unfold afterTemps
  change testTankFrame .bt2 v4 (testTankFrame .bt1 v3 { s with heat := overridden s.heat }) = _
  rw [testTankFrame_of_room (s := { s with heat := overridden s.heat })
      (by exact (by omega : s.nu.list.length < 16)),
    testTankFrame_of_room (by simp only [List.length_append]; omega)]
  dsimp only
  rw [framedTank_bt2, framedNotice_bt2]
  rfl

/-! ### The frame -/

theorem exec_temperatureFrame {s : State} (h : s.port.resetLow = false) (f : TempFrame) :
    exec (.temperatureFrame f) s = .next (settle (temperatureFrame f s)) := congrArg _ (event_of_high h _)

/-- The heat controller once the channels of a frame are judged. -/
def judgedHeat (f : TempFrame) (h : Heat) : Heat :=
  { h with tc := tempZip judgedTemp h.tc f, missing := 0, age := 0 }

/-- The state once the channels of a frame are judged and the tanks tested, before a held permit request
is. -/
def frameJudged (f : TempFrame) (s : State) : State :=
  afterTemps f.t3.valid f.t4.valid
    (judgeAll f TempChan.all { s with heat := { s.heat with missing := 0, age := 0 } })

theorem temperatureFrame_eq (f : TempFrame) (s : State) :
    temperatureFrame f s = evalHeld (frameJudged f s) := rfl

theorem frameJudged_fields (f : TempFrame) (s : State) :
    (frameJudged f s).heat = framedHeat s.rc.part (overridden (judgedHeat f s.heat)) f.t3.valid f.t4.valid ∧
      (frameJudged f s).rc = s.rc ∧ (frameJudged f s).co = s.co ∧ (frameJudged f s).oe = s.oe ∧
      (frameJudged f s).mixer = s.mixer := by
  obtain ⟨h1, r1, c1, o1, m1⟩ := judgeAll_fields f TempChan.all
    { s with heat := { s.heat with missing := 0, age := 0 } }
  obtain ⟨h2, r2, c2, o2, m2⟩ := afterTemps_fields f.t3.valid f.t4.valid
    (judgeAll f TempChan.all { s with heat := { s.heat with missing := 0, age := 0 } })
  refine ⟨h2.trans ?_, r2.trans r1, c2.trans c1, o2.trans o1, m2.trans m1⟩
  rw [h1, r1, judgedAll_all]
  rfl

theorem frameJudged_of_room {f : TempFrame} {s : State} (h : s.nu.list.length < 8) :
    frameJudged f s = { s with
      heat := framedHeat s.rc.part (overridden (judgedHeat f s.heat)) f.t3.valid f.t4.valid
      nu.list := s.nu.list
        ++ (TempChan.all.filterMap fun k => judgedNotice k (tempGet s.heat.tc k) (tempGet f k))
        ++ (framedNotice s.rc.part (overridden (judgedHeat f s.heat)) .bt1 f.t3.valid).toList
        ++ (framedNotice s.rc.part (overridden (judgedHeat f s.heat)) .bt2 f.t4.valid).toList } := by
  have hseven : (TempChan.all.filterMap fun k =>
      judgedNotice k (tempGet s.heat.tc k) (tempGet f k)).length ≤ 7 := List.length_filterMap_le _ TempChan.all
  unfold frameJudged
  rw [judgeAll_of_room f TempChan.all _ (by decide) (by change s.nu.list.length + 7 ≤ 16; omega),
    afterTemps_of_room (by
      change (s.nu.list ++ TempChan.all.filterMap fun k =>
        judgedNotice k (tempGet s.heat.tc k) (tempGet f k)).length < 15
      rw [List.length_append]
      omega)]
  rfl

/-! ### What a channel and a tank read after a frame -/

theorem judgedTemp_cases (c : TempCh) (r : TempReading) :
    (c.fault = none → r.valid = true → judgedTemp c r = { c with reading := some r.value.toInt }) ∧
    (c.fault = none → r.valid = false → judgedTemp c r = { c with fault := some .invalid, good := 0 }) ∧
    (c.fault ≠ none → r.valid = true → c.good < 3 →
      judgedTemp c r = { c with reading := some r.value.toInt, good := c.good + 1 }) ∧
    (c.fault ≠ none → r.valid = true → 3 ≤ c.good → judgedTemp c r = ⟨none, some r.value.toInt, 4⟩) ∧
    (c.fault ≠ none → r.valid = false → judgedTemp c r = { c with good := 0 }) := by
  obtain ⟨fault, reading, good⟩ := c
  obtain ⟨valid, value⟩ := r
  cases fault with
  | none => cases valid <;> simp [judgedTemp]
  | some cause =>
    cases valid
    · simp [judgedTemp]
    · simp only [judgedTemp]
      refine ⟨nofun, nofun, fun _ _ hg => if_pos hg, fun _ _ hg => if_neg (Nat.not_lt.mpr hg), nofun⟩

theorem framedTank_of_fault {part : PartState} {h : Heat} {tank : Tank}
    (hg : goodReading (tankChan h tank) = none) (valid : Bool) :
    framedTank part h tank valid = { tankOfHeat h tank with heater := false } := by
  unfold framedTank
  rw [hg]
  cases h.vals <;> rfl

theorem framedTank_of_reading {part : PartState} {h : Heat} {tank : Tank} {v : HeatVals} {t : Int}
    (hv : h.vals = some v) (hg : goodReading (tankChan h tank) = some t) (hrun : heatersRun part = true) :
    framedTank part h tank true = testedTank h tank t v := by
  unfold framedTank
  rw [hv, hg, hrun]
  rfl

/-- The heater test at a frame with the latch test before it, by where the reading stands (R152, R153). -/
theorem heaterAtFrame_latched (tv : TankVals) (hyst : Nat) (sp t : Int) (k : TankState) :
    let k' := heaterAtFrame sp hyst t (latchedTank tv t k)
    (sp ≤ t → k'.heater = false ∧ k'.latch = (k.latch || decide (tv.high ≤ t))) ∧
    (t < sp - hyst → t < tv.high → k'.heater = true ∧ k'.latch = false) ∧
    (sp - hyst ≤ t → t < sp → t < tv.high → k'.latch = k.latch ∧ k'.heater = (!k.latch && k.heater)) := by
  obtain ⟨heater, work, latch⟩ := k
  refine ⟨fun h => ?_, fun h h' => ?_, fun h h' h'' => ?_⟩
  · have hlow : ¬ t < sp - hyst := by omega
    by_cases hh : tv.high ≤ t <;> cases latch <;>
      simp [heaterAtFrame, heaterCases, latchedTank, h, hh, hlow]
  · have hlow : ¬ sp ≤ t := by omega
    cases latch <;> simp [heaterAtFrame, heaterCases, latchedTank, h, hlow, Int.not_le.mpr h']
  · have hlow : ¬ t < sp - hyst := by omega
    cases latch <;> simp [heaterAtFrame, heaterCases, latchedTank, hlow, Int.not_le.mpr h',
      Int.not_le.mpr h'']

/-! ### TEMPERATURE_FRAME -/

/-- A valid flag of a tank's channel. -/
def tankValid (f : TempFrame) : Tank → Bool
  | .bt1 => f.t3.valid | .bt2 => f.t4.valid

theorem temperatureFrame_core (f : TempFrame) (s : State) :
    (temperatureFrame f s).heat.core = (overridden (judgedHeat f s.heat)).core := by
  rw [temperatureFrame_eq, evalHeld_core, (frameJudged_fields f s).1]
  rfl

theorem overridden_vals (h : Heat) : (overridden h).vals = h.vals := by rw [overridden_frame]

theorem tankOfHeat_overridden (h : Heat) (tank : Tank) :
    tankOfHeat (overridden h) tank = tankOfHeat h tank := by
  rw [overridden_frame]
  cases tank <;> rfl

theorem core_fields {a b : Heat} (h : a.core = b.core) :
    a.missing = b.missing ∧ a.age = b.age ∧ a.tc = b.tc ∧ a.burner = b.burner ∧ a.t1Hold = b.t1Hold ∧
      a.t7Clamp = b.t7Clamp ∧ a.firing = b.firing :=
  ⟨show a.core.missing = b.core.missing by rw [h], show a.core.age = b.core.age by rw [h],
    show a.core.tc = b.core.tc by rw [h], show a.core.burner = b.core.burner by rw [h],
    show a.core.t1Hold = b.core.t1Hold by rw [h], show a.core.t7Clamp = b.core.t7Clamp by rw [h],
    show a.core.firing = b.core.firing by rw [h]⟩

/-- What a frame leaves in the heat controller besides queue, setpoints, heaters and held request. -/
theorem temperatureFrame_heat (f : TempFrame) (s : State) :
    (temperatureFrame f s).heat.missing = 0 ∧ (temperatureFrame f s).heat.age = 0 ∧
      (temperatureFrame f s).heat.tc = tempZip judgedTemp s.heat.tc f ∧
      (temperatureFrame f s).heat.burner = s.heat.burner ∧
      (temperatureFrame f s).heat.t1Hold = (overridden (judgedHeat f s.heat)).t1Hold ∧
      (temperatureFrame f s).heat.t7Clamp = t7Test (judgedHeat f s.heat) ∧
      (temperatureFrame f s).heat.firing = (overridden (judgedHeat f s.heat)).firing := by
  obtain ⟨hmissing, hage, htc, hburner, hhold, hclamp, hfiring⟩ :=
    core_fields (temperatureFrame_core f s)
  rw [overridden_frame] at hmissing hage htc hburner hclamp
  exact ⟨hmissing, hage, htc, hburner, hhold, hclamp, hfiring⟩

theorem frameJudged_permit (f : TempFrame) (s : State) :
    (frameJudged f s).heat.permit = s.heat.permit := by
  rw [(frameJudged_fields f s).1]
  change (overridden (judgedHeat f s.heat)).permit = _
  rw [overridden_frame]
  rfl

/-- Without a held request the frame ends with the tanks' tests. -/
theorem temperatureFrame_of_none {s : State} (h : s.heat.permit = none) (f : TempFrame) :
    temperatureFrame f s = frameJudged f s :=
  evalHeld_of_none ((frameJudged_permit f s).trans h)

theorem tankOfHeat_framedHeat (part : PartState) (h : Heat) (f : TempFrame) (tank : Tank) :
    tankOfHeat (framedHeat part h f.t3.valid f.t4.valid) tank =
      framedTank part h tank (tankValid f tank) := by
  cases tank <;> rfl

/-- A grant depends on the channels alone. -/
theorem judgePermit_congr {h h' : Heat} (htc : h.tc = h'.tc) (v : HeatVals) (r : PermitReq) :
    judgePermit v h r.tAgg r.tank r.winMin r.winMax =
      judgePermit v h' r.tAgg r.tank r.winMin r.winMax := by
  cases hk : r.tank <;> unfold judgePermit tankChan <;> rw [htc]

theorem filterMap_pair {α β : Type} (g : α → Option β) (a b : α) :
    [a, b].filterMap g = (g a).toList ++ (g b).toList := by
  simp only [List.filterMap_cons, List.filterMap_nil]
  cases g a <;> cases g b <;> rfl

/-- Settles O47. -/
theorem temperatureFrameJudges : Obligations.TemperatureFrameJudges := by
  intro s f hr posted tankPosted
  obtain ⟨hmissing, hage, htc, hburner, hhold, hclamp, hfiring⟩ := temperatureFrame_heat f s
  obtain ⟨jheat, jrc, jco, joe, jmixer⟩ := frameJudged_fields f s
  refine ⟨_, exec_temperatureFrame hr f, hmissing, hage, fun k => ?_, fun v hv => ?_,
    fun hp => ?_, fun hp tank => ?_, fun v r b hv hp hb hpart hpaused hempty hclear => ?_⟩
  · dsimp only
    rw [htc, tempGet_tempZip]
    exact judgedTemp_cases _ _
  · have hv' : (judgedHeat f s.heat).vals = some v := hv
    have hclampTo : t7Test (judgedHeat f s.heat) =
        (goodReading (tempZip judgedTemp s.heat.tc f).t7).elim true fun t => decide (v.baghouse < t) :=
      t7Test_some hv'
    dsimp only
    rw [htc, hburner, hclamp, hhold, hfiring, hclampTo]
    refine ⟨overridden_t1Hold hv', ?_, rfl, fun hmod => ?_⟩
    · cases goodReading (tempZip judgedTemp s.heat.tc f).t7 <;> rfl
    · rw [overridden_firing (by exact hmod) hv', hclampTo, hmod]
      cases goodReading (tempZip judgedTemp s.heat.tc f).t7 <;> rfl
  · rw [temperatureFrame_of_none hp]
    refine ⟨jco, joe, jrc, fun hroom => ?_⟩
    rw [frameJudged_of_room hroom]
    refine ⟨rfl, ?_⟩
    have hposted : posted = fun k => judgedNotice k (tempGet s.heat.tc k) (tempGet f k) := by
      funext k
      dsimp only [posted, judgedNotice]
      cases (tempGet s.heat.tc k).fault <;> cases (tempGet f k).valid <;> rfl
    have htanks (tank : Tank) :
        tankPosted (framedHeat s.rc.part (overridden (judgedHeat f s.heat)) f.t3.valid f.t4.valid) tank =
          framedNotice s.rc.part (overridden (judgedHeat f s.heat)) tank (tankValid f tank) := by
      have hvals : (overridden (judgedHeat f s.heat)).vals = s.heat.vals := overridden_vals _
      have htank : tankOfHeat (overridden (judgedHeat f s.heat)) tank = tankOfHeat s.heat tank :=
        (tankOfHeat_overridden _ _).trans (by cases tank <;> rfl)
      have hchan : tankChan (framedHeat s.rc.part (overridden (judgedHeat f s.heat))
          f.t3.valid f.t4.valid) tank = tankChan (overridden (judgedHeat f s.heat)) tank := by
        cases tank <;> rfl
      dsimp only [tankPosted, framedNotice]
      rw [hchan, htank, hvals]
      cases s.heat.vals <;> cases goodReading (tankChan (overridden (judgedHeat f s.heat)) tank) <;>
        cases tank <;> rfl
    rw [hposted, filterMap_pair, htanks, htanks, ← List.append_assoc]
    rfl
  · rw [temperatureFrame_of_none hp, jheat, tankOfHeat_framedHeat]
    have hchan : tankChan (framedHeat s.rc.part (overridden (judgedHeat f s.heat)) f.t3.valid f.t4.valid) tank =
        tankChan (overridden (judgedHeat f s.heat)) tank := by cases tank <;> rfl
    have htank : tankOfHeat (overridden (judgedHeat f s.heat)) tank = tankOfHeat s.heat tank :=
      (tankOfHeat_overridden _ _).trans (by cases tank <;> rfl)
    dsimp only
    rw [hchan, ← htank]
    refine ⟨fun hg => framedTank_of_fault hg _, fun v t hv hrun hg hvalid => ?_⟩
    have hvalid' : tankValid f tank = true := by cases tank <;> exact hvalid
    rw [hvalid', framedTank_of_reading (v := v) ((overridden_vals (judgedHeat f s.heat)).trans hv) hg hrun]
    exact heaterAtFrame_latched _ _ _ _ _
  · have hp' : (frameJudged f s).heat.permit = some r := (frameJudged_permit f s).trans hp
    have hv' : (frameJudged f s).heat.vals = some v := by
      rw [jheat]; exact (overridden_vals _).trans hv
    have hb' : (frameJudged f s).co.weigh = some b := by rw [jco, hb]
    have hruns : mixerRuns (frameJudged f s) = true := by rw [mixerRuns, jrc, hpart, hpaused]; rfl
    have hemp : mixerEmpty (frameJudged f s) = true := by rw [mixerEmpty, jmixer, hempty, hclear]; rfl
    have hjudge := judgePermit_congr (h := (temperatureFrame f s).heat) (h' := (frameJudged f s).heat)
      (by rw [temperatureFrame_eq]; exact (core_fields (evalHeld_core _)).2.2.1) v r
    rw [hjudge]
    refine ⟨fun a ha => ?_, fun ha => ?_⟩
    · rw [temperatureFrame_eq, evalHeld_refused hp' hv' hb' hruns hemp ha]
      exact ⟨rfl, jco, jmixer⟩
    · rw [temperatureFrame_eq, evalHeld_granted hp' hv' hb' hruns hemp ha, chargeStart_co, jco]
      exact ⟨chargeStart_permit _ _, chargeStart_phase _ _, rfl⟩

end Sys2Proof.Machine
end

section
/-! CHARGE_DECISION (O27) and the thermal wait (O28). -/

namespace Sys2Proof.Machine

/-! ### What a discharge request does to one scale (R95, R121) -/

/-- A channel asked to discharge. -/
def askedChannel (paused : Bool) (c : Channel) : Channel :=
  if c.state = .weighed then
    if emptyThr c ≤ c.net then { c with state := .discharging, feed := none, gate := !paused, dischTimer := 0 }
    else { c with state := .idle, feed := none, gate := false, batch := none }
  else c

/-- What the mixer holds of a scale it has just asked. -/
def askedDisch (c : Channel) : Disch :=
  if c.state = .weighed ∧ c.net < emptyThr c then .ended .empty else .asked

theorem requestDischarge_asked {sc : Scale} {s : State} (hclear : s.rc.clearStep ≠ .discharge)
    (hasked : s.mixer.disch.get sc = .asked) :
    requestDischarge sc s = { s with
      ch := s.ch.set sc (askedChannel s.rc.paused (s.chan sc))
      mixer.disch := s.mixer.disch.set sc (askedDisch (s.chan sc)) } := by
  have hset : s.mixer.disch.set sc .asked = s.mixer.disch := by rw [← hasked, PerScale.set_get]
  have hacts : ((s.chan sc).state == .weighed ||
      ((s.chan sc).state == .idle && s.rc.clearStep == .discharge)) = ((s.chan sc).state == .weighed) := by
    rw [beq_eq_false_iff_ne.mpr hclear, Bool.and_false, Bool.or_false]
  unfold requestDischarge askedChannel askedDisch
  dsimp only
  rw [hacts]
  by_cases hw : (s.chan sc).state = .weighed
  · rw [if_pos (beq_iff_eq.mpr hw), if_pos hw]
    by_cases hm : emptyThr (s.chan sc) ≤ (s.chan sc).net
    · rw [if_pos (by exact decide_eq_true hm), if_pos hm, if_neg (by omega), hset]
      rfl
    · rw [if_neg (by exact mt of_decide_eq_true hm), if_neg hm, if_pos ⟨hw, by omega⟩]
      unfold endDischarge reportDischarge
      rw [if_neg (by exact hclear), if_pos (by exact hasked)]
      rfl
  · rw [if_neg (by exact mt beq_iff_eq.mp hw), if_neg hw, if_neg (fun h => hw h.1), hset, State.chan,
      PerScale.set_get]

theorem askScale_eq {sc : Scale} {s : State} (hclear : s.rc.clearStep ≠ .discharge)
    (hnot : s.mixer.disch.get sc = .notAsked) :
    askScale sc s = { s with
      ch := s.ch.set sc (askedChannel s.rc.paused (s.chan sc))
      mixer.disch := s.mixer.disch.set sc (askedDisch (s.chan sc)) } := by
  unfold askScale
  rw [if_pos hnot, requestDischarge_asked (by exact hclear) (by exact PerScale.get_set_same _ _ _)]
  dsimp only
  congr 2
  cases sc <;> rfl

/-! ### The charge asks AGG and RAP, and FIL with no filler delay (R119) -/

theorem refreshMixer_of_none {s : State} (h : s.port.waiting = []) : refreshMixer s =
    { s with mixer.work := s.mixer.work.map (mixValsFrom ([Win.fillerDelay, Win.doorOpenTime,
      Win.doorCloseTimeout, Win.markPhase, Win.markOffset].map s.rd)) } := by
  unfold refreshMixer
  rw [readAll_of_none h]

theorem chargeEntered_mem {m : MixBatch} {s : State} (h : s.port.waiting = [])
    (hroom : s.nu.list.length < 16) : (chargeEntered m s).mem = s.mem := by
  unfold chargeEntered
  rw [refreshMixer_of_none h]
  unfold enterPhase
  dsimp only
  split
  · split
    · unfold postMark
      rw [submit_of_room (by exact hroom)]
      rfl
    · rfl
  · rfl

/-- The mixer's fields at the entry into CHARGING, beside the mark posted there. -/
theorem chargeEntered_mixer {s : State} (h : s.port.waiting = []) (m : MixBatch) :
    let w := s.mixer.work.map (mixValsFrom ([Win.fillerDelay, Win.doorOpenTime, Win.doorCloseTimeout,
      Win.markPhase, Win.markOffset].map s.rd))
    let x := (chargeEntered m s).mixer
    x.phase = .charging ∧ x.clock = 0 ∧ x.dryT = 0 ∧ x.fillT = 0 ∧ x.batch = some m ∧ x.work = w ∧
      x.disch = ⟨.notAsked, .notAsked, .notAsked, .notAsked⟩ ∧ x.cmPhase = w.bind MixVals.markPhase ∧
      x.cmOffset = (w.map MixVals.markOffset).getD 0 := by
  dsimp only
  have hmixer : (chargeEntered m s).mixer = _ := enterPhase_mixer .charging (chargeValues m (refreshMixer s))
  rw [refreshMixer_of_none h] at hmixer
  rw [hmixer]
  exact ⟨rfl, rfl, rfl, rfl, rfl, rfl, rfl, rfl, rfl⟩

/-- AGG and RAP asked. -/
def askedBoth (m : MixBatch) (s : State) : State := askScale .rap (askScale .agg (chargeEntered m s))

theorem askedBoth_eq {s : State} (h : s.port.waiting = []) (hclear : s.rc.clearStep ≠ .discharge)
    (m : MixBatch) : askedBoth m s = { chargeEntered m s with
      ch := { s.ch with agg := askedChannel s.rc.paused s.ch.agg, rap := askedChannel s.rc.paused s.ch.rap }
      mixer.disch := ⟨askedDisch s.ch.agg, askedDisch s.ch.rap, .notAsked, .notAsked⟩ } := by
  obtain ⟨-, -, -, -, -, -, hdisch, -, -⟩ := chargeEntered_mixer h m
  have hrc := chargeEntered_rc m s
  have hch := chargeEntered_ch m s
  unfold askedBoth
  generalize chargeEntered m s = e at *
  rw [askScale_eq (sc := .agg) (by rw [hrc]; exact hclear) (by rw [hdisch]; rfl),
    askScale_eq (by change e.rc.clearStep ≠ _; rw [hrc]; exact hclear) (by
      change (e.mixer.disch.set .agg _).get .rap = _
      rw [hdisch]; rfl)]
  unfold State.chan
  dsimp only
  rw [hrc, hch, hdisch]
  rfl

/-- A charge as a whole: AGG and RAP are asked, BIT is not, FIL if there is no filler delay. -/
theorem mixerCharge_asks {s : State} (h : s.port.waiting = []) (hclear : s.rc.clearStep ≠ .discharge)
    (m : MixBatch) : ∃ c d, mixerCharge m s = { chargeEntered m s with
        ch := ⟨askedChannel s.rc.paused s.ch.agg, askedChannel s.rc.paused s.ch.rap, c, s.ch.bit⟩
        mixer.disch := ⟨askedDisch s.ch.agg, askedDisch s.ch.rap, d, .notAsked⟩ } ∧
      (((chargeEntered m s).mixer.work.map MixVals.fillerDelay).getD 0 ≠ 0 → c = s.ch.fil ∧ d = .notAsked) := by
  have hboth := askedBoth_eq h hclear m
  have heq : mixerCharge m s = if ((askedBoth m s).mixer.work.map MixVals.fillerDelay).getD 0 = 0
    then askScale .fil (askedBoth m s) else askedBoth m s := rfl
  rw [heq, hboth]
  dsimp only
  split
  · next hzero =>
    rw [askScale_eq (by rw [← chargeEntered_rc m s] at hclear; exact hclear) rfl]
    exact ⟨_, _, rfl, fun hne => absurd hzero hne⟩
  · exact ⟨_, _, rfl, fun _ => ⟨rfl, rfl⟩⟩

/-! ### CHARGE_DECISION -/

theorem exec_chargeDecision {s : State} (h : s.port.resetLow = false) :
    exec .chargeDecision s = .next (settle (chargeDecision s)) := congrArg _ (event_of_high h _)

theorem chargeDecision_of_notDue {s : State} (h : chargeDue s = false) : chargeDecision s = s := by
  unfold chargeDecision
  rw [h]
  split <;> rfl

section
variable {s : State} {b : Batch} {v : HeatVals} (hdue : chargeDue s = true) (hb : s.co.weigh = some b)
  (hv : s.heat.vals = some v)
include hdue hb hv

theorem chargeDecision_of_charge
    (h : b.discard = true ∨ judgePermit v s.heat b.tAgg b.tank b.winMin b.winMax = none) :
    chargeDecision s = chargeStart b s := by
  unfold chargeDecision
  simp only [hb, hv, hdue, if_true]
  rcases h with h | h
  · rw [if_pos h]
  · rw [h]
    exact ite_self _

theorem chargeDecision_of_refusal {a : PermitAnswer} (hd : b.discard = false)
    (h : judgePermit v s.heat b.tAgg b.tank b.winMin b.winMax = some a) :
    chargeDecision s = enterThermalWait b a s := by
  unfold chargeDecision
  simp only [hb, hv, hdue, hd, h, if_true, Bool.false_eq_true, if_false]

end

/-- A scale asked at a charge, by what its channel held. -/
theorem asked_cases (c : Channel) :
    (c.state = .weighed → emptyThr c ≤ c.net → askedDisch c = .asked ∧
      askedChannel false c = { c with state := .discharging, feed := none, gate := true, dischTimer := 0 }) ∧
    (c.state = .weighed → c.net < emptyThr c → askedDisch c = .ended .empty ∧
      askedChannel false c = { c with state := .idle, feed := none, gate := false, batch := none }) ∧
    (c.state ≠ .weighed → askedDisch c = .asked ∧ askedChannel false c = c) := by
  unfold askedDisch askedChannel
  refine ⟨fun hw hm => ⟨if_neg (by omega), ?_⟩, fun hw hm => ⟨if_pos ⟨hw, hm⟩, ?_⟩,
    fun hw => ⟨if_neg (fun h => hw h.1), if_neg hw⟩⟩
  · rw [if_pos hw, if_pos hm]; rfl
  · rw [if_pos hw, if_neg (by omega)]

theorem takeRanged_of_inside {lo hi old : Nat} {w : Word} (hlo : lo ≤ w.toNat) (hhi : w.toNat ≤ hi) :
    takeRanged lo hi w old = w.toNat := if_pos ⟨hlo, hhi⟩

theorem takeRanged_zero (hi old : Nat) (w : Word) :
    takeRanged 0 hi w old = if w.toNat ≤ hi then w.toNat else old := by
  unfold takeRanged
  simp only [Nat.zero_le, true_and]

theorem stagesCharged_frame (b : Batch) (s : State) : stagesCharged b s = { s with
    co := { s.co with weigh := none, mix := some (chargedBatch b) }
    oe.queue := if b.orderLeft then s.oe.queue else s.oe.queue.map fun o =>
      if isOrder b.slot b.order o then { o with charged := o.charged + 1 } else o
    heat := (stagesCharged b s).heat } := by
  unfold stagesCharged
  rw [countCharged_frame]

theorem chargeDue_runs {s : State} (h : chargeDue s = true) : mixerRuns s = true ∧ mixerEmpty s = true := by
  unfold chargeDue at h
  simp only [Bool.and_eq_true] at h
  exact h.1

/-- Settles O27. -/
theorem chargeDecisionCharges : Obligations.ChargeDecisionCharges := by
  intro s hfree
  obtain ⟨hhigh, hnone⟩ := (arbiterFree_iff s).mp hfree
  refine ⟨fun hnot => by rw [exec_chargeDecision hhigh, chargeDecision_of_notDue hnot], ?_⟩
  intro b v hdue hclear hb hv hcharge route
  refine ⟨chargeStart b s, by rw [exec_chargeDecision hhigh, chargeDecision_of_charge hdue hb hv hcharge], ?_⟩
  have hpaused : s.rc.paused = false := ((mixerRuns_iff s).mp (chargeDue_runs hdue).1).2
  have hstages := stagesCharged_frame b s
  have hpermit := chargeStart_permit b s
  have hco := chargeStart_co b s
  rw [chargeStart_eq] at *
  generalize stagesCharged b s = t at *
  obtain ⟨c, d, heq, hfil⟩ := mixerCharge_asks (s := t) (by rw [hstages]; exact hnone)
    (by rw [hstages]; exact hclear) (mixBatchOf b)
  obtain ⟨hphase, hclock, hdry, hfill, hbatch, hwork, hdisch, hmark, hoff⟩ :=
    chargeEntered_mixer (s := t) (by rw [hstages]; exact hnone) (mixBatchOf b)
  refine ⟨hco, ?_, ?_, ?_, ?_, ?_, ?_, hpermit, ?_, fun hroom => ?_, ?_, fun sc hsc => ?_, fun w hw => ?_⟩
  · rw [heq]; exact hphase
  · rw [heq]; exact hclock
  · rw [heq]; exact hdry
  · rw [heq]; exact hfill
  · rw [heq]; exact hbatch
  · rw [heq]; rfl
  · rw [heq]; exact (chargeEntered_rc _ _).trans (by rw [hstages])
  · rw [heq]
    exact (chargeEntered_mem (by rw [hstages]; exact hnone) (by rw [hstages]; exact hroom)).trans
      (by rw [hstages])
  · rw [heq]
    exact (congrArg OrderEngine.queue (chargeEntered_oe _ _)).trans (by rw [hstages])
  · have hch : t.ch = s.ch := by rw [hstages]
    have hpa : t.rc.paused = false := by rw [hstages]; exact hpaused
    rw [heq, hpa, hch]
    rcases hsc with rfl | rfl
    · exact asked_cases s.ch.agg
    · exact asked_cases s.ch.rap
  · have hrd : t.rd = s.rd := funext (State.rd_of_mem (s := s) (t := t) (by rw [hstages]))
    have hwork' : t.mixer.work = some w := by rw [hstages]; exact hw
    rw [heq]
    dsimp only
    rw [hmark, hoff, hwork', hrd]
    refine ⟨rfl, takeRanged_zero _ _ _, fun hpos hle => ?_⟩
    have hdelay : ((chargeEntered (mixBatchOf b) t).mixer.work.map MixVals.fillerDelay).getD 0 ≠ 0 := by
      rw [hwork, hwork', hrd]
      change takeRanged 0 100 (s.rd Win.fillerDelay) w.fillerDelay ≠ 0
      rw [takeRanged_of_inside (Nat.zero_le _) hle]
      omega
    obtain ⟨hc, hd⟩ := hfil hdelay
    rw [hc, hd]
    exact ⟨rfl, show t.ch.fil = s.ch.fil by rw [hstages]⟩

/-! ### Thermal wait (R60, R61) -/

theorem enterThermalWait_of_room {s : State} (hnone : s.port.waiting = []) (hroom : s.nu.list.length < 16)
    (b : Batch) (a : PermitAnswer) : enterThermalWait b a s = { s with
      co.weigh := some { b with waiting := true, wait := 0, waitLimit := usedWaitLimit (s.rd Win.thermalLimit),
                                flags.thermalWait := true }
      heat.permit := some ⟨b.tAgg, b.tank, b.winMin, b.winMax, a⟩
      nu.list := s.nu.list ++ [⟨b.slot, b.order, b.seq, .thermalHold b.load a b.tAgg⟩] } := by
  unfold enterThermalWait
  rw [readAll_of_none hnone]
  exact submit_of_room (by exact hroom) _

theorem usedWaitLimit_cases (w : Word) : ∀ k, k = w.toNat →
    (k < 10 → usedWaitLimit w = 10) ∧ (900 < k → usedWaitLimit w = 900) ∧
      (10 ≤ k → k ≤ 900 → usedWaitLimit w = k) := by
  intro k hk
  unfold usedWaitLimit
  omega

theorem exec_thermalTimeout {s : State} (h : s.port.resetLow = false) :
    exec .thermalTimeout s = .next (thermalTimeout s) := congrArg _ (plainEvent_of_high h _)

section
variable {s : State} {b : Batch} {r : PermitReq} (hb : s.co.weigh = some b) (hr : s.heat.permit = some r)
include hb hr

theorem thermalTimeout_posted (h : b.timeoutPosted = true) : thermalTimeout s = s := by
  unfold thermalTimeout
  simp [hb, hr, h]

theorem thermalTimeout_posts (hw : b.waiting = true) (hruns : mixerRuns s = true) (hroom : s.nu.list.length < 16) (hwait : b.wait = 10 * b.waitLimit)
    (h : b.timeoutPosted = false) : thermalTimeout s = { s with
      co.weigh := some { b with timeoutPosted := true }
      nu.list := s.nu.list ++ [⟨b.slot, b.order, b.seq, .thermalTimeout b.load r.answer b.waitLimit⟩] } := by
  have hmax : max b.wait (10 * b.waitLimit) = b.wait := by omega
  have hdiv : b.wait / 10 = b.waitLimit := by omega
  unfold thermalTimeout
  simp only [hb, hr, hw, hruns, h, and_self, if_true, hmax, hdiv]
  exact submit_of_room (by exact hroom) _

end

/-- Settles O28. -/
theorem thermalWait : Obligations.ThermalWait := by
  intro s b hfree hroom hb
  obtain ⟨hhigh, hnone⟩ := (arbiterFree_iff s).mp hfree
  refine ⟨fun v a hdue hd hv ha => ⟨_, usedWaitLimit_cases _, ?_⟩, fun r hr hw hrun hpaused hwait => ?_⟩
  · rw [exec_chargeDecision hhigh, chargeDecision_of_refusal hdue hb hv hd ha,
      enterThermalWait_of_room hnone hroom]
  · have hruns : mixerRuns s = true := (mixerRuns_iff s).mpr ⟨hrun, hpaused⟩
    rw [exec_thermalTimeout hhigh]
    exact ⟨fun h => congrArg _ (thermalTimeout_posted hb hr h),
      fun h => congrArg _ (thermalTimeout_posts hb hr hw hruns hroom hwait h)⟩

end Sys2Proof.Machine
end

section
/-! The seconds counter, the heat controller's second and the idle timer (O22). -/

namespace Sys2Proof.Machine

/-! ### A field of 32 bits -/

@[simp] theorem highWord_append_lowWord (d : DWord) : (DWord.highWord d ++ DWord.lowWord d : DWord) = d := by
  refine BitVec.eq_of_getLsbD_eq fun i hi => BitVec.getLsbD_append.trans ?_
  unfold DWord.highWord DWord.lowWord
  by_cases h : i < 16
  · simp [h]
  · simp [h, show i - 16 < 16 by omega, show 16 + (i - 16) = i by omega]

theorem wr32_eq_wrWords (s : State) (a : Nat) (d : DWord) :
    s.wr32 a d = s.wrWords a [DWord.lowWord d, DWord.highWord d] := rfl

theorem rd32_wr32 {s : State} (h : Memory.wf s.mem = true) (a : Nat) (d : DWord) :
    (s.wr32 a d).rd32 a = d := by
  have hlow := rd_wrWords_inside [DWord.lowWord d, DWord.highWord d] (s := s) (a := a) (k := 0) h (by simp)
  have hhigh := rd_wrWords_inside [DWord.lowWord d, DWord.highWord d] (s := s) (a := a) (k := 1) h (by simp)
  rw [wr32_eq_wrWords, State.rd32, hhigh]
  exact (congrArg _ hlow).trans (highWord_append_lowWord d)

/-! ### Taking the working values (R139) -/

/-- The heat controller beside its tank heaters. -/
def Heat.offTanks (h : Heat) : Heat := { h with bt1 := .reset, bt2 := .reset }

theorem setTank_offTanks (h : Heat) (t : Tank) (k : TankState) : (setTank h t k).offTanks = h.offTanks := by
  cases t <;> rfl

theorem testTankBetween_offTanks (t : Tank) (s : State) :
    (testTankBetween t s).heat.offTanks = s.heat.offTanks := by
  unfold testTankBetween
  split
  · split
    · exact setTank_offTanks _ _ _
    · rfl
  · rfl

/-- The new working values in force, fires and clamp tested, before target and tanks follow. -/
def valsTaken (v : HeatVals) (s : State) : State :=
  { s with heat := testClamp (clampFire v { s.heat with vals := some v }) }

theorem valsTaken_heat (v : HeatVals) (s : State) : (valsTaken v s).heat = { s.heat with
    vals := some v, t7Clamp := (valsTaken v s).heat.t7Clamp, firing := (valsTaken v s).heat.firing
    reg := (valsTaken v s).heat.reg } := by
  unfold valsTaken
  dsimp only
  rw [testClamp_frame, clampFire_frame]

/-- New working values change the heat controller alone. -/
theorem adoptVals_frame (old v : HeatVals) (s : State) :
    adoptVals old v s = { s with heat := (adoptVals old v s).heat } := by
  have hstep (c : Bool) (t : Tank) (u : State) :
      (if c then testTankBetween t u else u) =
        { u with heat := (if c then testTankBetween t u else u).heat } := by
    cases c
    · rfl
    · exact testTankBetween_frame t u
  unfold adoptVals
  dsimp only
  rw [hstep, hstep, followDryer_frame]

theorem adoptVals_offTanks (old v : HeatVals) (s : State) :
    (adoptVals old v s).heat.offTanks = (followDryer (valsTaken v s)).heat.offTanks := by
  have hstep (c : Bool) (t : Tank) (u : State) :
      (if c then testTankBetween t u else u).heat.offTanks = u.heat.offTanks := by
    cases c
    · rfl
    · exact testTankBetween_offTanks t u
  unfold adoptVals
  dsimp only
  rw [hstep, hstep]
  rfl

/-! ### The dryer target (R146, R147) -/

section
variable {s : State} {v : HeatVals} (hv : s.heat.vals = some v) (hruns : dryerRuns s.rc.part = true)
include hv hruns

theorem followDryer_of_head {o : Order} (ho : headOrder s = some o) : followDryer s = { s with
    heat.target := some (min o.tAgg v.maximum), heat.idle := 0, heat.atStandby := false } := by
  unfold followDryer
  simp only [hv, hruns, ho, if_true]

variable (ho : headOrder s = none) (hempty : stagesEmpty s = true)
include ho hempty

theorem followDryer_of_standby (h : s.heat.atStandby = true ∨ v.idleTime ≤ s.heat.idle) :
    followDryer s = { s with heat.target := some v.standby, heat.atStandby := true } := by
  have htest : (s.heat.atStandby || decide (v.idleTime ≤ s.heat.idle)) = true := by
    rw [Bool.or_eq_true, decide_eq_true_iff]
    exact h
  unfold followDryer
  simp only [hv, hruns, ho, hempty, htest, if_true]

theorem followDryer_of_early (h : s.heat.atStandby = false) (hlt : s.heat.idle < v.idleTime) :
    followDryer s = s := by
  have htest : (s.heat.atStandby || decide (v.idleTime ≤ s.heat.idle)) = false := by
    rw [h, Bool.false_or, decide_eq_false_iff_not]
    omega
  unfold followDryer
  simp only [hv, hruns, ho, hempty, htest, if_true, Bool.false_eq_true, if_false]

end

theorem dryerRuns_iff (p : PartState) :
    dryerRuns p = true ↔ p = .standby ∨ p = .run ∨ p = .stopped := by
  cases p <;> simp [dryerRuns]

theorem stagesEmpty_iff (s : State) : stagesEmpty s = true ↔ s.co.weigh = none ∧ s.co.mix = none := by
  simp [stagesEmpty]

theorem idleCounts_iff (s : State) : idleCounts s = true ↔ (s.rc.part = .standby ∨ s.rc.part = .run ∨
    s.rc.part = .stopped) ∧ s.heat.vals ≠ none ∧ headOrder s = none ∧ s.co.weigh = none ∧ s.co.mix = none := by
  unfold idleCounts
  simp only [Bool.and_eq_true, dryerRuns_iff, stagesEmpty_iff, Option.isNone_iff_eq_none,
    Option.isSome_iff_ne_none, and_assoc]

/-! ### The second of the heat controller -/

theorem evalHeld_of_noBatch {s : State} (h : s.co.weigh = none) : evalHeld s = s := by
  unfold evalHeld
  split
  · next hb => exact absurd (hb.symm.trans h) (by simp)
  · rfl

/-- The idle timer's second (R147). -/
def countIdle (s : State) : State :=
  if idleCounts s then { s with heat.idle := min 900 (s.heat.idle + 1) } else s

/-- A held request judged again after a refresh, if a value it uses changed (R156). -/
def rejudge (old v : HeatVals) (s : State) : State := if permitValsDiffer old v then evalHeld s else s

/-- The working values that a refresh of the heat fields gives (R139). -/
def refreshedVals (s : State) (old : HeatVals) : HeatVals :=
  heatValsFrom ((List.range 24).map fun i => s.rd (Win.config + 2 * i)) old

theorem heatSecond_eq {s : State} {old : HeatVals} (hnone : s.port.waiting = [])
    (hv : s.heat.vals = some old) : heatSecond s =
      countIdle (rejudge old (refreshedVals s old) (adoptVals old (refreshedVals s old) s)) := by
  unfold heatSecond
  simp only [hv, readAll_of_none hnone, heatAddrs, List.map_map]
  rfl

theorem heatSecond_of_none {s : State} (h : s.heat.vals = none) : heatSecond s = s := by
  unfold heatSecond
  rw [h]

theorem core_vals {a b : Heat} (h : a.core = b.core) : a.vals = b.vals :=
  show a.core.vals = b.core.vals by rw [h]

theorem rejudge_vals (old v : HeatVals) (s : State) : (rejudge old v s).heat.vals = s.heat.vals := by
  unfold rejudge
  split
  · exact core_vals (evalHeld_core s)
  · rfl

theorem countIdle_vals (s : State) : (countIdle s).heat.vals = s.heat.vals := by
  unfold countIdle
  split <;> rfl

theorem rejudge_of_none {old v : HeatVals} {s : State} (h : s.heat.permit = none ∨ s.co.weigh = none) :
    rejudge old v s = s := by
  unfold rejudge
  split
  · rcases h with h | h
    · exact evalHeld_of_none h
    · exact evalHeld_of_noBatch h
  · rfl

theorem offTanks_fields {a b : Heat} (h : a.offTanks = b.offTanks) :
    a.vals = b.vals ∧ a.target = b.target ∧ a.idle = b.idle ∧ a.atStandby = b.atStandby ∧
      a.permit = b.permit :=
  ⟨show a.offTanks.vals = b.offTanks.vals by rw [h], show a.offTanks.target = b.offTanks.target by rw [h],
    show a.offTanks.idle = b.offTanks.idle by rw [h],
    show a.offTanks.atStandby = b.offTanks.atStandby by rw [h],
    show a.offTanks.permit = b.offTanks.permit by rw [h]⟩

theorem adoptVals_vals (old v : HeatVals) (s : State) : (adoptVals old v s).heat.vals = some v := by
  rw [(offTanks_fields (adoptVals_offTanks old v s)).1, core_vals (followDryer_core (valsTaken v s)),
    valsTaken_heat]

theorem adoptVals_permit (old v : HeatVals) (s : State) :
    (adoptVals old v s).heat.permit = s.heat.permit := by
  obtain ⟨-, -, -, -, hpermit⟩ := offTanks_fields (adoptVals_offTanks old v s)
  rw [hpermit, followDryer_permit, valsTaken_heat]

theorem heatSecond_vals {s : State} {old : HeatVals} (hnone : s.port.waiting = [])
    (hv : s.heat.vals = some old) : (heatSecond s).heat.vals = some (refreshedVals s old) := by
  rw [heatSecond_eq hnone hv, countIdle_vals, rejudge_vals, adoptVals_vals]

theorem headOrder_congr {s t : State} (h : t.oe = s.oe) : headOrder t = headOrder s := by
  unfold headOrder; rw [h]

theorem idleCounts_adopted (old v : HeatVals) (s : State) :
    idleCounts (adoptVals old v s) =
      (dryerRuns s.rc.part && (headOrder s).isNone && stagesEmpty s) := by
  have hframe := adoptVals_frame old v s
  have hvals := adoptVals_vals old v s
  generalize adoptVals old v s = t at *
  have hhead : headOrder t = headOrder s := headOrder_congr (by rw [hframe])
  have hstages : stagesEmpty t = stagesEmpty s := by unfold stagesEmpty; rw [hframe]
  have hrc : t.rc = s.rc := by rw [hframe]
  unfold idleCounts
  rw [hvals, hhead, hstages, hrc]
  simp

section
variable {s : State} {old : HeatVals} (hnone : s.port.waiting = []) (hv : s.heat.vals = some old)
  (hruns : dryerRuns s.rc.part = true)
include hnone hv hruns

/-- With a head order and no request held, the second gives the dryer the head order's target. -/
theorem heatSecond_head {o : Order} (ho : headOrder s = some o) (hp : s.heat.permit = none) :
    (heatSecond s).heat.target = some (min o.tAgg (refreshedVals s old).maximum) ∧
      (heatSecond s).heat.idle = 0 ∧ (heatSecond s).heat.atStandby = false := by
  have hfollow := followDryer_of_head (s := valsTaken (refreshedVals s old) s) (v := refreshedVals s old)
    (by rw [valsTaken_heat]) hruns ho
  have hidle := idleCounts_adopted old (refreshedVals s old) s
  rw [ho, Option.isNone_some, Bool.and_false, Bool.false_and] at hidle
  rw [heatSecond_eq hnone hv, rejudge_of_none (.inl ((adoptVals_permit _ _ _).trans hp)), countIdle, hidle,
    if_neg Bool.false_ne_true]
  obtain ⟨-, htarget, hcount, hat, -⟩ := offTanks_fields (adoptVals_offTanks old (refreshedVals s old) s)
  rw [htarget, hcount, hat, hfollow]
  exact ⟨rfl, rfl, rfl⟩

/-- With no head order and the stages empty, the second counts and tests the idle timer. -/
theorem heatSecond_idle (ho : headOrder s = none) (hempty : stagesEmpty s = true) :
    (heatSecond s).heat.idle = min 900 (s.heat.idle + 1) ∧
      (s.heat.atStandby = true ∨ (refreshedVals s old).idleTime ≤ s.heat.idle →
        (heatSecond s).heat.target = some (refreshedVals s old).standby ∧
          (heatSecond s).heat.atStandby = true) ∧
      (s.heat.atStandby = false → s.heat.idle < (refreshedVals s old).idleTime →
        (heatSecond s).heat.target = s.heat.target ∧ (heatSecond s).heat.atStandby = false) := by
  have hweigh := ((stagesEmpty_iff s).mp hempty).1
  have hco : (adoptVals old (refreshedVals s old) s).co.weigh = none := by rw [adoptVals_frame]; exact hweigh
  have hidle := idleCounts_adopted old (refreshedVals s old) s
  rw [ho, hempty, hruns] at hidle
  obtain ⟨-, htarget, hcount, hat, -⟩ := offTanks_fields (adoptVals_offTanks old (refreshedVals s old) s)
  have htaken := valsTaken_heat (refreshedVals s old) s
  have hvals : (valsTaken (refreshedVals s old) s).heat.vals = some (refreshedVals s old) := by rw [htaken]
  have hat0 : (valsTaken (refreshedVals s old) s).heat.atStandby = s.heat.atStandby := by rw [htaken]
  have hidle0 : (valsTaken (refreshedVals s old) s).heat.idle = s.heat.idle := by rw [htaken]
  have htarget0 : (valsTaken (refreshedVals s old) s).heat.target = s.heat.target := by rw [htaken]
  rw [heatSecond_eq hnone hv, rejudge_of_none (.inr hco), countIdle, hidle,
    if_pos (by rfl)]
  dsimp only
  rw [htarget, hcount, hat]
  by_cases hstandby : s.heat.atStandby = true ∨ (refreshedVals s old).idleTime ≤ s.heat.idle
  · rw [followDryer_of_standby hvals hruns ho hempty (by rw [hat0, hidle0]; exact hstandby)]
    refine ⟨by rw [hidle0], fun _ => ⟨rfl, rfl⟩, fun h hlt => ?_⟩
    rcases hstandby with h1 | h1
    · exact absurd (h.symm.trans h1) Bool.false_ne_true
    · exact absurd hlt (by omega)
  · obtain ⟨hoff, hlt⟩ := not_or.mp hstandby
    rw [followDryer_of_early hvals hruns ho hempty (by rw [hat0]; exact Bool.eq_false_iff.mpr hoff)
      (by rw [hidle0]; omega)]
    exact ⟨by rw [hidle0], fun h => absurd h hstandby, fun h _ => ⟨htarget0, hat0.trans h⟩⟩

end

/-! ### SECONDS_TICK and IDLE_TIMER_EXPIRY -/

/-- The state once the counter has stepped and its header copy is written. -/
def secondCounted (s : State) : State :=
  { s with seconds := s.seconds + 1, clk.secMs := 0 }.wr32 Win.seconds (s.seconds + 1)

theorem exec_secondsTick {s : State} (h : arbiterFree s = true) :
    exec .secondsTick s = .next (settle (heatSecond (secondCounted s))) := by
  obtain ⟨hhigh, hnone⟩ := (arbiterFree_iff s).mp h
  refine congrArg _ ((event_of_high hhigh _).trans ?_)
  unfold secondsTick
  dsimp only
  rw [gap_of_none (by exact hnone)]
  rfl

theorem secondCounted_byteAt {s : State} (h : Memory.wf s.mem = true) {b : Nat}
    (hb : b < Win.seconds ∨ Win.seconds + 4 ≤ b) : (secondCounted s).byteAt b = s.byteAt b := by
  unfold secondCounted
  rw [wr32_eq_wrWords]
  exact byteAt_wrWords_outside _ h hb

theorem secondCounted_rd {s : State} (h : Memory.wf s.mem = true) (i : Nat) :
    (secondCounted s).rd (Win.config + 2 * i) = s.rd (Win.config + 2 * i) := by
  unfold secondCounted
  rw [wr32_eq_wrWords]
  refine rd_wrWords_outside _ h (.inr ?_)
  change 0x18 ≤ 0x500 + 2 * i
  omega

theorem exec_idleTimerExpiry {s : State} (h : s.port.resetLow = false) :
    exec .idleTimerExpiry s = .next (idleExpired s) := congrArg _ (plainEvent_of_high h _)

theorem idleExpired_of_counts {s : State} {v : HeatVals} (hv : s.heat.vals = some v)
    (h : idleCounts s = true) : idleExpired s = { s with
      heat.idle := max s.heat.idle v.idleTime, heat.target := some v.standby, heat.atStandby := true } := by
  unfold idleExpired
  simp only [hv, h, if_true]

theorem idleExpired_of_stopped {s : State} (h : idleCounts s = false) : idleExpired s = s := by
  unfold idleExpired
  rw [h]
  split <;> rfl

/-- A group of fields is taken whole or not at all; the idle time alone (R139). -/
theorem heatValsFrom_groups (ws : List Word) (old : HeatVals) :
    let v := heatValsFrom ws old
    let w := fun k : Nat => (ws.getD k 0).toNat
    let z := fun k : Nat => (ws.getD k 0).toInt
    (200 ≤ z 0 ∧ z 0 ≤ 2500 ∧ 1000 ≤ z 1 ∧ z 1 ≤ 2500 ∧ z 0 ≤ z 1 → v.standby = z 0 ∧ v.maximum = z 1) ∧
    (¬(200 ≤ z 0 ∧ z 0 ≤ 2500 ∧ 1000 ≤ z 1 ∧ z 1 ≤ 2500 ∧ z 0 ≤ z 1) →
      v.standby = old.standby ∧ v.maximum = old.maximum) ∧
    (50 ≤ w 9 ∧ w 9 ≤ 300 ∧ w 9 ≤ w 10 ∧ w 10 ≤ 1000 → v.minFire = w 9 ∧ v.maxFire = w 10) ∧
    (¬(50 ≤ w 9 ∧ w 9 ≤ 300 ∧ w 9 ≤ w 10 ∧ w 10 ≤ 1000) →
      v.minFire = old.minFire ∧ v.maxFire = old.maxFire) ∧
    v.idleTime = if w 2 ≤ 900 then w 2 else old.idleTime := by
  dsimp only
  have hset : (inRange 200 2500 (nthWord ws 0).toInt && inRange 1000 2500 (nthWord ws 1).toInt
      && decide ((nthWord ws 0).toInt ≤ (nthWord ws 1).toInt)) = true ↔
      200 ≤ (ws.getD 0 0).toInt ∧ (ws.getD 0 0).toInt ≤ 2500 ∧ 1000 ≤ (ws.getD 1 0).toInt ∧
        (ws.getD 1 0).toInt ≤ 2500 ∧ (ws.getD 0 0).toInt ≤ (ws.getD 1 0).toInt := by
    simp [nthWord, inRange, and_assoc]
  have hfire : (inRange 50 300 (nthWord ws 9).toNat && decide ((nthWord ws 10).toNat ≤ 1000)
      && decide ((nthWord ws 9).toNat ≤ (nthWord ws 10).toNat)) = true ↔
      50 ≤ (ws.getD 9 0).toNat ∧ (ws.getD 9 0).toNat ≤ 300 ∧ (ws.getD 9 0).toNat ≤ (ws.getD 10 0).toNat ∧
        (ws.getD 10 0).toNat ≤ 1000 := by
    simp [nthWord, inRange]
    omega
  refine ⟨fun h => ?_, fun h => ?_, fun h => ?_, fun h => ?_, takeRanged_zero _ _ _⟩
  · exact ⟨if_pos (hset.mpr h), if_pos (hset.mpr h)⟩
  · exact ⟨if_neg (mt hset.mp h), if_neg (mt hset.mp h)⟩
  · exact ⟨if_pos (hfire.mpr h), if_pos (hfire.mpr h)⟩
  · exact ⟨if_neg (mt hfire.mp h), if_neg (mt hfire.mp h)⟩

/-- Settles O22. -/
theorem secondsAndIdleTimer : Obligations.SecondsAndIdleTimer := by
  refine ⟨fun s hfree hwf => ?_, heatValsFrom_groups, fun s hhigh => ⟨?_, fun hstop => ?_⟩⟩
  · obtain ⟨hhigh, hnone⟩ := (arbiterFree_iff s).mp hfree
    have hnone' : (secondCounted s).port.waiting = [] := hnone
    have hwords (old : HeatVals) : refreshedVals (secondCounted s) old = refreshedVals s old := by
      unfold refreshedVals
      simp only [secondCounted_rd hwf]
    refine ⟨secondCounted s, exec_secondsTick hfree, rfl, rd32_wr32 (by exact hwf) _ _,
      fun b hb => secondCounted_byteAt hwf hb, fun hv => heatSecond_of_none hv, fun old hv => ?_⟩
    have hvals := heatSecond_vals hnone' (s := secondCounted s) hv
    rw [hwords] at hvals
    refine ⟨hvals, fun hpart => ?_⟩
    have hruns : dryerRuns (secondCounted s).rc.part = true := (dryerRuns_iff _).mpr hpart
    have hhead : headOrder (secondCounted s) = headOrder s := headOrder_congr rfl
    refine ⟨fun o ho hp => ?_, fun ho hweigh hmix => ?_⟩
    · have h := heatSecond_head hnone' hv hruns (hhead.trans ho) hp
      rw [hwords] at h
      exact h
    · have h := heatSecond_idle hnone' hv hruns (hhead.trans ho) ((stagesEmpty_iff _).mpr ⟨hweigh, hmix⟩)
      rw [hwords] at h
      exact h
  · intro v hv hpart ho hweigh hmix
    rw [exec_idleTimerExpiry hhigh, idleExpired_of_counts hv]
    exact (idleCounts_iff s).mpr ⟨hpart, by rw [hv]; simp, ho, hweigh, hmix⟩
  · rw [exec_idleTimerExpiry hhigh, idleExpired_of_stopped]
    rw [Bool.eq_false_iff, ne_eq, idleCounts_iff]
    rintro ⟨hpart, hvals, ho, hweigh, hmix⟩
    rcases hstop with h | h | h | h | h | h | h
    · exact hvals h
    · exact h ho
    · exact h hweigh
    · exact h hmix
    all_goals rw [h] at hpart; simp at hpart

end Sys2Proof.Machine
end

section
/-! The mixer's timers and phases: FILLER_DELAY_EXPIRY (O37), DRY_MIX_EXPIRY (O38), WET_MIX_EXPIRY (O39), the
notices posted once (O41) and the door phases (O42). -/

namespace Sys2Proof.Machine

/-! ### Plain production -/

theorem plainRun_iff (s : State) : plainRun s = true ↔
    s.rc.part = .run ∧ s.rc.paused = false ∧ s.rc.finishing = false ∧ s.rc.clearRequired = false ∧
      s.rc.clearStep = .none ∧ s.oe.lookOwed = 0 ∧ dryTestHere s = false ∧ arbiterFree s = true := by
  simp only [plainRun, Bool.and_eq_true, Bool.not_eq_true', beq_iff_eq, and_assoc]

theorem plainRun_congr {s t : State} (hrc : t.rc = s.rc) (hoe : t.oe = s.oe) (hport : t.port = s.port)
    (htest : dryTestHere t = dryTestHere s) (h : plainRun s = true) : plainRun t = true := by
  rw [plainRun_iff] at h ⊢
  unfold arbiterFree at h ⊢
  rw [hrc, hoe, hport, htest]
  exact h

theorem mixerRuns_of_plain {s : State} (h : plainRun s = true) : mixerRuns s = true := by
  obtain ⟨hpart, hpaused, -⟩ := (plainRun_iff s).mp h
  exact (mixerRuns_iff s).mpr ⟨hpart, hpaused⟩

theorem high_of_plain {s : State} (h : plainRun s = true) : s.port.resetLow = false := by
  obtain ⟨-, -, -, -, -, -, -, hfree⟩ := (plainRun_iff s).mp h
  exact ((arbiterFree_iff s).mp hfree).1

theorem nextAtOnce_of_plain {s : State} (h : plainRun s = true) (hm : mixerStep s = none) :
    nextAtOnce s = none := by
  obtain ⟨hpart, -, hfin, hreq, hstep, -, htest, -⟩ := (plainRun_iff s).mp h
  exact nextAtOnce_plain hpart htest hm hfin hstep hreq

theorem nextAtOnce_of_step {s t : State} (h : plainRun s = true) (hm : mixerStep s = some t) :
    nextAtOnce s = some t := by
  obtain ⟨hpart, -, -, -, -, -, htest, -⟩ := (plainRun_iff s).mp h
  exact nextAtOnce_mixer hpart htest hm

theorem lookOwed_of_plain {s : State} (h : plainRun s = true) : s.oe.lookOwed = 0 := by
  obtain ⟨-, -, -, -, -, how, -⟩ := (plainRun_iff s).mp h
  exact how

/-- In plain production a mixer with no phase change due leaves the queue to the heat controller. -/
theorem settle_plain {s : State} (h : plainRun s = true) (hm : mixerStep s = none) :
    settle s = followQueue s := settle_of_none (nextAtOnce_of_plain h hm) (lookOwed_of_plain h)

theorem settle_plain_one {s t : State} (h : plainRun s = true) (hm : mixerStep s = some t)
    (ht : plainRun t = true) (hm' : mixerStep t = none) : settle s = followQueue t :=
  settle_of_one (nextAtOnce_of_step h hm) (nextAtOnce_of_plain ht hm') (lookOwed_of_plain ht)

theorem settle_plain_two {s t u : State} (h : plainRun s = true) (hm : mixerStep s = some t)
    (ht : plainRun t = true) (hm' : mixerStep t = some u) (hu : plainRun u = true)
    (hm'' : mixerStep u = none) : settle s = followQueue u :=
  settle_of_two (nextAtOnce_of_step h hm) (nextAtOnce_of_step ht hm') (nextAtOnce_of_plain hu hm'')
    (lookOwed_of_plain hu)

/-! ### Phases without a cycle mark -/

theorem markHere_unmarked {s : State} (h : s.mixer.cmPhase = none ∨ s.mixer.batch = none) :
    markHere s = none := by
  unfold markHere
  split
  · next p hp =>
    rcases h with h | h
    · exact absurd (hp.symm.trans h) (by simp)
    · rw [h]; simp
  · rfl

theorem leavePhase_unmarked {s : State} (h : s.mixer.cmPhase = none ∨ s.mixer.batch = none) :
    leavePhase s = s := by
  unfold leavePhase
  rw [markHere_unmarked h]

theorem changePhase_unmarked {s : State} (h : s.mixer.cmPhase = none ∨ s.mixer.batch = none) (p : Phase) :
    changePhase p s = { s with mixer.phase := p, mixer.clock := 0 } := by
  unfold changePhase
  rw [leavePhase_unmarked h]
  unfold enterPhase
  dsimp only
  rw [markHere_unmarked (by exact h)]

/-! ### A timer that reaches its limit, phase by phase (R117) -/

section
variable {s : State} (timer limit : Nat)

theorem reachLimit_charging (h : s.mixer.phase = .charging) (hfil : s.mixer.disch.fil = .notAsked) :
    reachLimit timer limit s = { s with mixer := { s.mixer with
      clock := s.mixer.clock + (limit - timer), dryT := s.mixer.dryT + (limit - timer)
      fillT := s.mixer.fillT + (limit - timer) } } := by
  unfold reachLimit advanceMixer
  simp only [h, hfil, if_true]

theorem reachLimit_dry (h : s.mixer.phase = .dry) : reachLimit timer limit s = { s with
    mixer := { s.mixer with
      clock := s.mixer.clock + (limit - timer), dryT := s.mixer.dryT + (limit - timer) } } := by
  unfold reachLimit advanceMixer
  simp only [h]

theorem reachLimit_wet (h : s.mixer.phase = .wet) : reachLimit timer limit s = { s with
    mixer := { s.mixer with
      clock := s.mixer.clock + (limit - timer), wetT := s.mixer.wetT + (limit - timer) } } := by
  unfold reachLimit advanceMixer
  simp only [h]

theorem reachLimit_doorOpen (h : s.mixer.phase = .doorOpen) : reachLimit timer limit s = { s with
    mixer := { s.mixer with
      clock := s.mixer.clock + (limit - timer), doorT := s.mixer.doorT + (limit - timer) } } := by
  unfold reachLimit advanceMixer
  simp only [h]

theorem reachLimit_doorClosing (h : s.mixer.phase = .doorClosing) : reachLimit timer limit s = { s with
    mixer := { s.mixer with
      clock := s.mixer.clock + (limit - timer), doorT := s.mixer.doorT + (limit - timer) } } := by
  unfold reachLimit advanceMixer
  simp only [h]

theorem reachLimit_clearMix (h : s.mixer.phase = .clearMix) : reachLimit timer limit s = { s with
    mixer.clock := s.mixer.clock + (limit - timer) } := by
  unfold reachLimit advanceMixer
  simp only [h]

end

theorem advanceMixer_zero (m : Mixer) : advanceMixer (· + 0) m = m := by
  unfold advanceMixer
  obtain ⟨phase, _⟩ := m
  cases phase <;> simp only [Nat.add_zero, ite_self]

/-- A timer that stands at its limit moves nothing on. -/
theorem reachLimit_self (t : Nat) (s : State) : reachLimit t t s = s := by
  unfold reachLimit
  rw [Nat.sub_self, advanceMixer_zero]

theorem add_sub_eq_max (t l : Nat) : t + (l - t) = max t l := by omega

/-! ### FILLER_DELAY_EXPIRY -/

theorem exec_fillerDelayExpiry {s : State} (h : s.port.resetLow = false) :
    exec .fillerDelayExpiry s = .next (settle (fillerDue s)) := congrArg _ (event_of_high h _)

/-- The filler timer brought to the delay, the timers that count with it moved on. -/
def fillerMoved (s : State) : State :=
  let d := (s.mixer.work.map MixVals.fillerDelay).getD 0 - s.mixer.fillT
  { s with mixer := { s.mixer with
      clock := s.mixer.clock + d, dryT := s.mixer.dryT + d, fillT := s.mixer.fillT + d } }

theorem fillerDue_of_due {s : State} (hrun : s.rc.part = .run) (hpaused : s.rc.paused = false)
    (hphase : s.mixer.phase = .charging) (hfil : s.mixer.disch.fil = .notAsked) :
    fillerDue s = askScale .fil (fillerMoved s) := by
  unfold fillerDue fillerMoved
  rw [if_pos ⟨hphase, hfil, (mixerRuns_iff s).mpr ⟨hrun, hpaused⟩⟩, reachLimit_charging _ _ hphase hfil]

theorem fillerDue_of_not {s : State} (h : s.rc.part ≠ .run ∨ s.rc.paused = true ∨
    s.mixer.phase ≠ .charging ∨ s.mixer.disch.fil ≠ .notAsked) : fillerDue s = s := by
  refine if_neg ?_
  rintro ⟨hphase, hfil, hruns⟩
  obtain ⟨hrun, hpaused⟩ := (mixerRuns_iff s).mp hruns
  rcases h with h | h | h | h
  · exact h hrun
  · exact Bool.false_ne_true (hpaused.symm.trans h)
  · exact h hphase
  · exact h hfil

/-- Settles O37. -/
theorem fillerDelayAsksFil : Obligations.FillerDelayAsksFil := by
  intro s hhigh c d moved
  refine ⟨fun h => by rw [exec_fillerDelayExpiry hhigh, fillerDue_of_not h], ?_⟩
  intro hrun hpaused hphase hclear hfil hw
  have hstep : (fillerMoved s).rc.clearStep ≠ .discharge := by
    change s.rc.clearStep ≠ .discharge
    rw [hclear]
    simp
  rw [exec_fillerDelayExpiry hhigh, fillerDue_of_due hrun hpaused hphase hfil, askScale_eq (sc := .fil) hstep hfil,
    show (fillerMoved s).rc.paused = false from hpaused, show (fillerMoved s).chan .fil = c from rfl]
  obtain ⟨hholds, hempty, -⟩ := asked_cases c
  refine ⟨fun hm => ?_, fun hm => ?_⟩
  · obtain ⟨hd, hc⟩ := hholds hw hm
    rw [hd, hc]
    rfl
  · obtain ⟨hd, hc⟩ := hempty hw hm
    rw [hd, hc]
    rfl

/-! ### DRY_MIX_EXPIRY -/

theorem exec_dryMixExpiry {s : State} (h : s.port.resetLow = false) :
    exec .dryMixExpiry s = .next (settle (dryMixDue s)) := congrArg _ (event_of_high h _)

theorem paused_not_runs {s : State} (h : s.rc.paused = true) : mixerRuns s ≠ true := fun hruns =>
  Bool.false_ne_true (((mixerRuns_iff s).mp hruns).2.symm.trans h)

theorem dryMixDue_of_paused {s : State} (h : s.rc.paused = true) : dryMixDue s = s :=
  if_neg fun hall => paused_not_runs h hall.2

/-- The dry timer brought to the dry mix time. -/
def dryMoved (m : MixBatch) (s : State) : State :=
  { s with mixer := { s.mixer with
      clock := s.mixer.clock + (m.dryTime - s.mixer.dryT), dryT := max s.mixer.dryT m.dryTime } }

theorem dryMixDue_of_due {s : State} {m : MixBatch} (hruns : mixerRuns s = true)
    (hphase : s.mixer.phase = .dry) (hm : s.mixer.batch = some m) : dryMixDue s = dryMoved m s := by
  unfold dryMixDue dryMoved
  rw [if_pos ⟨hphase, hruns⟩, reachLimit_dry _ _ hphase, hm]
  simp only [Option.map_some, Option.getD_some, add_sub_eq_max]

/-- Entry into WET without a mark: the spray is asked for (R123). -/
theorem enterWet_unmarked {s : State} (hmark : s.mixer.cmPhase = none)
    (hclear : s.rc.clearStep ≠ .discharge) (hbit : s.mixer.disch.bit = .notAsked) :
    enterWet s = { s with
      ch := s.ch.set .bit (askedChannel s.rc.paused (s.chan .bit))
      mixer := { s.mixer with phase := .wet, clock := 0, wetT := 0
                              disch := { s.mixer.disch with bit := askedDisch (s.chan .bit) } } } := by
  unfold enterWet
  rw [changePhase_unmarked (.inl hmark), askScale_eq (by exact hclear) (by exact hbit)]
  rfl

theorem mixerStep_dry {s : State} {m : MixBatch} (hphase : s.mixer.phase = .dry)
    (hm : s.mixer.batch = some m) (hp : s.rc.paused = false) (ht : m.dryTime ≤ s.mixer.dryT) :
    mixerStep s = some (enterWet s) := by
  unfold mixerStep
  simp only [hphase, hm, hp, Option.map_some, Option.getD_some, ht, decide_true, Bool.not_false,
    Bool.and_self, if_true]

theorem mixerStep_wet_spraying {s : State} (hphase : s.mixer.phase = .wet)
    (h : hasEnded s.mixer.disch.bit = false) : mixerStep s = none := by
  unfold mixerStep
  simp only [hphase, h, Bool.false_and, Bool.false_eq_true, if_false]

/-- Settles O38. -/
theorem dryMixEnds : Obligations.DryMixEnds := by
  refine fun s => ⟨fun hhigh hp => by rw [exec_dryMixExpiry hhigh, dryMixDue_of_paused hp], ?_⟩
  intro m hplain hphase hm hmark hbit hw hmass
  obtain ⟨-, hpaused, -, -, hclear, -, -, -⟩ := (plainRun_iff s).mp hplain
  have hstep : (dryMoved m s).rc.clearStep ≠ .discharge := by
    change s.rc.clearStep ≠ .discharge
    rw [hclear]
    simp
  obtain ⟨hd, hc⟩ := (asked_cases (s.chan .bit)).1 hw hmass
  have hwet := enterWet_unmarked (s := dryMoved m s) hmark hstep hbit
  rw [show (dryMoved m s).rc.paused = false from hpaused, show (dryMoved m s).chan .bit = s.chan .bit from rfl,
    hd, hc] at hwet
  have hfirst : mixerStep (dryMoved m s) = some (enterWet (dryMoved m s)) :=
    mixerStep_dry (m := m) hphase hm hpaused (Nat.le_max_right _ _)
  have hafter : mixerStep (enterWet (dryMoved m s)) = none := by
    rw [hwet]
    exact mixerStep_wet_spraying rfl rfl
  rw [exec_dryMixExpiry (high_of_plain hplain), dryMixDue_of_due (mixerRuns_of_plain hplain) hphase hm,
    settle_plain_one (plainRun_congr (t := dryMoved m s) rfl rfl rfl rfl hplain) hfirst
      (by rw [hwet]; exact plainRun_congr rfl rfl rfl rfl hplain) hafter, hwet]
  rfl

end Sys2Proof.Machine
end

section
/-! WET_MIX_EXPIRY (O39), the notices posted once (O41) and the door phases (O42). -/

namespace Sys2Proof.Machine

theorem mixNotice_of_batch {s : State} {m : MixBatch} (hm : s.mixer.batch = some m) (d : Detail) :
    mixNotice s.mixer.batch d = ⟨m.slot, m.order, m.seq, d⟩ := by rw [hm]; rfl

/-! ### DISCHARGE_WAIT (R124, R125) -/

theorem mixRoute_of_batch {s : State} {m : MixBatch} (hm : s.mixer.batch = some m) : mixRoute s = m.route := by
  unfold mixRoute; rw [hm]; rfl

theorem enterDischargeWait_unmarked {s : State} {m : MixBatch} (hmark : s.mixer.cmPhase = none)
    (hm : s.mixer.batch = some m) : enterDischargeWait s = { s with
      mixer := { s.mixer with phase := .dischargeWait, clock := 0, overT := 0, routeOut := some m.route } } := by
  unfold enterDischargeWait
  rw [changePhase_unmarked (.inl hmark), mixRoute_of_batch hm]

theorem enterDoorOpen_unmarked {s : State} (h : s.mixer.cmPhase = none ∨ s.mixer.batch = none) :
    enterDoorOpen s = { s with
      mixer := { s.mixer with phase := .doorOpen, clock := 0, doorT := 0, door := true } } := by
  unfold enterDoorOpen
  rw [changePhase_unmarked h]

section
variable {s : State} {m : MixBatch} (hphase : s.mixer.phase = .dischargeWait) (hm : s.mixer.batch = some m)
  (hp : s.rc.paused = false)
include hphase hm hp

theorem mixerStep_receiver_ready (h : s.inp.ready.get m.route = true) (hd : anyDischarging s = false) :
    mixerStep s = some (enterDoorOpen s) := by
  unfold mixerStep
  simp only [hphase, hp, mixRoute_of_batch hm, h, hd, Bool.false_eq_true, if_false, if_true]

theorem mixerStep_receiver_blocked (h : s.inp.ready.get m.route = true) (hd : anyDischarging s = true) :
    mixerStep s = none := by
  unfold mixerStep
  simp only [hphase, hp, mixRoute_of_batch hm, h, hd, Bool.false_eq_true, if_false, if_true]

theorem mixerStep_receiver_waits (h : s.inp.ready.get m.route = false) (hw : s.mixer.rwPosted = false) :
    mixerStep s = some (receiverWait s) := by
  unfold mixerStep
  simp only [hphase, hp, mixRoute_of_batch hm, h, hw, Bool.false_eq_true, if_false]

theorem mixerStep_receiver_waited (h : s.inp.ready.get m.route = false) (hw : s.mixer.rwPosted = true) :
    mixerStep s = none := by
  unfold mixerStep
  simp only [hphase, hp, mixRoute_of_batch hm, h, hw, Bool.false_eq_true, if_false, if_true]

end

theorem mixerStep_doorOpen {s : State} (h : s.mixer.phase = .doorOpen) : mixerStep s = none := by
  unfold mixerStep; rw [h]

theorem mixerStep_empty {s : State} (h : s.mixer.phase = .empty) : mixerStep s = none := by
  unfold mixerStep; rw [h]

/-- The flags of a batch do not bear on its dry shortfall test. -/
theorem dryTestHere_flagBatch (seq : Nat) (f : TicketFlags → TicketFlags) (s : State) :
    dryTestHere (flagBatch seq f s) = dryTestHere s := by
  unfold dryTestHere flagBatch
  cases s.co.weigh with
  | none => rfl
  | some b =>
    dsimp only [Option.map_some]
    split <;> rfl

theorem receiverWait_of_room {s : State} {m : MixBatch} (hm : s.mixer.batch = some m)
    (hroom : s.nu.list.length < 16) : receiverWait s =
      { flagBatch m.seq (fun f => { f with receiverWait := true }) s with
        mixer.rwPosted := true
        nu.list := s.nu.list ++ [⟨m.slot, m.order, m.seq, .receiverWait m.route⟩] } := by
  have hroute : mixRoute (flagBatch m.seq (fun f => { f with receiverWait := true }) s) = m.route :=
    mixRoute_of_batch hm
  unfold receiverWait
  simp only [hm]
  rw [submit_of_room (by exact hroom), hroute]
  have hbatch : (flagBatch m.seq (fun f => { f with receiverWait := true }) s).mixer.batch = some m := hm
  rw [hbatch]
  rfl

/-! ### WET_MIX_EXPIRY -/

theorem exec_wetMixExpiry {s : State} (h : s.port.resetLow = false) :
    exec .wetMixExpiry s = .next (settle (wetMixDue s)) := congrArg _ (event_of_high h _)

/-- The wet timer brought to the wet mix time. -/
def wetMoved (m : MixBatch) (s : State) : State :=
  { s with mixer := { s.mixer with
      clock := s.mixer.clock + (m.wetTime - s.mixer.wetT), wetT := max s.mixer.wetT m.wetTime } }

theorem wetMixDue_of_due {s : State} {m : MixBatch} (hruns : mixerRuns s = true)
    (hphase : s.mixer.phase = .wet) (hm : s.mixer.batch = some m) : wetMixDue s = wetMoved m s := by
  unfold wetMixDue wetMoved
  rw [if_pos ⟨hphase, hruns⟩, reachLimit_wet _ _ hphase, hm]
  simp only [Option.map_some, Option.getD_some, add_sub_eq_max]

theorem mixerStep_wet_done {s : State} {m : MixBatch} (hphase : s.mixer.phase = .wet)
    (hm : s.mixer.batch = some m) (hb : hasEnded s.mixer.disch.bit = true) (ht : m.wetTime ≤ s.mixer.wetT) :
    mixerStep s = some (enterDischargeWait s) := by
  unfold mixerStep
  simp only [hphase, hm, hb, Option.map_some, Option.getD_some, ht, decide_true, Bool.and_self, if_true]

/-- DISCHARGE_WAIT as the wet mix ends in it. -/
def dischargeWaits (m : MixBatch) (s : State) : State :=
  { s with mixer := { s.mixer with phase := .dischargeWait, clock := 0, overT := 0
                                   wetT := max s.mixer.wetT m.wetTime, routeOut := some m.route } }

theorem enterDischargeWait_wetMoved {s : State} {m : MixBatch} (hmark : s.mixer.cmPhase = none)
    (hm : s.mixer.batch = some m) : enterDischargeWait (wetMoved m s) = dischargeWaits m s :=
  enterDischargeWait_unmarked (s := wetMoved m s) hmark hm

theorem exec_wetMixExpiry_plain {s : State} {m : MixBatch} (hplain : plainRun s = true)
    (hphase : s.mixer.phase = .wet) (hm : s.mixer.batch = some m) :
    exec .wetMixExpiry s = .next (settle (wetMoved m s)) := by
  rw [exec_wetMixExpiry (high_of_plain hplain), wetMixDue_of_due (mixerRuns_of_plain hplain) hphase hm]

/-- Settles O39. -/
theorem wetMixEnds : Obligations.WetMixEnds := by
  intro s m hplain hphase hm w
  have hpaused : s.rc.paused = false := ((mixerRuns_iff s).mp (mixerRuns_of_plain hplain)).2
  have hmoved : plainRun (wetMoved m s) = true := plainRun_congr rfl rfl rfl rfl hplain
  have hwaits : plainRun (dischargeWaits m s) = true := plainRun_congr rfl rfl rfl rfl hplain
  have hfirst (hb : hasEnded s.mixer.disch.bit = true) (hmark : s.mixer.cmPhase = none) :
      mixerStep (wetMoved m s) = some (dischargeWaits m s) :=
    (mixerStep_wet_done (s := wetMoved m s) hphase hm hb (Nat.le_max_right _ _)).trans
      (congrArg some (enterDischargeWait_wetMoved hmark hm))
  rw [exec_wetMixExpiry_plain hplain hphase hm]
  refine ⟨fun hb => ?_, fun hb hmark => ⟨fun hready hdis => ?_, fun h => ?_⟩, fun hb hmark hready hpost hroom => ?_⟩
  · exact congrArg _ (settle_plain hmoved (mixerStep_wet_spraying hphase hb))
  · have hsecond : mixerStep (dischargeWaits m s) = some (enterDoorOpen (dischargeWaits m s)) :=
      mixerStep_receiver_ready (s := dischargeWaits m s) rfl hm hpaused hready hdis
    rw [enterDoorOpen_unmarked (s := dischargeWaits m s) (.inl hmark)] at hsecond
    exact congrArg _ (settle_plain_two hmoved (hfirst hb hmark) hwaits hsecond
      (plainRun_congr rfl rfl rfl rfl hplain) (mixerStep_doorOpen rfl))
  · have hnone : mixerStep (dischargeWaits m s) = none := by
      rcases h with ⟨hready, hdis⟩ | ⟨hready, hpost⟩
      · exact mixerStep_receiver_blocked (s := dischargeWaits m s) rfl hm hpaused hready hdis
      · exact mixerStep_receiver_waited (s := dischargeWaits m s) rfl hm hpaused hready hpost
    exact congrArg _ (settle_plain_one hmoved (hfirst hb hmark) hwaits hnone)
  · have hsecond : mixerStep (dischargeWaits m s) = some (receiverWait (dischargeWaits m s)) :=
      mixerStep_receiver_waits (s := dischargeWaits m s) rfl hm hpaused hready hpost
    rw [receiverWait_of_room (s := dischargeWaits m s) hm hroom] at hsecond
    exact congrArg _ (settle_plain_two hmoved (hfirst hb hmark) hwaits hsecond
      (plainRun_congr (s := s) rfl rfl rfl
        (dryTestHere_flagBatch m.seq (fun f => { f with receiverWait := true }) s) hplain) (mixerStep_receiver_waited (m := m) rfl hm hpaused hready rfl))

/-! ### OVERMIX and CYCLE_MARK -/

theorem exec_overmix {s : State} (h : s.port.resetLow = false) :
    exec .overmix s = .next (overmixDue s) := congrArg _ (plainEvent_of_high h _)

theorem exec_cycleMark {s : State} (h : s.port.resetLow = false) :
    exec .cycleMark s = .next (markDue s) := congrArg _ (plainEvent_of_high h _)

theorem overmixDue_posted {s : State} (h : s.mixer.omPosted = true) : overmixDue s = s := by
  unfold overmixDue
  split
  · exact if_neg fun hall => Bool.false_ne_true (hall.2.1.symm.trans h)
  · rfl

theorem overmixDue_posts {s : State} {m : MixBatch} (hruns : mixerRuns s = true) (hm : s.mixer.batch = some m)
    (hphase : s.mixer.phase = .dischargeWait) (hover : s.mixer.overT = 10 * m.overLimit + 1)
    (hpost : s.mixer.omPosted = false) (hroom : s.nu.list.length < 16) : overmixDue s =
      { flagBatch m.seq (fun f => { f with overmix := true }) { s with mixer.omPosted := true } with
        nu.list := s.nu.list ++ [⟨m.slot, m.order, m.seq, .overmix m.route m.overLimit s.mixer.overT⟩] } := by
  have hself : reachLimit s.mixer.overT (10 * m.overLimit + 1) s = s := by rw [← hover, reachLimit_self]
  unfold overmixDue
  rw [hm]
  dsimp only
  rw [if_pos ⟨hphase, hpost, hruns⟩, hself, submit_of_room (by exact hroom)]
  unfold mixNotice flagBatch
  rw [hm]

theorem markDue_of_none {s : State} (h : markHere s = none) : markDue s = s := by
  unfold markDue; rw [h]

theorem markHere_posted {s : State} (h : s.mixer.cmPosted = true) : markHere s = none := by
  unfold markHere
  split
  · exact if_neg fun hall => Bool.false_ne_true (hall.2.1.symm.trans h)
  · rfl

theorem markDue_posts {s : State} {m : MixBatch} {p : MarkPhase} (hruns : mixerRuns s = true)
    (hm : s.mixer.batch = some m) (hp : s.mixer.cmPhase = some p) (hphase : p.phase = s.mixer.phase)
    (hclock : s.mixer.clock = s.mixer.cmOffset) (hpost : s.mixer.cmPosted = false)
    (hroom : s.nu.list.length < 16) : markDue s = { s with
      mixer.cmPosted := true
      nu.list := s.nu.list ++ [⟨m.slot, m.order, m.seq, .cycleMark p s.mixer.cmOffset s.mixer.clock false⟩] } := by
  have hhere : markHere s = some p := by
    unfold markHere
    simp only [hp, hphase, hpost, hm, Option.isSome_some, and_self, if_true]
  have hself : reachLimit s.mixer.clock s.mixer.cmOffset s = s := by rw [hclock, reachLimit_self]
  unfold markDue
  simp only [hhere, hruns, if_true]
  rw [hself, postMark, submit_of_room (by exact hroom), mixNotice_of_batch hm]

/-- Settles O41. -/
theorem mixerPostsOnce : Obligations.MixerPostsOnce := by
  intro s m hhigh hrun hpaused hm hroom
  have hruns : mixerRuns s = true := (mixerRuns_iff s).mpr ⟨hrun, hpaused⟩
  rw [exec_overmix hhigh, exec_cycleMark hhigh]
  refine ⟨fun hphase hover => ⟨fun h => ?_, fun h => ?_⟩, fun p hp hphase hclock => ⟨fun h => ?_, fun h => ?_⟩,
    fun h => ?_⟩
  · rw [overmixDue_posted h]
  · rw [overmixDue_posts hruns hm hphase hover h hroom]
    rfl
  · rw [markDue_of_none (markHere_posted h)]
  · rw [markDue_posts hruns hm hp hphase hclock h hroom]
  · rw [markDue_of_none (markHere_unmarked (.inl h))]

/-! ### DOOR_OPEN_EXPIRY and CLEAR_MIX_EXPIRY -/

theorem exec_doorOpenExpiry {s : State} (h : s.port.resetLow = false) :
    exec .doorOpenExpiry s = .next (settle (doorOpenDue s)) := congrArg _ (event_of_high h _)

theorem exec_clearMixExpiry {s : State} (h : s.port.resetLow = false) :
    exec .clearMixExpiry s = .next (settle (clearMixDue s)) := congrArg _ (event_of_high h _)

theorem doorOpenDue_of_paused {s : State} (h : s.rc.paused = true) : doorOpenDue s = s :=
  if_neg fun hall => paused_not_runs h hall.2

theorem clearMixDue_of_not {s : State} (h : s.rc.paused = true ∨ s.mixer.phase ≠ .clearMix) :
    clearMixDue s = s := by
  refine if_neg fun hall => ?_
  rcases h with h | h
  · exact paused_not_runs h hall.2
  · exact h hall.1

theorem clearMixDue_of_due {s : State} (hruns : mixerRuns s = true) (hphase : s.mixer.phase = .clearMix) :
    clearMixDue s =
      let u := { s with
        mixer.clock := max s.mixer.clock (10 * (s.mixer.work.map MixVals.clearMixTime).getD 0) }
      if anyDischarging s then u else enterDoorOpen u := by
  unfold clearMixDue
  rw [if_pos ⟨hphase, hruns⟩, reachLimit_clearMix _ _ hphase, add_sub_eq_max]
  rfl

/-- A batch leaves DOOR_OPEN with the reading of T6 (R126). -/
theorem doorOpenDue_of_due {s : State} {m : MixBatch} (hruns : mixerRuns s = true)
    (hphase : s.mixer.phase = .doorOpen) (hm : s.mixer.batch = some m) (hmark : s.mixer.cmPhase = none) :
    doorOpenDue s = { s with mixer := { s.mixer with
      phase := .doorClosing, door := false, clock := 0, doorT := 0
      t6 := (goodReading s.heat.tc.t6).elim .absent .present } } := by
  unfold doorOpenDue
  rw [if_pos ⟨hphase, hruns⟩, reachLimit_doorOpen _ _ hphase]
  unfold leaveDoorOpen
  dsimp only
  rw [hm, changePhase_unmarked (.inl (by exact hmark))]
  cases goodReading s.heat.tc.t6 <;> rfl

theorem mixerStep_doorClosing_open {s : State} (hphase : s.mixer.phase = .doorClosing)
    (h : s.inp.doorClosed = false) : mixerStep s = none := by
  unfold mixerStep
  simp only [hphase, h, Bool.false_and, Bool.false_eq_true, if_false]

theorem goodReading_elim (c : TempCh) :
    (goodReading c).elim .absent T6Reading.present =
      match c.fault, c.reading with
      | none, some v => .present v
      | _, _ => .absent := by
  unfold goodReading
  cases c.fault <;> cases c.reading <;> rfl

/-- Settles O42. -/
theorem doorPhasesEnd : Obligations.DoorPhasesEnd := by
  refine ⟨fun s => ⟨fun hhigh hp => by rw [exec_doorOpenExpiry hhigh, doorOpenDue_of_paused hp], ?_⟩, ?_⟩
  · intro m hplain hphase hm hmark hopen
    rw [exec_doorOpenExpiry (high_of_plain hplain),
      doorOpenDue_of_due (mixerRuns_of_plain hplain) hphase hm hmark, goodReading_elim]
    exact congrArg _ (settle_plain (plainRun_congr (s := s) rfl rfl rfl rfl hplain)
      (mixerStep_doorClosing_open rfl hopen))
  · intro s hhigh t
    rw [exec_clearMixExpiry hhigh]
    refine ⟨fun h => by rw [clearMixDue_of_not h], fun hrun hpaused hphase => ?_⟩
    rw [clearMixDue_of_due ((mixerRuns_iff s).mpr ⟨hrun, hpaused⟩) hphase]
    refine ⟨fun hdis => by rw [hdis]; rfl, fun hdis hbatch => ?_⟩
    rw [hdis]
    dsimp only
    rw [if_neg Bool.false_ne_true, enterDoorOpen_unmarked (.inr (by exact hbatch))]

end Sys2Proof.Machine
end

section
/-! RECEIVER_READY_CHANGE (O40): the receiver of a batch, and the clear cycle's WAIT RECEIVER and DISCHARGE. -/

namespace Sys2Proof.Machine

/-! ### A discharge request of the clear cycle (R95, R166) -/

/-- A channel asked to discharge by the clear cycle, with PAUSED clear. -/
def clearedChannel (c : Channel) : Channel :=
  if c.state = .weighed ∨ c.state = .idle then
    if emptyThr c ≤ c.net then { c with state := .discharging, feed := none, gate := true, dischTimer := 0 }
    else { c with state := .idle, feed := none, gate := false, batch := none }
  else c

/-- What the clear record holds of a channel just asked. -/
def clearedEnd (c : Channel) : Option EndKind :=
  if (c.state = .weighed ∨ c.state = .idle) ∧ c.net < emptyThr c then some .empty else none

theorem requestDischarge_cleared {sc : Scale} {s : State} (hclear : s.rc.clearStep = .discharge)
    (hp : s.rc.paused = false) (hends : s.rc.clearRec.ends.get sc = none) :
    requestDischarge sc s = { s with
      ch := s.ch.set sc (clearedChannel (s.chan sc))
      rc.clearRec.ends := s.rc.clearRec.ends.set sc (clearedEnd (s.chan sc)) } := by
  have hset : s.rc.clearRec.ends.set sc none = s.rc.clearRec.ends := by rw [← hends, PerScale.set_get]
  have hgate : (!s.rc.paused) = true := by rw [hp]; rfl
  have hacts : ((s.chan sc).state == .weighed || ((s.chan sc).state == .idle && s.rc.clearStep == .discharge))
      = true ↔ (s.chan sc).state = .weighed ∨ (s.chan sc).state = .idle := by
    rw [hclear]
    simp
  unfold requestDischarge clearedChannel clearedEnd
  dsimp only
  by_cases hw : (s.chan sc).state = .weighed ∨ (s.chan sc).state = .idle
  · rw [if_pos (hacts.mpr hw), if_pos hw]
    by_cases hm : emptyThr (s.chan sc) ≤ (s.chan sc).net
    · rw [if_pos (by exact decide_eq_true hm), if_pos hm, if_neg (by omega), hset, hgate]
      rfl
    · rw [if_neg (by exact mt of_decide_eq_true hm), if_neg hm, if_pos ⟨hw, by omega⟩]
      unfold endDischarge reportDischarge
      rw [if_pos (by exact hclear)]
      rfl
  · rw [if_neg (mt hacts.mp hw), if_neg hw, if_neg (fun h => hw h.1), hset, State.chan, PerScale.set_get]

theorem clearDischarge_eq {s : State} (hp : s.rc.paused = false) : clearDischarge s = { s with
    ch := s.ch.map clearedChannel
    rc.clearStep := .discharge
    rc.clearRec.start := s.ch.map Channel.net
    rc.clearRec.ends := s.ch.map clearedEnd } := by
  unfold clearDischarge Scale.all
  simp only [List.foldl_cons, List.foldl_nil]
  rw [requestDischarge_cleared (sc := .agg) rfl (by exact hp) rfl,
    requestDischarge_cleared (sc := .rap) rfl (by exact hp) rfl,
    requestDischarge_cleared (sc := .fil) rfl (by exact hp) rfl,
    requestDischarge_cleared (sc := .bit) rfl (by exact hp) rfl]
  rfl

theorem cleared_cases (c : Channel) :
    (c.state = .idle ∨ c.state = .weighed → emptyThr c ≤ c.net → clearedEnd c = none ∧
      clearedChannel c = { c with state := .discharging, feed := none, gate := true, dischTimer := 0 }) ∧
    (c.state = .idle ∨ c.state = .weighed → c.net < emptyThr c → clearedEnd c = some .empty ∧
      clearedChannel c = { c with state := .idle, feed := none, gate := false, batch := none }) ∧
    (c.state ≠ .idle → c.state ≠ .weighed → clearedEnd c = none ∧ clearedChannel c = c) := by
  unfold clearedEnd clearedChannel
  refine ⟨fun hw hm => ⟨if_neg (by omega), ?_⟩, fun hw hm => ⟨if_pos ⟨hw.symm, hm⟩, ?_⟩,
    fun hi hw => ⟨if_neg (fun h => h.1.elim hw hi), if_neg (fun h => h.elim hw hi)⟩⟩
  · rw [if_pos hw.symm, if_pos hm]
  · rw [if_pos hw.symm, if_neg (by omega)]

/-! ### Steps of the clear cycle that follow at once -/

/-- Past WAIT FAULTS, with the mixer at rest, the clear cycle's own step is next. -/
theorem nextAtOnce_clear {s : State} (hrun : s.rc.part = .run) (htest : dryTestHere s = false)
    (hm : mixerStep s = none) (hnone : s.rc.clearStep ≠ .none) (hwait : s.rc.clearStep ≠ .waitFaults) :
    nextAtOnce s = clearNext s := by
  have hfin : finishDue s = false := by
    unfold finishDue
    rw [beq_eq_false_iff_ne.mpr hnone, beq_eq_false_iff_ne.mpr hwait, Bool.or_self, Bool.and_false]
  unfold nextAtOnce
  rw [if_pos hrun, htest, hm, hfin]
  rfl

theorem mixerHeld_of_empty {s : State} (hphase : s.mixer.phase = .empty) (hhold : s.mixer.clearHold = true) :
    mixerHeld s = true := by
  unfold mixerHeld; rw [hphase, hhold]; rfl

theorem clearNext_receiver_ready {s : State} (hstep : s.rc.clearStep = .waitReceiver)
    (hp : s.rc.paused = false) (hready : s.inp.ready.reject = true) (hheld : mixerHeld s = true) :
    clearNext s = some (clearDischarge s) := by
  unfold clearNext
  simp only [hstep, hp, hready, hheld, if_true, Bool.false_eq_true, if_false]

theorem clearNext_receiver_waits {s : State} (hstep : s.rc.clearStep = .waitReceiver)
    (hp : s.rc.paused = false) (hready : s.inp.ready.reject = false) (hpost : s.rc.clearRec.rwPosted = false) :
    clearNext s = some (clearReceiverWait s) := by
  unfold clearNext
  simp only [hstep, hp, hready, hpost, Bool.false_eq_true, if_false]

theorem clearNext_receiver_waited {s : State} (hstep : s.rc.clearStep = .waitReceiver)
    (hready : s.inp.ready.reject = false) (hpost : s.rc.clearRec.rwPosted = true) : clearNext s = none := by
  unfold clearNext
  simp only [hstep, hready, hpost, Bool.false_eq_true, if_false, if_true, ite_self]

theorem clearNext_discharged {s : State} (hstep : s.rc.clearStep = .discharge) (hended : allEnded s = true)
    (hheld : mixerHeld s = true) (hdis : anyDischarging s = false) : clearNext s = some (clearMix s) := by
  unfold clearNext
  simp only [hstep, hended, hheld, hdis, Bool.not_false, Bool.and_self, if_true]

theorem clearReceiverWait_of_room {s : State} (hroom : s.nu.list.length < 16) : clearReceiverWait s = { s with
    rc.clearRec.rwPosted := true
    nu.list := s.nu.list ++ [⟨255, 0, 0, .receiverWait .reject⟩] } := submit_of_room (by exact hroom) _

theorem clearMix_of_none {s : State} (h : s.port.waiting = []) : clearMix s = { s with
    rc.clearStep := .mix
    mixer := { s.mixer with
      phase := .clearMix
      clock := 0
      work := s.mixer.work.map fun v =>
        { v with clearMixTime := takeRanged 2 20 (s.rd Win.clearMixTime) v.clearMixTime } } } := by
  unfold clearMix
  rw [readAll_of_none h]
  rfl

/-! ### RECEIVER_READY_CHANGE -/

theorem exec_receiverReadyChange {s : State} (h : s.port.resetLow = false) (r : Route) (a : Bool) :
    exec (.receiverReadyChange r a) s = .next (settle (readyInput r a s)) :=
  congrArg _ (event_of_high (s := readyInput r a s) h _)

theorem exec_receiverReadyChange_low {s : State} (h : s.port.resetLow = true) (r : Route) (a : Bool) :
    exec (.receiverReadyChange r a) s = .next (readyInput r a s) := congrArg _ (if_pos h)

/-- Settles O40. -/
theorem receiverReadyOpensDoor : Obligations.ReceiverReadyOpensDoor := by
  refine ⟨fun s r a => ⟨fun hlow => exec_receiverReadyChange_low hlow r a, ?_, ?_⟩, ?_⟩
  · intro m hplain hphase hm
    have hpaused : s.rc.paused = false := ((mixerRuns_iff s).mp (mixerRuns_of_plain hplain)).2
    have hlev : plainRun (readyInput r a s) = true := plainRun_congr (s := s) rfl rfl rfl rfl hplain
    rw [exec_receiverReadyChange (high_of_plain hplain)]
    refine ⟨fun ha hr hmark hdis => ?_, fun hr hready hpost => ?_⟩
    · have hready : (readyInput r a s).inp.ready.get m.route = true := by
        rw [ha, hr]
        exact PerRoute.get_set_same _ _ _
      have hfirst := mixerStep_receiver_ready (s := readyInput r a s) hphase hm hpaused hready hdis
      rw [enterDoorOpen_unmarked (s := readyInput r a s) (.inl hmark)] at hfirst
      exact congrArg _ (settle_plain_one hlev hfirst (plainRun_congr (s := s) rfl rfl rfl rfl hplain)
        (mixerStep_doorOpen rfl))
    · have hready' : (readyInput r a s).inp.ready.get m.route = false :=
        (PerRoute.get_set_other _ _ (Ne.symm hr)).trans hready
      exact congrArg _ (settle_plain hlev
        (mixerStep_receiver_waited (s := readyInput r a s) hphase hm hpaused hready' hpost))
  · intro hplain hphase
    have hlev : plainRun (readyInput r a s) = true := plainRun_congr (s := s) rfl rfl rfl rfl hplain
    rw [exec_receiverReadyChange (high_of_plain hplain)]
    refine congrArg _ (settle_plain hlev ?_)
    rcases hphase with h | h
    · exact mixerStep_empty h
    · exact mixerStep_doorOpen h
  · intro s hhigh hrun htest hphase hhold on off
    have hheld : mixerHeld s = true := mixerHeld_of_empty hphase hhold
    refine ⟨fun hstep hp => ⟨exec_receiverReadyChange hhigh _ _, ?_, fun hpost how hroom => ?_⟩,
      fun hstep hfree hdis hends => ?_⟩
    · have hnext : nextAtOnce on = some (clearDischarge on) :=
        (nextAtOnce_clear (s := on) hrun htest (mixerStep_empty hphase) (by rw [hstep]; simp)
          (by rw [hstep]; simp)).trans (clearNext_receiver_ready hstep hp rfl hheld)
      rw [clearDischarge_eq (s := on) hp] at hnext
      refine ⟨_, hnext, rfl, rfl, rfl, rfl, rfl, rfl, fun sc => ?_⟩
      have hend : (s.ch.map clearedEnd).get sc = clearedEnd (s.chan sc) := PerScale.get_map _ _ _
      have hchan : (s.ch.map clearedChannel).get sc = clearedChannel (s.chan sc) := PerScale.get_map _ _ _
      dsimp only [State.chan] at hend hchan ⊢
      rw [hend, hchan]
      exact cleared_cases (s.ch.get sc)
    · have hnext : nextAtOnce off = some (clearReceiverWait off) :=
        (nextAtOnce_clear (s := off) hrun htest (mixerStep_empty hphase) (by rw [hstep]; simp)
          (by rw [hstep]; simp)).trans (clearNext_receiver_waits hstep hp rfl hpost)
      rw [clearReceiverWait_of_room (s := off) hroom] at hnext
      rw [exec_receiverReadyChange hhigh]
      refine congrArg _ (settle_of_one hnext ?_ how)
      have hstep' : off.rc.clearStep = .waitReceiver := hstep
      exact (nextAtOnce_clear (s := { off with
          rc.clearRec.rwPosted := true
          nu.list := s.nu.list ++ [⟨255, 0, 0, .receiverWait .reject⟩] })
        hrun htest (mixerStep_empty hphase) (by rw [hstep']; simp) (by rw [hstep']; simp)).trans
        (clearNext_receiver_waited hstep rfl rfl)
    · have hended : allEnded s = true := by
        unfold allEnded
        rw [PerScale.all_iff]
        exact fun sc => Option.isSome_iff_ne_none.mpr (hends sc)
      refine ⟨_, (nextAtOnce_clear hrun htest (mixerStep_empty hphase) (by rw [hstep]; simp)
        (by rw [hstep]; simp)).trans (clearNext_discharged hstep hended hheld hdis), ?_⟩
      rw [clearMix_of_none ((arbiterFree_iff s).mp hfree).2]
      exact ⟨rfl, rfl, rfl, rfl, rfl⟩

end Sys2Proof.Machine
end

section
/-! DOOR_CLOSE_TIMEOUT (O44). -/

namespace Sys2Proof.Machine

/-- HALTED by a door fault, before the burner is dropped. -/
def doorHalted (s : State) : State :=
  { s.wr Win.partState (BitVec.ofNat 16 PartState.halted.code) with
    rc := { s.rc with part := .halted, paused := false, finishing := false }
    ch := s.ch.map quietChannel
    bit := { s.bit with tankSelect := false, circulate := false, tankLast := none }
    mixer := { s.mixer with suspect := true, door := false, routeOut := none }
    nu.list := s.nu.list ++ [mixNotice s.mixer.batch (.doorFault s.mixer.doorT),
      ⟨255, 0, mixSeq s, .halt .doorFault s.rc.clearStep (weighSeq s)⟩] }

theorem enterHalted_of_room {s : State} (hnone : s.port.waiting = []) (hroom : s.nu.list.length < 16)
    (cause : HaltCause) : enterHalted cause s = burnerDrop
      { s.wr Win.partState (BitVec.ofNat 16 PartState.halted.code) with
        rc := { s.rc with part := .halted, paused := false, finishing := false }
        ch := s.ch.map quietChannel
        bit := { s.bit with tankSelect := false, circulate := false, tankLast := none }
        mixer := haltMixer s.mixer
        nu.list := s.nu.list ++ [⟨255, 0, mixSeq s, .halt cause s.rc.clearStep (weighSeq s)⟩] } := by
  unfold enterHalted
  dsimp only
  rw [setPart_of_none (by exact hnone), submit_of_room (by exact hroom)]
  rfl

theorem doorFault_of_room {s : State} (hnone : s.port.waiting = []) (hroom : s.nu.list.length < 15) :
    doorFault s = burnerDrop (doorHalted s) := by
  unfold doorFault
  dsimp only
  rw [submit_of_room (by exact (by omega : s.nu.list.length < 16)), enterHalted_of_room (by exact hnone)
    (by change (s.nu.list ++ [_]).length < 16; rw [List.length_append, List.length_singleton]; omega)]
  dsimp only
  rw [List.append_assoc]
  rfl

theorem exec_doorCloseTimeout {s : State} (h : s.port.resetLow = false) :
    exec .doorCloseTimeout s = .next (settle (doorTimeout s)) := congrArg _ (event_of_high h _)

theorem doorTimeout_of_not {s : State} (h : s.rc.paused = true ∨ s.mixer.phase ≠ .doorClosing) :
    doorTimeout s = s := by
  refine if_neg fun hall => ?_
  rcases h with h | h
  · exact paused_not_runs h hall.2
  · exact h hall.1

/-- The door timer brought to the door close timeout. -/
def doorMoved (s : State) : State :=
  let limit := (s.mixer.work.map MixVals.doorCloseTimeout).getD 0
  { s with mixer := { s.mixer with
      clock := s.mixer.clock + (limit - s.mixer.doorT), doorT := max s.mixer.doorT limit } }

theorem doorTimeout_of_due {s : State} (hruns : mixerRuns s = true) (hphase : s.mixer.phase = .doorClosing) :
    doorTimeout s = doorFault (doorMoved s) := by
  unfold doorTimeout doorMoved
  rw [if_pos ⟨hphase, hruns⟩, reachLimit_doorClosing _ _ hphase, add_sub_eq_max]

/-- Settles O44. -/
theorem doorTimeoutHalts : Obligations.DoorTimeoutHalts := by
  intro s hfree limit
  obtain ⟨hhigh, hnone⟩ := (arbiterFree_iff s).mp hfree
  rw [exec_doorCloseTimeout hhigh]
  refine ⟨fun h => by rw [doorTimeout_of_not h], fun hrun hpaused hphase hroom how hwf => ?_⟩
  rw [doorTimeout_of_due ((mixerRuns_iff s).mpr ⟨hrun, hpaused⟩) hphase,
    doorFault_of_room (s := doorMoved s) hnone hroom,
    settle_outside_run (s := burnerDrop (doorHalted (doorMoved s))) (by rw [burnerDrop_rc]; exact nofun)
      (by rw [burnerDrop_oe]; exact how)]
  have hmem : (followQueue (burnerDrop (doorHalted (doorMoved s)))).mem =
      (s.wr Win.partState (BitVec.ofNat 16 PartState.halted.code)).mem := by
    rw [followQueue_mem, burnerDrop_mem]
    rfl
  refine ⟨_, rfl, ?_, ?_, fun sc => ?_, ?_, ?_, ?_, ?_, ?_, ?_, ?_, ?_, ?_, fun b h0 h1 => ?_⟩
  · rw [followQueue_rc, burnerDrop_rc]; rfl
  · rw [State.rd_of_mem hmem, State.rd_wr_same hwf]; rfl
  · have hchan : (followQueue (burnerDrop (doorHalted (doorMoved s)))).chan sc = quietChannel (s.chan sc) := by
      unfold State.chan
      rw [followQueue_ch, burnerDrop_ch]
      exact PerScale.get_map _ _ _
    rw [hchan]
    exact ⟨rfl, rfl, rfl, rfl⟩
  · rw [followQueue_bit, burnerDrop_bit]; rfl
  · rw [followQueue_bit, burnerDrop_bit]; rfl
  · rw [followQueue_bit, burnerDrop_bit]; rfl
  · rw [followQueue_mixer, burnerDrop_mixer]; rfl
  · rw [followQueue_burner]; exact burnerDrop_unlit _
  · rw [followQueue_nu, burnerDrop_nu]; rfl
  · rw [followQueue_co, burnerDrop_co]; rfl
  · rw [followQueue_oe, burnerDrop_oe]; rfl
  · rw [followQueue_inp, burnerDrop_inp]; rfl
  · rw [State.byteAt_of_mem hmem, State.byteAt_wr_other hwf _ h0 h1]

end Sys2Proof.Machine
end

section
/-! The order engine's layer: guarded sequences with the arbiter free, and the queue's operations (R2, R19 to
R27). -/

namespace Sys2Proof.Machine

/-! ### Words written in order -/

theorem writeWords_append (l r : List (Nat × Word)) : ∀ s : State,
    writeWords (l ++ r) s = writeWords r (writeWords l s) := by
  induction l with
  | nil => intro s; rfl
  | cons x l ih => intro s; exact ih _

theorem writeWords_wf (l : List (Nat × Word)) : ∀ {s : State}, Memory.wf s.mem = true →
    Memory.wf (writeWords l s).mem = true := by
  induction l with
  | nil => intro s h; exact h
  | cons x l ih => intro s h; exact ih (State.wr_wf h x.1 x.2)

/-- A byte apart from all words written stays. -/
theorem byteAt_writeWords_other (l : List (Nat × Word)) : ∀ {s : State} {b : Nat}, Memory.wf s.mem = true →
    (∀ x ∈ l, b < x.1 ∨ x.1 + 2 ≤ b) → (writeWords l s).byteAt b = s.byteAt b := by
  induction l with
  | nil => intro s b _ _; rfl
  | cons x l ih =>
    intro s b h hx
    have hne := hx x (List.mem_cons_self ..)
    unfold writeWords
    rw [ih (State.wr_wf h x.1 x.2) fun y hy => hx y (List.mem_cons_of_mem _ hy),
      State.byteAt_wr_other h _ (by omega) (by omega)]

@[simp] theorem writeWords_port (l : List (Nat × Word)) (s : State) : (writeWords l s).port = s.port := by
  rw [writeWords_frame]

theorem State.rd32_of_mem {s t : State} (h : t.mem = s.mem) (a : Nat) : t.rd32 a = s.rd32 a := by
  unfold State.rd32
  rw [State.rd_of_mem h, State.rd_of_mem h]

/-! ### A guarded sequence with no host access waiting -/

/-- A guard of a Close or Ticket sequence passes exactly if the slot reads TAKEN or ACTIVE with the number. -/
theorem guardOk_taken_active (number : Word) (g : Word × Word) :
    guardOk [slotTaken, slotActive] number g = true ↔ (g.1 = 2 ∨ g.1 = 3) ∧ g.2 = number := by
  unfold guardOk slotTaken slotActive
  simp only [List.contains_cons, List.contains_nil, Bool.or_false, Bool.and_eq_true, Bool.or_eq_true,
    beq_iff_eq]

theorem guardedSeq_of_fail {s : State} (hnone : s.port.waiting = []) {n : Nat} {states : List Word}
    {number : Word} (h : guardOk states number (guardRead n s) = false) (between : List (Nat × Word))
    (last : Nat × Word) : guardedSeq n states number between last s = (s, some (guardRead n s)) := by
  unfold guardedSeq
  simp only [gap_of_none hnone, h, Bool.false_eq_true, if_false]

/-- Both guards pass where the first does and no write between reaches the slot's state and number. -/
theorem guardedSeq_of_pass {s : State} (hnone : s.port.waiting = []) (hwf : Memory.wf s.mem = true) {n : Nat}
    {states : List Word} {number : Word} (h : guardOk states number (guardRead n s) = true)
    {between : List (Nat × Word)} (hb : ∀ x ∈ between, Win.slot n + 4 ≤ x.1) (last : Nat × Word) :
    guardedSeq n states number between last s = (writeWords (between ++ [last]) s, none) := by
  have hread : guardRead n (writeWords between s) = guardRead n s := by
    unfold guardRead Win.slotState Win.slotNumber
    rw [rd_writeWords_other between hwf (fun x hx => .inl (by have := hb x hx; omega)),
      rd_writeWords_other between hwf (fun x hx => .inl (by have := hb x hx; omega))]
  have hgap : gap (writeWords between s) = writeWords between s :=
    gap_of_none (by rw [writeWords_port]; exact hnone)
  unfold guardedSeq
  simp only [gap_of_none hnone, h, putAll_of_none between hnone, hgap, hread, if_true]
  rw [writeWords_append]
  rfl

/-- With no write between, one guard stands for both. -/
theorem guardedSeq_of_pass_nil {s : State} (hnone : s.port.waiting = []) {n : Nat} {states : List Word}
    {number : Word} (h : guardOk states number (guardRead n s) = true) (last : Nat × Word) :
    guardedSeq n states number [] last s = (s.wr last.1 last.2, none) := by
  unfold guardedSeq putAll
  simp only [gap_of_none hnone, h, if_true]

/-! ### The queue -/

theorem isOrder_iff (slot : Nat) (number : Word) (o : Order) :
    isOrder slot number o = true ↔ o.slot = slot ∧ o.number = number := by
  unfold isOrder; simp

theorem isOrder_of_find {s : State} {slot : Nat} {number : Word} {o : Order}
    (h : findOrder s slot number = some o) : o.slot = slot ∧ o.number = number :=
  (isOrder_iff _ _ _).mp (List.find?_some h)

/-- An order keeps its place in the queue under an update that keeps its slot and number. -/
theorem findOrder_modOrder {slot : Nat} {number : Word} {f : Order → Order} {s : State}
    (hf : ∀ o, isOrder slot number (f o) = isOrder slot number o) :
    findOrder (modOrder slot number f s) slot number = (findOrder s slot number).map f := by
  unfold findOrder modOrder
  dsimp only
  induction s.oe.queue with
  | nil => rfl
  | cons o q ih =>
    rw [List.map_cons, List.find?_cons, List.find?_cons]
    cases h : isOrder slot number o with
    | true => simp [hf, h]
    | false => simpa [h] using ih

/-- No order is found once those of the slot and number have left. -/
theorem find_filter_isOrder (slot : Nat) (number : Word) (q : List Order) :
    (q.filter fun o => !isOrder slot number o).find? (isOrder slot number) = none := by
  rw [List.find?_eq_none]
  intro o ho
  have := (List.mem_filter.mp ho).2
  simpa using this

theorem filter_modOrder {slot : Nat} {number : Word} {f : Order → Order}
    (hf : ∀ o, isOrder slot number (f o) = isOrder slot number o) (q : List Order) :
    (q.map fun o => if isOrder slot number o then f o else o).filter (fun o => !isOrder slot number o) =
      q.filter fun o => !isOrder slot number o := by
  induction q with
  | nil => rfl
  | cons o q ih =>
    cases h : isOrder slot number o with
    | true => simp [hf, h, ih]
    | false => simp [h, ih]

/-! ### An order leaves the queue (R24, R26) -/

/-- The stages as an order leaves the queue. -/
def loseIn (slot : Nat) (number : Word) (co : Coord) : Coord :=
  { co with weigh := co.weigh.map (loseOrder slot number), mix := co.mix.map (loseOrder slot number) }

theorem loseOrder_loseOrder (slot : Nat) (number : Word) (b : Batch) :
    loseOrder slot number (loseOrder slot number b) = loseOrder slot number b := by
  unfold loseOrder
  by_cases h : ofOrder slot number b = true
  · rw [if_pos h, if_neg]
    unfold ofOrder
    simp
  · rw [if_neg h]
    exact if_neg h

theorem loseIn_loseIn (slot : Nat) (number : Word) (co : Coord) :
    loseIn slot number (loseIn slot number co) = loseIn slot number co := by
  have hcomp : loseOrder slot number ∘ loseOrder slot number = loseOrder slot number :=
    funext (loseOrder_loseOrder slot number)
  unfold loseIn
  dsimp only
  rw [Option.map_map, Option.map_map, hcomp]

/-- What leaves with an order, before the heat controller follows. -/
def orderLeaves (slot : Nat) (number : Word) (s : State) : State :=
  { s with
    oe.queue := s.oe.queue.filter (fun o => !isOrder slot number o)
    oe.lookOwed := s.oe.lookOwed + 1
    co := loseIn slot number s.co }

theorem dropOrder_eq (slot : Nat) (number : Word) (s : State) :
    dropOrder slot number s = followQueue (orderLeaves slot number s) := rfl

theorem dropOrder_frame (slot : Nat) (number : Word) (s : State) : dropOrder slot number s =
    { orderLeaves slot number s with heat := (dropOrder slot number s).heat } := by
  rw [dropOrder_eq, followQueue_frame]

theorem findOrder_dropOrder (slot : Nat) (number : Word) (s : State) :
    findOrder (dropOrder slot number s) slot number = none := by
  rw [dropOrder_frame]
  exact find_filter_isOrder _ _ _

/-! ### Seizure and closing -/

theorem seizeOrder_of_room {s : State} {o : Order} (hheld : o.held = []) (hroom : s.nu.list.length < 16)
    (batch : Nat) (d : Detail) : seizeOrder o batch d s =
      dropOrder o.slot o.number { s with nu.list := s.nu.list ++ [⟨o.slot, o.number, batch, d⟩] } := by
  unfold seizeOrder
  rw [hheld, submit_of_room (by exact hroom)]
  rfl

theorem closeWrites_above (o : Order) (outcome : OrderOutcome) (s : State) :
    ∀ x ∈ closeWrites o outcome s, Win.slot o.slot + 4 ≤ x.1 := by
  intro x hx
  simp only [closeWrites, stampWrites, Win.slotOutcome, Win.slotRefusal, Win.slotClosedAt, List.mem_append,
    List.mem_cons, List.not_mem_nil, or_false] at hx
  rcases hx with (rfl | rfl) | rfl | rfl <;> dsimp only <;> omega

/-- The slot reads TAKEN or ACTIVE with the order's number. -/
def slotKept (slot : Nat) (number : Word) (s : State) : Prop :=
  (s.rd (Win.slot slot) = 2 ∨ s.rd (Win.slot slot) = 3) ∧ s.rd (Win.slot slot + 2) = number

theorem guardOk_of_kept {slot : Nat} {number : Word} {s : State} (h : slotKept slot number s) :
    guardOk [slotTaken, slotActive] number (guardRead slot s) = true :=
  (guardOk_taken_active _ _).mpr h

theorem guardOk_of_not_kept {slot : Nat} {number : Word} {s : State} (h : ¬slotKept slot number s) :
    guardOk [slotTaken, slotActive] number (guardRead slot s) = false :=
  Bool.eq_false_iff.mpr (mt (guardOk_taken_active _ _).mp h)

/-- The words a Close sequence writes, its closing write last. -/
def closedWords (o : Order) (outcome : OrderOutcome) (s : State) : List (Nat × Word) :=
  closeWrites o outcome s ++ [(Win.slot o.slot + Win.slotState, slotClosed)]

/-- An order closed in a kept slot: its words, ORDER CLOSED, and the order leaves the queue (R24). -/
def orderClosed (o : Order) (outcome : OrderOutcome) (s : State) : State :=
  dropOrder o.slot o.number { writeWords (closedWords o outcome s) s with
    nu.list := s.nu.list ++ [⟨o.slot, o.number, 0, .orderClosed o.load outcome .none o.tickets⟩] }

theorem closeOrder_of_kept {s : State} {o : Order} (hnone : s.port.waiting = [])
    (hwf : Memory.wf s.mem = true) (hkept : slotKept o.slot o.number s) (hroom : s.nu.list.length < 16)
    (outcome : OrderOutcome) : closeOrder o outcome s = orderClosed o outcome s := by
  unfold closeOrder orderClosed
  rw [guardedSeq_of_pass hnone hwf (guardOk_of_kept hkept) (closeWrites_above o outcome s)]
  dsimp only
  rw [← closedWords, writeWords_frame, submit_of_room (by exact hroom)]

theorem orderClosed_frame (o : Order) (outcome : OrderOutcome) (s : State) : orderClosed o outcome s = { s with
    mem := (writeWords (closedWords o outcome s) s).mem
    oe.queue := s.oe.queue.filter (fun x => !isOrder o.slot o.number x)
    oe.lookOwed := s.oe.lookOwed + 1
    co := loseIn o.slot o.number s.co
    nu.list := s.nu.list ++ [⟨o.slot, o.number, 0, .orderClosed o.load outcome .none o.tickets⟩]
    heat := (orderClosed o outcome s).heat } := by
  unfold orderClosed
  rw [dropOrder_frame, writeWords_frame]
  rfl

theorem orderClosed_mem (o : Order) (outcome : OrderOutcome) (s : State) :
    (orderClosed o outcome s).mem = (writeWords (closedWords o outcome s) s).mem := by
  rw [orderClosed_frame]

/-- A slot not kept is seized: SLOT SEIZED (CLOSE), and the order leaves (R27). -/
theorem closeOrder_of_not_kept {s : State} {o : Order} (hnone : s.port.waiting = [])
    (hkept : ¬slotKept o.slot o.number s) (hheld : o.held = []) (hroom : s.nu.list.length < 16)
    (outcome : OrderOutcome) : closeOrder o outcome s = dropOrder o.slot o.number { s with
        nu.list := s.nu.list ++ [⟨o.slot, o.number, 0, .slotSeizedClose (s.rd (Win.slot o.slot))
          (s.rd (Win.slot o.slot + 2)) outcome⟩] } := by
  unfold closeOrder
  rw [guardedSeq_of_fail hnone (guardOk_of_not_kept hkept)]
  exact seizeOrder_of_room hheld hroom _ _

/-- What a closed slot reads, and that no other byte changes. -/
theorem closedWords_rd {s : State} (hwf : Memory.wf s.mem = true) (o : Order) (outcome : OrderOutcome) :
    let a := Win.slot o.slot
    let u := writeWords (closedWords o outcome s) s
    u.rd a = 4 ∧ u.rd (a + 0x40) = BitVec.ofNat 16 outcome.code ∧ u.rd (a + 0x42) = 0 ∧
      u.rd32 (a + 0x4C) = s.seconds := by
  have hapart : (closedWords o outcome s).Pairwise wordsApart := by
    simp [closedWords, closeWrites, stampWrites, wordsApart, Win.slotOutcome, Win.slotRefusal,
      Win.slotClosedAt, Win.slotState]
  have hrd {a : Nat} {w : Word} (h : (a, w) ∈ closedWords o outcome s) :
      (writeWords (closedWords o outcome s) s).rd a = w := rd_writeWords_of_mem _ hwf hapart h
  dsimp only
  refine ⟨hrd (by simp [closedWords, Win.slotState, slotClosed]), hrd (by simp [closedWords, closeWrites,
    Win.slotOutcome]), hrd (by simp [closedWords, closeWrites, Win.slotRefusal]), ?_⟩
  have hlow := hrd (a := Win.slot o.slot + 0x4C) (w := DWord.lowWord s.seconds)
    (by simp [closedWords, closeWrites, stampWrites, Win.slotClosedAt])
  have hhigh := hrd (a := Win.slot o.slot + 0x4C + 2) (w := DWord.highWord s.seconds)
    (by simp [closedWords, closeWrites, stampWrites, Win.slotClosedAt])
  unfold State.rd32
  rw [hlow, hhigh, highWord_append_lowWord]

theorem closedWords_rd_other {s : State} (hwf : Memory.wf s.mem = true) (o : Order) (outcome : OrderOutcome)
    {b : Nat} (h0 : Win.slot o.slot + 2 ≤ b)
    (h1 : b + 2 ≤ Win.slot o.slot + 0x40 ∨ Win.slot o.slot + 0x44 ≤ b)
    (h2 : b + 2 ≤ Win.slot o.slot + 0x4C ∨ Win.slot o.slot + 0x50 ≤ b) :
    (writeWords (closedWords o outcome s) s).rd b = s.rd b := by
  refine rd_writeWords_other _ hwf fun x hx => ?_
  simp only [closedWords, closeWrites, stampWrites, Win.slotOutcome, Win.slotRefusal, Win.slotClosedAt,
    Win.slotState, List.mem_append, List.mem_cons, List.not_mem_nil, or_false] at hx
  rcases hx with ((rfl | rfl) | rfl | rfl) | rfl <;> dsimp only <;> omega

theorem closedWords_byteAt {s : State} (hwf : Memory.wf s.mem = true) (o : Order) (outcome : OrderOutcome)
    {b : Nat} (h0 : b < Win.slot o.slot ∨ Win.slot o.slot + 2 ≤ b)
    (h1 : b < Win.slot o.slot + 0x40 ∨ Win.slot o.slot + 0x44 ≤ b)
    (h2 : b < Win.slot o.slot + 0x4C ∨ Win.slot o.slot + 0x50 ≤ b) :
    (writeWords (closedWords o outcome s) s).byteAt b = s.byteAt b := by
  refine byteAt_writeWords_other _ hwf fun x hx => ?_
  simp only [closedWords, closeWrites, stampWrites, Win.slotOutcome, Win.slotRefusal, Win.slotClosedAt,
    Win.slotState, List.mem_append, List.mem_cons, List.not_mem_nil, or_false] at hx
  rcases hx with ((rfl | rfl) | rfl | rfl) | rfl <;> dsimp only <;> omega

end Sys2Proof.Machine
end

section
/-! Tickets (R25, R67, R68): what a Ticket sequence writes and what follows it. -/

namespace Sys2Proof.Machine

/-! ### The words of a ticket record -/

theorem writeWords_writesAt (ws : List Word) : ∀ (a : Nat) (s : State),
    writeWords (writesAt a ws) s = s.wrWords a ws := by
  induction ws with
  | nil => intro a s; rfl
  | cons w ws ih => intro a s; exact ih (a + 2) _

theorem writesAt_above (ws : List Word) : ∀ (a : Nat), ∀ x ∈ writesAt a ws, a ≤ x.1 := by
  induction ws with
  | nil => intro a x hx; cases hx
  | cons w ws ih =>
    intro a x hx
    rcases List.mem_cons.mp hx with rfl | hx
    · exact Nat.le_refl _
    · have := ih (a + 2) x hx
      omega

theorem ticketWords_length (t : Ticket) : (ticketWords t).length = 32 := by
  have hactuals : (ticketActuals t.comps).length = 11 := by
    unfold ticketActuals
    rw [List.length_take, List.length_append, List.length_replicate]
    omega
  have houtcomes : (ticketOutcomes t.comps).length = 20 := by
    unfold ticketOutcomes
    rw [List.length_take, List.length_append, List.length_replicate]
    omega
  unfold ticketWords
  rw [List.length_append, List.length_append, hactuals, wordsOfBytes_length, houtcomes]
  rfl

/-- The words of a Ticket sequence, its closing write last (R2). -/
def ticketSeq (o : Order) (t : Ticket) : List (Nat × Word) :=
  writesAt (Win.ticket o.slot t.index) (ticketWords t) ++
    [(Win.slot o.slot + Win.slotTickets, natWord (o.tickets + 1))]

theorem ticket_above (n k : Nat) : Win.slot n + 128 ≤ Win.ticket n k := by
  unfold Win.ticket; omega

theorem ticketSeq_above (o : Order) (t : Ticket) :
    ∀ x ∈ writesAt (Win.ticket o.slot t.index) (ticketWords t), Win.slot o.slot + 4 ≤ x.1 := by
  intro x hx
  have h0 := writesAt_above _ _ x hx
  have h1 := ticket_above o.slot t.index
  omega

theorem writeWords_ticketSeq (o : Order) (t : Ticket) (s : State) : writeWords (ticketSeq o t) s =
    (s.wrWords (Win.ticket o.slot t.index) (ticketWords t)).wr (Win.slot o.slot + 0x46)
      (natWord (o.tickets + 1)) := by
  unfold ticketSeq
  rw [writeWords_append, writeWords_writesAt]
  rfl

section
variable {s : State} (hwf : Memory.wf s.mem = true) (o : Order) (t : Ticket)
include hwf

theorem ticketSeq_rd_record {k : Nat} (hk : k < 32) :
    (writeWords (ticketSeq o t) s).rd (Win.ticket o.slot t.index + 2 * k) = (ticketWords t).getD k 0 := by
  have habove := ticket_above o.slot t.index
  rw [writeWords_ticketSeq, State.rd_wr_other (wrWords_wf _ _ hwf) _ (.inr (by omega)),
    rd_wrWords_inside _ hwf (by rw [ticketWords_length]; exact hk)]

theorem ticketSeq_rd_count :
    (writeWords (ticketSeq o t) s).rd (Win.slot o.slot + 0x46) = natWord (o.tickets + 1) := by
  rw [writeWords_ticketSeq, State.rd_wr_same (wrWords_wf _ _ hwf)]

theorem ticketSeq_byteAt {b : Nat}
    (h0 : b < Win.ticket o.slot t.index ∨ Win.ticket o.slot t.index + 64 ≤ b)
    (h1 : b ≠ Win.slot o.slot + 0x46) (h2 : b ≠ Win.slot o.slot + 0x47) :
    (writeWords (ticketSeq o t) s).byteAt b = s.byteAt b := by
  rw [writeWords_ticketSeq, State.byteAt_wr_other (wrWords_wf _ _ hwf) _ h1 h2,
    byteAt_wrWords_outside _ hwf (by rw [ticketWords_length]; exact h0)]

theorem ticketSeq_slotKept (number : Word) :
    slotKept o.slot number (writeWords (ticketSeq o t) s) ↔ slotKept o.slot number s := by
  have hother : ∀ x ∈ ticketSeq o t, Win.slot o.slot + 4 ≤ x.1 := by
    intro x hx
    rcases List.mem_append.mp hx with hx | hx
    · exact ticketSeq_above o t x hx
    · rw [List.mem_singleton.mp hx]
      exact Nat.add_le_add_left (by decide) _
  unfold slotKept
  rw [rd_writeWords_other _ hwf (fun x hx => .inl (by have := hother x hx; omega)),
    rd_writeWords_other _ hwf (fun x hx => .inl (by have := hother x hx; omega))]

end

/-! ### A ticket written -/

/-- An order with one more ticket. -/
def countTicket (t : Ticket) (o : Order) : Order :=
  { o with tickets := o.tickets + 1, finished := o.finished + 1
           abortedTickets := o.abortedTickets + if t.verdict = .aborted then 1 else 0 }

theorem isOrder_countTicket (slot : Nat) (number : Word) (t : Ticket) (o : Order) :
    isOrder slot number (countTicket t o) = isOrder slot number o := rfl

/-- A ticket written whole, BATCH DONE posted and the order counted, before the order's closing is tested. -/
def ticketWritten (o : Order) (t : Ticket) (s : State) : State :=
  modOrder o.slot o.number (countTicket t) { writeWords (ticketSeq o t) s with
    nu.list := s.nu.list ++
      [⟨o.slot, o.number, t.seq, .batchDone o.load t.index t.verdict t.flags (o.tickets + 1)⟩] }

theorem ticketWritten_frame (o : Order) (t : Ticket) (s : State) : ticketWritten o t s = { s with
    mem := (writeWords (ticketSeq o t) s).mem
    oe.queue := s.oe.queue.map fun x => if isOrder o.slot o.number x then countTicket t x else x
    nu.list := s.nu.list ++
      [⟨o.slot, o.number, t.seq, .batchDone o.load t.index t.verdict t.flags (o.tickets + 1)⟩] } := by
  unfold ticketWritten modOrder
  rw [writeWords_frame]

theorem ticketWritten_slotKept {s : State} (hwf : Memory.wf s.mem = true) (o : Order) (t : Ticket) :
    slotKept o.slot o.number (ticketWritten o t s) ↔ slotKept o.slot o.number s :=
  ticketSeq_slotKept hwf o t o.number

theorem findOrder_ticketWritten {s : State} {o : Order} (hfind : findOrder s o.slot o.number = some o)
    (t : Ticket) : findOrder (ticketWritten o t s) o.slot o.number = some (countTicket t o) := by
  unfold ticketWritten
  rw [findOrder_modOrder (fun x => isOrder_countTicket _ _ t x), writeWords_frame]
  exact congrArg (Option.map _) hfind

theorem writeTicket_of_kept {s : State} {o : Order} (hnone : s.port.waiting = [])
    (hwf : Memory.wf s.mem = true) (hkept : slotKept o.slot o.number s) (hroom : s.nu.list.length < 16)
    (t : Ticket) : writeTicket o t s = closeTest o.slot o.number (ticketWritten o t s) := by
  unfold writeTicket
  rw [guardedSeq_of_pass hnone hwf (guardOk_of_kept hkept) (ticketSeq_above o t)]
  dsimp only
  rw [← ticketSeq, ticketWritten, writeWords_frame, submit_of_room (by exact hroom)]
  rfl

theorem writeTicket_of_not_kept {s : State} {o : Order} (hnone : s.port.waiting = [])
    (hkept : ¬slotKept o.slot o.number s) (hheld : o.held = []) (hroom : s.nu.list.length < 16)
    (t : Ticket) : writeTicket o t s = dropOrder o.slot o.number { s with
      nu.list := s.nu.list ++ [⟨o.slot, o.number, t.seq, .slotSeizedTicket (s.rd (Win.slot o.slot))
        (s.rd (Win.slot o.slot + 2)) t⟩] } := by
  unfold writeTicket
  rw [guardedSeq_of_fail hnone (guardOk_of_not_kept hkept)]
  exact seizeOrder_of_room hheld hroom _ _

/-! ### The closing test (R24) -/

theorem closeTest_of_open {s : State} {slot : Nat} {number : Word}
    (h : ∀ o, findOrder s slot number = some o → closeOutcome o = none) : closeTest slot number s = s := by
  unfold closeTest
  cases hf : findOrder s slot number with
  | none => rfl
  | some o => simp only [h o hf]

theorem closeTest_of_done {s : State} {slot : Nat} {number : Word} {o : Order} {outcome : OrderOutcome}
    (hf : findOrder s slot number = some o) (hc : closeOutcome o = some outcome) (hp : s.rc.part ≠ .stopped) :
    closeTest slot number s = closeOrder o outcome s := by
  unfold closeTest
  simp only [hf, hc, hp, if_false]

theorem closeOutcome_of_under_way {o : Order} (hs : o.started ≠ 0) (hf : o.finished < o.started)
    (hc : o.started ≤ o.count) : closeOutcome o = none := by
  unfold closeOutcome
  rw [if_neg hs, if_neg (by omega), if_neg (by omega)]

theorem closeOutcome_of_more {o : Order} (hs : o.started ≠ 0) (hf : o.finished = o.started)
    (hc : o.started < o.count) (hl : o.level = .none) : closeOutcome o = none := by
  unfold closeOutcome
  rw [if_neg hs, if_neg, if_neg (by omega)]
  rintro ⟨-, ⟨hlevel, -⟩ | ⟨hcount, -⟩⟩
  · exact hlevel hl
  · omega

/-- All batches that started are finished, and no more are to start. -/
theorem closeOutcome_of_last {o : Order} (hs : o.started ≠ 0) (hf : o.finished = o.started)
    (hc : o.started ≤ o.count) (hl : o.level ≠ .none ∨ o.started = o.count) : closeOutcome o =
      some (if o.started < o.count ∨ 0 < o.abortedTickets then .partialDone else .complete) := by
  unfold closeOutcome
  rw [if_neg hs]
  by_cases hlt : o.started < o.count
  · have hlevel : o.level ≠ .none := hl.resolve_right (by omega)
    rw [if_pos ⟨hf, .inl ⟨hlevel, hlt⟩⟩, if_pos (.inl hlt)]
  · by_cases ha : 0 < o.abortedTickets
    · rw [if_pos ⟨hf, .inr ⟨by omega, ha⟩⟩, if_pos (.inr ha)]
    · rw [if_neg (by omega), if_pos (by omega), if_neg (by omega)]

/-! ### A ticket handed over -/

theorem releaseHeld_of_empty {slot : Nat} {number : Word} {s : State}
    (h : ∀ o, findOrder s slot number = some o → o.held = []) (n : Nat) : releaseHeld slot number n s = s := by
  cases n with
  | zero => rfl
  | succ n =>
    unfold releaseHeld
    cases hf : findOrder s slot number with
    | none => rfl
    | some o => simp only [h o hf]

theorem handTicket_of_unqueued {s : State} {left : Bool} {t : Ticket}
    (h : left = true ∨ findOrder s t.slot t.order = none) (hroom : s.nu.list.length < 16) :
    handTicket left t s =
      { s with nu.list := s.nu.list ++ [⟨t.slot, t.order, t.seq, .slotSeizedNotQueued t⟩] } := by
  have hnone : ticketOrder left t s = none := by
    unfold ticketOrder
    rcases h with h | h
    · rw [h]; rfl
    · rw [h, ite_self]
  unfold handTicket
  rw [hnone]
  exact submit_of_room hroom _

/-- With the mixer stage empty the ticket is written at once. -/
theorem handTicket_of_queued {s : State} {t : Ticket} {o : Order} (hf : findOrder s t.slot t.order = some o)
    (hmix : s.co.mix = none) :
    handTicket false t s = releaseHeld t.slot t.order 2 (writeTicket o t s) := by
  have hlower : lowerInMixer s t = false := by unfold lowerInMixer; rw [hmix]
  unfold handTicket ticketOrder
  simp only [Bool.false_eq_true, if_false, hf, hlower]

/-! ### What a ticket does not reach, whatever the queue holds -/

/-- What of the heat controller no work of the order engine reaches: the burner and the tanks' latches. -/
def heatMarks (h : Heat) : Burner × Bool × Bool := (h.burner, h.bt1.latch, h.bt2.latch)

theorem setTank_heatMarks {h : Heat} {t : Tank} {k : TankState} (hk : k.latch = (tankOfHeat h t).latch) :
    heatMarks (setTank h t k) = heatMarks h := by
  cases t <;> simp only [heatMarks, setTank] <;> rw [hk] <;> rfl

theorem heaterBetween_latch (sp : Int) (hyst : Nat) (t : Int) (k : TankState) :
    (heaterBetween sp hyst t k).latch = k.latch := by
  unfold heaterBetween heaterCases
  repeat' split
  all_goals rfl

theorem testTankBetween_heatMarks (t : Tank) (s : State) :
    heatMarks (testTankBetween t s).heat = heatMarks s.heat := by
  unfold testTankBetween
  split
  · split
    · exact setTank_heatMarks (heaterBetween_latch _ _ _ _)
    · rfl
  · rfl

theorem followTank_heatMarks (t : Tank) (s : State) : heatMarks (followTank t s).heat = heatMarks s.heat := by
  unfold followTank
  dsimp only
  split
  · rfl
  · rw [testTankBetween_heatMarks]
    exact setTank_heatMarks rfl

theorem followQueue_heatMarks (s : State) : heatMarks (followQueue s).heat = heatMarks s.heat := by
  unfold followQueue
  rw [followTank_heatMarks, followTank_heatMarks]
  unfold followDryer
  repeat' split
  all_goals rfl

/-- What of a state the work of the order engine on an order leaves as it is, beside the stages. -/
def besideQueue (s : State) :=
  (s.mixer, s.ch, s.rc, heatMarks s.heat, s.inp, s.oe.walker, s.oe.pos, s.seconds, s.pending)

theorem besideQueue_iff {s t : State} : besideQueue t = besideQueue s ↔
    t.mixer = s.mixer ∧ t.ch = s.ch ∧ t.rc = s.rc ∧ heatMarks t.heat = heatMarks s.heat ∧ t.inp = s.inp ∧
      t.oe.walker = s.oe.walker ∧ t.oe.pos = s.oe.pos ∧ t.seconds = s.seconds ∧ t.pending = s.pending := by
  simp only [besideQueue, Prod.mk.injEq]

/-- Between two states of the order engine's work on an order, the stages at most lose the order. -/
def QueueSide (slot : Nat) (number : Word) (s t : State) : Prop :=
  besideQueue t = besideQueue s ∧ t.heat.permit = s.heat.permit ∧ (t.co = s.co ∨ t.co = loseIn slot number s.co)

section
variable {slot : Nat} {number : Word}

theorem QueueSide.of_eq {s t : State} (h : besideQueue t = besideQueue s) (hheat : t.heat = s.heat)
    (hco : t.co = s.co) : QueueSide slot number s t := ⟨h, congrArg Heat.permit hheat, .inl hco⟩

theorem QueueSide.refl (s : State) : QueueSide slot number s s := .of_eq rfl rfl rfl

theorem QueueSide.trans {s t u : State} (h : QueueSide slot number s t) (k : QueueSide slot number t u) :
    QueueSide slot number s u := by
  obtain ⟨hb, hp, hco⟩ := h
  obtain ⟨kb, kp, kco⟩ := k
  refine ⟨kb.trans hb, kp.trans hp, ?_⟩
  rcases hco with hco | hco <;> rcases kco with kco | kco <;> rw [kco, hco]
  · exact .inl rfl
  · exact .inr rfl
  · exact .inr rfl
  · exact .inr (loseIn_loseIn _ _ _)

theorem submit_queueSide (n : Notice) (s : State) : QueueSide slot number s (submit n s) :=
  .of_eq (by simp [besideQueue]) (submit_heat _ _) (submit_co _ _)

theorem modOrder_queueSide (n : Nat) (w : Word) (f : Order → Order) (s : State) :
    QueueSide slot number s (modOrder n w f s) := .of_eq rfl rfl rfl

theorem dropOrder_queueSide (s : State) : QueueSide slot number s (dropOrder slot number s) := by
  have hmarks : heatMarks (dropOrder slot number s).heat = heatMarks s.heat :=
    followQueue_heatMarks (orderLeaves slot number s)
  have hpermit : (dropOrder slot number s).heat.permit = s.heat.permit :=
    followQueue_permit (orderLeaves slot number s)
  rw [dropOrder_frame]
  exact ⟨besideQueue_iff.mpr ⟨rfl, rfl, rfl, hmarks, rfl, rfl, rfl, rfl, rfl⟩, hpermit, .inr rfl⟩

theorem seizeUnqueued_foldl_queueSide (l : List Ticket) : ∀ s : State,
    QueueSide slot number s (l.foldl (fun s t => seizeUnqueued t s) s) := by
  induction l with
  | nil => exact .refl
  | cons t l ih => exact fun s => .trans (submit_queueSide _ s) (ih _)

theorem guardedSeq_queueSide (n : Nat) (sts : List Word) (k : Word) (b : List (Nat × Word)) (l : Nat × Word)
    (s : State) : QueueSide slot number s (guardedSeq n sts k b l s).1 :=
  .of_eq (by simp [besideQueue]) (guardedSeq_heat ..) (guardedSeq_co ..)

end

theorem seizeOrder_queueSide (o : Order) (n : Nat) (d : Detail) (s : State) :
    QueueSide o.slot o.number s (seizeOrder o n d s) :=
  ((submit_queueSide _ s).trans (dropOrder_queueSide _)).trans (seizeUnqueued_foldl_queueSide _ _)

theorem closeOrder_queueSide (o : Order) (outcome : OrderOutcome) (s : State) :
    QueueSide o.slot o.number s (closeOrder o outcome s) := by
  unfold closeOrder
  dsimp only
  refine .trans (guardedSeq_queueSide o.slot [slotTaken, slotActive] o.number (closeWrites o outcome s)
    (Win.slot o.slot + Win.slotState, slotClosed) s) ?_
  split
  · exact (submit_queueSide _ _).trans (dropOrder_queueSide _)
  · exact seizeOrder_queueSide _ _ _ _

theorem closeTest_queueSide (slot : Nat) (number : Word) (s : State) :
    QueueSide slot number s (closeTest slot number s) := by
  unfold closeTest
  split
  · exact .refl s
  · next o ho =>
    split
    · exact .refl s
    · split
      · exact .refl s
      · obtain ⟨rfl, rfl⟩ := isOrder_of_find ho
        exact closeOrder_queueSide _ _ _

theorem writeTicket_queueSide (o : Order) (t : Ticket) (s : State) :
    QueueSide o.slot o.number s (writeTicket o t s) := by
  unfold writeTicket
  dsimp only
  refine .trans (guardedSeq_queueSide o.slot [slotTaken, slotActive] o.number
    (writesAt (Win.ticket o.slot t.index) (ticketWords t))
    (Win.slot o.slot + Win.slotTickets, natWord (o.tickets + 1)) s) ?_
  split
  · exact seizeOrder_queueSide _ _ _ _
  · exact ((submit_queueSide _ _).trans (modOrder_queueSide _ _ _ _)).trans (closeTest_queueSide _ _ _)

theorem releaseHeld_queueSide (slot : Nat) (number : Word) (n : Nat) : ∀ s : State,
    QueueSide slot number s (releaseHeld slot number n s) := by
  induction n with
  | zero => exact .refl
  | succ n ih =>
    intro s
    unfold releaseHeld
    split
    · exact .refl s
    · next o ho =>
      obtain ⟨rfl, rfl⟩ := isOrder_of_find ho
      split
      · exact .refl s
      · split
        · exact .refl s
        · next t r _ _ =>
          have hwrite : QueueSide o.slot o.number s (writeTicket { o with held := r } t
              (modOrder o.slot o.number (fun _ => { o with held := r }) s)) :=
            (modOrder_queueSide _ _ _ s).trans (writeTicket_queueSide { o with held := r } _ _)
          exact hwrite.trans (ih _)

theorem handTicket_queueSide (left : Bool) (t : Ticket) (s : State) :
    QueueSide t.slot t.order s (handTicket left t s) := by
  unfold handTicket
  split
  · exact submit_queueSide _ s
  · next o ho =>
    have hfind : findOrder s t.slot t.order = some o := by
      unfold ticketOrder at ho
      split at ho
      · cases ho
      · exact ho
    split
    · exact modOrder_queueSide _ _ _ s
    · refine .trans ?_ (releaseHeld_queueSide _ _ _ _)
      obtain ⟨hslot, hnumber⟩ := isOrder_of_find hfind
      rw [← hslot, ← hnumber]
      exact writeTicket_queueSide o t s

end Sys2Proof.Machine
end

section
/-! DOOR_CLOSED (O43): the end of a batch's cycle and of a clear. -/

namespace Sys2Proof.Machine

theorem leavePhase_mixer (s : State) : (leavePhase s).mixer =
    { s.mixer with cmPosted := (leavePhase s).mixer.cmPosted } := by
  unfold leavePhase
  split
  · unfold postMark; rw [submit_mixer]
  · rfl

/-! ### The door of a batch has closed (R127) -/

/-- The mixer's cycle ended, the ticket still to be handed over. -/
def cycleEnded (s : State) : State :=
  let u := reportResults (mixResults s.mixer) (leavePhase s)
  { u with mixer.routeOut := none, mixer.batch := none, mixer.phase := .empty, mixer.clock := 0 }

theorem closeBatchDoor_eq (s : State) : closeBatchDoor s = endMixBatch (cycleEnded s) := rfl

theorem cycleEnded_unmarked {s : State} (h : s.mixer.cmPhase = none) : cycleEnded s = { s with
    mixer := { s.mixer with routeOut := none, batch := none, phase := .empty, clock := 0 }
    co.mix := s.co.mix.map fun b => { b with results := mixResults s.mixer } } := by
  unfold cycleEnded
  rw [leavePhase_unmarked (.inl h)]
  rfl

/-- What the end of a cycle leaves, whatever the queue and the stages hold. -/
theorem endMixBatch_frame (s : State) :
    besideQueue (endMixBatch s) = besideQueue s ∧
      (endMixBatch s).co.mix = none ∧ (endMixBatch s).co.counter = s.co.counter ∧
      ((endMixBatch s).co.weigh = s.co.weigh ∨ ∃ b, s.co.mix = some b ∧
        (endMixBatch s).co.weigh = s.co.weigh.map (loseOrder b.slot b.order)) := by
  unfold endMixBatch
  cases hb : s.co.mix with
  | none => exact ⟨rfl, hb, rfl, .inl rfl⟩
  | some b =>
    obtain ⟨hbeside, -, hco⟩ :=
      handTicket_queueSide b.orderLeft (assembleTicket b s.seconds) { s with co.mix := none }
    refine ⟨hbeside, ?_⟩
    rcases hco with hco | hco <;> dsimp only <;> rw [hco]
    · exact ⟨rfl, rfl, .inl rfl⟩
    · exact ⟨rfl, rfl, .inr ⟨b, rfl, rfl⟩⟩

theorem cycleEnded_frame (s : State) :
    (cycleEnded s).mixer = { s.mixer with
        cmPosted := (leavePhase s).mixer.cmPosted, routeOut := none, batch := none, phase := .empty, clock := 0 } ∧
      (cycleEnded s).ch = s.ch ∧ (cycleEnded s).rc = s.rc ∧ (cycleEnded s).co = { s.co with
        mix := s.co.mix.map fun b => { b with results := mixResults s.mixer } } := by
  unfold cycleEnded reportResults
  dsimp only
  rw [leavePhase_mixer, leavePhase_co]
  exact ⟨rfl, leavePhase_ch s, leavePhase_rc s, rfl⟩

theorem closeBatchDoor_frame (s : State) :
    (closeBatchDoor s).mixer = { s.mixer with
        cmPosted := (leavePhase s).mixer.cmPosted, routeOut := none, batch := none, phase := .empty, clock := 0 } ∧
      (closeBatchDoor s).ch = s.ch ∧ (closeBatchDoor s).rc = s.rc ∧ (closeBatchDoor s).co.mix = none ∧
      (closeBatchDoor s).co.counter = s.co.counter ∧
      ((closeBatchDoor s).co.weigh = s.co.weigh ∨ ∃ b, s.co.mix = some b ∧
        (closeBatchDoor s).co.weigh = s.co.weigh.map (loseOrder b.slot b.order)) := by
  obtain ⟨hbeside, hmix, hcount, hweigh⟩ := endMixBatch_frame (cycleEnded s)
  obtain ⟨hm, hc, hr, -⟩ := besideQueue_iff.mp hbeside
  obtain ⟨km, kc, kr, kco⟩ := cycleEnded_frame s
  rw [kco] at hcount hweigh
  refine ⟨hm.trans km, hc.trans kc, hr.trans kr, hmix, hcount, hweigh.imp_right ?_⟩
  rintro ⟨b, hb, heq⟩
  obtain ⟨b', hb', rfl⟩ := Option.map_eq_some_iff.mp hb
  exact ⟨b', hb', heq⟩

/-- The state in which the ticket of the batch is handed over. -/
def ticketDue (s : State) : State :=
  { s with mixer := { s.mixer with routeOut := none, batch := none, phase := .empty, clock := 0 }
           co := { s.co with mix := none } }

theorem closeBatchDoor_ticket {s : State} {b : Batch} (hmark : s.mixer.cmPhase = none)
    (hb : s.co.mix = some b) : closeBatchDoor s =
      handTicket b.orderLeft (assembleTicket { b with results := mixResults s.mixer } s.seconds)
        (ticketDue s) := by
  rw [closeBatchDoor_eq, cycleEnded_unmarked hmark, hb]
  rfl

/-! ### Inputs and the next step -/

theorem exec_doorClosed {s : State} (h : s.port.resetLow = false) (a : Bool) :
    exec (.doorClosed a) s = .next (settle { s with inp.doorClosed := a }) :=
  congrArg _ (event_of_high (s := doorInput a s) h _)

/-- The door-closed input has gone active. -/
def doorShut (s : State) : State := { s with inp.doorClosed := true }

theorem nextAtOnce_doorShut {s : State} (hplain : plainRun s = true) (hphase : s.mixer.phase = .doorClosing)
    (hhold : s.mixer.clearHold = false) : nextAtOnce (doorShut s) = some (closeBatchDoor (doorShut s)) := by
  refine nextAtOnce_of_step (plainRun_congr (s := s) rfl rfl rfl rfl hplain) ?_
  unfold mixerStep
  have hphase' : (doorShut s).mixer.phase = .doorClosing := hphase
  have hhold' : (doorShut s).mixer.clearHold = false := hhold
  have hshut : (doorShut s).inp.doorClosed = true := rfl
  simp only [hphase', hhold', hshut, Bool.not_false, Bool.and_self, if_true]

theorem waiting_of_plain {s : State} (h : plainRun s = true) : s.port.waiting = [] := by
  obtain ⟨-, -, -, -, -, -, -, hfree⟩ := (plainRun_iff s).mp h
  exact ((arbiterFree_iff s).mp hfree).2

/-! ### The ticket at the end of a cycle -/

section
variable {s : State} {b : Batch} {o : Order} (hplain : plainRun s = true)
  (hphase : s.mixer.phase = .doorClosing) (hhold : s.mixer.clearHold = false) (hmark : s.mixer.cmPhase = none)
  (hb : s.co.mix = some b)
include hplain hphase hhold hmark hb

/-- The ticket that the end of this cycle assembles. -/
abbrev doorTicket (b : Batch) (s : State) : Ticket :=
  assembleTicket { b with results := mixResults s.mixer } s.seconds

theorem nextAtOnce_unqueued (hleft : b.orderLeft = true ∨ findOrder s b.slot b.order = none)
    (hroom : s.nu.list.length < 16) : nextAtOnce (doorShut s) = some { ticketDue (doorShut s) with
      nu.list := s.nu.list ++ [⟨b.slot, b.order, b.seq, .slotSeizedNotQueued (doorTicket b s)⟩] } := by
  rw [nextAtOnce_doorShut hplain hphase hhold, closeBatchDoor_ticket (s := doorShut s) hmark hb]
  exact congrArg some (handTicket_of_unqueued (s := ticketDue (doorShut s)) (t := doorTicket b s) hleft hroom)

variable (hleft : b.orderLeft = false) (hfind : findOrder s b.slot b.order = some o)
include hleft hfind

theorem nextAtOnce_queued : nextAtOnce (doorShut s) =
    some (releaseHeld b.slot b.order 2 (writeTicket o (doorTicket b s) (ticketDue (doorShut s)))) := by
  rw [nextAtOnce_doorShut hplain hphase hhold, closeBatchDoor_ticket (s := doorShut s) hmark hb, hleft]
  exact congrArg some (handTicket_of_queued (s := ticketDue (doorShut s)) (t := doorTicket b s) hfind rfl)

/-- A slot not kept: the order is seized with its ticket. -/
theorem nextAtOnce_seized (hheld : o.held = []) (hroom : s.nu.list.length < 16)
    (hkept : ¬slotKept b.slot b.order s) : nextAtOnce (doorShut s) = some
    (dropOrder b.slot b.order { ticketDue (doorShut s) with
      nu.list := s.nu.list ++ [⟨b.slot, b.order, b.seq,
        .slotSeizedTicket (s.rd (Win.slot b.slot)) (s.rd (Win.slot b.slot + 2)) (doorTicket b s)⟩] }) := by
  obtain ⟨hslot, hnumber⟩ := isOrder_of_find hfind
  rw [nextAtOnce_queued hplain hphase hhold hmark hb hleft hfind,
    writeTicket_of_not_kept (s := ticketDue (doorShut s)) (waiting_of_plain hplain)
      (by rw [hslot, hnumber]; exact hkept) hheld hroom, hslot, hnumber,
    releaseHeld_of_empty (fun x hx => by rw [findOrder_dropOrder] at hx; cases hx)]
  rfl

variable (hwf : Memory.wf s.mem = true) (hkept : slotKept b.slot b.order s)
include hwf hkept

/-- A kept slot with more batches to come: the ticket is written and the order stays (R25). -/
theorem nextAtOnce_ticketed (hheld : o.held = []) (hroom : s.nu.list.length < 16)
    (hopen : closeOutcome (countTicket (doorTicket b s) o) = none) :
    nextAtOnce (doorShut s) = some (ticketWritten o (doorTicket b s) (ticketDue (doorShut s))) := by
  obtain ⟨hslot, hnumber⟩ := isOrder_of_find hfind
  have hfound := findOrder_ticketWritten (s := ticketDue (doorShut s)) (o := o)
    (by rw [hslot, hnumber]; exact hfind) (doorTicket b s)
  rw [nextAtOnce_queued hplain hphase hhold hmark hb hleft hfind,
    writeTicket_of_kept (s := ticketDue (doorShut s)) (waiting_of_plain hplain) hwf
      (by rw [hslot, hnumber]; exact hkept) hroom,
    closeTest_of_open fun x hx => by rw [hfound] at hx; cases hx; exact hopen]
  rw [hslot, hnumber] at hfound
  rw [releaseHeld_of_empty fun x hx => by rw [hfound] at hx; cases hx; exact hheld]

/-- A kept slot with its last ticket: the ticket is written and the order closes (R24, R25). -/
theorem nextAtOnce_closed {outcome : OrderOutcome} (hroom : s.nu.list.length < 15)
    (hdone : closeOutcome (countTicket (doorTicket b s) o) = some outcome) :
    let t := ticketWritten o (doorTicket b s) (ticketDue (doorShut s))
    nextAtOnce (doorShut s) = some (orderClosed (countTicket (doorTicket b s) o) outcome t) := by
  intro t
  obtain ⟨hslot, hnumber⟩ := isOrder_of_find hfind
  have hfound : findOrder t o.slot o.number = some (countTicket (doorTicket b s) o) :=
    findOrder_ticketWritten (s := ticketDue (doorShut s)) (by rw [hslot, hnumber]; exact hfind) _
  have hframe : t = _ := ticketWritten_frame o (doorTicket b s) (ticketDue (doorShut s))
  have hrun : t.rc.part ≠ .stopped := by
    obtain ⟨hp, -⟩ := (plainRun_iff s).mp hplain
    rw [show t.rc = s.rc by rw [hframe]; rfl, hp]
    simp
  have hkept' : slotKept o.slot o.number t :=
    (ticketWritten_slotKept (s := ticketDue (doorShut s)) hwf o _).mpr (by rw [hslot, hnumber]; exact hkept)
  have hnone : t.port.waiting = [] := by
    rw [hframe]
    exact waiting_of_plain hplain
  have hwf' : Memory.wf t.mem = true := by
    rw [hframe]
    exact writeWords_wf _ hwf
  have hroom' : t.nu.list.length < 16 := by
    rw [hframe]
    change (s.nu.list ++ [_]).length < 16
    rw [List.length_append, List.length_singleton]
    omega
  rw [nextAtOnce_queued hplain hphase hhold hmark hb hleft hfind,
    writeTicket_of_kept (s := ticketDue (doorShut s)) (waiting_of_plain hplain) hwf
      (by rw [hslot, hnumber]; exact hkept) (by exact (by omega : s.nu.list.length < 16)),
    closeTest_of_done hfound hdone hrun,
    closeOrder_of_kept (o := countTicket (doorTicket b s) o) hnone hwf' hkept' hroom']
  rw [releaseHeld_of_empty fun x hx => ?_]
  rw [← hslot, ← hnumber] at hx
  exact absurd (hx.symm.trans (findOrder_dropOrder o.slot o.number _)) (by simp)

end

/-! ### A clear's door has closed (R134, R166) -/

theorem clearComplete_of_room {s : State} (hroom : s.nu.list.length < 16) : clearComplete s = { s with
    mixer := { s.mixer with suspect := false, routeOut := none, clearHold := false, phase := .empty, clock := 0 }
    rc := { s.rc with clearRequired := false, clearStep := .none }
    nu.list := s.nu.list ++
      [⟨255, 0, 0, .clearDone s.rc.clearRec.start s.rc.clearRec.ends s.rc.clearRec.began⟩] } :=
  submit_of_room (by exact hroom) _

theorem mixerStep_held {s : State} (hphase : s.mixer.phase = .doorClosing) (hhold : s.mixer.clearHold = true) :
    mixerStep s = none := by
  unfold mixerStep
  simp only [hphase, hhold, Bool.not_true, Bool.and_false, Bool.false_eq_true, if_false]

theorem clearNext_closed {s : State} (hstep : s.rc.clearStep = .mix) (hphase : s.mixer.phase = .doorClosing)
    (hshut : s.inp.doorClosed = true) : clearNext s = some (clearComplete s) := by
  unfold clearNext
  simp only [hstep, hphase, hshut, and_self, if_true]

theorem dryTestHere_of_none {s : State} (h : s.co.weigh = none) : dryTestHere s = false := by
  unfold dryTestHere; rw [h]

theorem exec_doorClosed_clear {s : State} (hhigh : s.port.resetLow = false) (hrun : s.rc.part = .run)
    (hstep : s.rc.clearStep = .mix) (hfin : s.rc.finishing = false) (how : s.oe.lookOwed = 0)
    (hweigh : s.co.weigh = none) (hphase : s.mixer.phase = .doorClosing) (hhold : s.mixer.clearHold = true)
    (hroom : s.nu.list.length < 16) :
    exec (.doorClosed true) s = .next (followQueue (clearComplete (doorShut s))) := by
  have hfirst : nextAtOnce (doorShut s) = some (clearComplete (doorShut s)) :=
    (nextAtOnce_clear (s := doorShut s) hrun (dryTestHere_of_none hweigh) (mixerStep_held hphase hhold)
      (by rw [show (doorShut s).rc.clearStep = .mix from hstep]; simp)
      (by rw [show (doorShut s).rc.clearStep = .mix from hstep]; simp)).trans (clearNext_closed hstep hphase rfl)
  have heq := clearComplete_of_room (s := doorShut s) hroom
  rw [exec_doorClosed hhigh]
  refine congrArg _ (settle_of_one hfirst ?_ (by rw [heq]; exact how))
  rw [heq]
  exact nextAtOnce_plain hrun (dryTestHere_of_none hweigh) (mixerStep_empty rfl) hfin rfl rfl

/-! ### The verdict of a batch (R64) -/

theorem batchReject_iff (b : Batch) : batchReject b = true ↔
    (∃ e ∈ b.comps, e.outcome = some .overReject) ∨ b.short = true ∨ b.discard = true := by
  have houtcome (e : CompEntry) : entryOutcome e = .overReject ↔ e.outcome = some .overReject := by
    unfold entryOutcome
    cases e.outcome <;> simp
  unfold batchReject
  simp only [Bool.or_eq_true, List.any_eq_true, beq_iff_eq, houtcome, or_assoc]

theorem batchWarned_iff (b : Batch) :
    (warningFlag b.flags || b.comps.any (fun e => entryOutcome e != .inTol)) = true ↔
      b.flags.binLow = true ∨ b.flags.unsettled = true ∨ b.flags.sampleGap = true ∨ b.flags.overmix = true ∨
        b.flags.paused = true ∨ ∃ e ∈ b.comps, e.outcome ≠ some .inTol := by
  have houtcome (e : CompEntry) : entryOutcome e ≠ .inTol ↔ e.outcome ≠ some .inTol := by
    unfold entryOutcome
    cases e.outcome <;> simp
  unfold warningFlag
  simp only [Bool.or_eq_true, List.any_eq_true, bne_iff_ne, houtcome, or_assoc]

/-- The verdict is that of the first row of R64 that applies. -/
theorem verdictOf_cases (b : Batch) :
    let reject := (∃ e ∈ b.comps, e.outcome = some .overReject) ∨ b.short = true ∨ b.discard = true
    let warned := b.flags.binLow = true ∨ b.flags.unsettled = true ∨ b.flags.sampleGap = true ∨
      b.flags.overmix = true ∨ b.flags.paused = true ∨ ∃ e ∈ b.comps, e.outcome ≠ some .inTol
    (b.aborted = true → verdictOf b = .aborted) ∧
    (b.aborted = false → reject → verdictOf b = .reject) ∧
    (b.aborted = false → ¬reject → warned → verdictOf b = .flagged) ∧
    (b.aborted = false → ¬reject → ¬warned → verdictOf b = .good) := by
  dsimp only
  rw [← batchReject_iff, ← batchWarned_iff]
  unfold verdictOf
  refine ⟨fun ha => if_pos ha, fun ha hr => ?_, fun ha hr hw => ?_, fun ha hr hw => ?_⟩ <;>
    rw [if_neg (by rw [ha]; simp)]
  · rw [if_pos hr]
  · rw [if_neg hr, if_pos hw]
  · rw [if_neg hr, if_neg hw]

/-- Settles O43. -/
theorem doorClosedEndsCycle : Obligations.DoorClosedEndsCycle := by
  refine ⟨fun s hhigh => ?_, verdictOf_cases⟩
  intro lev
  refine ⟨exec_doorClosed hhigh true, exec_doorClosed hhigh false, fun hplain hphase hhold => ?_,
    fun b o hplain hphase hhold hmark hb hleft hfind hheld hslot32 hlo hhi hroom hwf => ?_,
    fun b hplain hphase hhold hmark hb hleft hroom => ?_,
    fun hrun hstep hfin how hweigh hphase hhold hroom => ?_⟩
  · obtain ⟨hm, hc, hr, hmix, hcount, hweigh⟩ := closeBatchDoor_frame (doorShut s)
    refine ⟨_, nextAtOnce_doorShut hplain hphase hhold, ?_, ?_, ?_, ?_, ?_, ?_, hmix, hweigh, hcount, hc, hr⟩ <;>
      rw [hm] <;> rfl
  · intro a rec0 t kept
    obtain ⟨hslot, hnumber⟩ := isOrder_of_find hfind
    have ha : a = Win.slot o.slot := by rw [hslot]
    have hrec : rec0 = Win.ticket o.slot t.index := by rw [hslot]; rfl
    have hwf' : Memory.wf (ticketDue lev).mem = true := hwf
    have hframe := ticketWritten_frame o t (ticketDue lev)
    refine ⟨fun hkept hcount hmore => ?_, fun hkept hfin hcount hlast hroom => ?_, fun hkept => ?_⟩
    · have hopen : closeOutcome (countTicket t o) = none := by
        rcases hmore with hmore | ⟨hfin, hlt, hlevel⟩
        · exact closeOutcome_of_under_way (o := countTicket t o) (by change o.started ≠ 0; omega) hmore hcount
        · exact closeOutcome_of_more (o := countTicket t o) (by change o.started ≠ 0; omega) hfin hlt hlevel
      have hmem : (ticketWritten o t (ticketDue lev)).mem = (writeWords (ticketSeq o t) (ticketDue lev)).mem := by
        rw [hframe]
      refine ⟨ticketWritten o t (ticketDue lev), nextAtOnce_ticketed hplain hphase hhold hmark hb hleft hfind hwf hkept hheld hroom hopen,
        fun k hk => ?_, ?_, ?_, ?_, fun n h0 h1 h2 => ?_⟩
      · rw [hrec, State.rd_of_mem hmem, ticketSeq_rd_record hwf' o t hk]
      · rw [ha, State.rd_of_mem hmem, ticketSeq_rd_count hwf' o t]
      · rw [hframe, hslot, hnumber]
        rfl
      · rw [hframe, hslot, hnumber]
        rfl
      · rw [ha] at h1 h2
        rw [hrec] at h0
        exact (State.byteAt_of_mem hmem n).trans (ticketSeq_byteAt hwf' o t h0 h1 h2)
    · intro aborts outcome
      have hdone : closeOutcome (countTicket t o) = some outcome :=
        closeOutcome_of_last (o := countTicket t o) (by change o.started ≠ 0; omega) hfin hcount hlast
      have hwfT : Memory.wf (ticketWritten o t (ticketDue lev)).mem = true := by
        rw [hframe]
        exact writeWords_wf _ hwf'
      have hclosed := closedWords_rd hwfT (countTicket t o) outcome
      have hslot' : (countTicket t o).slot = b.slot := hslot
      have hnumber' : (countTicket t o).number = b.order := hnumber
      have hother {n : Nat} (h0 : Win.slot o.slot + 2 ≤ n)
          (h1 : n + 2 ≤ Win.slot o.slot + 0x40 ∨ Win.slot o.slot + 0x44 ≤ n)
          (h2 : n + 2 ≤ Win.slot o.slot + 0x4C ∨ Win.slot o.slot + 0x50 ≤ n) :=
        closedWords_rd_other hwfT (countTicket t o) outcome h0 h1 h2
      have hbytes {n : Nat} := closedWords_byteAt hwfT (countTicket t o) outcome (b := n)
      have hmem : (ticketWritten o t (ticketDue lev)).mem = (writeWords (ticketSeq o t) (ticketDue lev)).mem := by
        rw [hframe]
      have hmem' := orderClosed_mem (countTicket t o) outcome (ticketWritten o t (ticketDue lev))
      have habove := ticket_above o.slot t.index
      obtain ⟨hstate, hout, href, hstamp⟩ := hclosed
      refine ⟨orderClosed (countTicket t o) outcome (ticketWritten o t (ticketDue lev)),
        nextAtOnce_closed hplain hphase hhold hmark hb hleft hfind hwf hkept hroom hdone,
        fun k hk => ?_, ?_, ?_, ?_, ?_, ?_, ?_, ?_, ?_, fun n h0 h1 h2 h3 h4 => ?_⟩
      · rw [hrec, State.rd_of_mem hmem', hother (by omega) (.inr (by omega)) (.inr (by omega)),
          State.rd_of_mem hmem, ticketSeq_rd_record hwf' o t hk]
      · rw [ha, State.rd_of_mem hmem', hother (by omega) (.inr (by omega)) (.inl (by omega)),
          State.rd_of_mem hmem, ticketSeq_rd_count hwf' o t]
      · rw [ha, State.rd_of_mem hmem']
        exact hstate
      · rw [ha, State.rd_of_mem hmem']
        exact hout
      · rw [ha, State.rd_of_mem hmem']
        exact href
      · rw [ha, State.rd32_of_mem hmem']
        exact hstamp.trans (by rw [hframe]; rfl)
      · rw [orderClosed_frame, hframe]
        dsimp only
        rw [List.append_assoc, hslot', hnumber', hslot, hnumber]
        rfl
      · rw [orderClosed_frame, hframe]
        dsimp only
        rw [hslot', hnumber', hslot, hnumber, filter_modOrder fun x => isOrder_countTicket _ _ t x]
        rfl
      · rw [orderClosed_frame, hframe, hslot', hnumber']
        rfl
      · rw [ha] at h1 h2 h3 h4
        rw [hrec] at h0
        rw [State.byteAt_of_mem hmem' n, hbytes h1 h2 h4, State.byteAt_of_mem hmem n,
          ticketSeq_byteAt hwf' o t h0 (by omega) (by omega)]
        rfl
    · refine ⟨_, nextAtOnce_seized hplain hphase hhold hmark hb hleft hfind hheld hroom hkept, ?_, ?_, ?_, ?_⟩ <;>
        rw [dropOrder_frame] <;> rfl
  · exact ⟨_, nextAtOnce_unqueued hplain hphase hhold hmark hb hleft hroom, rfl, rfl, rfl, rfl⟩
  · rw [exec_doorClosed_clear hhigh hrun hstep hfin how hweigh hphase hhold hroom,
      clearComplete_of_room (s := doorShut s) hroom]
    rfl

end Sys2Proof.Machine
end

section
/-! A plant stop (R161, R162, R28, R69): the blocks, the tickets and the closings. -/

namespace Sys2Proof.Machine

/-! ### What the tickets and closings of a stop leave -/

/-- Between two states of a stop's tickets and closings: a stage that is empty stays empty. -/
def StopSide (s t : State) : Prop :=
  besideQueue t = besideQueue s ∧ t.co.counter = s.co.counter ∧
    (s.co.weigh = none → t.co.weigh = none) ∧ (s.co.mix = none → t.co.mix = none)

theorem StopSide.refl (s : State) : StopSide s s := ⟨rfl, rfl, id, id⟩

theorem StopSide.trans {s t u : State} (h : StopSide s t) (k : StopSide t u) : StopSide s u := by
  obtain ⟨hb, hn, hw, hm⟩ := h
  obtain ⟨kb, kn, kw, km⟩ := k
  exact ⟨kb.trans hb, kn.trans hn, kw ∘ hw, km ∘ hm⟩

theorem QueueSide.stopSide {slot : Nat} {number : Word} {s t : State} (h : QueueSide slot number s t) :
    StopSide s t := by
  obtain ⟨hb, -, hco | hco⟩ := h
  · rw [StopSide, hco]
    exact ⟨hb, rfl, id, id⟩
  · rw [StopSide, hco]
    exact ⟨hb, rfl, fun hw => by simp [loseIn, hw], fun hm => by simp [loseIn, hm]⟩

theorem closeAllAborted_foldl_stopSide (l : List Order) : ∀ s : State,
    StopSide s (l.foldl (fun s o => closeOrder o .aborted s) s) := by
  induction l with
  | nil => exact .refl
  | cons o l ih => exact fun s => (closeOrder_queueSide o .aborted s).stopSide.trans (ih _)

theorem endWeighAborted_frame (s : State) :
    besideQueue (endWeighAborted s) = besideQueue s ∧ (endWeighAborted s).co.counter = s.co.counter ∧
      (endWeighAborted s).co.weigh = none ∧ (s.co.mix = none → (endWeighAborted s).co.mix = none) := by
  unfold endWeighAborted
  cases hb : s.co.weigh with
  | none => exact ⟨rfl, rfl, hb, id⟩
  | some b =>
    obtain ⟨hbeside, hcount, hweigh, hmix⟩ := (handTicket_queueSide b.orderLeft
      (assembleTicket { b with aborted := true, waiting := false } s.seconds)
      { s with co.weigh := none, heat.permit := none }).stopSide
    exact ⟨hbeside, hcount, hweigh rfl, hmix⟩

theorem stopWrites_frame (s : State) :
    besideQueue (stopWrites s) = besideQueue s ∧ (stopWrites s).co.counter = s.co.counter ∧
      (stopWrites s).co.weigh = none ∧ (stopWrites s).co.mix = none := by
  obtain ⟨hb1, hm1, hn1, -⟩ := endMixBatch_frame s
  obtain ⟨hb2, hn2, hw2, hm2⟩ := endWeighAborted_frame (endMixBatch s)
  obtain ⟨hb3, hn3, hw3, hm3⟩ := closeAllAborted_foldl_stopSide (endWeighAborted (endMixBatch s)).oe.queue
    (endWeighAborted (endMixBatch s))
  exact ⟨hb3.trans (hb2.trans hb1), hn3.trans (hn2.trans hn1), hw3 hw2, hm3 (hm2 hm1)⟩

/-! ### A stop cut short by a soft reset (R187) -/

theorem putAll_stopSide (l : List (Nat × Word)) (s : State) : StopSide s (putAll l s) :=
  ⟨by simp [besideQueue], by simp, fun h => by simp [h], fun h => by simp [h]⟩

theorem gap_stopSide (s : State) : StopSide s (gap s) :=
  ⟨by simp [besideQueue], by simp, fun h => by simp [h], fun h => by simp [h]⟩

theorem cutSequence_stopSide (k n : Nat) (sts : List Word) (w : Word) (l : List (Nat × Word)) (s : State) :
    StopSide s (cutSequence k n sts w l s) := by
  cases k with
  | zero => exact .refl s
  | succ k =>
    unfold cutSequence
    dsimp only
    split
    · exact (gap_stopSide s).trans (putAll_stopSide _ _)
    · exact gap_stopSide s

theorem withinCut_stopSide (n : Nat) (w : Word) (l : List (Nat × Word)) {whole : State → State}
    (hwhole : ∀ s, StopSide s (whole s)) (p : Option Nat × State) :
    StopSide p.2 (withinCut n w l whole p).2 := by
  unfold withinCut
  split
  · exact .refl _
  · dsimp only
    split
    · exact hwhole _
    · exact cutSequence_stopSide _ _ _ _ _ _

theorem ticketWithin_stopSide (p : Option Nat × State) (lt : Bool × Ticket) :
    StopSide p.2 (ticketWithin p lt).2 := by
  unfold ticketWithin
  dsimp only
  split
  · exact .refl _
  · exact (submit_queueSide (slot := 0) (number := 0) _ _).stopSide
  · exact withinCut_stopSide _ _ _ (fun s => (writeTicket_queueSide _ _ s).stopSide) p

theorem closeWithin_stopSide (p : Option Nat × State) (o : Order) : StopSide p.2 (closeWithin p o).2 :=
  withinCut_stopSide _ _ _ (fun s => (closeOrder_queueSide _ _ s).stopSide) p

theorem foldl_stopSide {α : Type} {f : Option Nat × State → α → Option Nat × State}
    (h : ∀ p a, StopSide p.2 (f p a).2) (l : List α) : ∀ p, StopSide p.2 (l.foldl f p).2 := by
  induction l with
  | nil => exact fun p => .refl p.2
  | cons a l ih => exact fun p => (h p a).trans (ih _)

theorem stopWritesCut_frame (s : State) :
    besideQueue (stopWritesCut s) = besideQueue s ∧ (stopWritesCut s).co.counter = s.co.counter ∧
      (stopWritesCut s).co.weigh = none ∧ (stopWritesCut s).co.mix = none := by
  unfold stopWritesCut
  dsimp only
  obtain ⟨hb1, hn1, hw1, hm1⟩ := foldl_stopSide ticketWithin_stopSide (stopTickets s)
    (some (Config.stopAccesses s.freeSeed), { s with
      freeSeed := s.freeSeed + 1, co := { s.co with mix := none, weigh := none }, heat.permit := none })
  obtain ⟨hb2, hn2, hw2, hm2⟩ := foldl_stopSide closeWithin_stopSide _ _
  exact ⟨hb2.trans hb1, hn2.trans hn1, hw2 (hw1 rfl), hm2 (hm1 rfl)⟩

/-! ### The blocks at entry into STOPPED (R161) -/

theorem stopBinder_frame (s : State) : stopBinder s = { s with bit := (stopBinder s).bit } := by
  unfold stopBinder cutChangeover
  split <;> rfl

/-- The mixer at entry into STOPPED (R131). -/
def stoppedMixer (m : Mixer) : Mixer := { Mixer.reset with
  suspect := m.suspect || m.phase != .empty || m.clearHold, work := m.work
  t6 := m.t6, cmPhase := m.cmPhase, cmOffset := m.cmOffset }

theorem stopMixer_eq (s : State) : stopMixer s = { s with
    mixer := stoppedMixer s.mixer
    co.mix := s.co.mix.map fun b => { b with results := stopResults s.mixer } } := rfl

/-- The blocks at entry into STOPPED as the part state is written, before the mixer stops. -/
def stopEntered (s : State) : State :=
  let u := stopBinder (submit (plantStopNotice s) s)
  setPart .stopped { u with
    ch := u.ch.map stoppedChannel, rc.paused := false, rc.finishing := false, rc.clearStep := .none }

theorem stopBlocks_eq (s : State) : stopBlocks s = abortMix (burnerDrop (stopMixer { stopEntered s with
    rc.clearRequired := (stopEntered s).rc.clearRequired || (stopEntered s).ch.any reportsMaterial })) := rfl

theorem stopEntered_fields (s : State) :
    (stopEntered s).ch = s.ch.map stoppedChannel ∧ (stopEntered s).mixer = s.mixer ∧
      (stopEntered s).co = s.co ∧ (stopEntered s).oe = s.oe ∧ (stopEntered s).inp = s.inp ∧
      (stopEntered s).heat = s.heat ∧ (stopEntered s).seconds = s.seconds ∧ (stopEntered s).pending = s.pending ∧
      (stopEntered s).rc = { s.rc with part := .stopped, paused := false, finishing := false, clearStep := .none } := by
  have hbinder := stopBinder_frame (submit (plantStopNotice s) s)
  unfold stopEntered setPart
  dsimp only
  rw [hbinder]
  simp

theorem stopBlocks_fields (s : State) :
    (stopBlocks s).ch = s.ch.map stoppedChannel ∧ (stopBlocks s).mixer = stoppedMixer s.mixer ∧
      (stopBlocks s).oe = s.oe ∧ (stopBlocks s).inp = s.inp ∧ (stopBlocks s).seconds = s.seconds ∧
      (stopBlocks s).pending = s.pending ∧
      (stopBlocks s).co = { s.co with mix := s.co.mix.map fun b =>
        { b with aborted := true, results := stopResults s.mixer } } ∧
      (stopBlocks s).rc = { s.rc with
        part := .stopped, paused := false, finishing := false, clearStep := .none
        clearRequired := s.rc.clearRequired || (s.ch.map stoppedChannel).any reportsMaterial } := by
  obtain ⟨hch, hmixer, hco, hoe, hinp, -, hsec, hpend, hrc⟩ := stopEntered_fields s
  rw [stopBlocks_eq]
  unfold abortMix
  simp only [burnerDrop_ch, burnerDrop_mixer, burnerDrop_oe, burnerDrop_inp, burnerDrop_seconds,
    burnerDrop_pending, burnerDrop_co, burnerDrop_rc, stopMixer_eq, hch, hmixer, hco, hoe, hinp, hsec, hpend, hrc,
    Option.map_map, true_and, and_true]
  rfl

/-- The burner is not lit and the latches are kept. -/
theorem stopBlocks_heat (s : State) : burnerLit (stopBlocks s).heat.burner = false ∧
    (stopBlocks s).heat.bt1.latch = s.heat.bt1.latch ∧ (stopBlocks s).heat.bt2.latch = s.heat.bt2.latch := by
  have hlatch (u : State) : (burnerDrop u).heat.bt1.latch = u.heat.bt1.latch ∧
      (burnerDrop u).heat.bt2.latch = u.heat.bt2.latch := by
    unfold burnerDrop
    split <;> exact ⟨rfl, rfl⟩
  obtain ⟨-, -, -, -, -, hheat, -⟩ := stopEntered_fields s
  obtain ⟨h1, h2⟩ := hlatch (stopMixer { stopEntered s with
    rc.clearRequired := (stopEntered s).rc.clearRequired || (stopEntered s).ch.any reportsMaterial })
  rw [stopBlocks_eq]
  refine ⟨burnerDrop_unlit _, h1.trans ?_, h2.trans ?_⟩
  · exact congrArg (fun h => h.bt1.latch) hheat
  · exact congrArg (fun h => h.bt2.latch) hheat

/-- With the arbiter free and room for PLANT STOP, the window changes by the part state alone. -/
theorem stopBlocks_of_room {s : State} (hnone : s.port.waiting = []) (hroom : s.nu.list.length < 16) :
    (stopBlocks s).nu = { s.nu with list := s.nu.list ++ [plantStopNotice s] } ∧
      (stopBlocks s).port = s.port ∧
      (stopBlocks s).mem = (s.wr Win.partState (BitVec.ofNat 16 PartState.stopped.code)).mem := by
  have hbinder := stopBinder_frame (submit (plantStopNotice s) s)
  have hsub : submit (plantStopNotice s) s = _ := submit_of_room hroom _
  rw [stopBlocks_eq]
  unfold abortMix
  simp only [burnerDrop_nu, burnerDrop_port, burnerDrop_mem, stopMixer_eq]
  unfold stopEntered
  dsimp only
  rw [hbinder, hsub, setPart_of_none (by exact hnone)]
  exact ⟨rfl, rfl, rfl⟩

/-- What entry into STOPPED leaves of a state, whatever waits and whatever room the notices have. -/
theorem enterStopped_frame (s : State) :
    besideQueue (enterStopped s) = besideQueue (stopBlocks s) ∧
      (enterStopped s).co.counter = (stopBlocks s).co.counter ∧
      (enterStopped s).co.weigh = none ∧ (enterStopped s).co.mix = none := by
  unfold enterStopped
  dsimp only
  split
  · exact stopWritesCut_frame _
  · exact stopWrites_frame _

theorem enterStopped_fields (s : State) :
    (enterStopped s).ch = s.ch.map stoppedChannel ∧ (enterStopped s).mixer = stoppedMixer s.mixer ∧
      (enterStopped s).inp = s.inp ∧ (enterStopped s).oe.walker = s.oe.walker ∧
      (enterStopped s).oe.pos = s.oe.pos ∧ burnerLit (enterStopped s).heat.burner = false ∧
      (enterStopped s).heat.bt1.latch = s.heat.bt1.latch ∧
      (enterStopped s).heat.bt2.latch = s.heat.bt2.latch ∧
      (enterStopped s).co.counter = s.co.counter ∧ (enterStopped s).co.weigh = none ∧
      (enterStopped s).co.mix = none ∧
      (enterStopped s).rc = { s.rc with
        part := .stopped, paused := false, finishing := false, clearStep := .none
        clearRequired := s.rc.clearRequired || (s.ch.map stoppedChannel).any reportsMaterial } := by
  obtain ⟨hbeside, hcount, hweigh, hmix⟩ := enterStopped_frame s
  obtain ⟨hm, hc, hr, hh, hi, hw, hp, -, -⟩ := besideQueue_iff.mp hbeside
  obtain ⟨kc, km, ko, ki, -, -, kco, kr⟩ := stopBlocks_fields s
  obtain ⟨hlit, hl1, hl2⟩ := stopBlocks_heat s
  simp only [heatMarks, Prod.mk.injEq] at hh
  obtain ⟨hburner, hlatch1, hlatch2⟩ := hh
  rw [kco] at hcount
  exact ⟨hc.trans kc, hm.trans km, hi.trans ki, hw.trans (by rw [ko]), hp.trans (by rw [ko]),
    by rw [hburner]; exact hlit, hlatch1.trans hl1, hlatch2.trans hl2, hcount, hweigh, hmix, hr.trans kr⟩

end Sys2Proof.Machine
end

section
/-! STOP#: the pulses of the line (O45). -/

namespace Sys2Proof.Machine

theorem exec_stopLineRise {s : State} (h : s.port.resetLow = false) (n : Nat) :
    exec (.stopLineRise n) s = .next (settle (stopRise n s)) := by
  refine congrArg _ (if_neg ?_)
  rw [h]
  exact Bool.false_ne_true

theorem exec_stopLineFall (s : State) : exec .stopLineFall s = .next (stopFall s) := rfl

theorem stopFall_of_high {s : State} (h : s.rc.decoder = .high) :
    stopFall s = { s with rc := { s.rc with decoder := .timing, pulse := 0 } } := by
  unfold stopFall; rw [h]

theorem stopFall_of_low {s : State} (h : s.rc.decoder ≠ .high) : stopFall s = s := by
  unfold stopFall
  cases hd : s.rc.decoder
  · exact absurd hd h
  · rfl
  · rfl

theorem stopRise_of_high {s : State} (h : s.rc.decoder = .high) (n : Nat) : stopRise n s = s := by
  unfold stopRise; rw [h]

theorem stopRise_of_held {s : State} (h : s.rc.decoder = .held) (n : Nat) :
    stopRise n s = { s with rc := { s.rc with decoder := .high } } := by
  unfold stopRise; rw [h]

/-- The line high again, the pulse timer at the length of the pulse. -/
def lineHigh (p : Nat) (s : State) : State := { s with rc := { s.rc with decoder := .high, pulse := p } }

/-- A plant stop classed, the line not yet high (R158). -/
def stopClassed (p : Nat) (s : State) : State :=
  plantStop { s with rc := { s.rc with decoder := .held, pulse := p } }

section
variable {s : State} (h : s.rc.decoder = .timing) (n : Nat)
include h

theorem stopRise_of_long (hp : 400 ≤ max s.rc.pulse n) :
    stopRise n s = { stopClassed (max s.rc.pulse n) s with rc.decoder := .high } := by
  unfold stopRise Config.stopPulse
  rw [h]
  exact if_pos hp

theorem stopRise_of_toggle (hlo : 40 ≤ max s.rc.pulse n) (hhi : max s.rc.pulse n < 400) :
    stopRise n s = pauseToggle (lineHigh (max s.rc.pulse n) s) := by
  unfold stopRise Config.stopPulse Config.togglePulse
  rw [h]
  exact (if_neg (Nat.not_le.mpr hhi)).trans (if_pos hlo)

theorem stopRise_of_short (hp : max s.rc.pulse n < 40) : stopRise n s = lineHigh (max s.rc.pulse n) s := by
  unfold stopRise Config.stopPulse Config.togglePulse
  rw [h]
  exact (if_neg (by omega)).trans (if_neg (Nat.not_le.mpr hp))

end

theorem pauseToggle_outside_run {s : State} (h : s.rc.part ≠ .run) : pauseToggle s = s := if_neg h

theorem pauseToggle_sets {s : State} (h : s.rc.part = .run) (hp : s.rc.paused = false) :
    pauseToggle s = setPaused .line s := by
  unfold pauseToggle
  rw [if_pos h, hp]
  rfl

theorem pauseToggle_clears {s : State} (h : s.rc.part = .run) (hp : s.rc.paused = true) :
    pauseToggle s = clearPaused .line s := by
  unfold pauseToggle
  rw [if_pos h, hp]
  rfl

theorem plantStop_of_run {s : State} (h : s.rc.part = .run) : plantStop s = enterStopped s := by
  unfold plantStop; rw [h]

theorem plantStop_discarded {s : State} (h : s.rc.part = .unconfigured ∨ s.rc.part = .checking) :
    plantStop s = s := by
  unfold plantStop
  rcases h with h | h <;> rw [h]

theorem plantStop_posts {s : State}
    (h : s.rc.part = .standby ∨ s.rc.part = .stopped ∨ s.rc.part = .halted) (hroom : s.nu.list.length < 16) :
    plantStop s = { s with nu.list := s.nu.list ++ [plantStopNotice s] } := by
  have hsubmit : plantStop s = submit (plantStopNotice s) s := by
    unfold plantStop
    rcases h with h | h | h <;> rw [h]
  rw [hsubmit, submit_of_room hroom]

/-- An entry into STOPPED leaves every feed and gate off. -/
theorem stoppedChannel_off (c : Channel) : (stoppedChannel c).feed = none ∧ (stoppedChannel c).gate = false := by
  unfold stoppedChannel
  split <;> exact ⟨rfl, rfl⟩

/-- Settles O45. -/
theorem stopLinePulses : Obligations.StopLinePulses := by
  intro s n hhigh p up
  rw [exec_stopLineRise hhigh, exec_stopLineFall]
  refine ⟨fun h => by rw [stopFall_of_high h], fun h => by rw [stopFall_of_low h],
    fun h => by rw [stopRise_of_high h], fun h => by rw [stopRise_of_held h],
    fun h => ⟨fun hp => ?_, fun hlo hhi hpart => ?_, fun hlo hhi hpart hpaused hroom => ?_,
      fun hlo hhi hpart hpaused hroom => ?_, fun hp hpart => ?_, fun hp hpart => ?_, fun hp hpart hroom => ?_⟩⟩
  · rw [stopRise_of_short h n hp]
    rfl
  · rw [stopRise_of_toggle h n hlo hhi, pauseToggle_outside_run (by exact hpart)]
    rfl
  · rw [stopRise_of_toggle h n hlo hhi, pauseToggle_sets (by exact hpart) (by exact hpaused),
      setPaused_of_room (by exact hroom)]
    rfl
  · rw [stopRise_of_toggle h n hlo hhi, pauseToggle_clears (by exact hpart) (by exact hpaused),
      clearPaused_of_room (by exact hpart) (by exact hroom)]
    rfl
  · rw [stopRise_of_long h n hp, stopClassed, plantStop_discarded (by exact hpart)]
  · rw [stopRise_of_long h n hp, stopClassed, plantStop_of_run (by exact hpart)]
    obtain ⟨hch, hmixer, -, -, -, -, -, -, -, hweigh, hmix, hrc⟩ := enterStopped_fields
      { s with rc := { s.rc with decoder := .held, pulse := max s.rc.pulse n } }
    refine ⟨_, rfl, ?_, rfl, ?_, ?_, ?_, hweigh, hmix, ?_, ?_, fun sc => ?_⟩
    · dsimp only; rw [hrc]
    · dsimp only; rw [hrc]
    · dsimp only; rw [hrc]
    · dsimp only; rw [hrc]
    · exact congrArg Mixer.phase hmixer
    · exact congrArg Mixer.door hmixer
    · unfold State.chan
      dsimp only
      rw [hch, PerScale.get_map]
      exact stoppedChannel_off _
  · rw [stopRise_of_long h n hp, stopClassed, plantStop_posts (by exact hpart) (by exact hroom)]
    rfl

end Sys2Proof.Machine
end

section
/-! The closings and tickets of a stop, in the window (R28, R69). -/

namespace Sys2Proof.Machine

/-! ### One closing (R24, R27) -/

/-- The notice of a closing, of an order whose slot is kept or not. -/
def closingNotice (s : State) (outcome : OrderOutcome) (o : Order) : Notice :=
  ⟨o.slot, o.number, 0,
    if s.rd (Win.slot o.slot + 2) = o.number ∧ (s.rd (Win.slot o.slot) = 2 ∨ s.rd (Win.slot o.slot) = 3) then
      .orderClosed o.load outcome .none o.tickets
    else .slotSeizedClose (s.rd (Win.slot o.slot)) (s.rd (Win.slot o.slot + 2)) outcome⟩

theorem closingNotice_of_kept {s : State} {o : Order} (h : slotKept o.slot o.number s) (outcome : OrderOutcome) :
    closingNotice s outcome o = ⟨o.slot, o.number, 0, .orderClosed o.load outcome .none o.tickets⟩ := by
  unfold closingNotice
  rw [if_pos h.symm]

theorem closingNotice_of_not_kept {s : State} {o : Order} (h : ¬slotKept o.slot o.number s)
    (outcome : OrderOutcome) : closingNotice s outcome o = ⟨o.slot, o.number, 0,
      .slotSeizedClose (s.rd (Win.slot o.slot)) (s.rd (Win.slot o.slot + 2)) outcome⟩ := by
  unfold closingNotice
  rw [if_neg (fun k => h k.symm)]

/-- What a closing gives: its notice, the order out of the queue, the slot CLOSED if it was kept, and every word
outside the slot's header as before. -/
structure Closes (o : Order) (outcome : OrderOutcome) (s t : State) : Prop where
  nu : t.nu = { s.nu with list := s.nu.list ++ [closingNotice s outcome o] }
  port : t.port = s.port
  wf : Memory.wf t.mem = true
  seconds : t.seconds = s.seconds
  queue : t.oe.queue = s.oe.queue.filter fun x => !isOrder o.slot o.number x
  other : ∀ b, b + 2 ≤ Win.slot o.slot ∨ Win.slot o.slot + 0x50 ≤ b → t.rd b = s.rd b
  tickets : t.rd (Win.slot o.slot + 0x46) = s.rd (Win.slot o.slot + 0x46)
  kept : slotKept o.slot o.number s → t.rd (Win.slot o.slot) = 4 ∧
    t.rd (Win.slot o.slot + 0x40) = BitVec.ofNat 16 outcome.code ∧ t.rd (Win.slot o.slot + 0x42) = 0 ∧
    t.rd32 (Win.slot o.slot + 0x4C) = s.seconds

theorem closeOrder_closes {s : State} {o : Order} (hnone : s.port.waiting = [])
    (hwf : Memory.wf s.mem = true) (hheld : o.held = []) (hroom : s.nu.list.length < 16)
    (outcome : OrderOutcome) : Closes o outcome s (closeOrder o outcome s) := by
  by_cases hkept : slotKept o.slot o.number s
  · rw [closeOrder_of_kept hnone hwf hkept hroom]
    have hmem := orderClosed_mem o outcome s
    have hframe := orderClosed_frame o outcome s
    refine ⟨?_, ?_, ?_, ?_, ?_, fun b hb => ?_, ?_, fun _ => ?_⟩
    · rw [hframe, closingNotice_of_kept hkept]
    · rw [hframe]
    · rw [hmem]
      exact writeWords_wf _ hwf
    · rw [hframe]
    · rw [hframe]
    · rw [State.rd_of_mem hmem]
      refine rd_writeWords_other _ hwf fun x hx => ?_
      simp only [closedWords, closeWrites, stampWrites, Win.slotOutcome, Win.slotRefusal, Win.slotClosedAt,
        Win.slotState, List.mem_append, List.mem_cons, List.not_mem_nil, or_false] at hx
      rcases hx with ((rfl | rfl) | rfl | rfl) | rfl <;> dsimp only <;> omega
    · rw [State.rd_of_mem hmem, closedWords_rd_other hwf o outcome (by omega) (.inr (by omega)) (.inl (by omega))]
    · rw [State.rd_of_mem hmem, State.rd_of_mem hmem, State.rd_of_mem hmem, State.rd32_of_mem hmem]
      exact closedWords_rd hwf o outcome
  · rw [closeOrder_of_not_kept hnone hkept hheld hroom, dropOrder_frame]
    exact ⟨by rw [closingNotice_of_not_kept hkept]; rfl, rfl, hwf, rfl, rfl, fun _ _ => rfl, rfl,
      fun h => absurd h hkept⟩

/-! ### The closings of a queue (R28) -/

/-- Slots of different orders share no word of their headers. -/
theorem slot_apart {m n : Nat} (h : m ≠ n) {k : Nat} (hk : k + 2 ≤ 0x80) :
    Win.slot m + k + 2 ≤ Win.slot n ∨ Win.slot n + 0x50 ≤ Win.slot m + k := by
  unfold Win.slot
  rcases Nat.lt_or_gt_of_ne h with h | h <;> omega

theorem Closes.slot_other {o : Order} {outcome : OrderOutcome} {s t : State} (h : Closes o outcome s t)
    {n : Nat} (hn : n ≠ o.slot) {k : Nat} (hk : k + 2 ≤ 0x80) : t.rd (Win.slot n + k) = s.rd (Win.slot n + k) :=
  h.other _ (by have := slot_apart hn hk; omega)

theorem Closes.notice_other {o : Order} {outcome : OrderOutcome} {s t : State} (h : Closes o outcome s t)
    {x : Order} (hx : x.slot ≠ o.slot) (c : OrderOutcome) : closingNotice t c x = closingNotice s c x := by
  have h0 : t.rd (Win.slot x.slot) = s.rd (Win.slot x.slot) := h.slot_other hx (k := 0) (by omega)
  unfold closingNotice
  rw [h0, h.slot_other hx (by omega)]

theorem Closes.kept_other {o : Order} {outcome : OrderOutcome} {s t : State} (h : Closes o outcome s t)
    {x : Order} (hx : x.slot ≠ o.slot) : slotKept x.slot x.number t ↔ slotKept x.slot x.number s := by
  have h0 : t.rd (Win.slot x.slot) = s.rd (Win.slot x.slot) := h.slot_other hx (k := 0) (by omega)
  unfold slotKept
  rw [h0, h.slot_other hx (by omega)]

/-- The closings of orders in different slots, one after another. -/
theorem closings_of_room (l : List Order) : ∀ {s : State}, s.port.waiting = [] → Memory.wf s.mem = true →
    s.nu.list.length + l.length ≤ 16 → l.Pairwise (fun o p => o.slot ≠ p.slot) → (∀ o ∈ l, o.held = []) →
    let t := l.foldl (fun s o => closeOrder o .aborted s) s
    t.nu = { s.nu with list := s.nu.list ++ l.map (closingNotice s .aborted) } ∧
      (∀ n, (∀ o ∈ l, n ≠ o.slot) → ∀ k, k + 2 ≤ 0x80 → t.rd (Win.slot n + k) = s.rd (Win.slot n + k)) ∧
      ∀ o ∈ l, slotKept o.slot o.number s → t.rd (Win.slot o.slot) = 4 ∧
        t.rd (Win.slot o.slot + 0x40) = 4 ∧ t.rd (Win.slot o.slot + 0x42) = 0 ∧
        t.rd32 (Win.slot o.slot + 0x4C) = s.seconds := by
  induction l with
  | nil =>
    intro s _ _ _ _ _
    refine ⟨by simp, fun _ _ _ _ => rfl, fun o ho => by cases ho⟩
  | cons o l ih =>
    intro s hnone hwf hroom hpair hheld
    obtain ⟨hne, hpair⟩ := List.pairwise_cons.mp hpair
    rw [List.length_cons] at hroom
    have h := closeOrder_closes hnone hwf (hheld o (List.mem_cons_self ..)) (by omega) .aborted
    dsimp only
    rw [List.foldl_cons]
    generalize closeOrder o .aborted s = u at h
    have hlen : u.nu.list.length = s.nu.list.length + 1 := by rw [h.nu]; simp
    obtain ⟨hnu, hother, hkept⟩ := ih (s := u) (by rw [h.port]; exact hnone) h.wf (by omega) hpair
      fun x hx => hheld x (List.mem_cons_of_mem _ hx)
    have hnotices : l.map (closingNotice u .aborted) = l.map (closingNotice s .aborted) :=
      List.map_congr_left fun x hx => h.notice_other (hne x hx).symm _
    refine ⟨?_, fun n hn k hk => ?_, fun x hx hxkept => ?_⟩
    · rw [hnu, h.nu, hnotices]
      simp
    · rw [hother n (fun x hx => hn x (List.mem_cons_of_mem _ hx)) k hk,
        h.slot_other (hn o (List.mem_cons_self ..)) hk]
    · rcases List.mem_cons.mp hx with rfl | hx
      · obtain ⟨h0, h1, h2, h3⟩ := h.kept hxkept
        have hstays {k : Nat} (hk : k + 2 ≤ 0x80) := hother x.slot (fun y hy => hne y hy) k hk
        have hstays0 := hother x.slot (fun y hy => hne y hy) 0 (by omega)
        refine ⟨hstays0.trans h0, (hstays (by omega)).trans h1, (hstays (by omega)).trans h2, ?_⟩
        refine Eq.trans ?_ h3
        unfold State.rd32
        rw [hstays (k := 0x4C) (by omega), Nat.add_assoc, hstays (k := 0x4C + 2) (by omega)]
      · obtain ⟨h0, h1, h2, h3⟩ := hkept x hx ((h.kept_other (hne x hx).symm).mpr hxkept)
        exact ⟨h0, h1, h2, h3.trans h.seconds⟩

/-! ### The ticket of the only order's batch (R69) -/

theorem closeTest_of_stopped {s : State} (h : s.rc.part = .stopped) (slot : Nat) (number : Word) :
    closeTest slot number s = s := by
  unfold closeTest
  split
  · rfl
  · split
    · rfl
    · exact if_pos h

theorem endMixBatch_of_none {s : State} (h : s.co.mix = none) : endMixBatch s = s := by
  unfold endMixBatch; rw [h]

theorem endWeighAborted_of_none {s : State} (h : s.co.weigh = none) : endWeighAborted s = s := by
  unfold endWeighAborted; rw [h]

theorem closeAllAborted_of_nil {s : State} (h : s.oe.queue = []) : closeAllAborted s = s := by
  unfold closeAllAborted; rw [h]; rfl

section
variable {s : State} {o : Order} {t : Ticket} (hqueue : s.oe.queue = [o]) (hslot : t.slot = o.slot)
  (hnumber : t.order = o.number) (hmix : s.co.mix = none)
include hqueue hslot hnumber hmix

theorem handTicket_single :
    handTicket false t s = releaseHeld o.slot o.number 2 (writeTicket o t s) := by
  have hself : isOrder o.slot o.number o = true := (isOrder_iff _ _ _).mpr ⟨rfl, rfl⟩
  have hfind : findOrder s t.slot t.order = some o := by
    unfold findOrder
    rw [hqueue, hslot, hnumber, List.find?_cons, hself]
  rw [handTicket_of_queued hfind hmix, hslot, hnumber]

variable (hnone : s.port.waiting = []) (hheld : o.held = [])
include hnone hheld

/-- In a kept slot the ticket is written, and the order closes ABORTED behind it. -/
theorem stopTicket_of_kept (hstop : s.rc.part = .stopped) (hwf : Memory.wf s.mem = true)
    (hroom : s.nu.list.length < 15) (hkept : slotKept o.slot o.number s) :
    let u := closeAllAborted (handTicket false t s)
    u.rd (Win.slot o.slot) = 4 ∧ u.rd (Win.slot o.slot + 0x40) = 4 ∧
      u.rd (Win.slot o.slot + 0x46) = natWord (o.tickets + 1) ∧
      (∀ k, k < 32 → u.rd (Win.ticket o.slot t.index + 2 * k) = (ticketWords t).getD k 0) ∧
      u.nu = { s.nu with list := s.nu.list ++
        [⟨o.slot, o.number, t.seq, .batchDone o.load t.index t.verdict t.flags (o.tickets + 1)⟩,
         ⟨o.slot, o.number, 0, .orderClosed o.load .aborted .none (o.tickets + 1)⟩] } := by
  have hself : isOrder o.slot o.number o = true := (isOrder_iff _ _ _).mpr ⟨rfl, rfl⟩
  have hframe := ticketWritten_frame o t s
  have hqueued : (ticketWritten o t s).oe.queue = [countTicket t o] := by
    rw [hframe, hqueue]
    simp only [List.map_cons, List.map_nil, hself, if_true]
  have hempty : ∀ x, findOrder (ticketWritten o t s) o.slot o.number = some x → x.held = [] := by
    intro x hx
    have hmem := List.mem_of_find?_eq_some hx
    rw [hqueued] at hmem
    rw [List.mem_singleton.mp hmem]
    exact hheld
  have hlen : (ticketWritten o t s).nu.list.length < 16 := by
    rw [hframe]
    simp only [List.length_append, List.length_singleton]
    omega
  have hwfT : Memory.wf (ticketWritten o t s).mem = true := by
    rw [hframe]
    exact writeWords_wf _ hwf
  have hmem : (ticketWritten o t s).mem = (writeWords (ticketSeq o t) s).mem := by rw [hframe]
  have hall : closeAllAborted (handTicket false t s) =
      closeOrder (countTicket t o) .aborted (ticketWritten o t s) := by
    rw [handTicket_single hqueue hslot hnumber hmix,
      writeTicket_of_kept hnone hwf hkept (by omega),
      closeTest_of_stopped (by rw [hframe]; exact hstop), releaseHeld_of_empty hempty, closeAllAborted, hqueued]
    rfl
  have hcloses := closeOrder_closes (s := ticketWritten o t s) (o := countTicket t o)
    (by rw [hframe]; exact hnone) hwfT hheld hlen .aborted
  have hkeptT : slotKept (countTicket t o).slot (countTicket t o).number (ticketWritten o t s) :=
    (ticketWritten_slotKept hwf o t).mpr hkept
  obtain ⟨h0, h1, -, -⟩ := hcloses.kept hkeptT
  intro u
  have hu : u = _ := hall
  rw [hu]
  refine ⟨h0, h1, ?_, fun k hk => ?_, ?_⟩
  · exact hcloses.tickets.trans ((State.rd_of_mem hmem _).trans (ticketSeq_rd_count hwf o t))
  · have habove := ticket_above o.slot t.index
    rw [hcloses.other _ (.inr (by change Win.slot o.slot + 0x50 ≤ _; omega)), State.rd_of_mem hmem,
      ticketSeq_rd_record hwf o t hk]
  · rw [hcloses.nu, closingNotice_of_kept hkeptT, hframe]
    dsimp only
    rw [List.append_assoc]
    rfl

/-- In a slot not kept the ticket seizes the order. -/
theorem stopTicket_of_not_kept (hroom : s.nu.list.length < 16) (hkept : ¬slotKept o.slot o.number s) :
    (closeAllAborted (handTicket false t s)).nu = { s.nu with list := s.nu.list ++
      [⟨o.slot, o.number, t.seq,
        .slotSeizedTicket (s.rd (Win.slot o.slot)) (s.rd (Win.slot o.slot + 2)) t⟩] } := by
  have hself : isOrder o.slot o.number o = true := (isOrder_iff _ _ _).mpr ⟨rfl, rfl⟩
  rw [handTicket_single hqueue hslot hnumber hmix,
    writeTicket_of_not_kept hnone hkept hheld hroom,
    releaseHeld_of_empty (fun x hx => by rw [findOrder_dropOrder] at hx; cases hx), dropOrder_frame,
    closeAllAborted_of_nil]
  · rfl
  · change s.oe.queue.filter _ = []
    rw [hqueue, List.filter_cons, hself]
    rfl

end

end Sys2Proof.Machine
end

section
/-! PLANT_STOP (O46). -/

namespace Sys2Proof.Machine

/-! ### The queue after a stop -/

theorem seizeUnqueued_foldl_oe (l : List Ticket) : ∀ s : State,
    (l.foldl (fun s t => seizeUnqueued t s) s).oe = s.oe := by
  induction l with
  | nil => exact fun _ => rfl
  | cons t l ih => exact fun s => (ih _).trans (submit_oe _ _)

/-- A closed order is out of the queue, its slot kept or not. -/
theorem closeOrder_queue (o : Order) (outcome : OrderOutcome) (s : State) :
    (closeOrder o outcome s).oe.queue = s.oe.queue.filter fun x => !isOrder o.slot o.number x := by
  have hdrop (u : State) : (dropOrder o.slot o.number u).oe.queue =
      u.oe.queue.filter fun x => !isOrder o.slot o.number x := by rw [dropOrder_frame]; rfl
  unfold closeOrder
  dsimp only
  have hoe := guardedSeq_oe o.slot [slotTaken, slotActive] o.number (closeWrites o outcome s)
    (Win.slot o.slot + Win.slotState, slotClosed) s
  split
  · rw [hdrop, submit_oe, hoe]
  · unfold seizeOrder
    rw [seizeUnqueued_foldl_oe, hdrop, submit_oe, hoe]

theorem closings_queue (l : List Order) : ∀ s : State, (∀ o ∈ s.oe.queue, o ∈ l) →
    (l.foldl (fun s o => closeOrder o .aborted s) s).oe.queue = [] := by
  induction l with
  | nil => exact fun s h => List.eq_nil_iff_forall_not_mem.mpr fun o ho => by cases h o ho
  | cons o l ih =>
    intro s h
    refine ih _ fun x hx => ?_
    rw [closeOrder_queue] at hx
    obtain ⟨hmem, hnot⟩ := List.mem_filter.mp hx
    rcases List.mem_cons.mp (h x hmem) with rfl | hl
    · simp [isOrder] at hnot
    · exact hl

theorem stopWrites_queue (s : State) : (stopWrites s).oe.queue = [] :=
  closings_queue _ _ fun _ h => h

/-! ### The event -/

theorem exec_plantStop {s : State} (h : s.port.resetLow = false) :
    exec .plantStop s = .next (settle (pulseReached s)) := congrArg _ (event_of_high h _)

/-- The decoder as a low line reaches the stop length. -/
def lineHeld (s : State) : State := { s with rc := { s.rc with decoder := .held, pulse := max s.rc.pulse 400 } }

theorem pulseReached_of_timing {s : State} (h : s.rc.decoder = .timing) :
    pulseReached s = plantStop (lineHeld s) := by
  unfold pulseReached; rw [h]; rfl

theorem pulseReached_of_other {s : State} (h : s.rc.decoder ≠ .timing) : pulseReached s = s := by
  unfold pulseReached
  cases hd : s.rc.decoder
  · rfl
  · exact absurd hd h
  · rfl

/-! ### A channel at a stop -/

theorem stoppedChannel_net (c : Channel) : (stoppedChannel c).net = c.net := by
  unfold stoppedChannel
  split <;> rfl

theorem stoppedChannel_fault {c : Channel} (h : c.state = .fault) : (stoppedChannel c).state = .fault := by
  unfold stoppedChannel
  rw [if_pos h]
  exact h

theorem stoppedChannel_other {c : Channel} (h : c.state ≠ .fault) : (stoppedChannel c).batch = none ∧
    (stoppedChannel c).state = if emptyThr c ≤ c.net then .weighed else .idle := by
  unfold stoppedChannel
  rw [if_neg h]
  refine ⟨rfl, ?_⟩
  change (if holdsMaterial c = true then _ else _) = _
  simp only [holdsMaterial, decide_eq_true_eq]

theorem reportsMaterial_iff (c : Channel) :
    reportsMaterial c = true ↔ c.state = .weighed ∨ (c.state = .fault ∧ emptyThr c ≤ c.net) := by
  simp [reportsMaterial, holdsMaterial]

/-! ### Tickets and closings in RUN -/

theorem enterStopped_of_uncut {s : State} (h : s.pending.head? ≠ some .softReset) :
    enterStopped s = stopWrites (stopBlocks s) := by
  obtain ⟨-, -, -, -, -, hpend, -, -⟩ := stopBlocks_fields s
  unfold enterStopped
  dsimp only
  refine if_neg ?_
  unfold resetFollows
  rw [hpend]
  exact fun k => h (beq_iff_eq.mp k)

/-- With stages and queue empty a stop has no ticket and no closing, cut short or not. -/
theorem enterStopped_of_empty {s : State} (hw : s.co.weigh = none) (hm : s.co.mix = none)
    (hq : s.oe.queue = []) : (enterStopped s).nu = (stopBlocks s).nu := by
  obtain ⟨-, -, hoe, -, -, -, hco, -⟩ := stopBlocks_fields s
  have hweigh : (stopBlocks s).co.weigh = none := by rw [hco]; exact hw
  have hmix : (stopBlocks s).co.mix = none := by rw [hco]; simp [hm]
  have hqueue : (stopBlocks s).oe.queue = [] := by rw [hoe]; exact hq
  unfold enterStopped
  dsimp only
  split
  · unfold stopWritesCut stopTickets
    simp [hweigh, hmix, hqueue]
  · unfold stopWrites
    rw [endMixBatch_of_none hmix, endWeighAborted_of_none hweigh, closeAllAborted_of_nil hqueue]

/-- The ticket of a batch that a stop ends, in the mixer stage or in the weigh stage. -/
def stopTicket (s : State) (b : Batch) : Ticket :=
  assembleTicket { b with
    aborted := true, results := if s.co.mix = none then b.results else stopResults s.mixer } s.seconds

theorem endMixBatch_of_some {s : State} {b : Batch} (h : s.co.mix = some b) (hleft : b.orderLeft = false) :
    endMixBatch s = handTicket false (assembleTicket b s.seconds) { s with co.mix := none } := by
  unfold endMixBatch
  rw [h]
  dsimp only
  rw [hleft]

theorem endWeighAborted_of_some {s : State} {b : Batch} (h : s.co.weigh = some b) (hleft : b.orderLeft = false) :
    endWeighAborted s = handTicket false (assembleTicket { b with aborted := true } s.seconds)
      { s with co.weigh := none, heat.permit := none } := by
  unfold endWeighAborted
  rw [h]
  dsimp only
  rw [hleft]
  rfl

/-- With one batch in the stages its ticket alone is handed over before the closings. -/
theorem stopWrites_of_batch {s : State} {b : Batch} (hleft : b.orderLeft = false)
    (h : (s.co.mix = some b ∧ s.co.weigh = none) ∨ (s.co.weigh = some b ∧ s.co.mix = none)) :
    ∃ x, stopWrites (stopBlocks s) = closeAllAborted (handTicket false (stopTicket s b) x) ∧
      x.nu = (stopBlocks s).nu ∧ x.port = (stopBlocks s).port ∧ x.mem = (stopBlocks s).mem ∧
      x.oe = (stopBlocks s).oe ∧ x.rc = (stopBlocks s).rc ∧ x.co.mix = none := by
  obtain ⟨-, -, -, -, hsec, -, hco, -⟩ := stopBlocks_fields s
  have hmixed : (stopBlocks s).co.mix = s.co.mix.map fun b =>
      { b with aborted := true, results := stopResults s.mixer } := by rw [hco]
  have hweighed : (stopBlocks s).co.weigh = s.co.weigh := by rw [hco]
  unfold stopWrites
  rcases h with ⟨hm, hw⟩ | ⟨hw, hm⟩
  · have hticket : stopTicket s b =
        assembleTicket { b with aborted := true, results := stopResults s.mixer } (stopBlocks s).seconds := by
      unfold stopTicket
      rw [if_neg (by rw [hm]; simp), hsec]
    rw [hm] at hmixed
    obtain ⟨-, -, hweigh, -⟩ := (handTicket_queueSide false (stopTicket s b)
      { stopBlocks s with co.mix := none }).stopSide
    rw [endMixBatch_of_some hmixed hleft, ← hticket, endWeighAborted_of_none (hweigh (hweighed.trans hw))]
    exact ⟨{ stopBlocks s with co.mix := none }, rfl, rfl, rfl, rfl, rfl, rfl, rfl⟩
  · have hticket : stopTicket s b = assembleTicket { b with aborted := true } (stopBlocks s).seconds := by
      unfold stopTicket
      rw [if_pos hm, hsec]
    rw [hm] at hmixed
    rw [endMixBatch_of_none hmixed, endWeighAborted_of_some (hweighed.trans hw) hleft, ← hticket]
    exact ⟨{ stopBlocks s with co.weigh := none, heat.permit := none }, rfl, rfl, rfl, rfl, rfl, rfl, hmixed⟩

theorem stopBlocks_rd {s : State} (hnone : s.port.waiting = []) (hroom : s.nu.list.length < 16)
    (hwf : Memory.wf s.mem = true) {a : Nat} (ha : Win.partState + 2 ≤ a) : (stopBlocks s).rd a = s.rd a := by
  obtain ⟨-, -, hmem⟩ := stopBlocks_of_room hnone hroom
  rw [State.rd_of_mem hmem, State.rd_wr_other hwf _ (.inr ha)]

theorem slot_above_partState (n k : Nat) : Win.partState + 2 ≤ Win.slot n + k := by
  unfold Win.partState Win.slot; omega

section
variable {s : State} (hnone : s.port.waiting = []) (hroom : s.nu.list.length < 16)
  (hwf : Memory.wf s.mem = true)
include hnone hroom hwf

theorem stopBlocks_slotKept (n : Nat) (w : Word) : slotKept n w (stopBlocks s) ↔ slotKept n w s := by
  unfold slotKept
  rw [stopBlocks_rd hnone hroom hwf (slot_above_partState n 2),
    show (stopBlocks s).rd (Win.slot n) = s.rd (Win.slot n) from
      stopBlocks_rd hnone hroom hwf (slot_above_partState n 0)]

theorem stopBlocks_closingNotice (c : OrderOutcome) (o : Order) :
    closingNotice (stopBlocks s) c o = closingNotice s c o := by
  unfold closingNotice
  rw [stopBlocks_rd hnone hroom hwf (slot_above_partState o.slot 2),
    show (stopBlocks s).rd (Win.slot o.slot) = s.rd (Win.slot o.slot) from
      stopBlocks_rd hnone hroom hwf (slot_above_partState o.slot 0)]

theorem stopBlocks_wf : Memory.wf (stopBlocks s).mem = true := by
  obtain ⟨-, -, hmem⟩ := stopBlocks_of_room hnone hroom
  rw [hmem]
  exact State.wr_wf hwf _ _

/-- With the stages empty every queued order closes ABORTED behind PLANT STOP. -/
theorem stopWrites_of_orders (hw : s.co.weigh = none) (hm : s.co.mix = none)
    (hlen : s.nu.list.length + s.oe.queue.length < 16)
    (hpair : s.oe.queue.Pairwise (fun o p => o.slot ≠ p.slot)) (hheld : ∀ o ∈ s.oe.queue, o.held = []) :
    let u := stopWrites (stopBlocks s)
    u.nu = { s.nu with
      list := s.nu.list ++ (plantStopNotice s :: s.oe.queue.map (closingNotice s .aborted)) } ∧
    ∀ o ∈ s.oe.queue, slotKept o.slot o.number s → u.rd (Win.slot o.slot) = 4 ∧
      u.rd (Win.slot o.slot + 0x40) = 4 ∧ u.rd (Win.slot o.slot + 0x42) = 0 ∧
      u.rd32 (Win.slot o.slot + 0x4C) = s.seconds := by
  obtain ⟨-, -, hoe, -, hsec, -, hco, -⟩ := stopBlocks_fields s
  obtain ⟨hnu, hport, -⟩ := stopBlocks_of_room hnone hroom
  have hwrites : stopWrites (stopBlocks s) =
      s.oe.queue.foldl (fun s o => closeOrder o .aborted s) (stopBlocks s) := by
    unfold stopWrites
    rw [endMixBatch_of_none (by rw [hco]; simp [hm]), endWeighAborted_of_none (by rw [hco]; exact hw),
      closeAllAborted, hoe]
  obtain ⟨knu, -, kkept⟩ := closings_of_room s.oe.queue (s := stopBlocks s) (by rw [hport]; exact hnone)
    (stopBlocks_wf hnone hroom hwf) (by rw [hnu]; simp; omega) hpair hheld
  rw [hwrites]
  refine ⟨?_, fun o ho hkept => ?_⟩
  · rw [knu, hnu]
    simp [stopBlocks_closingNotice hnone hroom hwf]
  · rw [← hsec]
    exact kkept o ho ((stopBlocks_slotKept hnone hroom hwf _ _).mpr hkept)

end

/-- A batch that a stop ends gets its ticket whole in a kept slot, its order closed behind it; a slot not kept is
seized with the ticket (R27, R69). -/
theorem stopWrites_of_single {s : State} {o : Order} {b : Batch} (hnone : s.port.waiting = [])
    (hwf : Memory.wf s.mem = true) (hroom : s.nu.list.length < 14) (hq : s.oe.queue = [o]) (hheld : o.held = [])
    (hslot : b.slot = o.slot) (hnumber : b.order = o.number) (hleft : b.orderLeft = false)
    (h : (s.co.mix = some b ∧ s.co.weigh = none) ∨ (s.co.weigh = some b ∧ s.co.mix = none)) :
    let u := stopWrites (stopBlocks s)
    let t := stopTicket s b
    let a := Win.slot o.slot
    (slotKept o.slot o.number s → u.rd a = 4 ∧ u.rd (a + 0x40) = 4 ∧
      u.rd (a + 0x46) = natWord (o.tickets + 1) ∧
      (∀ k, k < 32 → u.rd (Win.ticket o.slot b.index + 2 * k) = (ticketWords t).getD k 0) ∧
      u.nu = { s.nu with list := s.nu.list ++ [plantStopNotice s,
        ⟨o.slot, o.number, b.seq, .batchDone o.load b.index .aborted b.flags (o.tickets + 1)⟩,
        ⟨o.slot, o.number, 0, .orderClosed o.load .aborted .none (o.tickets + 1)⟩] }) ∧
    (¬slotKept o.slot o.number s → u.nu = { s.nu with list := s.nu.list ++ [plantStopNotice s,
      ⟨o.slot, o.number, b.seq, .slotSeizedTicket (s.rd a) (s.rd (a + 2)) t⟩] }) := by
  have hroom16 : s.nu.list.length < 16 := by omega
  obtain ⟨x, hx, xnu, xport, xmem, xoe, xrc, xmix⟩ := stopWrites_of_batch hleft h
  obtain ⟨-, -, hoe, -, -, -, -, hrc⟩ := stopBlocks_fields s
  obtain ⟨hnu, hport, -⟩ := stopBlocks_of_room hnone hroom16
  have xnone : x.port.waiting = [] := by rw [xport, hport]; exact hnone
  have xqueue : x.oe.queue = [o] := by rw [xoe, hoe]; exact hq
  have xlist : x.nu.list.length = s.nu.list.length + 1 := by rw [xnu, hnu]; simp
  have xkept : slotKept o.slot o.number x ↔ slotKept o.slot o.number s := by
    rw [← stopBlocks_slotKept hnone hroom16 hwf o.slot o.number]
    unfold slotKept
    rw [State.rd_of_mem xmem, State.rd_of_mem xmem]
  intro u t a
  have hu : u = _ := hx
  rw [hu]
  refine ⟨fun hkept => ?_, fun hkept => ?_⟩
  · obtain ⟨h0, h1, h2, h3, h4⟩ := stopTicket_of_kept (t := t) xqueue hslot hnumber xmix xnone hheld
      (by rw [xrc, hrc]) (by rw [xmem]; exact stopBlocks_wf hnone hroom16 hwf) (by omega) (xkept.mpr hkept)
    refine ⟨h0, h1, h2, h3, h4.trans ?_⟩
    rw [xnu, hnu]
    dsimp only
    rw [List.append_assoc]
    rfl
  · rw [stopTicket_of_not_kept (t := t) xqueue hslot hnumber xmix xnone hheld (by omega) (mt xkept.mp hkept),
      xnu, hnu, State.rd_of_mem xmem, State.rd_of_mem xmem,
      stopBlocks_rd hnone hroom16 hwf (slot_above_partState o.slot 2),
      show (stopBlocks s).rd (Win.slot o.slot) = s.rd (Win.slot o.slot) from
        stopBlocks_rd hnone hroom16 hwf (slot_above_partState o.slot 0)]
    dsimp only
    rw [List.append_assoc]
    rfl

/-- Settles O46. -/
theorem plantStopStops : Obligations.PlantStopStops := by
  intro s hfree held notice
  obtain ⟨hhigh, hnone⟩ := (arbiterFree_iff s).mp hfree
  rw [exec_plantStop hhigh]
  refine ⟨fun h => by rw [pulseReached_of_other h], fun h hpart => ?_, fun h hpart hroom => ?_,
    fun hpart hlow => ?_, fun h hpart => ?_⟩
  · rw [pulseReached_of_timing h, plantStop_discarded (s := lineHeld s) hpart]
    rfl
  · intro u
    have heq : plantStop (lineHeld s) = u := plantStop_posts (s := lineHeld s) hpart hroom
    rw [pulseReached_of_timing h, heq]
    refine ⟨rfl, fun how hfix => ?_⟩
    have hne : u.rc.part ≠ .run := by
      change s.rc.part ≠ .run
      rcases hpart with hp | hp | hp <;> rw [hp] <;> simp
    rw [settle_outside_run hne how, followQueue_fixed (t := u) hfix rfl rfl rfl rfl]
  · have hrefuses : accepts bitRun s = false := by
      rw [accepts_run, hpart, beq_eq_false_iff_ne.mpr hlow]
      rfl
    exact congrArg _ (controlCommand_of_refused hhigh .run hrefuses)
  · intro aborted
    rw [pulseReached_of_timing h, plantStop_of_run (s := lineHeld s) hpart]
    obtain ⟨hch, hmixer, hinp, hwalker, hpos, hlit, hl1, hl2, hcount, hweigh, hmix, hrc⟩ :=
      enterStopped_fields (lineHeld s)
    have hchan (sc : Scale) : (enterStopped (lineHeld s)).chan sc = stoppedChannel (s.chan sc) := by
      unfold State.chan
      rw [hch]
      exact PerScale.get_map _ _ _
    refine ⟨_, rfl, by rw [hrc], by rw [hrc], by rw [hrc], by rw [hrc], by rw [hrc]; rfl, fun sc => ?_, ?_,
      by rw [hmixer]; rfl, by rw [hmixer]; rfl, by rw [hmixer]; rfl, by rw [hmixer]; rfl, by rw [hmixer]; rfl, ?_,
      fun huncut hroom => ⟨?_, fun hw hm hwf hlen hpair hall => ?_,
        fun o b hq hheld hs hslot hnumber hleft hlo hhi hwf hroom hone => ?_⟩,
      hlit, hl1, hl2, hweigh, hmix, hcount, fun huncut => ?_, fun hw hm hq hroom => ?_, hwalker, hpos, hinp⟩
    · intro c
      rw [hchan]
      obtain ⟨hfeed, hgate⟩ := stoppedChannel_off c
      exact ⟨hfeed, hgate, stoppedChannel_net c, stoppedChannel_fault, stoppedChannel_other⟩
    · have hany : (s.ch.map stoppedChannel).any reportsMaterial = true ↔
          ∃ sc, (stoppedChannel (s.chan sc)).state = .weighed ∨ ((stoppedChannel (s.chan sc)).state = .fault ∧
            emptyThr (stoppedChannel (s.chan sc)) ≤ (stoppedChannel (s.chan sc)).net) := by
        simp only [PerScale.any_iff, PerScale.get_map, reportsMaterial_iff, State.chan]
      simp only [hchan]
      rw [hrc, ← hany]
      exact Iff.of_eq (Bool.or_eq_true s.rc.clearRequired ((s.ch.map stoppedChannel).any reportsMaterial))
    · rw [hmixer]
      simp [stoppedMixer, lineHeld, or_assoc]
    · obtain ⟨-, -, hoe, -, -, -, hco, -⟩ := stopBlocks_fields (lineHeld s)
      obtain ⟨hnu, -, -⟩ := stopBlocks_of_room (s := lineHeld s) hnone hroom
      exact ⟨stopBlocks (lineHeld s), enterStopped_of_uncut (s := lineHeld s) huncut, hnu, hoe, hco⟩
    · rw [enterStopped_of_uncut (s := lineHeld s) huncut]
      obtain ⟨hnu, hkept⟩ := stopWrites_of_orders (s := lineHeld s) hnone hroom hwf hw hm hlen hpair
        fun o ho => (hall o ho).2
      exact ⟨hnu, fun o ho hk => hkept o ho hk.symm⟩
    · rw [enterStopped_of_uncut (s := lineHeld s) huncut]
      intro a t kept
      obtain ⟨hkept, hseized⟩ := stopWrites_of_single (s := lineHeld s) hnone hwf hroom hq hheld hslot hnumber
        hleft hone
      exact ⟨(verdictOf_cases { b with
        aborted := true, results := if s.co.mix = none then b.results else stopResults s.mixer }).1 rfl,
        hkept, hseized⟩
    · rw [enterStopped_of_uncut (s := lineHeld s) huncut]
      exact stopWrites_queue _
    · rw [enterStopped_of_empty (s := lineHeld s) hw hm hq]
      exact (stopBlocks_of_room (s := lineHeld s) hnone hroom).1

end Sys2Proof.Machine
end

section
/-! Withdraw and discard (R22, R23, R62): what the four stop orders of a discard do, the readings of the withdraw
watch, and WITHDRAW_WATCH (O25). -/

namespace Sys2Proof.Machine

theorem State.chan_modChan_other (s : State) {sc x : Scale} (g : Channel → Channel) (h : x ≠ sc) :
    (s.modChan sc g).chan x = s.chan x := by
  unfold State.chan
  rw [State.modChan_ch, PerScale.get_set_other _ _ h]

/-! ### Stop orders (R93, R112) -/

/-- What a stop order keeps of a batch in the weigh stage: all but its verdicts, which are only added to. -/
structure BatchTold (b b' : Batch) : Prop where
  discard : b'.discard = b.discard
  waiting : b'.waiting = b.waiting
  marked : b'.flags.discarded = b.flags.discarded
  seq : b'.seq = b.seq
  slot : b'.slot = b.slot
  order : b'.order = b.order
  reported : ∀ x, b.reported.get x = true → b'.reported.get x = true

/-- What stop orders leave unchanged: all but the channels, BIT's own state and the verdicts of the batch in the
weigh stage. -/
structure StopsOnly (s t : State) : Prop where
  frame : t = { s with ch := t.ch, bit := t.bit, co.weigh := t.co.weigh }
  weigh : ∃ f : Batch → Batch, (∀ b, BatchTold b (f b)) ∧ t.co.weigh = s.co.weigh.map f

/-- A change of the channels and of BIT's own state alone. -/
theorem StopsOnly.of_frame {s t : State} (h : t = { s with ch := t.ch, bit := t.bit }) : StopsOnly s t :=
  ⟨by rw [h], id, fun _ => ⟨rfl, rfl, rfl, rfl, rfl, rfl, fun _ => id⟩, by rw [h, Option.map_id]; rfl⟩

theorem StopsOnly.refl (s : State) : StopsOnly s s := .of_frame rfl

theorem StopsOnly.trans {s t u : State} (h : StopsOnly s t) (k : StopsOnly t u) : StopsOnly s u := by
  obtain ⟨f, hf, hweigh⟩ := h.weigh
  obtain ⟨g, hg, kweigh⟩ := k.weigh
  refine ⟨by rw [k.frame, h.frame], g ∘ f, fun b => ?_, by rw [kweigh, hweigh, Option.map_map]⟩
  obtain ⟨hd, hw, hm, hs, hl, ho, hr⟩ := hf b
  obtain ⟨kd, kw, km, ks, kl, ko, kr⟩ := hg (f b)
  exact ⟨kd.trans hd, kw.trans hw, km.trans hm, ks.trans hs, kl.trans hl, ko.trans ho, fun x hx => kr x (hr x hx)⟩

/-- The scale's verdict stands in the record of the batch in the weigh stage, if there is one. -/
def reportedIn (sc : Scale) (s : State) : Prop := ∀ b, s.co.weigh = some b → b.reported.get sc = true

theorem StopsOnly.reportedIn {s t : State} (h : StopsOnly s t) {sc : Scale} (hs : reportedIn sc s) :
    Machine.reportedIn sc t := by
  obtain ⟨f, hf, hweigh⟩ := h.weigh
  intro b' hb'
  rw [hweigh] at hb'
  obtain ⟨b, hb, rfl⟩ := Option.map_eq_some_iff.mp hb'
  exact (hf b).reported sc (hs b hb)

theorem reachWeighed_stopsOnly (sc : Scale) (n : Int) (s : State) : StopsOnly s (reachWeighed sc n s) := by
  refine ⟨rfl, _, ?_, rfl⟩
  refine fun b => ⟨rfl, rfl, rfl, rfl, rfl, rfl, fun x hx => ?_⟩
  dsimp only
  by_cases h : x = sc
  · rw [h, PerScale.get_set_same]
  · rw [PerScale.get_set_other _ _ h, hx]

/-- A channel that reaches WEIGHED has its feeds off and its verdict reported; the others stay. -/
theorem reachWeighed_weighed (sc : Scale) (n : Int) (s : State) :
    ((reachWeighed sc n s).chan sc).state = .weighed ∧ ((reachWeighed sc n s).chan sc).feed = none ∧
      reportedIn sc (reachWeighed sc n s) ∧ ∀ x, x ≠ sc → (reachWeighed sc n s).chan x = s.chan x := by
  have hchan : ∀ x, (reachWeighed sc n s).chan x = (s.modChan sc fun c =>
      { c with state := .weighed, feed := none, gate := false, todo := [], gapHold := false, pauseHold := false,
               stopOrder := false }).chan x := fun _ => rfl
  refine ⟨?_, ?_, fun b hb => ?_, fun x hx => ?_⟩
  · rw [hchan, State.chan_modChan_same]
  · rw [hchan, State.chan_modChan_same]
  · obtain ⟨b0, -, rfl⟩ := Option.map_eq_some_iff.mp hb
    exact PerScale.get_set_same _ _ _
  · rw [hchan, State.chan_modChan_other _ _ hx]

theorem bitReport_stopsOnly (a : Int) (o : DoseOutcome) (s : State) : StopsOnly s (bitReport a o s) :=
  .trans (.of_frame rfl) (reachWeighed_stopsOnly .bit a { s.modChan .bit fun c => { c with
    results := [⟨(s.chan .bit).dose.entry.source, a, o⟩] } with bit.target := .none })

theorem bitReport_weighed (a : Int) (o : DoseOutcome) (s : State) :
    ((bitReport a o s).chan .bit).state = .weighed ∧ ((bitReport a o s).chan .bit).feed = none ∧
      ∀ x, x ≠ .bit → (bitReport a o s).chan x = s.chan x := by
  obtain ⟨hstate, hfeed, -, hother⟩ := reachWeighed_weighed .bit a { s.modChan .bit fun c => { c with
    results := [⟨(s.chan .bit).dose.entry.source, a, o⟩] } with bit.target := .none }
  exact ⟨hstate, hfeed, fun x hx => (hother x hx).trans (State.chan_modChan_other s (sc := .bit) (fun c => { c with
    results := [⟨(s.chan .bit).dose.entry.source, a, o⟩] }) hx)⟩

theorem dropTarget_stopsOnly (sc : Scale) (s : State) : StopsOnly s (dropTarget sc s) := by
  unfold dropTarget
  split
  · exact .of_frame rfl
  · exact .refl s

@[simp] theorem dropTarget_ch (sc : Scale) (s : State) : (dropTarget sc s).ch = s.ch := by
  unfold dropTarget
  split <;> rfl

@[simp] theorem dropTarget_chan (sc x : Scale) (s : State) : (dropTarget sc s).chan x = s.chan x := by
  unfold State.chan
  rw [dropTarget_ch]

/-- What a stop order does to the channel it reaches (R93, R112). -/
structure Told (sc : Scale) (s t : State) : Prop where
  dosing : ∀ p, (s.chan sc).state = .dosing p →
    (t.chan sc).state = .weighed ∧ (t.chan sc).feed = none ∧ reportedIn sc t
  taring : (s.chan sc).state = .taring → (t.chan sc).state = .taring ∧ (t.chan sc).stopOrder = true
  prefed : sc = .bit → (s.chan sc).state = .prefed → (t.chan sc).state = .weighed
  fault : (s.chan sc).state = .fault → t.chan sc = s.chan sc
  off : (s.chan sc).feed = none → (t.chan sc).feed = none

theorem stopChannel_told (sc : Scale) (s : State) : StopsOnly s (stopChannel sc s) ∧
    Told sc s (stopChannel sc s) ∧ ∀ x, x ≠ sc → (stopChannel sc s).chan x = s.chan x := by
  have hdrop := dropTarget_stopsOnly sc s
  unfold stopChannel
  dsimp only
  rw [dropTarget_chan]
  have hnot {x y : ChanState} (h : (s.chan sc).state = x) (k : (s.chan sc).state = y) (hne : x ≠ y) {p : Prop} : p :=
    absurd (h.symm.trans k) hne
  have hstays (h : (s.chan sc).state ≠ .taring) (k : ∀ p, (s.chan sc).state ≠ .dosing p)
      (hp : sc = .bit → (s.chan sc).state ≠ .prefed) : StopsOnly s (dropTarget sc s) ∧
        Told sc s (dropTarget sc s) ∧ ∀ x, x ≠ sc → (dropTarget sc s).chan x = s.chan x :=
    ⟨hdrop, ⟨fun p hd => absurd hd (k p), fun ht => absurd ht h, fun hb hb' => absurd hb' (hp hb),
      fun _ => dropTarget_chan sc sc s, fun hf => by rw [dropTarget_chan, hf]⟩, fun x _ => dropTarget_chan sc x s⟩
  cases hst : (s.chan sc).state with
  | taring =>
    have hself : ((dropTarget sc s).modChan sc fun c => { c with stopOrder := true }).chan sc =
        { s.chan sc with stopOrder := true } := by rw [State.chan_modChan_same, dropTarget_chan]
    refine ⟨hdrop.trans (.of_frame rfl), ⟨fun p h => hnot hst h (by simp), fun _ => ?_, fun _ h => hnot hst h (by simp),
      fun h => hnot hst h (by simp), fun hf => ?_⟩, fun x hx => ?_⟩
    · rw [hself]
      exact ⟨hst, rfl⟩
    · rw [hself]
      exact hf
    · rw [State.chan_modChan_other _ _ hx, dropTarget_chan]
  | dosing q =>
    obtain ⟨hstate, hfeed, hrep, hother⟩ := reachWeighed_weighed sc (s.chan sc).net
      ((dropTarget sc s).modChan sc fun c => { c with results := c.results ++
        ⟨c.dose.entry.source, Machine.dosed c, .notDosed⟩ :: undosed c.todo })
    refine ⟨(hdrop.trans (.of_frame rfl)).trans (reachWeighed_stopsOnly _ _ _),
      ⟨fun _ _ => ⟨hstate, hfeed, hrep⟩, fun h => hnot hst h (by simp), fun _ _ => hstate,
        fun h => hnot hst h (by simp), fun _ => hfeed⟩, fun x hx => ?_⟩
    dsimp only
    rw [hother x hx, State.chan_modChan_other _ _ hx, dropTarget_chan]
  | prefed =>
    dsimp only
    split
    · next hbit =>
      subst hbit
      obtain ⟨hstate, hfeed, hother⟩ := bitReport_weighed (dropTarget .bit s).bit.prefed .notDosed (dropTarget .bit s)
      exact ⟨hdrop.trans (bitReport_stopsOnly _ _ _), ⟨fun p h => hnot hst h (by simp),
        fun h => hnot hst h (by simp), fun _ _ => hstate, fun h => hnot hst h (by simp), fun _ => hfeed⟩,
        fun x hx => (hother x hx).trans (dropTarget_chan _ _ _)⟩
    · next hbit => exact hstays (by simp [hst]) (by simp [hst]) fun h => absurd h hbit
  | changeover =>
    dsimp only
    split
    · next hbit =>
      subst hbit
      obtain ⟨hstate, hfeed, hother⟩ := bitReport_weighed 0 .notDosed (cutChangeover (dropTarget .bit s))
      exact ⟨(hdrop.trans (.of_frame rfl)).trans
          (bitReport_stopsOnly 0 .notDosed (cutChangeover (dropTarget .bit s))),
        ⟨fun p h => hnot hst h (by simp), fun h => hnot hst h (by simp), fun _ _ => hstate,
          fun h => hnot hst h (by simp), fun _ => hfeed⟩,
        fun x hx => (hother x hx).trans (dropTarget_chan .bit x s)⟩
    · exact hstays (by simp [hst]) (by simp [hst]) (by simp [hst])
  | idle | weighed | discharging | fault => exact hstays (by simp [hst]) (by simp [hst]) (by simp [hst])

/-- Stop orders to some channels, each at most once: each is told, and the others stay. -/
theorem stopChannels_told (l : List Scale) : ∀ s : State, l.Nodup →
    let t := l.foldl (fun s sc => stopChannel sc s) s
    StopsOnly s t ∧ (∀ sc ∈ l, Told sc s t) ∧ ∀ x, x ∉ l → t.chan x = s.chan x := by
  induction l with
  | nil => exact fun s _ => ⟨.refl s, fun _ h => absurd h (by simp), fun _ _ => rfl⟩
  | cons a l ih =>
    intro s hnodup
    obtain ⟨hnot, hrest⟩ := List.nodup_cons.mp hnodup
    obtain ⟨hone, htold, hother⟩ := stopChannel_told a s
    obtain ⟨kone, ktold, kother⟩ := ih (stopChannel a s) hrest
    refine ⟨hone.trans kone, fun sc hsc => ?_, fun x hx => ?_⟩
    · rcases List.mem_cons.mp hsc with rfl | hsc
      · have hsame := kother sc hnot
        refine ⟨fun p h => ?_, fun h => ?_, fun hb h => ?_, fun h => ?_, fun h => ?_⟩
        · obtain ⟨hstate, hfeed, hrep⟩ := htold.dosing p h
          refine ⟨by rw [List.foldl_cons, hsame, hstate], by rw [List.foldl_cons, hsame, hfeed],
            kone.reportedIn hrep⟩
        · obtain ⟨hstate, hstop⟩ := htold.taring h
          exact ⟨by rw [List.foldl_cons, hsame, hstate], by rw [List.foldl_cons, hsame, hstop]⟩
        · rw [List.foldl_cons, hsame, htold.prefed hb h]
        · rw [List.foldl_cons, hsame, htold.fault h]
        · rw [List.foldl_cons, hsame, htold.off h]
      · have hne : sc ≠ a := fun h => hnot (h ▸ hsc)
        obtain ⟨hd, ht, hp, hf, ho⟩ := ktold sc hsc
        rw [hother sc hne] at hd ht hp hf ho
        exact ⟨hd, ht, hp, hf, ho⟩
    · obtain ⟨hxa, hxl⟩ := not_or.mp (mt List.mem_cons.mpr hx)
      rw [List.foldl_cons, kother x hxl, hother x hxa]

theorem stopAllChannels_told (s : State) :
    StopsOnly s (stopAllChannels s) ∧ ∀ sc, Told sc s (stopAllChannels s) := by
  obtain ⟨honly, htold, -⟩ := stopChannels_told Scale.all s (by decide)
  exact ⟨honly, fun sc => htold sc (by cases sc <;> decide)⟩

/-! ### A discard (R62) -/

/-- The weigh-stage batch as a discard marks it. -/
def discardMarked (b : Batch) : Batch := { b with discard := true, waiting := false, flags.discarded := true }

theorem discardIfWeighing_of_lost {s : State} {o : Order} {b : Batch} (hb : s.co.weigh = some b)
    (hleft : b.orderLeft = true) : discardIfWeighing o s = s := by
  unfold discardIfWeighing
  rw [hb]
  dsimp only
  rw [if_neg (by simp [ofOrder, hleft])]

theorem discardIfWeighing_of_own {s : State} {o : Order} {b : Batch} (hb : s.co.weigh = some b)
    (hslot : b.slot = o.slot) (hnumber : b.order = o.number) (hleft : b.orderLeft = false)
    (habort : b.aborted = false) : discardIfWeighing o s =
      stopAllChannels { s with co.weigh := some (discardMarked b), heat.permit := none } := by
  unfold discardIfWeighing discardBatch
  rw [hb]
  dsimp only
  rw [if_pos (by simp [ofOrder, hleft, hslot, hnumber]), if_neg (Bool.eq_false_iff.mp habort)]
  rfl

/-! ### The readings of the watch (R22, R23a) -/

/-- The withdraw request at an order's slot. -/
def requested (s : State) (o : Order) : Level := Level.ofWord (s.rd (Win.slot o.slot + Win.slotWithdraw))

/-- The queue with the level of one order raised, as the heat controller sees it (R20, R146). -/
def levelRaised (o : Order) (l : Level) (s : State) : State :=
  followQueue (modOrder o.slot o.number (fun x => { x with level := l }) s)

theorem readWithdraw_of_lower {s : State} (hnone : s.port.waiting = []) {o : Order}
    (h : (requested s o).rank ≤ o.level.rank) : readWithdraw o s = s := by
  unfold readWithdraw raiseLevel
  dsimp only
  rw [gap_of_none hnone]
  exact if_neg (Nat.not_lt.mpr h)

theorem readWithdraw_of_withdraw {s : State} (hnone : s.port.waiting = []) {o : Order}
    (h : requested s o = .withdraw) (hlevel : o.level = .none) :
    readWithdraw o s = closeTest o.slot o.number (levelRaised o .withdraw s) := by
  unfold readWithdraw raiseLevel
  dsimp only
  rw [gap_of_none hnone, ← requested, h, hlevel]
  rfl

theorem readWithdraw_of_discard {s : State} (hnone : s.port.waiting = []) {o : Order}
    (h : requested s o = .discard) (hlevel : o.level ≠ .discard) :
    readWithdraw o s = closeTest o.slot o.number (discardIfWeighing o (levelRaised o .discard s)) := by
  unfold readWithdraw raiseLevel
  dsimp only
  rw [gap_of_none hnone, ← requested, h, if_pos (by cases hl : o.level <;> simp_all [Level.rank]), if_pos rfl]
  rfl

theorem readWithdraws_of_lower {s : State} (hnone : s.port.waiting = []) (l : List Order)
    (h : ∀ o ∈ l, (requested s o).rank ≤ o.level.rank) : l.foldl (fun s o => readWithdraw o s) s = s := by
  induction l with
  | nil => rfl
  | cons a l ih =>
    rw [List.foldl_cons, readWithdraw_of_lower hnone (h a (by simp))]
    exact ih fun o ho => h o (by simp [ho])

theorem exec_withdrawWatch {s : State} (h : s.port.resetLow = false) :
    exec .withdrawWatch s = .next (settle (periodicWatch s)) :=
  congrArg _ (event_of_high h _)

theorem periodicWatch_reads {s : State} (h : s.rc.part = .run ∨ s.rc.part = .standby) {q : List Order}
    (hq : s.oe.queue = q) :
    periodicWatch s = q.foldl (fun s o => readWithdraw o s) { s with oe.watchMs := 0 } := by
  rw [← hq]
  exact if_pos h

theorem periodicWatch_rests {s : State} (h : ¬(s.rc.part = .run ∨ s.rc.part = .standby)) :
    periodicWatch s = { s with oe.watchMs := 0 } := if_neg h

/-! ### The reading that raises the level of one order -/

def raisedTo (l : Level) (o : Order) : Order := { o with level := l }

section
variable {s : State} {o : Order} {pre post : List Order} (hq : s.oe.queue = pre ++ o :: post)
  (halone : ∀ x ∈ pre ++ post, ¬(x.slot = o.slot ∧ x.number = o.number))
include hq halone

theorem levelRaised_alone (l : Level) :
    levelRaised o l s = followQueue { s with oe.queue := pre ++ raisedTo l o :: post } := by
  have hother {x : Order} (hx : x ∈ pre ++ post) :
      (if isOrder o.slot o.number x then { x with level := l } else x) = x :=
    if_neg (mt (isOrder_iff _ _ _).mp (halone x hx))
  unfold levelRaised modOrder
  rw [hq, List.map_append, List.map_cons, List.map_congr_left fun x hx => hother (by simp [hx]), List.map_id',
    List.map_congr_left (l := post) fun x hx => hother (by simp [hx]), List.map_id',
    if_pos ((isOrder_iff _ _ _).mpr ⟨rfl, rfl⟩)]
  rfl

omit hq in
theorem findOrder_alone {t : State} (l : Level) (ht : t.oe.queue = pre ++ raisedTo l o :: post) :
    findOrder t o.slot o.number = some (raisedTo l o) := by
  have hpre : pre.find? (isOrder o.slot o.number) = none := by
    rw [List.find?_eq_none]
    exact fun x hx => by rw [isOrder_iff]; exact halone x (by simp [hx])
  have hself : isOrder o.slot o.number (raisedTo l o) = true := (isOrder_iff _ _ _).mpr ⟨rfl, rfl⟩
  unfold findOrder
  rw [ht, List.find?_append, hpre, List.find?_cons_of_pos hself]
  rfl

end

/-- An order with a batch under way stays queued. -/
theorem closeTest_of_batch {t : State} {o : Order} {l : Level}
    (hfind : findOrder t o.slot o.number = some (raisedTo l o)) (hf : o.finished < o.started)
    (hc : o.started ≤ o.count) : closeTest o.slot o.number t = t := by
  refine closeTest_of_open fun x hx => ?_
  obtain rfl := Option.some.inj (hfind.symm.trans hx)
  exact closeOutcome_of_under_way (o := raisedTo l o) (Nat.ne_of_gt (Nat.zero_lt_of_lt hf)) hf hc

theorem closeOutcome_withdrawn {o : Order} {outcome : OrderOutcome}
    (h : (o.started = 0 ∧ outcome = OrderOutcome.withdrawn) ∨
      (0 < o.started ∧ o.started < o.count ∧ o.finished = o.started ∧ outcome = OrderOutcome.partialDone)) :
    closeOutcome (raisedTo .withdraw o) = some outcome := by
  rcases h with ⟨hs, rfl⟩ | ⟨hs, hc, hf, rfl⟩
  · exact (if_pos (c := (raisedTo .withdraw o).started = 0) hs).trans (if_pos (by simp [raisedTo]))
  · rw [closeOutcome_of_last (o := raisedTo .withdraw o) (Nat.ne_of_gt hs) hf (Nat.le_of_lt hc)
      (.inl (by simp [raisedTo]))]
    exact congrArg some (if_pos (.inl hc))

theorem requested_withdraw {s : State} {o : Order} (h : s.rd (Win.slot o.slot + Win.slotWithdraw) = 1) :
    requested s o = .withdraw := by
  unfold requested
  rw [h]
  rfl

theorem requested_discard {s : State} {o : Order} (h : s.rd (Win.slot o.slot + Win.slotWithdraw) = 2) :
    requested s o = .discard := by
  unfold requested
  rw [h]
  rfl

/-- The one queued order with its level raised. -/
theorem levelRaised_single {s : State} {o : Order} (hq : s.oe.queue = [o]) (l : Level) :
    levelRaised o l s = followQueue { s with oe.queue := [raisedTo l o] } :=
  levelRaised_alone (pre := []) (post := []) hq (by simp) l

theorem findOrder_single {t : State} {o : Order} {l : Level} (hq : t.oe.queue = [raisedTo l o]) :
    findOrder t o.slot o.number = some (raisedTo l o) :=
  findOrder_alone (pre := []) (post := []) (by simp) l hq

/-- The one queued order leaves an empty queue. -/
theorem filter_single (l : Level) (o : Order) :
    [raisedTo l o].filter (fun x => !isOrder o.slot o.number x) = [] := by
  simp [isOrder, raisedTo]

theorem levelRaised_fields (o : Order) (l : Level) (s : State) :
    let t := levelRaised o l s
    t.port = s.port ∧ t.mem = s.mem ∧ t.nu = s.nu ∧ t.co = s.co ∧ t.ch = s.ch ∧ t.rc = s.rc ∧
      t.seconds = s.seconds ∧ t.oe.lookOwed = s.oe.lookOwed :=
  ⟨followQueue_port _, followQueue_mem _, followQueue_nu _, followQueue_co _, followQueue_ch _, followQueue_rc _,
    followQueue_seconds _, by
      unfold levelRaised
      rw [followQueue_oe]
      rfl⟩

theorem levelRaised_queue {s : State} {o : Order} (hq : s.oe.queue = [o]) (l : Level) :
    (levelRaised o l s).oe.queue = [raisedTo l o] := by
  rw [levelRaised_single hq, followQueue_oe]

/-- The state in which a discard gives its stop orders. -/
def discardBegun (o : Order) (b : Batch) (s : State) : State :=
  { levelRaised o .discard s with co.weigh := some (discardMarked b), heat.permit := none }

section
variable {s : State} {o : Order} (hnone : s.port.waiting = []) (hq : s.oe.queue = [o])
include hnone hq

/-- A DISCARD request stops the order's batch in the weigh stage and marks it (R23a, R62). -/
theorem readWithdraw_discards {b : Batch} (hlevel : o.level ≠ .discard)
    (hreq : s.rd (Win.slot o.slot + Win.slotWithdraw) = 2) (hf : o.finished < o.started) (hc : o.started ≤ o.count)
    (hb : s.co.weigh = some b) (hslot : b.slot = o.slot) (hnumber : b.order = o.number)
    (hleft : b.orderLeft = false) (habort : b.aborted = false) :
    ∃ v b', readWithdraw o s = v ∧
      v.oe.queue = [raisedTo .discard o] ∧ v.co.weigh = some b' ∧ b'.discard = true ∧
      b'.waiting = false ∧ b'.flags.discarded = true ∧ b'.seq = b.seq ∧ v.co.mix = s.co.mix ∧
      v.co.counter = s.co.counter ∧ v.heat.permit = none ∧ v.mem = s.mem ∧ v.nu = s.nu ∧
      (∀ sc p, (s.chan sc).state = .dosing p →
        (v.chan sc).state = .weighed ∧ (v.chan sc).feed = none ∧ b'.reported.get sc = true) ∧
      (∀ sc, sc ≠ .bit → (s.chan sc).state = .taring →
        (v.chan sc).state = .taring ∧ (v.chan sc).stopOrder = true) ∧
      ((s.chan .bit).state = .prefed → (v.chan .bit).state = .weighed) := by
  obtain ⟨-, hmem, hnu, hco, hch, -⟩ := levelRaised_fields o .discard s
  obtain ⟨⟨hframe, f, hf', hweigh⟩, htold⟩ := stopAllChannels_told (discardBegun o b s)
  obtain ⟨hdiscard, hwaiting, hmarked, hseq, -⟩ := hf' (discardMarked b)
  have hchan (sc : Scale) : (discardBegun o b s).chan sc = s.chan sc := congrArg (·.get sc) hch
  have hread : readWithdraw o s = closeTest o.slot o.number (stopAllChannels (discardBegun o b s)) := by
    rw [readWithdraw_of_discard hnone (requested_discard hreq) hlevel,
      discardIfWeighing_of_own (by rw [hco, hb]) hslot hnumber hleft habort]
    rfl
  have hqueue : (stopAllChannels (discardBegun o b s)).oe.queue = [raisedTo .discard o] := by
    rw [hframe]
    exact levelRaised_queue hq .discard
  rw [closeTest_of_batch (findOrder_single hqueue) hf hc] at hread
  refine ⟨_, f (discardMarked b), hread, hqueue, hweigh, hdiscard, hwaiting, hmarked, hseq, ?_, ?_, ?_, ?_, ?_,
    fun sc p hp => ?_, fun sc _ ht => (htold sc).taring ((congrArg _ (hchan sc)).trans ht),
    fun hp => (htold .bit).prefed rfl ((congrArg _ (hchan .bit)).trans hp)⟩
  · rw [hframe, ← hco]
    rfl
  · rw [hframe, ← hco]
    rfl
  · rw [hframe]
    rfl
  · rw [hframe]
    exact hmem
  · rw [hframe]
    exact hnu
  · obtain ⟨hstate, hfeed, hrep⟩ := (htold sc).dosing p ((congrArg _ (hchan sc)).trans hp)
    exact ⟨hstate, hfeed, hrep _ hweigh⟩

/-- A WITHDRAW request closes an order with nothing under way, in its slot or by seizure (R22, R24, R27). -/
theorem readWithdraw_closes {outcome : OrderOutcome} (hlevel : o.level = .none)
    (hreq : s.rd (Win.slot o.slot + Win.slotWithdraw) = 1) (hroom : s.nu.list.length < 16)
    (hwf : Memory.wf s.mem = true) (hpart : s.rc.part ≠ .stopped)
    (hout : (o.started = 0 ∧ outcome = OrderOutcome.withdrawn) ∨
      (0 < o.started ∧ o.started < o.count ∧ o.finished = o.started ∧ outcome = OrderOutcome.partialDone)) :
    let a := Win.slot o.slot
    (slotKept o.slot o.number s → ∃ v, readWithdraw o s = v ∧ v.oe.queue = [] ∧ v.rd a = 4 ∧
      v.rd (a + 0x40) = BitVec.ofNat 16 outcome.code ∧ v.rd (a + 0x42) = 0 ∧ v.rd32 (a + 0x4C) = s.seconds ∧
      v.nu = { s.nu with list := s.nu.list ++ [⟨o.slot, o.number, 0, .orderClosed o.load outcome .none o.tickets⟩] } ∧
      v.oe.lookOwed = s.oe.lookOwed + 1 ∧ v.co = loseIn o.slot o.number s.co ∧ v.ch = s.ch ∧ v.rc = s.rc ∧
      ∀ b, (b < a ∨ a + 0x80 ≤ b) → v.byteAt b = s.byteAt b) ∧
    (¬slotKept o.slot o.number s → o.held = [] → ∃ v, readWithdraw o s = v ∧ v.oe.queue = [] ∧ v.mem = s.mem ∧
      v.nu = { s.nu with list := s.nu.list ++
        [⟨o.slot, o.number, 0, .slotSeizedClose (s.rd a) (s.rd (a + 2)) outcome⟩] } ∧
      v.oe.lookOwed = s.oe.lookOwed + 1 ∧ v.co = loseIn o.slot o.number s.co ∧ v.ch = s.ch ∧ v.rc = s.rc) := by
  obtain ⟨hport, hmem, hnu, hco, hch, hrc, hsec, howed⟩ := levelRaised_fields o .withdraw s
  have hqueue := levelRaised_queue hq .withdraw
  rw [readWithdraw_of_withdraw hnone (requested_withdraw hreq) hlevel,
    closeTest_of_done (findOrder_single hqueue) (closeOutcome_withdrawn hout) (by rw [hrc]; exact hpart)]
  generalize levelRaised o .withdraw s = w at *
  have hkept : slotKept o.slot o.number w ↔ slotKept o.slot o.number s := by
    unfold slotKept
    rw [State.rd_of_mem hmem, State.rd_of_mem hmem]
  have hwaiting : w.port.waiting = [] := by rw [hport, hnone]
  have hwf' : Memory.wf w.mem = true := by rw [hmem]; exact hwf
  have hroom' : w.nu.list.length < 16 := by rw [hnu]; exact hroom
  refine ⟨fun hown => ?_, fun hnot hheld => ?_⟩
  · rw [closeOrder_of_kept (o := raisedTo .withdraw o) hwaiting hwf' (hkept.mpr hown) hroom']
    have hwritten := orderClosed_mem (raisedTo .withdraw o) outcome w
    have hframe := orderClosed_frame (raisedTo .withdraw o) outcome w
    obtain ⟨hstate, hcode, hrefusal, hstamp⟩ := closedWords_rd hwf' (raisedTo .withdraw o) outcome
    refine ⟨_, rfl, ?_, (State.rd_of_mem hwritten _).trans hstate, (State.rd_of_mem hwritten _).trans hcode,
      (State.rd_of_mem hwritten _).trans hrefusal, (State.rd32_of_mem hwritten _).trans (hstamp.trans hsec),
      ?_, ?_, ?_, ?_, ?_, fun b hb => ?_⟩
    · rw [hframe, hqueue]
      exact filter_single .withdraw o
    · rw [hframe, hnu]
      rfl
    · rw [hframe, howed]
    · rw [hframe, hco]
      rfl
    · rw [hframe, hch]
    · rw [hframe, hrc]
    · have hslot : Win.slot (raisedTo .withdraw o).slot = Win.slot o.slot := rfl
      rw [State.byteAt_of_mem hwritten, closedWords_byteAt hwf' (raisedTo .withdraw o) outcome (by omega) (by omega)
        (by omega), State.byteAt_of_mem hmem]
  · rw [closeOrder_of_not_kept (o := raisedTo .withdraw o) hwaiting (mt hkept.mp hnot) hheld hroom', dropOrder_frame]
    refine ⟨_, rfl, ?_, hmem, ?_, congrArg (· + 1) howed, congrArg (loseIn o.slot o.number) hco, hch, hrc⟩
    · dsimp only [orderLeaves]
      rw [hqueue]
      exact filter_single .withdraw o
    · dsimp only [orderLeaves]
      rw [hnu, State.rd_of_mem hmem, State.rd_of_mem hmem]
      rfl

end

/-- Settles O25. -/
theorem withdrawWatchRaises : Obligations.WithdrawWatchRaises := by
  intro s hfree u request
  obtain ⟨hhigh, hnone⟩ := (arbiterFree_iff s).mp hfree
  rw [exec_withdrawWatch hhigh]
  refine ⟨fun hrun hstandby => ?_, fun hlower => ?_, fun hpart => ⟨fun o pre post hq hothers hlevel hreq hf hc => ?_,
    fun o b hq hlevel hreq hf hc hb hleft => ?_, fun o b hq hlevel hreq hf hc hb hslot hnumber hleft habort => ?_,
    fun o outcome hq hlevel hreq hslot hroom hwf hout => ?_⟩⟩
  · rw [periodicWatch_rests (by simp [hrun, hstandby])]
  · by_cases hpart : s.rc.part = .run ∨ s.rc.part = .standby
    · rw [periodicWatch_reads hpart rfl, readWithdraws_of_lower (s := u) hnone s.oe.queue hlower]
    · rw [periodicWatch_rests hpart]
  · have halone : ∀ x ∈ pre ++ post, ¬(x.slot = o.slot ∧ x.number = o.number) := fun x hx => (hothers x hx).2
    have hu : u.oe.queue = pre ++ o :: post := hq
    have hraised := levelRaised_alone hu halone .withdraw
    have hfind : findOrder (levelRaised o .withdraw u) o.slot o.number = some (raisedTo .withdraw o) :=
      findOrder_alone halone .withdraw (by rw [hraised, followQueue_oe])
    rw [periodicWatch_reads hpart hq, List.foldl_append, List.foldl_cons,
      readWithdraws_of_lower (s := u) hnone pre fun x hx => (hothers x (by simp [hx])).1,
      readWithdraw_of_withdraw (s := u) hnone (requested_withdraw (s := u) hreq) hlevel,
      closeTest_of_batch hfind hf hc, hraised, readWithdraws_of_lower (by rw [followQueue_port]; exact hnone) post
        fun x hx => ?_]
    · rfl
    · unfold requested
      rw [State.rd_of_mem (followQueue_mem _)]
      exact (hothers x (by simp [hx])).1
  · have hu : u.oe.queue = [o] := hq
    rw [periodicWatch_reads hpart hq, List.foldl_cons, List.foldl_nil,
      readWithdraw_of_discard (s := u) hnone (requested_discard (s := u) hreq) hlevel,
      levelRaised_single hu, discardIfWeighing_of_lost (by rw [followQueue_co]; exact hb) hleft,
      closeTest_of_batch (findOrder_single (by rw [followQueue_oe])) hf hc]
    rfl
  · rw [periodicWatch_reads hpart hq, List.foldl_cons, List.foldl_nil]
    obtain ⟨v, b', hread, hrest⟩ := readWithdraw_discards (s := u) hnone hq hlevel hreq hf hc hb hslot hnumber hleft
      habort
    exact ⟨v, b', by rw [hread], hrest⟩
  · rw [periodicWatch_reads hpart hq, List.foldl_cons, List.foldl_nil]
    have hopen : u.rc.part ≠ .stopped := by
      change s.rc.part ≠ .stopped
      rcases hpart with h | h <;> rw [h] <;> simp
    obtain ⟨hkept, hlost⟩ := readWithdraw_closes (s := u) hnone hq hlevel hreq hroom hwf hopen hout
    refine ⟨fun hstate hnumber => ?_, fun hnot hheld => ?_⟩
    · obtain ⟨v, hread, hrest⟩ := hkept ⟨hstate, hnumber⟩
      exact ⟨v, by rw [hread], hrest⟩
    · obtain ⟨v, hread, hrest⟩ := hlost hnot hheld
      exact ⟨v, by rw [hread], hrest⟩

end Sys2Proof.Machine
end

section
/-! The weigh start (R52 to R54, R77, R100): the channels' parts of a batch, the Activate sequence, and
WEIGH_START (O26). -/

namespace Sys2Proof.Machine

/-! ### With no host access waiting none comes to wait -/

theorem submit_port_of_none {s : State} (h : s.port.waiting = []) (n : Notice) : (submit n s).port = s.port := by
  unfold submit
  dsimp only
  split
  · rfl
  · cases hl : s.nu.list with
    | nil => rw [writeOldest_nil hl]
    | cons x r => rw [writeOldest_cons hl, gap_of_none h, writeEntry_frame]

theorem seizeUnqueued_foldl_port (l : List Ticket) : ∀ {s : State}, s.port.waiting = [] →
    (l.foldl (fun s t => seizeUnqueued t s) s).port = s.port := by
  induction l with
  | nil => exact fun _ => rfl
  | cons t l ih =>
    intro s h
    have hone : (seizeUnqueued t s).port = s.port := submit_port_of_none h _
    rw [List.foldl_cons, ih (by rw [hone, h]), hone]

theorem seizeUnqueued_foldl_bit (l : List Ticket) : ∀ s : State,
    (l.foldl (fun s t => seizeUnqueued t s) s).bit = s.bit := by
  induction l with
  | nil => exact fun _ => rfl
  | cons t l ih => exact fun s => (ih _).trans (submit_bit _ s)

/-- What a seizure leaves unchanged, whatever tickets the order holds back. -/
theorem seizeOrder_side {s : State} (h : s.port.waiting = []) (o : Order) (n : Nat) (d : Detail) :
    let t := seizeOrder o n d s
    t.port = s.port ∧ t.bit = s.bit ∧ t.co = loseIn o.slot o.number s.co ∧ t.mixer = s.mixer ∧ t.ch = s.ch ∧
      t.rc = s.rc ∧ t.inp = s.inp := by
  obtain ⟨hmixer, hch, hrc, -, hinp, -⟩ := besideQueue_iff.mp (seizeOrder_queueSide o n d s).1
  refine ⟨?_, ?_, ?_, hmixer, hch, hrc, hinp⟩
  · have hdrop : (dropOrder o.slot o.number (submit ⟨o.slot, o.number, n, d⟩ s)).port = s.port := by
      rw [dropOrder_frame]
      exact submit_port_of_none h ⟨o.slot, o.number, n, d⟩
    exact (seizeUnqueued_foldl_port o.held (by rw [hdrop, h])).trans hdrop
  · refine (seizeUnqueued_foldl_bit o.held _).trans ?_
    rw [dropOrder_frame]
    exact submit_bit ⟨o.slot, o.number, n, d⟩ s
  · refine (foldl_seize_co o.held _).trans ?_
    rw [dropOrder_frame]
    exact congrArg (loseIn o.slot o.number) (submit_co ⟨o.slot, o.number, n, d⟩ s)

/-! ### The channels' parts of a batch (R54, R77, R100) -/

/-- A channel as it begins the tare of a batch. -/
def taring (a : Attach) (todo : List DoseEntry) (ws : List Word) (c : Channel) : Channel :=
  { c with state := .taring, feed := none, gate := false, batch := some a, ring := [], todo := todo, results := [],
           tareSum := 0, tareCount := 0, stopOrder := false, flags := ⟨false, false, false⟩,
           gapHold := false, pauseHold := false, work := c.work.map (scaleParamsFrom ws) }

/-- The nine words of a scale record. -/
def scaleWords (sc : Scale) (s : State) : List Word :=
  let w := fun k => s.rd (Win.scale sc + k)
  [w 0, w 2, w 4, w 6, w 8, w 10, w 12, w 14, w 16]

theorem scaleWords_congr {s t : State} (h : t.mem = s.mem) (sc : Scale) : scaleWords sc t = scaleWords sc s := by
  unfold scaleWords
  simp only [State.rd_of_mem h]

theorem refreshScale_of_none {s : State} (h : s.port.waiting = []) (sc : Scale) : refreshScale sc s =
    s.modChan sc fun c => { c with work := c.work.map (scaleParamsFrom (scaleWords sc s)) } := by
  unfold refreshScale readField
  dsimp only
  rw [gap_of_none h, readAll_of_none h]
  rfl

theorem PerScale.set_set {α : Type} (p : PerScale α) (sc : Scale) (v w : α) :
    (p.set sc v).set sc w = p.set sc w := by
  cases sc <;> rfl

theorem State.modChan_modChan (s : State) (sc : Scale) (f g : Channel → Channel) :
    (s.modChan sc f).modChan sc g = s.modChan sc fun c => g (f c) := by
  unfold State.modChan State.setChan State.chan
  dsimp only
  rw [PerScale.set_set, PerScale.get_set_same]

theorem startTare_of_none {s : State} (h : s.port.waiting = []) (a : Attach) (sc : Scale) (todo : List DoseEntry) :
    startTare a sc todo s = s.modChan sc (taring a todo (scaleWords sc s)) := by
  unfold startTare
  dsimp only
  rw [refreshScale_of_none (by exact h), State.modChan_modChan]
  rfl

/-- The four channels begin the tare, each with its own list and record. -/
def taringAll (a : Attach) (o : Order) (s : State) : PerScale Channel :=
  let c := fun sc => taring a (doseList o sc) (scaleWords sc s) (s.chan sc)
  ⟨c .agg, c .rap, c .fil, c .bit⟩

theorem taringAll_get (a : Attach) (o : Order) (s : State) (sc : Scale) :
    (taringAll a o s).get sc = taring a (doseList o sc) (scaleWords sc s) (s.chan sc) := by
  cases sc <;> rfl

/-- BIT's own state as a batch begins (R100). -/
def bitRefreshed (s : State) : BitState :=
  { s.bit with q := 0, prefed := 0, notDosed := false, preStalled := false, target := .none, continuing := false,
               work := s.bit.work.map fun v =>
                 { percent := takeRanged 50 95 (s.rd Win.preFeedPercent) v.percent
                   purge := takeRanged 0 600 (s.rd Win.purgeTime) v.purge } }

theorem refreshBinder_of_none {s : State} (h : s.port.waiting = []) :
    refreshBinder s = { s with bit := bitRefreshed s } := by
  unfold refreshBinder
  rw [readAll_of_none h]
  rfl

theorem startTares_of_none {s : State} (h : s.port.waiting = []) (a : Attach) (f : Scale → List DoseEntry)
    (l : List Scale) : ∀ t : State, t.port = s.port → t.mem = s.mem →
      l.foldl (fun t sc => startTare a sc (f sc) t) t =
        l.foldl (fun t sc => t.modChan sc (taring a (f sc) (scaleWords sc s))) t := by
  induction l with
  | nil =>
    intro t _ _
    rw [List.foldl_nil, List.foldl_nil]
  | cons x l ih =>
    intro t hport hmem
    rw [List.foldl_cons, List.foldl_cons, startTare_of_none (hport ▸ h), scaleWords_congr hmem]
    exact ih _ hport hmem

theorem handLists_of_none {s : State} (h : s.port.waiting = []) (a : Attach) (o : Order) :
    handLists a o s = { s with ch := taringAll a o s, bit := bitRefreshed s } := by
  unfold handLists
  rw [startTares_of_none h a (doseList o) Scale.all s rfl rfl]
  exact refreshBinder_of_none h

theorem takeRanged_spec (lo hi : Nat) (w : Word) (old : Nat) : takenInRange lo hi w old (takeRanged lo hi w old) :=
  ⟨fun h => if_pos h, fun h => if_neg h⟩

theorem scaleParamsFrom_reread (sc : Scale) (old : ScaleParams) (s : State) :
    scaleReread sc old (scaleParamsFrom (scaleWords sc s) old) s := by
  unfold scaleReread scaleParamsFrom scaleWords
  simp only [nthWord, List.getD_cons_succ, List.getD_cons_zero, takeRanged_spec, and_true]
  rfl

theorem taring_work (a : Attach) (todo : List DoseEntry) (sc : Scale) (s : State) (c : Channel) :
    (c.work = none → (taring a todo (scaleWords sc s) c).work = none) ∧
      ∀ old, c.work = some old → ∃ new, (taring a todo (scaleWords sc s) c).work = some new ∧
        scaleReread sc old new s := by
  unfold taring
  refine ⟨fun h => ?_, fun old h => ⟨_, ?_, scaleParamsFrom_reread sc old s⟩⟩
  · dsimp only
    rw [h, Option.map_none]
  · dsimp only
    rw [h, Option.map_some]

theorem bitRefreshed_work (s : State) : (s.bit.work = none → (bitRefreshed s).work = none) ∧
    ∀ old, s.bit.work = some old → ∃ new, (bitRefreshed s).work = some new ∧
      takenInRange 50 95 (s.rd Win.preFeedPercent) old.percent new.percent ∧
      takenInRange 0 600 (s.rd Win.purgeTime) old.purge new.purge := by
  unfold bitRefreshed
  refine ⟨fun h => ?_, fun old h => ⟨{ percent := takeRanged 50 95 (s.rd Win.preFeedPercent) old.percent
                                       purge := takeRanged 0 600 (s.rd Win.purgeTime) old.purge },
    ?_, takeRanged_spec _ _ _ _, takeRanged_spec _ _ _ _⟩⟩
  · dsimp only
    rw [h, Option.map_none]
  · dsimp only
    rw [h, Option.map_some]

/-! ### The start of a batch (R53, R54) -/

theorem exec_weighStart {s : State} (h : s.port.resetLow = false) :
    exec .weighStart s = .next (settle (tryWeighStart (Config.queueCapacity + 1) s)) := congrArg _ (event_of_high h _)

theorem tryWeighStart_of_none {s : State} (h : weighMayStart s = false ∨ nextOrder s = none) (n : Nat) :
    tryWeighStart n s = s := by
  cases n with
  | zero => rfl
  | succ n =>
    unfold tryWeighStart
    rcases h with h | h
    · rw [h]
      rfl
    · rw [h]
      exact ite_self _

theorem tryWeighStart_of_next {s : State} {o : Order} (hnone : s.port.waiting = []) (hmay : weighMayStart s = true)
    (hnext : nextOrder s = some o) (hfind : findOrder s o.slot o.number = some o)
    (hreq : s.rd (Win.slot o.slot + Win.slotWithdraw) = 0) (n : Nat) :
    tryWeighStart (n + 1) s = startBatch o s := by
  have hstart : startable o = true := List.find?_some hnext
  have hread : readWithdraw o s = s := readWithdraw_of_lower hnone (by
    unfold requested
    rw [hreq]
    exact Nat.zero_le _)
  unfold tryWeighStart
  rw [if_pos hmay, hnext]
  dsimp only
  rw [hread, hfind]
  exact if_pos hstart

/-- The weigh stage and the order's count of batches started as a batch begins. -/
def batchBegun (o : Order) (s : State) : State :=
  modOrder o.slot o.number (fun o => { o with started := o.started + 1 })
    { s with co.weigh := some (newBatch s.co.counter o), co.counter := s.co.counter + 1 }

/-- The Activate sequence of the order's first batch. -/
def firstActivated (o : Order) (s : State) : State :=
  if o.started = 0 then activateOrder { o with started := 1 } (batchBegun o s) else batchBegun o s

theorem startBatch_eq (o : Order) (s : State) :
    startBatch o s = handLists ⟨s.co.counter, o.slot, o.number⟩ o (firstActivated o s) := rfl

theorem guardOk_taken (number : Word) (g : Word × Word) :
    guardOk [slotTaken] number g = true ↔ g.1 = 2 ∧ g.2 = number := by
  unfold guardOk slotTaken
  simp only [List.contains_cons, List.contains_nil, Bool.or_false, Bool.and_eq_true, beq_iff_eq]

section
variable {s : State} {o : Order} (hnone : s.port.waiting = [])

theorem firstActivated_later (h : 0 < o.started) : firstActivated o s = batchBegun o s :=
  if_neg (Nat.ne_of_gt h)

include hnone

theorem firstActivated_kept (h : o.started = 0) (hkept : s.rd (Win.slot o.slot) = 2 ∧
    s.rd (Win.slot o.slot + 2) = o.number) : firstActivated o s = (batchBegun o s).wr (Win.slot o.slot) 3 := by
  unfold firstActivated activateOrder
  rw [if_pos h]
  dsimp only
  rw [guardedSeq_of_pass_nil (s := batchBegun o s) hnone ((guardOk_taken _ _).mpr hkept)]
  rfl

theorem firstActivated_seized (h : o.started = 0) (hkept : ¬(s.rd (Win.slot o.slot) = 2 ∧
    s.rd (Win.slot o.slot + 2) = o.number)) : firstActivated o s = seizeOrder { o with started := 1 } 0
      (.slotSeizedActivate (s.rd (Win.slot o.slot)) (s.rd (Win.slot o.slot + 2))) (batchBegun o s) := by
  unfold firstActivated activateOrder
  rw [if_pos h]
  dsimp only
  rw [guardedSeq_of_fail (s := batchBegun o s) hnone (Bool.eq_false_iff.mpr (mt (guardOk_taken _ _).mp hkept))]
  rfl

end

theorem firstActivated_side (o : Order) (s : State) (hnone : s.port.waiting = []) :
    let t := firstActivated o s
    t.port = s.port ∧ t.bit = s.bit ∧ t.mixer = s.mixer ∧ t.ch = s.ch ∧ t.rc = s.rc ∧ t.inp = s.inp := by
  by_cases hstart : o.started = 0
  · by_cases hkept : s.rd (Win.slot o.slot) = 2 ∧ s.rd (Win.slot o.slot + 2) = o.number
    · rw [firstActivated_kept hnone hstart hkept]
      exact ⟨rfl, rfl, rfl, rfl, rfl, rfl⟩
    · rw [firstActivated_seized hnone hstart hkept]
      obtain ⟨hport, hbit, -, hmixer, hch, hrc, hinp⟩ := seizeOrder_side (s := batchBegun o s) hnone
        { o with started := 1 } 0 (.slotSeizedActivate (s.rd (Win.slot o.slot)) (s.rd (Win.slot o.slot + 2)))
      exact ⟨hport, hbit, hmixer, hch, hrc, hinp⟩
  · rw [firstActivated_later (Nat.pos_of_ne_zero hstart)]
    exact ⟨rfl, rfl, rfl, rfl, rfl, rfl⟩

/-- Settles O26. -/
theorem weighStartBegins : Obligations.WeighStartBegins := by
  intro s hfree
  obtain ⟨hhigh, hnone⟩ := (arbiterFree_iff s).mp hfree
  rw [exec_weighStart hhigh]
  refine ⟨fun hnot => by rw [tryWeighStart_of_none hnot], fun o hmay hnext hfind hreq => ?_⟩
  intro a kept counted
  rw [tryWeighStart_of_next hnone hmay hnext hfind hreq, startBatch_eq]
  obtain ⟨hport, hbit, hmixer, hch, hrc, hinp⟩ := firstActivated_side o s hnone
  rw [handLists_of_none (by rw [hport, hnone])]
  have hlater (h : 0 < o.started) := firstActivated_later (s := s) h
  have hkept (h : o.started = 0) (hk : kept) := firstActivated_kept hnone h hk
  have hseized (h : o.started = 0) (hk : ¬kept) := firstActivated_seized hnone h hk
  generalize firstActivated o s = t at *
  have hbegun (h : 0 < o.started ∨ kept) : t.co = (batchBegun o s).co ∧ t.oe.queue = counted ∧ t.heat = s.heat ∧
      t.nu = s.nu := by
    rcases Nat.eq_zero_or_pos o.started with h0 | h0
    · rw [hkept h0 (h.resolve_left (by omega))]
      exact ⟨rfl, rfl, rfl, rfl⟩
    · rw [hlater h0]
      exact ⟨rfl, rfl, rfl, rfl⟩
  have hlost (h : o.started = 0) (hk : ¬kept) : t.co = loseIn o.slot o.number (batchBegun o s).co := by
    rw [hseized h hk]
    obtain ⟨-, -, hco, -⟩ := seizeOrder_side (s := batchBegun o s) hnone
      { o with started := 1 } 0 (.slotSeizedActivate (s.rd (Win.slot o.slot)) (s.rd (Win.slot o.slot + 2)))
    exact hco
  have hcounter : t.co.counter = s.co.counter + 1 := by
    by_cases h : 0 < o.started ∨ kept
    · rw [(hbegun h).1]
      rfl
    · rw [hlost (by omega) (by tauto)]
      rfl
  have hrd (sc : Scale) : (taringAll ⟨s.co.counter, o.slot, o.number⟩ o t).get sc =
      taring ⟨s.co.counter, o.slot, o.number⟩ (doseList o sc) (scaleWords sc t) (s.chan sc) := by
    rw [taringAll_get, State.chan, hch]
    rfl
  refine ⟨_, rfl, hcounter, fun h => ?_, fun h hk => ?_, fun sc => ?_, fun h => ?_, fun old h => ?_, ?_, fun h => ?_, fun h => ?_,
    fun h hk hwf => ?_, fun h hk hheld hroom => ?_, hmixer, hrc, hinp⟩
  · obtain ⟨hco, -⟩ := hbegun h
    dsimp only
    rw [hco]
    exact ⟨rfl, rfl⟩
  · have hco := hlost h hk
    have hown : ofOrder o.slot o.number (newBatch s.co.counter o) = true := by simp [ofOrder, newBatch]
    refine ⟨(congrArg Coord.weigh hco).trans ?_, congrArg Coord.mix hco⟩
    exact congrArg some (if_pos hown)
  · have hchan := hrd sc
    unfold State.chan at hchan ⊢
    dsimp only
    rw [hchan]
    refine ⟨rfl, rfl, rfl, rfl, rfl, rfl, rfl, rfl, taring_work _ _ sc t _⟩
  · exact (bitRefreshed_work t).1 (hbit ▸ h)
  · exact (bitRefreshed_work t).2 old (hbit ▸ h)
  · dsimp only [bitRefreshed]
    rw [hbit]
  · obtain ⟨-, hqueue, hheat, hnu⟩ := hbegun h
    exact ⟨hqueue, hheat, hnu⟩
  · rw [hlater h]
    rfl
  · have hwf' : Memory.wf (batchBegun o s).mem = true := hwf
    refine ⟨?_, fun b h0 h1 => ?_⟩
    · rw [hkept h hk]
      exact State.rd_wr_same hwf' _ _
    · rw [hkept h hk]
      exact State.byteAt_wr_other hwf' _ h0 h1
  · have hroom' : (batchBegun o s).nu.list.length < 16 := hroom
    rw [hseized h hk, seizeOrder_of_room (o := { o with started := 1 }) hheld hroom', dropOrder_frame]
    exact ⟨rfl, rfl, rfl, rfl⟩

end Sys2Proof.Machine
end

section
/-! The timers of a channel that end a pulse or a discharge (O34) and the low-level inputs (O35). -/

namespace Sys2Proof.Machine

/-! ### Flags of the batch of a channel -/

theorem flagAttached_of_batch {s : State} {sc : Scale} {a : Attach} (h : (s.chan sc).batch = some a)
    (f : TicketFlags → TicketFlags) : flagAttached sc f s = flagBatch a.seq f s := by
  unfold flagAttached
  rw [h]

/-! ### The end of a discharge (R96) -/

theorem reportDischarge_clear {s : State} (h : s.rc.clearStep = .discharge) (sc : Scale) (k : EndKind) :
    reportDischarge sc k s = { s with rc.clearRec.ends := s.rc.clearRec.ends.set sc (some k) } := if_pos h

theorem reportDischarge_asked {s : State} (h : s.rc.clearStep ≠ .discharge) {sc : Scale}
    (hasked : s.mixer.disch.get sc = .asked) (k : EndKind) :
    reportDischarge sc k s = { s with mixer.disch := s.mixer.disch.set sc (.ended k) } :=
  (if_neg h).trans (if_pos hasked)

/-! ### The timers -/

theorem exec_jogPulseEnd {s : State} (h : s.port.resetLow = false) (sc : Scale) :
    exec (.jogPulseEnd sc) s = .next (jogPulseEnd sc s) := congrArg _ (plainEvent_of_high h _)

theorem exec_dischargeTimeout {s : State} (h : s.port.resetLow = false) (sc : Scale) :
    exec (.dischargeTimeout sc) s = .next (settle (dischargeTimeout sc s)) := congrArg _ (event_of_high h _)

/-- The discharge timer stands at its limit and SCALE RESIDUE is posted. -/
def residueLeft (w : ScaleParams) (sc : Scale) (s : State) : State :=
  { s.setChan sc { s.chan sc with dischTimer := max (s.chan sc).dischTimer (10 * w.dischargeTimeout) } with
    nu.list := s.nu.list ++ [attachedNotice (s.chan sc).batch (.scaleResidue sc (s.chan sc).net)] }

theorem dischargeTimeout_of_due {s : State} {sc : Scale} {w : ScaleParams} (hruns : mixerRuns s = true)
    (hstate : (s.chan sc).state = .discharging) (hwork : (s.chan sc).work = some w)
    (hroom : s.nu.list.length < 16) :
    dischargeTimeout sc s = endDischarge sc .timedOut (residueLeft w sc s) := by
  have hlimit : ((s.chan sc).work.map ScaleParams.dischargeTimeout).getD 0 = w.dischargeTimeout := by
    rw [hwork]
    rfl
  unfold dischargeTimeout residueLeft
  rw [if_pos ⟨hruns, hstate⟩]
  dsimp only
  rw [submit_of_room (by exact hroom), hlimit]
  rfl

theorem dischargeTimeout_of_not_due {s : State} {sc : Scale}
    (h : s.rc.part ≠ .run ∨ s.rc.paused = true ∨ (s.chan sc).state ≠ .discharging) :
    dischargeTimeout sc s = s := by
  refine if_neg fun ⟨hruns, hstate⟩ => ?_
  obtain ⟨hpart, hpaused⟩ := (mixerRuns_iff s).mp hruns
  rcases h with h | h | h
  · exact h hpart
  · exact Bool.false_ne_true (hpaused.symm.trans h)
  · exact h hstate

/-- Settles O34. -/
theorem channelTimersEnd : Obligations.ChannelTimersEnd := by
  refine ⟨fun s sc hhigh => ?_, fun s sc hhigh => ?_⟩
  · intro c
    rw [exec_jogPulseEnd hhigh]
    unfold jogPulseEnd
    refine ⟨fun h => ?_, fun hpart hstate => ?_⟩
    · rw [if_neg (by tauto)]
    · rw [if_pos ⟨hpart, hstate⟩]
      rfl
  · intro c
    rw [exec_dischargeTimeout hhigh]
    refine ⟨fun h => by rw [dischargeTimeout_of_not_due h], fun w hpart hpaused hstate hwork hroom => ?_⟩
    intro u
    have hruns : mixerRuns s = true := (mixerRuns_iff s).mpr ⟨hpart, hpaused⟩
    rw [dischargeTimeout_of_due hruns hstate hwork hroom]
    have hended : (residueLeft w sc s).modChan sc (fun c => { c with
        state := .idle, feed := none, gate := false, batch := none }) = u := by
      unfold State.modChan residueLeft State.setChan State.chan
      dsimp only
      rw [PerScale.set_set, PerScale.get_set_same]
      rfl
    unfold endDischarge
    rw [hended]
    refine ⟨fun hclear hasked => ?_, fun hclear => ?_⟩
    · rw [reportDischarge_asked (s := u) hclear hasked]
      rfl
    · rw [reportDischarge_clear (s := u) hclear]
      rfl

/-! ### The low-level inputs (R87) -/

/-- The input levels with one bin's set. -/
def binLowSet (src : Source) (a : Bool) (bits : BitVec 8) : BitVec 8 :=
  if a then bits ||| (1#8 <<< src.code) else bits &&& ~~~(1#8 <<< src.code)

theorem binLowSet_getLsbD (src : Source) (a : Bool) (bits : BitVec 8) {n : Nat} (hn : n < 8) :
    (binLowSet src a bits).getLsbD n = if n = src.code then a else bits.getLsbD n := by
  have hmask : (1#8 <<< src.code).getLsbD n = decide (n = src.code) := by
    revert n
    cases src <;> decide
  unfold binLowSet
  cases a with
  | false =>
    rw [if_neg Bool.false_ne_true, BitVec.getLsbD_and, BitVec.getLsbD_not, hmask]
    by_cases h : n = src.code <;> simp [h, hn]
  | true =>
    rw [if_pos rfl, BitVec.getLsbD_or, hmask]
    by_cases h : n = src.code <;> simp [h]

theorem setBinLow_of_input {src : Source} (hsrc : src.hasLowInput = true) (a : Bool) (s : State) :
    setBinLow src a s = { s with inp.binLow := binLowSet src a s.inp.binLow } := if_pos hsrc

theorem watches_iff {src : Source} (hsrc : src.hasLowInput = true) (c : Channel) : watches c src = true ↔
    (∃ p, c.state = .dosing p) ∧ c.dose.entry.source = src ∧ c.dose.lowUsed = true := by
  unfold watches
  cases c.state <;> simp [hsrc]

theorem exec_binLowInput {s : State} (h : s.port.resetLow = false) (src : Source) (a : Bool) :
    exec (.binLowInput src a) s = .next (binLowInput src a s) := by
  change Host.Outcome.next (if s.port.resetLow then _ else _) = _
  rw [h]
  rfl

theorem binLowInput_unwatched {s : State} {src : Source} {a : Bool}
    (h : a = false ∨ binLowLevel s src = true ∨ watches (s.chan src.scale) src = false) :
    binLowInput src a s = setBinLow src a s := by
  refine if_neg fun hall => ?_
  simp only [Bool.and_eq_true, Bool.not_eq_true'] at hall
  obtain ⟨⟨ha, hlevel⟩, hwatch⟩ := hall
  rcases h with h | h | h
  · exact Bool.false_ne_true (h.symm.trans ha)
  · exact Bool.false_ne_true (hlevel.symm.trans h)
  · exact Bool.false_ne_true (h.symm.trans hwatch)

theorem binLowInput_watched {s : State} {src : Source} {a : Bool} (ha : a = true)
    (hlevel : binLowLevel s src = false) (hwatch : watches (s.chan src.scale) src = true) :
    binLowInput src a s = if s.rc.part = .halted then binLowNotice src.scale (setBinLow src a s)
      else postBinLow src.scale (setBinLow src a s) := by
  refine if_pos ?_
  rw [ha, hlevel, hwatch]
  rfl

/-- The notice of a watched bin with a batch attached. -/
theorem binLowNotice_of_batch {s : State} {sc : Scale} {a : Attach} {src : Source}
    (hbatch : (s.chan sc).batch = some a) (hsource : (s.chan sc).dose.entry.source = src)
    (hroom : s.nu.list.length < 16) : binLowNotice sc s = { s with nu.list := s.nu.list ++
      [⟨a.slot, a.order, a.seq, .binLow sc src (dosed (s.chan sc))⟩] } := by
  unfold binLowNotice
  dsimp only
  rw [submit_of_room hroom, hbatch, hsource]
  rfl

/-- Settles O35. -/
theorem binLowWatched : Obligations.BinLowWatched := by
  intro s src a hhigh c
  rw [exec_binLowInput hhigh]
  refine ⟨fun hsrc => ?_, fun hsrc => ?_⟩
  · have hwatch : watches (s.chan src.scale) src = false := by
      unfold watches
      split <;> simp [hsrc]
    rw [binLowInput_unwatched (.inr (.inr hwatch))]
    exact congrArg _ (if_neg (Bool.eq_false_iff.mp hsrc))
  · have hlevel : binLowLevel s src = s.inp.binLow.getLsbD src.code := by
      unfold binLowLevel
      rw [hsrc, Bool.true_and]
    refine ⟨binLowSet src a s.inp.binLow, fun n hn => binLowSet_getLsbD src a _ hn, fun h => ?_,
      fun p at0 ha hlow hstate hsource hused hbatch hroom => ?_⟩
    · rw [binLowInput_unwatched, setBinLow_of_input hsrc]
      rcases h with h | h | h
      · exact .inl h
      · exact .inr (.inl (hlevel.trans h))
      · refine .inr (.inr (Bool.eq_false_iff.mpr (mt (watches_iff hsrc c).mp ?_)))
        rintro ⟨⟨p, hp⟩, hs, hu⟩
        rcases h with h | h | h
        · exact Bool.false_ne_true (h.symm.trans hu)
        · exact h hs
        · exact h p hp
    · intro list
      have hwatch : watches c src = true := (watches_iff hsrc c).mpr ⟨⟨p, hstate⟩, hsource, hused⟩
      rw [binLowInput_watched ha (hlevel.trans hlow) hwatch, setBinLow_of_input hsrc]
      unfold postBinLow
      rw [binLowNotice_of_batch (s := { s with inp.binLow := binLowSet src a s.inp.binLow }) hbatch hsource hroom]
      refine ⟨fun hhalt => ?_, fun hrun => ?_⟩
      · rw [if_pos hhalt]
        rfl
      · rw [if_neg hrun, flagAttached_of_batch (a := at0)]
        · rfl
        · rw [State.chan_modChan_same]
          exact hbatch

end Sys2Proof.Machine
end

section
/-! A SCALE FAULT and what follows from it (R98): the notices in the order in which they are posted, the entry
into HALTED, and the end of the weigh-stage batch (R59a). -/

namespace Sys2Proof.Machine

/-! ### How many notices a step posts, each behind those that wait (R171) -/

/-- No queued order holds a ticket back. -/
def heldNone (s : State) : Prop := ∀ o ∈ s.oe.queue, o.held = []

/-- A step that posts at most `n` notices where the list has room for them, behind those that wait. -/
def Posts (n : Nat) (s t : State) : Prop :=
  heldNone s → s.nu.list.length + n ≤ 16 →
    heldNone t ∧ ∃ more, more.length ≤ n ∧ t.nu.list = s.nu.list ++ more

theorem Posts.of_held {s t : State} (h : heldNone s → heldNone t) (hnu : t.nu = s.nu) : Posts 0 s t := by
  refine fun hs _ => ⟨h hs, [], Nat.le_refl 0, ?_⟩
  rw [hnu, List.append_nil]

theorem Posts.of_eq {s t : State} (hoe : t.oe = s.oe) (hnu : t.nu = s.nu) : Posts 0 s t :=
  .of_held (fun hs => by unfold heldNone; rw [hoe]; exact hs) hnu

theorem Posts.trans {m n : Nat} {s t u : State} (h : Posts m s t) (k : Posts n t u) : Posts (m + n) s u := by
  intro hs hroom
  obtain ⟨ht, more, hlen, hlist⟩ := h hs (by omega)
  obtain ⟨hu, more', hlen', hlist'⟩ := k ht (by rw [hlist, List.length_append]; omega)
  refine ⟨hu, more ++ more', by rw [List.length_append]; omega, ?_⟩
  rw [hlist', hlist, List.append_assoc]

theorem Posts.mono {m n : Nat} (hmn : m ≤ n) {s t : State} (h : Posts m s t) : Posts n s t := by
  intro hs hroom
  obtain ⟨ht, more, hlen, hlist⟩ := h hs (by omega)
  exact ⟨ht, more, by omega, hlist⟩

theorem Posts.after {n : Nat} {s t u : State} (h : Posts 0 s t) (k : Posts n t u) : Posts n s u :=
  Nat.zero_add n ▸ h.trans k

theorem submit_posts (n : Notice) (s : State) : Posts 1 s (submit n s) := by
  intro hs hroom
  rw [submit_of_room (by exact hroom)]
  exact ⟨hs, [n], Nat.le_refl 1, rfl⟩

theorem modOrder_posts (slot : Nat) (number : Word) {f : Order → Order} (hf : ∀ o, (f o).held = o.held)
    (s : State) : Posts 0 s (modOrder slot number f s) := by
  refine .of_held (fun hs o ho => ?_) rfl
  obtain ⟨x, hx, rfl⟩ := List.mem_map.mp ho
  split
  · rw [hf, hs x hx]
  · exact hs x hx

theorem followQueue_posts (s : State) : Posts 0 s (followQueue s) := .of_eq (followQueue_oe s) (followQueue_nu s)

theorem dropOrder_posts (slot : Nat) (number : Word) (s : State) : Posts 0 s (dropOrder slot number s) := by
  rw [dropOrder_frame]
  exact .of_held (fun hs o ho => hs o (List.mem_of_mem_filter ho)) rfl

theorem seizeOrder_posts {o : Order} (hheld : o.held = []) (n : Nat) (d : Detail) (s : State) :
    Posts 1 s (seizeOrder o n d s) := by
  unfold seizeOrder
  rw [hheld]
  exact (submit_posts _ s).trans (dropOrder_posts _ _ _)

theorem guardedSeq_posts (n : Nat) (sts : List Word) (k : Word) (b : List (Nat × Word)) (l : Nat × Word)
    (s : State) : Posts 0 s (guardedSeq n sts k b l s).1 := .of_eq (guardedSeq_oe ..) (guardedSeq_nu ..)

theorem closeOrder_posts {o : Order} (hheld : o.held = []) (outcome : OrderOutcome) (s : State) :
    Posts 1 s (closeOrder o outcome s) := by
  unfold closeOrder
  dsimp only
  refine Posts.after (guardedSeq_posts o.slot [slotTaken, slotActive] o.number (closeWrites o outcome s)
    (Win.slot o.slot + Win.slotState, slotClosed) s) ?_
  split
  · exact (submit_posts _ _).trans (dropOrder_posts _ _ _)
  · exact seizeOrder_posts hheld _ _ _

theorem held_of_find {s : State} (hs : heldNone s) {slot : Nat} {number : Word} {o : Order}
    (h : findOrder s slot number = some o) : o.held = [] := hs o (List.mem_of_find?_eq_some h)

theorem closeTest_posts (slot : Nat) (number : Word) (s : State) : Posts 1 s (closeTest slot number s) := by
  intro hs
  revert hs
  unfold closeTest
  split
  · exact (Posts.of_eq rfl rfl).mono (Nat.zero_le 1)
  · next o ho =>
    split
    · exact (Posts.of_eq rfl rfl).mono (Nat.zero_le 1)
    · split
      · exact (Posts.of_eq rfl rfl).mono (Nat.zero_le 1)
      · exact fun hs => closeOrder_posts (held_of_find hs ho) _ _ hs

theorem writeTicket_posts {o : Order} (hheld : o.held = []) (t : Ticket) (s : State) :
    Posts 2 s (writeTicket o t s) := by
  unfold writeTicket
  dsimp only
  refine Posts.after (guardedSeq_posts o.slot [slotTaken, slotActive] o.number
    (writesAt (Win.ticket o.slot t.index) (ticketWords t))
    (Win.slot o.slot + Win.slotTickets, natWord (o.tickets + 1)) s) ?_
  split
  · exact (seizeOrder_posts hheld _ _ _).mono (by decide)
  · refine Posts.trans (m := 1) (n := 1) (submit_posts _ _) (.after (modOrder_posts _ _ ?_ _) (closeTest_posts _ _ _))
    exact fun _ => rfl

/-- A ticket handed over posts two notices at most: its own and the one of the order's closing. -/
theorem handTicket_posts (left : Bool) (t : Ticket) {s : State} (hs : heldNone s) (hroom : s.nu.list.length ≤ 14) :
    ∃ more, (handTicket left t s).nu.list = s.nu.list ++ more := by
  unfold handTicket
  split
  · obtain ⟨-, more, -, hlist⟩ := submit_posts ⟨t.slot, t.order, t.seq, .slotSeizedNotQueued t⟩ s hs (by omega)
    exact ⟨more, hlist⟩
  · next o ho =>
    have hfind : findOrder s t.slot t.order = some o := by
      unfold ticketOrder at ho
      split at ho
      · cases ho
      · exact ho
    split
    · exact ⟨[], (List.append_nil _).symm⟩
    · obtain ⟨hheld, more, -, hlist⟩ := writeTicket_posts (held_of_find hs hfind) t s hs (by omega)
      rw [releaseHeld_of_empty fun x hx => held_of_find hheld hx]
      exact ⟨more, hlist⟩

/-! ### Entry into HALTED (R168) -/

theorem burnerDrop_heat_congr {s t : State} (h : t.heat = s.heat) : (burnerDrop t).heat = (burnerDrop s).heat := by
  by_cases hlit : burnerLit s.heat.burner = true
  · rw [burnerDrop_of_lit hlit, burnerDrop_of_lit (by rw [h]; exact hlit), h]
  · have hout := Bool.eq_false_iff.mpr hlit
    rw [burnerDrop_of_unlit hout, burnerDrop_of_unlit (by rw [h]; exact hout), h]

theorem State.frame_of_offRam {s t : State} (h : t.offRam = s.offRam) :
    t = { s with port := t.port, mem := t.mem } := by
  obtain ⟨⟩ := s
  obtain ⟨⟩ := t
  unfold State.offRam at h
  simp only [State.mk.injEq] at h ⊢
  simp only [h, and_self]

theorem put_frame (a : Nat) (w : Word) (s : State) :
    put a w s = { s with port := (put a w s).port, mem := (put a w s).mem } :=
  State.frame_of_offRam (put_offRam a w s)

theorem put_mem_of_none {s t : State} (h : s.port.waiting = []) (hport : t.port = s.port) (hmem : t.mem = s.mem)
    (a : Nat) (w : Word) : (put a w t).mem = (s.wr a w).mem := by
  rw [put_of_none (by rw [hport, h])]
  unfold State.wr
  dsimp only
  rw [hmem]

/-- What the entry into HALTED changes, whatever host accesses wait. -/
theorem enterHalted_fields {s : State} (hroom : s.nu.list.length < 16) (cause : HaltCause) :
    let u := enterHalted cause s
    u.rc = { s.rc with part := .halted, paused := false, finishing := false } ∧
      u.nu = { s.nu with list := s.nu.list ++
        [⟨255, 0, mixSeq s, .halt cause s.rc.clearStep (weighSeq s)⟩] } ∧
      u.ch = s.ch.map quietChannel ∧ u.mixer = haltMixer s.mixer ∧
      u.bit = { s.bit with tankSelect := false, circulate := false, tankLast := none } ∧
      u.heat = (burnerDrop s).heat ∧ u.co = s.co ∧ u.oe = s.oe ∧ u.inp = s.inp ∧
      (s.port.waiting = [] → u.mem = (s.wr Win.partState (BitVec.ofNat 16 PartState.halted.code)).mem) := by
  unfold enterHalted setPart
  dsimp only
  rw [put_frame, submit_of_room (by exact hroom), burnerDrop_frame]
  exact ⟨rfl, rfl, rfl, rfl, rfl, burnerDrop_heat_congr rfl, rfl, rfl, rfl,
    fun hnone => put_mem_of_none hnone (by rfl) (by rfl) _ _⟩

/-! ### The end of the weigh-stage batch (R59a) -/

theorem endWeighAborted_side {s : State} {b : Batch} (h : s.co.weigh = some b) :
    QueueSide b.slot b.order { s with co.weigh := none, heat.permit := none } (endWeighAborted s) := by
  unfold endWeighAborted
  rw [h]
  exact handTicket_queueSide b.orderLeft (assembleTicket { b with aborted := true, waiting := false } s.seconds)
    { s with co.weigh := none, heat.permit := none }

/-- The stop orders of the end of a batch. -/
def abortStopped (b : Batch) (s : State) : State :=
  stopAllChannels { s with co.weigh := some { b with aborted := true, waiting := false } }

theorem abortWeigh_of_some {s : State} {b : Batch} (h : s.co.weigh = some b) : abortWeigh s =
    let t := endWeighAborted (countCharged b (abortStopped b s))
    { t with ch := t.ch.map detachChannel, rc.clearRequired := true } := by
  unfold abortWeigh
  rw [h]
  rfl

theorem countCharged_posts (b : Batch) (s : State) : Posts 0 s (countCharged b s) := by
  unfold countCharged
  refine .after ?_ (followQueue_posts _)
  split
  · exact .of_eq rfl rfl
  · refine modOrder_posts _ _ ?_ _
    exact fun _ => rfl

theorem endWeighAborted_appends {s : State} (hs : heldNone s) (hroom : s.nu.list.length ≤ 14) :
    ∃ more, (endWeighAborted s).nu.list = s.nu.list ++ more := by
  unfold endWeighAborted
  split
  · exact ⟨[], (List.append_nil _).symm⟩
  · next b hb =>
    exact handTicket_posts _ _ (s := { s with co.weigh := none, heat.permit := none }) hs hroom

/-- The end of the batch posts behind what waits. -/
theorem abortWeigh_appends {s : State} (hs : heldNone s) (hroom : s.nu.list.length ≤ 14) :
    ∃ more, (abortWeigh s).nu.list = s.nu.list ++ more := by
  cases hb : s.co.weigh with
  | none =>
    unfold abortWeigh
    rw [hb]
    exact ⟨[], (List.append_nil _).symm⟩
  | some b =>
    rw [abortWeigh_of_some hb]
    obtain ⟨⟨hframe, -⟩, -⟩ := stopAllChannels_told { s with co.weigh := some { b with aborted := true, waiting := false } }
    have hstop : Posts 0 s (abortStopped b s) := by
      unfold abortStopped
      rw [hframe]
      exact .of_eq rfl rfl
    obtain ⟨hheld, more, hlen, hlist⟩ := hstop.after (countCharged_posts b _) hs (by omega)
    obtain rfl := List.eq_nil_of_length_eq_zero (Nat.le_zero.mp hlen)
    rw [List.append_nil] at hlist
    rw [← hlist]
    exact endWeighAborted_appends hheld (by rw [hlist]; exact hroom)

theorem abortWeigh_fields {s : State} {b : Batch} (h : s.co.weigh = some b) :
    let u := abortWeigh s
    u.ch = (abortStopped b s).ch.map detachChannel ∧ u.rc = { s.rc with clearRequired := true } ∧
      u.co.weigh = none ∧ u.co.counter = s.co.counter ∧
      (u.co.mix = s.co.mix ∨ u.co.mix = s.co.mix.map (loseOrder b.slot b.order)) ∧ u.heat.permit = none := by
  rw [abortWeigh_of_some h]
  obtain ⟨⟨hframe, f, hf, hweigh⟩, -⟩ := stopAllChannels_told
    { s with co.weigh := some { b with aborted := true, waiting := false } }
  rw [← abortStopped] at hframe hweigh
  have hrc : (countCharged b (abortStopped b s)).rc = s.rc := by
    rw [countCharged_frame, hframe]
  have hch : (countCharged b (abortStopped b s)).ch = (abortStopped b s).ch := by
    rw [countCharged_frame]
  have hco : (countCharged b (abortStopped b s)).co = { s.co with
      weigh := some (f { b with aborted := true, waiting := false }) } := by
    have hstop : (abortStopped b s).co = { s.co with weigh := (abortStopped b s).co.weigh } := by
      rw [hframe]
    rw [countCharged_frame]
    exact hstop.trans (by rw [hweigh]; rfl)
  generalize countCharged b (abortStopped b s) = t at *
  obtain ⟨hbeside, hpermit, hends⟩ := endWeighAborted_side (congrArg Coord.weigh hco)
  obtain ⟨-, kch, krc, -⟩ := besideQueue_iff.mp hbeside
  rw [(hf _).slot, (hf _).order] at hends
  have hleft : (endWeighAborted t).co = { s.co with weigh := none } ∨
      (endWeighAborted t).co = { s.co with weigh := none, mix := s.co.mix.map (loseOrder b.slot b.order) } := by
    refine hends.imp (fun h => h.trans ?_) fun h => h.trans ?_
    · rw [hco]
    · dsimp only
      rw [hco]
      rfl
  have hstages : (endWeighAborted t).co.weigh = none ∧ (endWeighAborted t).co.counter = s.co.counter ∧
      ((endWeighAborted t).co.mix = s.co.mix ∨
        (endWeighAborted t).co.mix = s.co.mix.map (loseOrder b.slot b.order)) := by
    rcases hleft with h | h <;> rw [h]
    · exact ⟨rfl, rfl, .inl rfl⟩
    · exact ⟨rfl, rfl, .inr rfl⟩
  obtain ⟨hnoweigh, hcounter, hmix⟩ := hstages
  refine ⟨?_, ?_, hnoweigh, hcounter, hmix, hpermit⟩
  · rw [← hch]
    exact congrArg (·.map detachChannel) kch
  · rw [← hrc]
    exact congrArg (fun r : RunCtl => { r with clearRequired := true }) krc

end Sys2Proof.Machine
end

section
/-! SCALE FAULT (R98), its outcomes by the state the channel was in. -/

namespace Sys2Proof.Machine

theorem State.setChan_setChan (s : State) (sc : Scale) (c d : Channel) :
    (s.setChan sc c).setChan sc d = s.setChan sc d := by
  unfold State.setChan
  dsimp only
  rw [PerScale.set_set]

theorem State.chan_setChan_other (s : State) {sc x : Scale} (c : Channel) (h : x ≠ sc) :
    (s.setChan sc c).chan x = s.chan x := PerScale.get_set_other _ _ h

/-! ### The channels as the weigh-stage batch ends (R93) -/

theorem detachChannel_batch (c : Channel) : (detachChannel c).batch = none := by
  unfold detachChannel
  split <;> rfl

theorem detachChannel_fault {c : Channel} (h : c.state = .fault) : detachChannel c = { c with batch := none } := by
  unfold detachChannel
  rw [h]

theorem detachChannel_off {c : Channel} (h : c.feed = none) : (detachChannel c).feed = none := by
  unfold detachChannel
  split
  · exact h
  · exact h
  · rfl

theorem detachChannel_weighed {c : Channel} (h : c.state = .weighed) :
    ((detachChannel c).state = .weighed ∨ (detachChannel c).state = .idle) := by
  unfold detachChannel settleMaterial
  rw [h]
  dsimp only
  split
  · exact .inl rfl
  · exact .inr rfl

/-- What the end of the weigh-stage batch does to each channel. -/
theorem abortWeigh_chan {s : State} {b : Batch} (h : s.co.weigh = some b) (sc : Scale) :
    let d := (abortWeigh s).chan sc
    d.batch = none ∧ ((s.chan sc).state = .fault → d = { s.chan sc with batch := none }) ∧
      ((s.chan sc).feed = none → d.feed = none) ∧
      ∀ p, (s.chan sc).state = .dosing p → (d.state = .weighed ∨ d.state = .idle) ∧ d.feed = none := by
  obtain ⟨hch, -⟩ := abortWeigh_fields h
  obtain ⟨-, htold⟩ := stopAllChannels_told { s with co.weigh := some { b with aborted := true, waiting := false } }
  obtain ⟨hdosing, -, -, hfault, hoff⟩ := htold sc
  have hchan : (abortWeigh s).chan sc = detachChannel ((abortStopped b s).chan sc) := by
    unfold State.chan
    rw [hch, PerScale.get_map]
  intro d
  change ((abortWeigh s).chan sc).batch = none ∧ _
  rw [show d = (abortWeigh s).chan sc from rfl, hchan]
  refine ⟨detachChannel_batch _, fun hf => ?_, fun hf => detachChannel_off (hoff hf), fun p hp => ?_⟩
  · have hsame : (abortStopped b s).chan sc = s.chan sc := hfault hf
    rw [hsame, detachChannel_fault hf]
  · obtain ⟨hstate, hfeed, -⟩ := hdosing p hp
    exact ⟨detachChannel_weighed hstate, detachChannel_off hfeed⟩

/-- In a safe state a channel whose batch ends feeds nothing. -/
theorem abortWeigh_feeds_none {s : State} {b : Batch} (h : s.co.weigh = some b) {sc : Scale}
    (hsafe : chanSafe (s.chan sc) = true) : ((abortWeigh s).chan sc).feed = none := by
  obtain ⟨-, -, hoff, hdosing⟩ := abortWeigh_chan h sc
  by_cases hp : ∃ p, (s.chan sc).state = .dosing p
  · obtain ⟨p, hp⟩ := hp
    exact (hdosing p hp).2
  · refine hoff ?_
    have hmay : mayFeed (s.chan sc).state = false := by
      cases hst : (s.chan sc).state <;> first | rfl | exact absurd ⟨_, hst⟩ hp
    unfold chanSafe at hsafe
    rw [hmay, Bool.or_false, Bool.and_eq_true, Option.isNone_iff_eq_none] at hsafe
    exact hsafe.1

/-! ### The channel in FAULT, before what follows -/

/-- A channel that enters FAULT: its outputs off, its batch still attached. -/
def faulted (c : Channel) : Channel :=
  { c with state := .fault, feed := none, gate := false, gapHold := false, pauseHold := false, stopOrder := false }

/-- The notice of a SCALE FAULT. -/
def faultNotice (sc : Scale) (cause : ScaleCause) (s : State) : Notice :=
  attachedNotice (s.chan sc).batch (.scaleFault sc cause (s.chan sc).state (s.chan sc).gross)

/-- SCALE FAULT is posted, a changeover cut short, and the channel is in FAULT. -/
def faultEntered (sc : Scale) (cause : ScaleCause) (s : State) : State :=
  let t := submit (faultNotice sc cause s) s
  (if (s.chan sc).state = .changeover then cutChangeover t else t).modChan sc faulted

/-- What follows a SCALE FAULT in its part state and clear step (R98). -/
def faultFollows (sc : Scale) (left : ChanState) (results : List EntryResult) (t : State) : State :=
  if t.rc.part = .halted then t
  else if clearPastFaults t.rc.clearStep then enterHalted .scaleFaultInClear t
  else afterFault sc left results t

theorem scaleFault_of_fault {s : State} {sc : Scale} (h : (s.chan sc).state = .fault) (cause : ScaleCause) :
    scaleFault sc cause s = s := if_pos h

theorem scaleFault_of_live {s : State} {sc : Scale} (h : (s.chan sc).state ≠ .fault) (cause : ScaleCause) :
    scaleFault sc cause s = (faultFollows sc (s.chan sc).state (faultResults s.bit.prefed (s.chan sc))
      (faultEntered sc cause s)).modChan sc fun c => { c with batch := none } := if_neg h

theorem faultEntered_fields (sc : Scale) (cause : ScaleCause) (s : State) :
    let t := faultEntered sc cause s
    t.rc = s.rc ∧ t.co = s.co ∧ t.oe = s.oe ∧ t.mixer = s.mixer ∧ t.heat = s.heat ∧ t.inp = s.inp ∧
      t.ch = s.ch.set sc (faulted (s.chan sc)) ∧
      t.bit = if (s.chan sc).state = .changeover then { s.bit with circulate := false, tankLast := none }
        else s.bit := by
  unfold faultEntered
  generalize faultNotice sc cause s = n
  dsimp only
  split
  · refine ⟨submit_rc n s, submit_co n s, submit_oe n s, submit_mixer n s, submit_heat n s, submit_inp n s, ?_, ?_⟩
    · rw [State.modChan_ch]
      unfold cutChangeover
      dsimp only
      rw [submit_ch]
      rfl
    · rw [State.modChan_bit]
      unfold cutChangeover
      dsimp only
      rw [submit_bit]
  · refine ⟨submit_rc n s, submit_co n s, submit_oe n s, submit_mixer n s, submit_heat n s, submit_inp n s, ?_,
      submit_bit n s⟩
    rw [State.modChan_ch, submit_ch]
    rfl

theorem faultEntered_of_room {s : State} (hroom : s.nu.list.length < 16) (sc : Scale) (cause : ScaleCause) :
    faultEntered sc cause s = { s.setChan sc (faulted (s.chan sc)) with
      nu.list := s.nu.list ++ [faultNotice sc cause s]
      bit := (faultEntered sc cause s).bit } := by
  unfold faultEntered
  dsimp only
  rw [submit_of_room hroom]
  split <;> rfl

theorem faultEntered_chan (sc : Scale) (cause : ScaleCause) (s : State) :
    (faultEntered sc cause s).chan sc = faulted (s.chan sc) ∧
      ∀ x, x ≠ sc → (faultEntered sc cause s).chan x = s.chan x := by
  obtain ⟨-, -, -, -, -, -, hch, -⟩ := faultEntered_fields sc cause s
  unfold State.chan
  rw [hch]
  exact ⟨PerScale.get_set_same _ _ _, fun x hx => PerScale.get_set_other _ _ hx⟩

/-! ### What follows a fault keeps the channel in FAULT -/

/-- The channel in FAULT that a channel became, but for its results and its batch. -/
def FaultKept (d c : Channel) : Prop := c = { faulted d with results := c.results, batch := c.batch }

theorem FaultKept.state {d c : Channel} (h : FaultKept d c) : c.state = .fault := congrArg Channel.state h

theorem FaultKept.feed {d c : Channel} (h : FaultKept d c) : c.feed = none := congrArg Channel.feed h

theorem FaultKept.gate {d c : Channel} (h : FaultKept d c) : c.gate = false := congrArg Channel.gate h

theorem FaultKept.congr {d c e : Channel} (h : FaultKept d c)
    (he : e = { c with results := e.results, batch := e.batch }) : FaultKept d e := by
  unfold FaultKept at h ⊢
  rw [he, h]

theorem abortWeigh_faultKept {s : State} {sc : Scale} {d : Channel} (h : FaultKept d (s.chan sc)) :
    FaultKept d ((abortWeigh s).chan sc) := by
  cases hb : s.co.weigh with
  | none =>
    have hsame : abortWeigh s = s := by
      unfold abortWeigh
      rw [hb]
    rw [hsame]
    exact h
  | some b =>
    obtain ⟨-, hfault, -⟩ := abortWeigh_chan hb sc
    exact h.congr (by rw [hfault h.state])

theorem reportDischarge_ch (sc : Scale) (k : EndKind) (s : State) : (reportDischarge sc k s).ch = s.ch := by
  rw [reportDischarge_frame]

theorem afterFault_faultKept {t : State} {sc : Scale} {d : Channel} (h : FaultKept d (t.chan sc)) (left : ChanState)
    (results : List EntryResult) : FaultKept d ((afterFault sc left results t).chan sc) := by
  have hreport : FaultKept d ((enterVerdict sc ((t.modChan sc fun c => { c with results := results }).chan sc).net
      (t.modChan sc fun c => { c with results := results })).chan sc) := by
    change FaultKept d ((t.modChan sc fun c => { c with results := results }).chan sc)
    rw [State.chan_modChan_same]
    exact h.congr rfl
  unfold afterFault
  cases left with
  | discharging =>
    change FaultKept d ((reportDischarge sc .faulted t).chan sc)
    unfold State.chan
    rw [reportDischarge_ch]
    exact h
  | idle => dsimp only; split <;> exact h
  | weighed =>
    dsimp only
    split
    · exact abortWeigh_faultKept h
    · split <;> exact h
  | fault => exact h
  | taring | dosing p | prefed | changeover =>
    dsimp only
    split
    · exact abortWeigh_faultKept hreport
    · exact h

theorem enterHalted_ch (cause : HaltCause) (s : State) : (enterHalted cause s).ch = s.ch.map quietChannel := by
  unfold enterHalted
  dsimp only
  rw [burnerDrop_ch]
  dsimp only
  rw [submit_ch, setPart_ch]

theorem faultFollows_faultKept {t : State} {sc : Scale} {d : Channel} (h : FaultKept d (t.chan sc)) (left : ChanState)
    (results : List EntryResult) : FaultKept d ((faultFollows sc left results t).chan sc) := by
  unfold faultFollows
  split
  · exact h
  · split
    · unfold State.chan
      rw [enterHalted_ch, PerScale.get_map]
      have hquiet : quietChannel (t.chan sc) = t.chan sc := by
        unfold quietChannel
        rw [← h.feed, ← h.gate]
      exact hquiet.symm ▸ h
    · exact afterFault_faultKept h left results

/-! ### What follows a fault posts behind its notice -/

theorem afterFault_appends {t : State} (hheld : heldNone t) (hroom : t.nu.list.length ≤ 14) (sc : Scale)
    (left : ChanState) (results : List EntryResult) :
    ∃ more, (afterFault sc left results t).nu.list = t.nu.list ++ more := by
  have hnothing : ∃ more, t.nu.list = t.nu.list ++ more := ⟨[], (List.append_nil _).symm⟩
  unfold afterFault
  cases left with
  | discharging =>
    change ∃ more, (reportDischarge sc .faulted t).nu.list = t.nu.list ++ more
    rw [reportDischarge_frame]
    exact hnothing
  | idle => dsimp only; split <;> exact hnothing
  | weighed =>
    dsimp only
    split
    · exact abortWeigh_appends hheld hroom
    · split <;> exact hnothing
  | fault => exact hnothing
  | taring | dosing p | prefed | changeover =>
    dsimp only
    split
    · exact abortWeigh_appends (s := enterVerdict sc ((t.modChan sc fun c => { c with results := results }).chan sc).net
        (t.modChan sc fun c => { c with results := results })) hheld hroom
    · exact hnothing

theorem faultFollows_appends {t : State} (hheld : heldNone t) (hroom : t.nu.list.length ≤ 14) (sc : Scale)
    (left : ChanState) (results : List EntryResult) :
    ∃ more, (faultFollows sc left results t).nu.list = t.nu.list ++ more := by
  unfold faultFollows
  split
  · exact ⟨[], (List.append_nil _).symm⟩
  · split
    · obtain ⟨-, hnu, -⟩ := enterHalted_fields (s := t) (by omega) .scaleFaultInClear
      exact ⟨_, congrArg NoticeUnit.list hnu⟩
    · exact afterFault_appends hheld hroom sc left results

/-! ### The outcomes of a SCALE FAULT -/

/-- The channel a SCALE FAULT leaves. -/
def faultedOut (c : Channel) : Channel := { faulted c with batch := none }

section
variable {s : State} {sc : Scale} (hlive : (s.chan sc).state ≠ .fault) (cause : ScaleCause)
include hlive

theorem scaleFault_chan : ((scaleFault sc cause s).chan sc).batch = none ∧
    FaultKept (s.chan sc) ((scaleFault sc cause s).chan sc) := by
  have hentered : FaultKept (s.chan sc) ((faultEntered sc cause s).chan sc) := by
    rw [(faultEntered_chan sc cause s).1]
    rfl
  rw [scaleFault_of_live hlive, State.chan_modChan_same]
  exact ⟨rfl, (faultFollows_faultKept hentered (s.chan sc).state (faultResults s.bit.prefed (s.chan sc))).congr rfl⟩

/-- Once the fault's notice is posted, what follows ends the weigh-stage batch, posts HALT or posts nothing. -/
theorem scaleFault_appends (hheld : heldNone s) (hroom : s.nu.list.length < 13) :
    ∃ more, (scaleFault sc cause s).nu.list = s.nu.list ++ faultNotice sc cause s :: more := by
  obtain ⟨hrc, hco, hoe, -⟩ := faultEntered_fields sc cause s
  have hlist : (faultEntered sc cause s).nu.list = s.nu.list ++ [faultNotice sc cause s] := by
    rw [faultEntered_of_room (by omega)]
  have hheld' : heldNone (faultEntered sc cause s) := by
    unfold heldNone
    rw [hoe]
    exact hheld
  rw [scaleFault_of_live hlive]
  generalize faultEntered sc cause s = t at *
  obtain ⟨more, hmore⟩ := faultFollows_appends (t := t) hheld' (by
    rw [hlist, List.length_append, List.length_singleton]
    omega) sc (s.chan sc).state (faultResults s.bit.prefed (s.chan sc))
  exact ⟨more, by rw [State.modChan_nu, hmore, hlist, List.append_assoc]; rfl⟩

/-- Outside HALTED and a clear step past WAIT FAULTS, what follows goes by the state left. -/
theorem scaleFault_early (hrun : s.rc.part ≠ .halted) (hclear : clearPastFaults s.rc.clearStep = false) :
    scaleFault sc cause s = (afterFault sc (s.chan sc).state (faultResults s.bit.prefed (s.chan sc))
      (faultEntered sc cause s)).modChan sc fun c => { c with batch := none } := by
  obtain ⟨hrc, -⟩ := faultEntered_fields sc cause s
  rw [scaleFault_of_live hlive]
  unfold faultFollows
  rw [if_neg (by rw [hrc]; exact hrun), if_neg (by rw [hrc, hclear]; exact Bool.false_ne_true)]

/-- In a clear step past WAIT FAULTS the fault halts the part. -/
theorem scaleFault_haltsInClear (hrun : s.rc.part ≠ .halted) (hclear : clearPastFaults s.rc.clearStep = true)
    (hroom : s.nu.list.length < 15) :
    haltsInClear sc (faultedOut (s.chan sc)) (faultNotice sc cause s) s (scaleFault sc cause s) := by
  obtain ⟨hrc, hco, hoe, hmixer, hheat, hinp, hch, hbit⟩ := faultEntered_fields sc cause s
  have hnu : (faultEntered sc cause s).nu = { s.nu with list := s.nu.list ++ [faultNotice sc cause s] } := by
    rw [faultEntered_of_room (by omega)]
    rfl
  have hport : (faultEntered sc cause s).port = s.port ∧ (faultEntered sc cause s).mem = s.mem := by
    rw [faultEntered_of_room (by omega)]
    exact ⟨rfl, rfl⟩
  have hhalts : scaleFault sc cause s =
      (enterHalted .scaleFaultInClear (faultEntered sc cause s)).modChan sc fun c => { c with batch := none } := by
    rw [scaleFault_of_live hlive]
    unfold faultFollows
    rw [if_neg (by rw [hrc]; exact hrun), if_pos (by rw [hrc, hclear])]
  obtain ⟨krc, knu, kch, kmixer, kbit, kheat, kco, koe, kinp, kmem⟩ := enterHalted_fields
    (s := faultEntered sc cause s) (by rw [hnu]; simp; omega) .scaleFaultInClear
  have hchan (x : Scale) : (enterHalted .scaleFaultInClear (faultEntered sc cause s)).chan x =
      quietChannel ((faultEntered sc cause s).chan x) := by
    unfold State.chan
    rw [kch, PerScale.get_map]
  obtain ⟨hself, hothers⟩ := faultEntered_chan sc cause s
  have hmix : mixSeq (faultEntered sc cause s) = mixSeq s := by unfold mixSeq; rw [hco]
  have hweigh : weighSeq (faultEntered sc cause s) = weighSeq s := by unfold weighSeq; rw [hco]
  rw [hhalts]
  refine ⟨krc.trans (by rw [hrc]), ?_, ?_, fun x hx => ?_, kmixer.trans (by rw [hmixer]; rfl), ?_, fun hout => ?_,
    fun hlit => ?_, kco.trans hco, koe.trans hoe, kinp.trans hinp, fun hfree hwf => ?_⟩
  · refine knu.trans ?_
    rw [hnu, hmix, hweigh, hrc]
    dsimp only
    rw [List.append_assoc]
    rfl
  · rw [State.chan_modChan_same, hchan, hself]
    rfl
  · rw [State.chan_modChan_other _ _ hx, hchan, hothers x hx]
    rfl
  · refine kbit.trans ?_
    rw [hbit]
    split <;> rfl
  · exact kheat.trans ((burnerDrop_heat_congr hheat).trans (congrArg State.heat (burnerDrop_of_unlit hout)))
  · exact kheat.trans ((burnerDrop_heat_congr hheat).trans (congrArg State.heat (burnerDrop_of_lit hlit)))
  · obtain ⟨-, hnone⟩ := (arbiterFree_iff s).mp hfree
    have hmem : ((enterHalted .scaleFaultInClear (faultEntered sc cause s)).modChan sc
        fun c => { c with batch := none }).mem = (s.wr Win.partState (BitVec.ofNat 16 PartState.halted.code)).mem := by
      refine (kmem (by rw [hport.1]; exact hnone)).trans ?_
      unfold State.wr
      dsimp only
      rw [hport.2]
    refine ⟨?_, fun b h0 h1 => ?_⟩
    · rw [State.rd_of_mem hmem, State.rd_wr_same hwf]
      rfl
    · rw [State.byteAt_of_mem hmem, State.byteAt_wr_other hwf _ h0 h1]

end

end Sys2Proof.Machine
end

section
/-! A SCALE FAULT outside HALTED and the late clear steps, by the state left (R98). -/

namespace Sys2Proof.Machine

/-- A channel's scale verdict entered into a batch (R56). -/
def verdictIn (sc : Scale) (c : Channel) (net : Int) (b : Batch) : Batch :=
  { b with comps := c.results.foldl enterResult b.comps,
           reported := b.reported.set sc true,
           nets := b.nets.set sc net,
           flags := { b.flags with
             binLow := b.flags.binLow || c.flags.binLow,
             unsettled := b.flags.unsettled || c.flags.unsettled,
             sampleGap := b.flags.sampleGap || c.flags.sampleGap } }

theorem enterVerdict_eq (sc : Scale) (net : Int) (s : State) : enterVerdict sc net s =
    { s with co.weigh := s.co.weigh.map (verdictIn sc (s.chan sc) net) } := rfl

section
variable {s : State} {sc : Scale} (cause : ScaleCause) (hrun : s.rc.part ≠ .halted)
  (hclear : clearPastFaults s.rc.clearStep = false)

/-- The state in which a channel that was in no changeover shows FAULT, its notice posted. -/
theorem faultEntered_eq (hchange : (s.chan sc).state ≠ .changeover) (hroom : s.nu.list.length < 16) :
    faultEntered sc cause s = { s.setChan sc (faulted (s.chan sc)) with
      nu.list := s.nu.list ++ [faultNotice sc cause s] } := by
  obtain ⟨-, -, -, -, -, -, -, hbit⟩ := faultEntered_fields sc cause s
  rw [if_neg hchange] at hbit
  rw [faultEntered_of_room hroom, hbit]
  rfl

/-- A SCALE FAULT detaches the channel last, whatever run control and the mixer hold by then. -/
theorem detached_last (s : State) (sc : Scale) (r : RunCtl) (m : Mixer) (l : List Notice) :
    ({ s.setChan sc (faulted (s.chan sc)) with rc := r, mixer := m, nu.list := l } : State).modChan sc
        (fun c => { c with batch := none }) =
      { s.setChan sc (faultedOut (s.chan sc)) with rc := r, mixer := m, nu.list := l } := by
  unfold State.modChan State.chan State.setChan
  dsimp only
  rw [PerScale.set_set, PerScale.get_set_same]
  rfl

include hrun hclear

theorem scaleFault_idle (hstate : (s.chan sc).state = .idle) (hroom : s.nu.list.length < 16) :
    scaleFault sc cause s = { s.setChan sc (faultedOut (s.chan sc)) with
      rc.clearRequired := s.rc.clearRequired || decide (emptyThr (s.chan sc) ≤ (s.chan sc).net)
      nu.list := s.nu.list ++ [faultNotice sc cause s] } := by
  have hself : holdsMaterial ((faultEntered sc cause s).chan sc) =
      decide (emptyThr (s.chan sc) ≤ (s.chan sc).net) := by
    rw [(faultEntered_chan sc cause s).1]
    rfl
  rw [scaleFault_early (by rw [hstate]; simp) cause hrun hclear, hstate]
  unfold afterFault
  dsimp only
  rw [hself, faultEntered_eq cause (by rw [hstate]; simp) hroom]
  by_cases hheld : emptyThr (s.chan sc) ≤ (s.chan sc).net
  · rw [decide_eq_true hheld, Bool.or_true]
    exact detached_last s sc { s.rc with clearRequired := true } s.mixer _
  · rw [decide_eq_false hheld, Bool.or_false]
    exact detached_last s sc s.rc s.mixer _

theorem scaleFault_discharging (hstate : (s.chan sc).state = .discharging) (hstep : s.rc.clearStep ≠ .discharge)
    (hasked : s.mixer.disch.get sc = .asked) (hroom : s.nu.list.length < 16) :
    scaleFault sc cause s = { s.setChan sc (faultedOut (s.chan sc)) with
      rc.clearRequired := true
      mixer.disch := s.mixer.disch.set sc (.ended .faulted)
      nu.list := s.nu.list ++ [faultNotice sc cause s] } := by
  rw [scaleFault_early (by rw [hstate]; simp) cause hrun hclear, hstate]
  unfold afterFault
  dsimp only
  rw [faultEntered_eq cause (by rw [hstate]; simp) hroom, reportDischarge_asked (by exact hstep) (by exact hasked)]
  exact detached_last s sc { s.rc with clearRequired := true }
    { s.mixer with disch := s.mixer.disch.set sc (.ended .faulted) } _

theorem scaleFault_weighed_unattached (hstate : (s.chan sc).state = .weighed) (hbatch : (s.chan sc).batch = none)
    (hroom : s.nu.list.length < 16) :
    scaleFault sc cause s = { s.setChan sc (faultedOut (s.chan sc)) with
      nu.list := s.nu.list ++ [faultNotice sc cause s] } := by
  have hnone : ((faultEntered sc cause s).chan sc).batch = none := by
    rw [(faultEntered_chan sc cause s).1]
    exact hbatch
  have hweigh : attachedToWeigh (faultEntered sc cause s) sc = false := by
    unfold attachedToWeigh
    rw [hnone]
  have hmix : attachedToMix (faultEntered sc cause s) sc = false := by
    unfold attachedToMix
    rw [hnone]
  rw [scaleFault_early (by rw [hstate]; simp) cause hrun hclear, hstate]
  unfold afterFault
  dsimp only
  rw [hweigh, hmix, if_neg Bool.false_ne_true, if_neg Bool.false_ne_true,
    faultEntered_eq cause (by rw [hstate]; simp) hroom]
  exact detached_last s sc s.rc s.mixer _

theorem scaleFault_weighed_of_mix (hstate : (s.chan sc).state = .weighed) {a : Attach} {b : Batch}
    (hbatch : (s.chan sc).batch = some a) (hb : s.co.mix = some b) (hseq : b.seq = a.seq)
    (hother : ∀ x, s.co.weigh = some x → x.seq ≠ a.seq) (hroom : s.nu.list.length < 16) :
    scaleFault sc cause s = { s.setChan sc (faultedOut (s.chan sc)) with
      rc.clearRequired := true
      mixer.disch := s.mixer.disch.set sc (.ended .faulted)
      nu.list := s.nu.list ++ [faultNotice sc cause s] } := by
  obtain ⟨-, hco, -⟩ := faultEntered_fields sc cause s
  have hattached : ((faultEntered sc cause s).chan sc).batch = some a := by
    rw [(faultEntered_chan sc cause s).1]
    exact hbatch
  have hweigh : attachedToWeigh (faultEntered sc cause s) sc = false := by
    unfold attachedToWeigh
    rw [hattached, hco]
    cases hw : s.co.weigh with
    | none => rfl
    | some x => exact beq_eq_false_iff_ne.mpr fun h => hother x hw h.symm
  have hmix : attachedToMix (faultEntered sc cause s) sc = true := by
    unfold attachedToMix
    rw [hattached, hco, hb]
    exact beq_iff_eq.mpr hseq.symm
  rw [scaleFault_early (by rw [hstate]; simp) cause hrun hclear, hstate]
  unfold afterFault
  dsimp only
  rw [hweigh, hmix, if_neg Bool.false_ne_true, if_pos rfl, faultEntered_eq cause (by rw [hstate]; simp) hroom]
  exact detached_last s sc { s.rc with clearRequired := true }
    { s.mixer with disch := s.mixer.disch.set sc (.ended .faulted) } _

omit hrun hclear in
theorem attachedToWeigh_of {t : State} {x : Scale} {a : Attach} {b : Batch} (hbatch : (t.chan x).batch = some a)
    (hb : t.co.weigh = some b) (hseq : b.seq = a.seq) : attachedToWeigh t x = true := by
  unfold attachedToWeigh
  rw [hbatch, hb]
  exact beq_iff_eq.mpr hseq.symm

/-- The results of a channel in FAULT entered into the weigh-stage batch. -/
def faultReported (sc : Scale) (results : List EntryResult) (t : State) : State :=
  let u := t.modChan sc fun c => { c with results := results }
  enterVerdict sc (u.chan sc).net u

/-- A fault that meets material of the weigh-stage batch ends that batch, as a state in which the channel is in
FAULT and still attached (R98). -/
theorem scaleFault_ofWeigh (hof : ofWeighStage (s.chan sc).state = true) {a : Attach} {b : Batch}
    (hbatch : (s.chan sc).batch = some a) (hb : s.co.weigh = some b) (hseq : b.seq = a.seq) :
    ∃ t b', b'.slot = b.slot ∧ b'.order = b.order ∧ t.co.weigh = some b' ∧ t.co.mix = s.co.mix ∧
      t.co.counter = s.co.counter ∧ t.rc = s.rc ∧ FaultKept (s.chan sc) (t.chan sc) ∧ (∀ x, x ≠ sc → t.chan x = s.chan x) ∧
      scaleFault sc cause s = (abortWeigh t).modChan sc fun c => { c with batch := none } := by
  have hlive : (s.chan sc).state ≠ .fault := fun h => by rw [h] at hof; exact Bool.false_ne_true hof
  obtain ⟨hrc, hco, -⟩ := faultEntered_fields sc cause s
  obtain ⟨hself, hothers⟩ := faultEntered_chan sc cause s
  have hattached : attachedToWeigh (faultEntered sc cause s) sc = true :=
    attachedToWeigh_of (by rw [hself]; exact hbatch) (by rw [hco]; exact hb) hseq
  have hin : FaultKept (s.chan sc) ((faultEntered sc cause s).chan sc) := by
    rw [hself]
    rfl
  rw [scaleFault_early hlive cause hrun hclear]
  generalize faultResults s.bit.prefed (s.chan sc) = results
  generalize faultEntered sc cause s = t at *
  have hreports (hafter : afterFault sc (s.chan sc).state results t = afterFault sc .taring results t) :
      ∃ u b', b'.slot = b.slot ∧ b'.order = b.order ∧ u.co.weigh = some b' ∧ u.co.mix = s.co.mix ∧
        u.co.counter = s.co.counter ∧ u.rc = s.rc ∧ FaultKept (s.chan sc) (u.chan sc) ∧ (∀ x, x ≠ sc → u.chan x = s.chan x) ∧
        (afterFault sc (s.chan sc).state results t).modChan sc (fun c => { c with batch := none }) =
          (abortWeigh u).modChan sc fun c => { c with batch := none } := by
    have hchan (x : Scale) : (faultReported sc results t).chan x =
        (t.modChan sc fun c => { c with results := results }).chan x := rfl
    refine ⟨faultReported sc results t, verdictIn sc ((t.modChan sc fun c => { c with results := results }).chan sc)
      ((t.modChan sc fun c => { c with results := results }).chan sc).net b, rfl, rfl, ?_, ?_, ?_, hrc, ?_,
      fun x hx => ?_, ?_⟩
    · exact congrArg (Option.map _) ((congrArg Coord.weigh hco).trans hb)
    · change t.co.mix = s.co.mix
      rw [hco]
    · change t.co.counter = s.co.counter
      rw [hco]
    · rw [hchan, State.chan_modChan_same]
      exact hin.congr rfl
    · rw [hchan, State.chan_modChan_other _ _ hx, hothers x hx]
    · rw [hafter]
      exact congrArg (fun u : State => u.modChan sc fun c => { c with batch := none }) (if_pos hattached)
  cases hst : (s.chan sc).state with
  | weighed =>
    refine ⟨t, b, rfl, rfl, by rw [hco]; exact hb, by rw [hco], by rw [hco], hrc, hin, hothers, ?_⟩
    exact congrArg (fun u : State => u.modChan sc fun c => { c with batch := none }) (if_pos hattached)
  | taring | dosing p | prefed | changeover =>
    rw [hst] at hreports
    exact hreports rfl
  | idle | discharging | fault =>
    rw [hst] at hof
    exact absurd hof Bool.false_ne_true

/-- What the end of the weigh-stage batch leaves. -/
theorem scaleFault_endsBatch (hof : ofWeighStage (s.chan sc).state = true) {a : Attach} {b : Batch}
    (hbatch : (s.chan sc).batch = some a) (hb : s.co.weigh = some b) (hseq : b.seq = a.seq) :
    let u := scaleFault sc cause s
    u.co.weigh = none ∧ (u.co.mix = s.co.mix ∨ u.co.mix = s.co.mix.map (loseOrder b.slot b.order)) ∧
      u.co.counter = s.co.counter ∧ u.rc = { s.rc with clearRequired := true } ∧ u.heat.permit = none ∧
      (∀ x, x = sc ∨ chanSafe (s.chan x) = true → (u.chan x).feed = none) ∧
      ∀ x p, x ≠ sc → (s.chan x).state = .dosing p →
        ((u.chan x).state = .weighed ∨ (u.chan x).state = .idle) ∧ (u.chan x).batch = none := by
  obtain ⟨t, b', hslot, horder, hweigh, hmix, hcount, hrc, hin, hothers, hends⟩ :=
    scaleFault_ofWeigh cause hrun hclear hof hbatch hb hseq
  obtain ⟨-, krc, kweigh, kcount, kmix, kpermit⟩ := abortWeigh_fields hweigh
  rw [hslot, horder, hmix] at kmix
  rw [hends]
  refine ⟨kweigh, kmix, kcount.trans hcount, krc.trans (by rw [hrc]), kpermit, fun x hx => ?_, fun x p hx hp => ?_⟩
  · by_cases hsc : x = sc
    · subst hsc
      rw [State.chan_modChan_same]
      exact (abortWeigh_faultKept hin).feed
    · rw [State.chan_modChan_other _ _ hsc]
      exact abortWeigh_feeds_none hweigh (by rw [hothers x hsc]; exact hx.resolve_left hsc)
  · obtain ⟨hnone, -, -, hdosing⟩ := abortWeigh_chan hweigh x
    rw [State.chan_modChan_other _ _ hx]
    exact ⟨(hdosing p (by rw [hothers x hx, hp])).1, hnone⟩

end

/-! ### A SCALE FAULT of a channel changed just before it -/

theorem haltsInClear_setChan {s u : State} {sc : Scale} {d out : Channel} {n : Notice}
    (h : haltsInClear sc out n (s.setChan sc d) u) : haltsInClear sc out n s u := by
  obtain ⟨hrc, hnu, hself, hothers, hmixer, hbit, hunlit, hlit, hco, hoe, hinp, hmem⟩ := h
  refine ⟨hrc, hnu, hself, fun x hx => ?_, hmixer, hbit, hunlit, hlit, hco, hoe, hinp, hmem⟩
  rw [hothers x hx, State.chan_setChan_other _ _ hx]

/-- Outside HALTED and a clear step past WAIT FAULTS. -/
def faultEarly (s : State) : Prop := s.rc.part ≠ .halted ∧ (s.rc.clearStep = .none ∨ s.rc.clearStep = .waitFaults)

theorem clearPastFaults_of_early {s : State} (h : faultEarly s) : clearPastFaults s.rc.clearStep = false := by
  rcases h.2 with h | h <;> rw [h] <;> rfl

theorem clearStep_of_early {s : State} (h : faultEarly s) : s.rc.clearStep ≠ .discharge := by
  rcases h.2 with h | h <;> rw [h] <;> simp

section
variable {s : State} {sc : Scale} {d : Channel} (cause : ScaleCause)

/-- The notice of a SCALE FAULT of a channel. -/
def faultNoticeOf (sc : Scale) (cause : ScaleCause) (d : Channel) : Notice :=
  attachedNotice d.batch (.scaleFault sc cause d.state d.gross)

theorem faultNotice_setChan : faultNotice sc cause (s.setChan sc d) = faultNoticeOf sc cause d := by
  unfold faultNotice
  rw [State.chan_setChan_same]
  rfl

theorem scaleFault_set_chan (hlive : d.state ≠ .fault) :
    let u := scaleFault sc cause (s.setChan sc d)
    FaultKept d (u.chan sc) ∧ (u.chan sc).batch = none := by
  obtain ⟨hbatch, hkept⟩ := scaleFault_chan (s := s.setChan sc d) (sc := sc)
    (by rw [State.chan_setChan_same]; exact hlive) cause
  rw [State.chan_setChan_same] at hkept
  exact ⟨hkept, hbatch⟩

theorem scaleFault_set_appends (hlive : d.state ≠ .fault) (hheld : heldNone s) (hroom : s.nu.list.length < 13) :
    ∃ more, (scaleFault sc cause (s.setChan sc d)).nu.list = s.nu.list ++ faultNoticeOf sc cause d :: more := by
  rw [← faultNotice_setChan (s := s)]
  exact scaleFault_appends (by rw [State.chan_setChan_same]; exact hlive) cause hheld hroom

theorem scaleFault_set_idle (hearly : faultEarly s) (hstate : d.state = .idle) (hroom : s.nu.list.length < 16) :
    scaleFault sc cause (s.setChan sc d) = { s.setChan sc (faultedOut d) with
      rc.clearRequired := s.rc.clearRequired || decide (emptyThr d ≤ d.net)
      nu.list := s.nu.list ++ [faultNoticeOf sc cause d] } := by
  rw [scaleFault_idle (s := s.setChan sc d) cause hearly.1 (clearPastFaults_of_early hearly)
    (by rw [State.chan_setChan_same]; exact hstate) hroom, faultNotice_setChan, State.chan_setChan_same,
    State.setChan_setChan]
  rfl

theorem scaleFault_set_discharging (hearly : faultEarly s) (hstate : d.state = .discharging)
    (hasked : s.mixer.disch.get sc = .asked) (hroom : s.nu.list.length < 16) :
    scaleFault sc cause (s.setChan sc d) = { s.setChan sc (faultedOut d) with
      rc.clearRequired := true
      mixer.disch := s.mixer.disch.set sc (.ended .faulted)
      nu.list := s.nu.list ++ [faultNoticeOf sc cause d] } := by
  rw [scaleFault_discharging (s := s.setChan sc d) cause hearly.1 (clearPastFaults_of_early hearly)
    (by rw [State.chan_setChan_same]; exact hstate) (clearStep_of_early hearly) hasked hroom, faultNotice_setChan,
    State.chan_setChan_same, State.setChan_setChan]
  rfl

theorem scaleFault_set_weighed (hearly : faultEarly s) (hstate : d.state = .weighed) (hbatch : d.batch = none)
    (hroom : s.nu.list.length < 16) : scaleFault sc cause (s.setChan sc d) = { s.setChan sc (faultedOut d) with
      nu.list := s.nu.list ++ [faultNoticeOf sc cause d] } := by
  rw [scaleFault_weighed_unattached (s := s.setChan sc d) cause hearly.1 (clearPastFaults_of_early hearly)
    (by rw [State.chan_setChan_same]; exact hstate) (by rw [State.chan_setChan_same]; exact hbatch) hroom,
    faultNotice_setChan, State.chan_setChan_same, State.setChan_setChan]
  rfl

theorem scaleFault_set_weighed_of_mix (hearly : faultEarly s) (hstate : d.state = .weighed) {a : Attach} {b : Batch}
    (hbatch : d.batch = some a) (hb : s.co.mix = some b) (hseq : b.seq = a.seq)
    (hother : ∀ x, s.co.weigh = some x → x.seq ≠ a.seq) (hroom : s.nu.list.length < 16) :
    scaleFault sc cause (s.setChan sc d) = { s.setChan sc (faultedOut d) with
      rc.clearRequired := true
      mixer.disch := s.mixer.disch.set sc (.ended .faulted)
      nu.list := s.nu.list ++ [faultNoticeOf sc cause d] } := by
  rw [scaleFault_weighed_of_mix (s := s.setChan sc d) cause hearly.1 (clearPastFaults_of_early hearly)
    (by rw [State.chan_setChan_same]; exact hstate) (by rw [State.chan_setChan_same]; exact hbatch) hb hseq hother
    hroom, faultNotice_setChan, State.chan_setChan_same, State.setChan_setChan]
  rfl

theorem scaleFault_set_halts (hlive : d.state ≠ .fault) (hrun : s.rc.part ≠ .halted)
    (hclear : clearPastFaults s.rc.clearStep = true) (hroom : s.nu.list.length < 15) :
    haltsInClear sc (faultedOut d) (faultNoticeOf sc cause d) s (scaleFault sc cause (s.setChan sc d)) := by
  have hhalts := scaleFault_haltsInClear (s := s.setChan sc d) (sc := sc)
    (by rw [State.chan_setChan_same]; exact hlive) cause hrun hclear hroom
  rw [faultNotice_setChan, State.chan_setChan_same] at hhalts
  exact haltsInClear_setChan hhalts

theorem scaleFault_set_endsBatch (hearly : faultEarly s) (hof : ofWeighStage d.state = true) {a : Attach} {b : Batch}
    (hbatch : d.batch = some a) (hb : s.co.weigh = some b) (hseq : b.seq = a.seq) :
    let u := scaleFault sc cause (s.setChan sc d)
    u.co.weigh = none ∧ (u.co.mix = s.co.mix ∨ u.co.mix = s.co.mix.map (loseOrder b.slot b.order)) ∧
      u.co.counter = s.co.counter ∧ u.rc.clearRequired = true ∧ u.rc.part = s.rc.part ∧ u.heat.permit = none ∧
      (channelsSafe s = true → ∀ x, (u.chan x).feed = none) ∧
      ∀ x p, x ≠ sc → (s.chan x).state = .dosing p →
        ((u.chan x).state = .weighed ∨ (u.chan x).state = .idle) ∧ (u.chan x).batch = none := by
  obtain ⟨hweigh, hmix, hcount, hrc, hpermit, hfeeds, hothers⟩ := scaleFault_endsBatch (s := s.setChan sc d) (sc := sc)
    cause hearly.1 (clearPastFaults_of_early hearly) (by rw [State.chan_setChan_same]; exact hof)
    (by rw [State.chan_setChan_same]; exact hbatch) hb hseq
  refine ⟨hweigh, hmix, hcount, by rw [hrc], by rw [hrc]; rfl, hpermit, fun hsafe x => hfeeds x ?_,
    fun x p hx hp => hothers x p hx (by rw [State.chan_setChan_other _ _ hx]; exact hp)⟩
  by_cases hx : x = sc
  · exact .inl hx
  · refine .inr ?_
    rw [State.chan_setChan_other _ _ hx]
    exact (PerScale.all_iff _ _).mp hsafe x

end

end Sys2Proof.Machine
end

section
/-! LATE_PERIOD (O32): the third late period and the gap cause (R75, R89). -/

namespace Sys2Proof.Machine

theorem exec_latePeriod {s : State} (h : s.port.resetLow = false) (sc : Scale) :
    exec (.latePeriod sc) s = .next (settle (latePeriod sc s)) := congrArg _ (event_of_high h _)

/-- A channel at the end of a late period. -/
def lateCounted (c : Channel) : Channel := { c with late := min 3 (c.late + 1), age := 0 }

/-- What a late period that is not the third does to a channel. -/
def gapMarked (sc : Scale) (s : State) : State :=
  let t := s.modChan sc gapHoldDose
  if marksGap (s.chan sc).state then flagAttached sc (fun f => { f with sampleGap := true }) t else t

theorem latePeriod_of_none {s : State} {sc : Scale} (h : (s.chan sc).work = none) : latePeriod sc s = s :=
  if_pos (by rw [h]; rfl)

theorem latePeriod_of_work {s : State} {sc : Scale} (h : (s.chan sc).work.isSome = true) : latePeriod sc s =
    let t := s.setChan sc (lateCounted (s.chan sc))
    if (lateCounted (s.chan sc)).late = 3 then scaleFault sc .lost t
    else if s.rc.part = .halted then t else gapMarked sc t := by
  have hnot : (s.chan sc).work.isNone ≠ true := by
    rw [← Option.not_isSome, h]
    exact Bool.false_ne_true
  refine (if_neg hnot).trans ?_
  unfold gapMarked
  dsimp only
  rw [State.chan_modChan_same, State.chan_setChan_same]
  rfl

section
variable {s : State} {sc : Scale} (h : (s.chan sc).work.isSome = true)
include h

theorem latePeriod_third (hlate : 2 ≤ (s.chan sc).late) : latePeriod sc s =
    scaleFault sc .lost (s.setChan sc { s.chan sc with late := 3, age := 0 }) := by
  have hthree : lateCounted (s.chan sc) = { s.chan sc with late := 3, age := 0 } := by
    unfold lateCounted
    rw [Nat.min_eq_left (by omega)]
  rw [latePeriod_of_work h, hthree]
  rfl

omit h in
theorem lateCounted_early (hlate : (s.chan sc).late < 2) :
    lateCounted (s.chan sc) = { s.chan sc with late := (s.chan sc).late + 1, age := 0 } := by
  unfold lateCounted
  rw [Nat.min_eq_right (by omega)]

theorem latePeriod_early (hlate : (s.chan sc).late < 2) : latePeriod sc s =
    let t := s.setChan sc { s.chan sc with late := (s.chan sc).late + 1, age := 0 }
    if s.rc.part = .halted then t else gapMarked sc t := by
  rw [latePeriod_of_work h, lateCounted_early hlate]
  exact if_neg (by show ¬(s.chan sc).late + 1 = 3; omega)

end

/-! ### Marks of a gap (R89) -/

theorem State.modChan_setChan (s : State) (sc : Scale) (c : Channel) (g : Channel → Channel) :
    (s.setChan sc c).modChan sc g = s.setChan sc (g c) := by
  unfold State.modChan
  rw [State.chan_setChan_same, State.setChan_setChan]

theorem gapMarked_unmarked {t : State} {sc : Scale} (h : marksGap (t.chan sc).state = false) :
    gapMarked sc t = t.modChan sc gapHoldDose := by
  unfold gapMarked
  rw [h]
  rfl

theorem gapHoldDose_idle {c : Channel} (h : c.state = .idle ∨ c.state = .weighed ∨ c.state = .taring) :
    gapHoldDose c = c := by
  unfold gapHoldDose
  rcases h with h | h | h <;> rw [h]

theorem gapHoldDose_settling {c : Channel} (h : c.state = .dosing .settling) :
    gapHoldDose c = { c with dose.settleCount := 0 } := by
  unfold gapHoldDose
  rw [h]

/-- A dose in FAST, FINE or JOGGING is held with the gap cause; one held already stays in its sub-phase. -/
theorem gapHoldDose_feeding {c : Channel} {back : Remembered}
    (h : (c.state = .dosing .fast ∧ back = Remembered.fast) ∨ (c.state = .dosing .fine ∧ back = .fine) ∨
      (c.state = .dosing .jogging ∧ back = .jogCut)) :
    gapHoldDose c = { enterHeld back c with
      gapHold := true, dose := { c.dose with held := true, sampleGap := true }, flags.sampleGap := true } := by
  unfold gapHoldDose
  rcases h with ⟨h, rfl⟩ | ⟨h, rfl⟩ | ⟨h, rfl⟩ <;> rw [h] <;> rfl

theorem gapHoldDose_held {c : Channel} {back : Remembered} (h : c.state = .dosing (.held back)) :
    gapHoldDose c = { c with gapHold := true, dose.sampleGap := true, flags.sampleGap := true } := by
  obtain ⟨⟩ := c
  dsimp only at h
  subst h
  rfl

theorem flagBatch_weigh {s : State} {n : Nat} {b : Batch} (hb : s.co.weigh = some b) (hseq : b.seq = n)
    (f : TicketFlags → TicketFlags) : (flagBatch n f s).co.weigh = some { b with flags := f b.flags } := by
  unfold flagBatch
  dsimp only
  rw [hb, Option.map_some, if_pos hseq]

/-- Flags of a channel's batch are all that a mark changes. -/
theorem flagAttached_frame (sc : Scale) (f : TicketFlags → TicketFlags) (s : State) :
    flagAttached sc f s = { s with co := (flagAttached sc f s).co } := by
  unfold flagAttached
  split <;> rfl

/-- What a late period short of the third does to a dose that a gap holds. -/
theorem gapMarked_dose {t : State} {sc : Scale} (h : marksGap (t.chan sc).state = true) :
    let u := gapMarked sc t
    u.chan sc = gapHoldDose (t.chan sc) ∧ u.mem = t.mem ∧ u.nu = t.nu ∧ u.rc = t.rc ∧
      ∀ a b, (gapHoldDose (t.chan sc)).batch = some a → t.co.weigh = some b → b.seq = a.seq →
        u.co.weigh = some { b with flags.sampleGap := true } := by
  have heq : gapMarked sc t = flagAttached sc (fun f => { f with sampleGap := true }) (t.modChan sc gapHoldDose) := by
    unfold gapMarked
    rw [h]
    rfl
  have hself : (t.modChan sc gapHoldDose).chan sc = gapHoldDose (t.chan sc) := State.chan_modChan_same _ _ _
  rw [heq]
  refine ⟨?_, ?_, ?_, ?_, fun a b ha hb hseq => ?_⟩
  · rw [flagAttached_frame]
    exact hself
  · rw [flagAttached_frame]
    rfl
  · rw [flagAttached_frame]
    rfl
  · rw [flagAttached_frame]
    rfl
  · rw [flagAttached_of_batch (by rw [hself]; exact ha)]
    exact flagBatch_weigh (s := t.modChan sc gapHoldDose) hb hseq _

/-- A late period short of the third that marks no gap. -/
theorem latePeriod_unmarked {s : State} {sc : Scale} (hwork : (s.chan sc).work.isSome = true)
    (hlate : (s.chan sc).late < 2) (hmarks : marksGap (s.chan sc).state = false) : latePeriod sc s =
      s.setChan sc (if s.rc.part = .halted then { s.chan sc with late := (s.chan sc).late + 1, age := 0 }
        else gapHoldDose { s.chan sc with late := (s.chan sc).late + 1, age := 0 }) := by
  rw [latePeriod_early hwork hlate]
  dsimp only
  rw [gapMarked_unmarked (by rw [State.chan_setChan_same]; exact hmarks), State.modChan_setChan]
  split <;> rfl

theorem gapHoldDose_marked {c : Channel} {back : Remembered}
    (h : (c.state = .dosing .fast ∧ back = Remembered.fast) ∨ (c.state = .dosing .fine ∧ back = .fine) ∨
      (c.state = .dosing .jogging ∧ back = .jogCut) ∨ c.state = .dosing (.held back)) :
    let d := gapHoldDose c
    d.state = .dosing (.held back) ∧ d.gapHold = true ∧ d.flags.sampleGap = true ∧ d.late = c.late ∧
      d.batch = c.batch ∧
      (c.state = .dosing (.held back) → d.pauseHold = c.pauseHold ∧ d.dose = { c.dose with sampleGap := true } ∧
        d.feed = c.feed) ∧
      (c.state ≠ .dosing (.held back) → d.feed = none ∧ d.gate = false ∧
        d.dose = { c.dose with held := true, sampleGap := true }) := by
  by_cases hheld : c.state = .dosing (.held back)
  · rw [gapHoldDose_held hheld]
    exact ⟨hheld, rfl, rfl, rfl, rfl, fun _ => ⟨rfl, rfl, rfl⟩, fun hne => absurd hheld hne⟩
  · rw [gapHoldDose_feeding (back := back) (by tauto)]
    exact ⟨rfl, rfl, rfl, rfl, rfl, fun heq => absurd heq hheld, fun _ => ⟨rfl, rfl, rfl⟩⟩

theorem marksGap_of_dose {c : Channel} {back : Remembered}
    (h : (c.state = .dosing .fast ∧ back = Remembered.fast) ∨ (c.state = .dosing .fine ∧ back = .fine) ∨
      (c.state = .dosing .jogging ∧ back = .jogCut) ∨ c.state = .dosing (.held back)) :
    marksGap c.state = true := by
  rcases h with ⟨h, -⟩ | ⟨h, -⟩ | ⟨h, -⟩ | h <;> rw [h] <;> rfl

/-- Settles O32. -/
theorem latePeriodHolds : Obligations.LatePeriodHolds := by
  intro s sc hhigh c
  rw [exec_latePeriod hhigh]
  refine ⟨fun h => by rw [latePeriod_of_none h], fun hwork hlate => ?_, fun hwork hlate hstate => ?_,
    fun hwork hlate hrun hstate => ?_, fun back hwork hlate hrun hstate => ?_⟩
  · rw [latePeriod_third hwork hlate]
    intro out notice early
    refine ⟨fun hfault => ?_, fun hlive => ?_, fun hstate hearly hroom => ?_, fun hstate hearly hasked hroom => ?_,
      fun hlive hrun hclear hroom => ⟨_, rfl, scaleFault_set_halts (d := { c with late := 3, age := 0 }) .lost hlive hrun
        hclear hroom⟩, fun a b hof hearly hbatch hb hseq => ?_⟩
    · rw [scaleFault_of_fault (by rw [State.chan_setChan_same]; exact hfault)]
    · obtain ⟨hkept, hbatch⟩ := scaleFault_set_chan (s := s) (sc := sc) (d := { c with late := 3, age := 0 }) .lost hlive
      exact ⟨_, rfl, hkept.state, congrArg Channel.late hkept, hkept.feed, hkept.gate, hbatch,
        fun hroom hheld => scaleFault_set_appends .lost hlive hheld hroom⟩
    · exact congrArg (fun t => Host.Outcome.next (settle t))
        (scaleFault_set_idle (d := { c with late := 3, age := 0 }) .lost hearly hstate hroom)
    · exact congrArg (fun t => Host.Outcome.next (settle t))
        (scaleFault_set_discharging (d := { c with late := 3, age := 0 }) .lost hearly hstate hasked hroom)
    · obtain ⟨hweigh, -, -, hreq, hpart, hpermit, hfeeds, -⟩ := scaleFault_set_endsBatch (sc := sc)
        (d := { c with late := 3, age := 0 }) .lost hearly hof hbatch hb hseq
      exact ⟨_, rfl, hweigh, hreq, hpart, hpermit, hfeeds⟩
  · rw [latePeriod_unmarked hwork hlate (by rcases hstate with h | h | h <;> rw [h] <;> rfl),
      gapHoldDose_idle (c := { c with late := c.late + 1, age := 0 }) hstate, ite_self]
  · rw [latePeriod_unmarked hwork hlate (by rw [hstate]; rfl), if_neg hrun,
      gapHoldDose_settling (c := { c with late := c.late + 1, age := 0 }) hstate]
  · rw [latePeriod_early hwork hlate]
    dsimp only
    rw [if_neg hrun]
    have hself := State.chan_setChan_same s sc { c with late := c.late + 1, age := 0 }
    obtain ⟨hchan, hmem, hnu, hrc, hflag⟩ := gapMarked_dose (t := s.setChan sc { c with late := c.late + 1, age := 0 })
      (sc := sc) (by rw [hself]; exact marksGap_of_dose hstate)
    obtain ⟨hheld, hgap, hsample, hcount, hbatch, hstays, hholds⟩ :=
      gapHoldDose_marked (c := { c with late := c.late + 1, age := 0 }) hstate
    rw [hself] at hchan hflag
    refine ⟨_, rfl, ?_⟩
    rw [hchan]
    exact ⟨hheld, hgap, hsample, hcount, hstays, hholds, fun a b ha hb hseq => hflag a b (hbatch.trans ha) hb hseq, hmem,
      hnu, hrc⟩

end Sys2Proof.Machine
end

section
/-! WEIGH_FRAME as it arrives (R73, R76), and the frames that put a channel into FAULT (O31). -/

namespace Sys2Proof.Machine

theorem exec_weighFrame {s : State} (h : s.port.resetLow = false) (sc : Scale) (count : Int) (st : FrameStatus) :
    exec (.weighFrame sc count st) s = .next (settle (weighFrame sc count st s)) := congrArg _ (event_of_high h _)

theorem weighFrame_of_none {s : State} {sc : Scale} (h : (s.chan sc).work = none) (count : Int) (st : FrameStatus) :
    weighFrame sc count st s = s := by
  unfold weighFrame
  rw [h]

/-- A channel as a frame arrives. -/
def framed (c : Channel) : Channel := { c with late := 0, age := 0 }

theorem weighFrame_sample {s : State} {sc : Scale} {w : ScaleParams} (hwork : (s.chan sc).work = some w) {count : Int}
    {st : FrameStatus} (h : frameFault w (grossOf w count) st = none) :
    weighFrame sc count st s = takeSample sc (grossOf w count) (s.setChan sc (framed (s.chan sc))) := by
  unfold weighFrame
  rw [hwork]
  dsimp only
  rw [h]
  rfl

theorem weighFrame_fault {s : State} {sc : Scale} {w : ScaleParams} (hwork : (s.chan sc).work = some w) {count : Int}
    {st : FrameStatus} {k : ScaleCause} (h : frameFault w (grossOf w count) st = some k) :
    weighFrame sc count st s = scaleFault sc k (s.setChan sc { framed (s.chan sc) with frameGood := false }) := by
  unfold weighFrame
  rw [hwork]
  dsimp only
  rw [h]
  exact congrArg (scaleFault sc k) (State.modChan_setChan s sc (framed (s.chan sc)) fun c =>
    { c with frameGood := false })

theorem frameFault_of_cause {w : ScaleParams} {gross : Int} {st : FrameStatus} {k : ScaleCause}
    (h : (st = .overload ∧ k = .overload) ∨ ((st = .converterFault ∨ st = .other) ∧ k = .converterFault) ∨
      (st = .ok ∧ w.capacity < gross ∧ k = .capacity)) : frameFault w gross st = some k := by
  rcases h with ⟨rfl, rfl⟩ | ⟨rfl | rfl, rfl⟩ | ⟨rfl, hcap, rfl⟩
  · rfl
  · rfl
  · rfl
  · exact if_pos hcap

/-- Settles O31. -/
theorem faultFrameFaults : Obligations.FaultFrameFaults := by
  intro s sc count st w k hhigh hwork hcause c out early
  rw [exec_weighFrame hhigh, weighFrame_fault hwork (frameFault_of_cause hcause)]
  have hnotice {x : ChanState} (h : c.state = x) : faultNoticeOf sc k { framed c with frameGood := false } =
      attachedNotice c.batch (.scaleFault sc k x c.gross) := by
    rw [← h]
    rfl
  refine ⟨⟨_, rfl, ?_, fun hlive => ?_⟩, fun hfault => ?_, fun hstate hearly hroom => ?_,
    fun hstate hearly hasked hroom => ?_, fun hstate hearly hroom => ⟨fun hbatch => ?_,
    fun a b hbatch hb hseq hother => ?_⟩, fun hlive hrun hclear hroom => ⟨_, rfl, scaleFault_set_halts
      (d := { framed c with frameGood := false }) k hlive hrun hclear hroom⟩,
    fun a b hof hearly hbatch hb hseq => ⟨_, rfl, scaleFault_set_endsBatch
      (d := { framed c with frameGood := false }) k hearly hof hbatch hb hseq⟩⟩
  · by_cases hfault : c.state = .fault
    · rw [scaleFault_of_fault (by rw [State.chan_setChan_same]; exact hfault), State.chan_setChan_same]
      exact hfault
    · exact (scaleFault_set_chan (d := { framed c with frameGood := false }) k hfault).1.state
  · obtain ⟨hkept, hbatch⟩ := scaleFault_set_chan (s := s) (sc := sc) (d := { framed c with frameGood := false }) k hlive
    exact ⟨hkept.feed, hkept.gate, hbatch⟩
  · rw [scaleFault_of_fault (by rw [State.chan_setChan_same]; exact hfault)]
    rfl
  · rw [← hnotice hstate]
    exact congrArg (fun t => Host.Outcome.next (settle t))
      (scaleFault_set_idle (d := { framed c with frameGood := false }) k hearly hstate hroom)
  · rw [← hnotice hstate]
    exact congrArg (fun t => Host.Outcome.next (settle t))
      (scaleFault_set_discharging (d := { framed c with frameGood := false }) k hearly hstate hasked hroom)
  · rw [← hnotice hstate]
    exact congrArg (fun t => Host.Outcome.next (settle t))
      (scaleFault_set_weighed (d := { framed c with frameGood := false }) k hearly hstate hbatch hroom)
  · rw [← hnotice hstate]
    exact congrArg (fun t => Host.Outcome.next (settle t)) (scaleFault_set_weighed_of_mix
      (d := { framed c with frameGood := false }) k hearly hstate hbatch hb hseq hother hroom)

end Sys2Proof.Machine
end

section
/-! What the end of a dose and the begin of the next leave unchanged (R79, R82, R83, R106): the other channels, run
control, the order engine, the mixer, the heat controller and the inputs. -/

namespace Sys2Proof.Machine

/-- What work on the dose of one channel leaves as it is; a channel's UNSETTLED mark stays. -/
structure DoseOnly (sc : Scale) (s t : State) : Prop where
  others : ∀ x, x ≠ sc → t.chan x = s.chan x
  rc : t.rc = s.rc
  oe : t.oe = s.oe
  mixer : t.mixer = s.mixer
  heat : t.heat = s.heat
  inp : t.inp = s.inp
  unsettled : (s.chan sc).flags.unsettled = true → (t.chan sc).flags.unsettled = true

section
variable {sc : Scale}

theorem DoseOnly.refl (s : State) : DoseOnly sc s s := ⟨fun _ _ => rfl, rfl, rfl, rfl, rfl, rfl, id⟩

theorem DoseOnly.trans {s t u : State} (h : DoseOnly sc s t) (k : DoseOnly sc t u) : DoseOnly sc s u :=
  ⟨fun x hx => (k.others x hx).trans (h.others x hx), k.rc.trans h.rc, k.oe.trans h.oe, k.mixer.trans h.mixer,
    k.heat.trans h.heat, k.inp.trans h.inp, k.unsettled ∘ h.unsettled⟩

/-- A change beside the channels and what a dose leaves as it is. -/
theorem DoseOnly.of_eq {s t : State} (hch : t.ch = s.ch) (hrc : t.rc = s.rc) (hoe : t.oe = s.oe)
    (hmixer : t.mixer = s.mixer) (hheat : t.heat = s.heat) (hinp : t.inp = s.inp) : DoseOnly sc s t := by
  have hchan (x : Scale) : t.chan x = s.chan x := congrArg (·.get x) hch
  exact ⟨fun x _ => hchan x, hrc, hoe, hmixer, hheat, hinp, fun h => by rw [hchan]; exact h⟩

theorem DoseOnly.modChan {f : Channel → Channel} (hf : ∀ c, c.flags.unsettled = true → (f c).flags.unsettled = true)
    (s : State) : DoseOnly sc s (s.modChan sc f) :=
  ⟨fun _ hx => State.chan_modChan_other _ _ hx, rfl, rfl, rfl, rfl, rfl,
    fun h => by rw [State.chan_modChan_same]; exact hf _ h⟩

/-- A change of the one channel, and beside the channels of nothing that a dose leaves as it is. -/
theorem DoseOnly.of_set {s t : State} {d : Channel} (hch : t.ch = s.ch.set sc d)
    (hd : (s.chan sc).flags.unsettled = true → d.flags.unsettled = true) (hrc : t.rc = s.rc) (hoe : t.oe = s.oe)
    (hmixer : t.mixer = s.mixer) (hheat : t.heat = s.heat) (hinp : t.inp = s.inp) : DoseOnly sc s t := by
  refine ⟨fun x hx => ?_, hrc, hoe, hmixer, hheat, hinp, fun h => ?_⟩
  · unfold State.chan
    rw [hch, PerScale.get_set_other _ _ hx]
  · unfold State.chan
    rw [hch, PerScale.get_set_same]
    exact hd h

theorem submit_doseOnly (n : Notice) (s : State) : DoseOnly sc s (submit n s) :=
  .of_eq (submit_ch n s) (submit_rc n s) (submit_oe n s) (submit_mixer n s) (submit_heat n s) (submit_inp n s)

theorem readAll_doseOnly (l : List Nat) (s : State) : DoseOnly sc s (readAll l s).2 :=
  .of_eq (readAll_ch l s) (readAll_rc l s) (readAll_oe l s) (readAll_mixer l s) (readAll_heat l s) (readAll_inp l s)

theorem flagAttached_doseOnly (x : Scale) (f : TicketFlags → TicketFlags) (s : State) :
    DoseOnly sc s (flagAttached x f s) := by
  rw [flagAttached_frame]
  exact .of_eq rfl rfl rfl rfl rfl rfl

theorem DoseOnly.of_offRam {s t : State} (h : t.offRam = s.offRam) : DoseOnly sc s t := by
  rw [State.frame_of_offRam h]
  exact .of_eq rfl rfl rfl rfl rfl rfl

theorem writeSource_doseOnly (d : Dose) (e : Int) (s : State) : DoseOnly sc s (writeSource d e s) := by
  refine .of_offRam ?_
  unfold writeSource
  dsimp only
  rw [State.wr_offRam, gap_offRam, put_offRam, put_offRam, readAll_offRam, put_offRam]

theorem offerTrace_doseOnly (target cutoff actual : Int) (outcome : DoseOutcome) (s : State) :
    DoseOnly sc s (offerTrace sc target cutoff actual outcome s) := .of_eq rfl rfl rfl rfl rfl rfl

theorem addResult_doseOnly (r : EntryResult) (s : State) : DoseOnly sc s (addResult sc r s) := by
  refine .modChan ?_ s
  exact fun _ h => h

theorem reachWeighed_doseOnly (net : Int) (s : State) : DoseOnly sc s (reachWeighed sc net s) := .of_set rfl id rfl rfl rfl rfl rfl

theorem finalVerify_doseOnly (actual : Int) (outcome : DoseOutcome) (s : State) :
    DoseOnly sc s (finalVerify sc actual outcome s) := by
  unfold finalVerify
  dsimp only
  have hwritten := (addResult_doseOnly (sc := sc) ⟨(s.chan sc).dose.entry.source, actual, outcome⟩ s).trans
    (writeSource_doseOnly (s.chan sc).dose (actual - (s.chan sc).dose.entry.target) _)
  split
  · exact hwritten.trans (offerTrace_doseOnly _ _ _ _ _)
  · exact hwritten

theorem beginFeed_flags (barred : Bool) (first : Remembered) (c : Channel) :
    (beginFeed barred first c).flags = c.flags := by
  unfold beginFeed
  dsimp only
  split
  · rfl
  · cases first <;> rfl

theorem postBinLow_doseOnly (s : State) : DoseOnly sc s (postBinLow sc s) := by
  unfold postBinLow binLowNotice
  exact ((submit_doseOnly _ s).trans (.modChan (f := fun c => { c with flags.binLow := true }) (fun _ h => h) _)).trans
    (flagAttached_doseOnly sc _ _)

theorem beginWatch_doseOnly (s : State) : DoseOnly sc s (beginWatch sc s) := by
  unfold beginWatch
  dsimp only
  split
  · exact postBinLow_doseOnly s
  · exact .refl s

/-- A component of a dry scale's list is next: its base and its entry. -/
def componentNext (sc : Scale) (first : Bool) (e : DoseEntry) (rest : List DoseEntry) (s : State) : State :=
  s.modChan sc fun c =>
    { c with ring := [], base := if first then 0 else c.net, dose := { Dose.clear with entry := e }, stall := 0,
             winCount := none, todo := rest }

/-- The component's dose begins with the words of its source record. -/
def componentBegun (sc : Scale) (e : DoseEntry) (s : State) : State :=
  let (ws, s) := readAll (sourceAddrs e.source) s
  beginWatch sc (s.modChan sc fun c =>
    let c := { c with dose := doseFrom e ws }
    beginFeed (feedsBarred s) (firstSub e.target 0 c.dose) c)

theorem startComponents_nil (first : Bool) (s : State) :
    startComponents sc first [] s = reachWeighed sc (s.chan sc).base s := rfl

section
variable (first : Bool) {e : DoseEntry} (rest : List DoseEntry) (s : State)

theorem startComponents_skipped (h : e.target = 0) : startComponents sc first (e :: rest) s =
    startComponents sc false rest (addResult sc ⟨e.source, 0, .skipped⟩ (componentNext sc first e rest s)) := if_pos h

theorem startComponents_enabled (h : e.target ≠ 0)
    (hon : sourceEnabled (readAll (sourceAddrs e.source) (componentNext sc first e rest s)).1 = true) :
    startComponents sc first (e :: rest) s = componentBegun sc e (componentNext sc first e rest s) :=
  (if_neg h).trans (if_pos hon)

theorem startComponents_disabled (h : e.target ≠ 0)
    (hoff : sourceEnabled (readAll (sourceAddrs e.source) (componentNext sc first e rest s)).1 = false) :
    startComponents sc first (e :: rest) s = startComponents sc false rest (addResult sc ⟨e.source, 0, .notDosed⟩
      (readAll (sourceAddrs e.source) (componentNext sc first e rest s)).2) :=
  (if_neg h).trans (if_neg (Bool.eq_false_iff.mp hoff))

end

theorem componentNext_doseOnly (first : Bool) (e : DoseEntry) (rest : List DoseEntry) (s : State) :
    DoseOnly sc s (componentNext sc first e rest s) := .of_set rfl id rfl rfl rfl rfl rfl

theorem componentBegun_doseOnly (e : DoseEntry) (s : State) : DoseOnly sc s (componentBegun sc e s) := by
  unfold componentBegun
  refine (readAll_doseOnly (sourceAddrs e.source) s).trans (.trans (.modChan (fun c h => ?_) _) (beginWatch_doseOnly _))
  rw [beginFeed_flags]
  exact h

theorem startComponents_doseOnly (es : List DoseEntry) : ∀ (first : Bool) (s : State),
    DoseOnly sc s (startComponents sc first es s) := by
  induction es with
  | nil => exact fun _ s => reachWeighed_doseOnly _ s
  | cons e rest ih =>
    intro first s
    have hnext := componentNext_doseOnly (sc := sc) first e rest s
    by_cases htarget : e.target = 0
    · rw [startComponents_skipped first rest s htarget]
      exact (hnext.trans (addResult_doseOnly _ _)).trans (ih _ _)
    · cases hon : sourceEnabled (readAll (sourceAddrs e.source) (componentNext sc first e rest s)).1 with
      | true =>
        rw [startComponents_enabled first rest s htarget hon]
        exact hnext.trans (componentBegun_doseOnly _ _)
      | false =>
        rw [startComponents_disabled first rest s htarget hon]
        exact ((hnext.trans (readAll_doseOnly _ _)).trans (addResult_doseOnly _ _)).trans (ih _ _)

end

/-! ### BIT -/

theorem bitReport_doseOnly (actual : Int) (outcome : DoseOutcome) (s : State) :
    DoseOnly .bit s (bitReport actual outcome s) := by
  unfold bitReport
  refine .trans ?_ (reachWeighed_doseOnly actual _)
  exact .of_set rfl id rfl rfl rfl rfl rfl

theorem setBinderTarget_doseOnly (t : Int) (s : State) : DoseOnly .bit s (setBinderTarget t s) :=
  .of_set rfl id rfl rfl rfl rfl rfl

theorem bitDirectVerify_doseOnly (bc : Int) (s : State) : DoseOnly .bit s (bitDirectVerify bc s) := by
  unfold bitDirectVerify
  exact ((setBinderTarget_doseOnly bc s).trans (finalVerify_doseOnly _ _ _)).trans (bitReport_doseOnly _ _ _)

theorem bitContinue_doseOnly (bc : Int) (s : State) : DoseOnly .bit s (bitContinue bc s) := by
  have hset : DoseOnly .bit s (setBinderTarget bc { s with bit.target := .none, bit.continuing := true }) :=
    .of_set rfl id rfl rfl rfl rfl rfl
  unfold bitContinue
  refine hset.trans (.modChan (fun c h => ?_) _)
  rw [beginFeed_flags]
  exact h

theorem bitActTarget_doseOnly (s : State) : DoseOnly .bit s (bitActTarget s) := by
  unfold bitActTarget
  split
  · split
    · exact .refl s
    · exact bitReport_doseOnly _ _ s
    · repeat' split
      · exact bitReport_doseOnly _ _ s
      · exact bitReport_doseOnly _ _ s
      · exact bitReport_doseOnly _ _ s
      · exact bitDirectVerify_doseOnly _ s
      · exact bitContinue_doseOnly _ s
  · exact .refl s

theorem bitEnterPrefed_doseOnly (actual : Int) (s : State) : DoseOnly .bit s (bitEnterPrefed actual s) := by
  unfold bitEnterPrefed
  refine .trans ?_ (bitActTarget_doseOnly _)
  exact .of_set rfl id rfl rfl rfl rfl rfl

/-! ### The end of a settle -/

theorem isPrefeed_bit {s : State} {sc : Scale} (h : isPrefeed s sc = true) : sc = .bit := by
  unfold isPrefeed at h
  rw [Bool.and_eq_true, beq_iff_eq] at h
  exact h.1

theorem afterComponent_doseOnly (sc : Scale) (actual : Int) (outcome : DoseOutcome) (s : State) :
    DoseOnly sc s (afterComponent sc actual outcome s) := by
  unfold afterComponent
  split
  · next h =>
    subst h
    exact bitReport_doseOnly _ _ s
  · refine .trans ?_ (startComponents_doseOnly (s.chan sc).todo false _)
    exact .of_set rfl id rfl rfl rfl rfl rfl

theorem stallDone_doseOnly (sc : Scale) (cutoff actual : Int) (s : State) :
    DoseOnly sc s (stallDone sc cutoff actual s) := by
  unfold stallDone
  dsimp only
  have hposted := (offerTrace_doseOnly (sc := sc) (s.chan sc).dose.entry.target cutoff actual .stall s).trans
    (submit_doseOnly (attachedNotice (s.chan sc).batch
      (.feedStall sc (s.chan sc).dose.entry.source (s.chan sc).dose.entry.target actual)) _)
  refine hposted.trans ?_
  split
  · next h =>
    obtain rfl := isPrefeed_bit h
    refine .trans ?_ (bitEnterPrefed_doseOnly actual _)
    exact .of_eq rfl rfl rfl rfl rfl rfl
  · exact (addResult_doseOnly _ _).trans (afterComponent_doseOnly _ _ _ _)

theorem settleDone_doseOnly (sc : Scale) (s : State) : DoseOnly sc s (settleDone sc s) := by
  unfold settleDone
  dsimp only
  split
  · exact stallDone_doseOnly _ _ _ s
  · have hobserved : DoseOnly sc s (s.modChan sc fun c => { c with
        dose := observeInflight (dosed (s.chan sc)) c.dose }) := .of_set rfl id rfl rfl rfl rfl rfl
    refine hobserved.trans ?_
    split
    · next h =>
      obtain rfl := isPrefeed_bit h
      exact bitEnterPrefed_doseOnly _ _
    · split
      · refine .modChan (fun c h => ?_) _
        unfold askJog
        dsimp only
        split <;> exact h
      · exact (finalVerify_doseOnly _ _ _).trans (afterComponent_doseOnly _ _ _ _)

end Sys2Proof.Machine
end

section
/-! A dose that ends: the verify with its source record (R47, R82, R83), the stall (R86), and the verdict of a
channel whose last component it was (R56, R79, R113). -/

namespace Sys2Proof.Machine

/-! ### The outcome of a verify (R82) -/

/-- Too little mass with jogs left. -/
def asksJog (d : Dose) (error : Int) : Prop := error < -(d.entry.tol : Int) ∧ d.jogsUsed < d.jogLimit

theorem verifyOutcome_jog {d : Dose} {error : Int} (h : asksJog d error) : verifyOutcome d error = none := by
  obtain ⟨hlow, hjogs⟩ := h
  unfold verifyOutcome
  rw [if_neg (by omega), if_pos (by omega), if_pos hjogs]

theorem verifyOutcome_final {d : Dose} {error : Int} (h : ¬asksJog d error) :
    verifyOutcome d error = some (endOutcome d.entry error) := by
  unfold verifyOutcome endOutcome
  by_cases hin : -(d.entry.tol : Int) ≤ error ∧ error ≤ d.entry.tol
  · rw [if_pos hin, if_pos hin]
  · rw [if_neg hin, if_neg hin]
    by_cases hneg : error < 0
    · have hjogs : ¬d.jogsUsed < d.jogLimit := fun hj => h ⟨by omega, hj⟩
      rw [if_pos hneg, if_pos hneg, if_neg hjogs]
    · rw [if_neg hneg, if_neg hneg]
      split <;> rfl

/-! ### The source record (R47) -/

/-- The accumulated error as a final verify writes it. -/
def accumulated (d : Dose) (error : Int) (s : State) : DWord :=
  newAccumulated d.gain (s.rd32 (Win.source d.entry.source + 0x10)) error

/-- The words a final verify writes to its source record. -/
def sourceWords (d : Dose) (error : Int) (s : State) : List (Nat × Word) :=
  let a := Win.source d.entry.source
  [(a + 0x0E, BitVec.ofInt 16 (newAllowance d)), (a + 0x10, DWord.lowWord (accumulated d error s)),
   (a + 0x12, DWord.highWord (accumulated d error s)), (a + 0x14, s.rd (a + 0x14) + 1)]

/-- The writes of a source record, once the arbiter answers at once. -/
def sourceWritten (a : Nat) (acc : DWord) (s : State) : State :=
  let t := (s.wr (a + 0x10) (DWord.lowWord acc)).wr (a + 0x12) (DWord.highWord acc)
  t.wr (a + 0x14) (t.rd (a + 0x14) + 1)

theorem writeSource_written {s : State} (hnone : s.port.waiting = []) (d : Dose) (error : Int) :
    writeSource d error s =
      (let a := Win.source d.entry.source
       let t := s.wr (a + 0x0E) (BitVec.ofInt 16 (newAllowance d))
       sourceWritten a (newAccumulated d.gain (t.rd (a + 0x12) ++ t.rd (a + 0x10)) error) t) := by
  unfold writeSource
  dsimp only
  rw [put_of_none hnone, readAll_of_none (by exact hnone)]
  dsimp only
  rw [put_of_none (s := s.wr _ _) hnone, put_of_none (s := (s.wr _ _).wr _ _) hnone,
    gap_of_none (s := ((s.wr _ _).wr _ _).wr _ _) hnone]
  rfl

theorem writeSource_of_none {s : State} (hnone : s.port.waiting = []) (hwf : Memory.wf s.mem = true) (d : Dose)
    (error : Int) : writeSource d error s = writeWords (sourceWords d error s) s := by
  have hother {b : Nat} (hb : Win.source d.entry.source + 0x10 ≤ b) :
      (s.wr (Win.source d.entry.source + 0x0E) (BitVec.ofInt 16 (newAllowance d))).rd b = s.rd b :=
    State.rd_wr_other hwf _ (.inr (by omega))
  rw [writeSource_written hnone]
  dsimp only
  rw [hother (by omega), hother (by omega)]
  unfold sourceWritten
  dsimp only
  rw [State.rd_wr_other (State.wr_wf (State.wr_wf hwf _ _) _ _) _ (.inr (by omega)),
    State.rd_wr_other (State.wr_wf hwf _ _) _ (.inr (by omega)), hother (by omega)]
  rfl

theorem writeWords_mem_congr {s t : State} (h : t.mem = s.mem) (l : List (Nat × Word)) :
    (writeWords l t).mem = (writeWords l s).mem := by
  induction l generalizing s t with
  | nil => exact h
  | cons x l ih =>
    refine ih (s := s.wr x.1 x.2) ?_
    unfold State.wr
    dsimp only
    rw [h]

/-- The error accumulated, saturating at the ends of a signed double word. -/
theorem newAccumulated_toInt (gain : Nat) (old : DWord) (e : Int) : (newAccumulated gain old e).toInt =
    if gain = 0 then 0 else max (-2147483648) (min 2147483647 (old.toInt + e)) := by
  unfold newAccumulated
  split
  · rfl
  · rw [BitVec.toInt_ofInt_eq_self (by decide), clampTo_eq (by decide), min_comm]
    · rw [clampTo_eq (by decide)]
      omega
    · rw [clampTo_eq (by decide)]
      omega

/-- A record so written reads as a final verify leaves it. -/
theorem sourceWords_recorded {s u : State} (hwf : Memory.wf s.mem = true) {c : Channel} {actual : Int}
    (hmem : u.mem = (writeWords (sourceWords c.dose (actual - c.dose.entry.target) s) s).mem) :
    recordsVerify c actual (newAllowance c.dose) s u := by
  have hapart : (sourceWords c.dose (actual - c.dose.entry.target) s).Pairwise wordsApart := by
    simp [sourceWords, wordsApart]
  have hrd {a : Nat} {w : Word} (h : (a, w) ∈ sourceWords c.dose (actual - c.dose.entry.target) s) : u.rd a = w :=
    (State.rd_of_mem hmem a).trans (rd_writeWords_of_mem _ hwf hapart h)
  unfold recordsVerify
  intro a
  refine ⟨hrd (by simp [sourceWords, a]), ?_, hrd (by simp [sourceWords, a]), fun b hb => ?_⟩
  · have hacc : u.rd32 (a + 0x10) = accumulated c.dose (actual - c.dose.entry.target) s := by
      unfold State.rd32
      rw [hrd (a := a + 0x10) (w := DWord.lowWord (accumulated c.dose (actual - c.dose.entry.target) s))
          (by simp [sourceWords, a]),
        hrd (a := a + 0x10 + 2) (w := DWord.highWord (accumulated c.dose (actual - c.dose.entry.target) s))
          (by simp [sourceWords, a]), highWord_append_lowWord]
    rw [hacc]
    exact newAccumulated_toInt _ _ _
  · rw [State.byteAt_of_mem hmem]
    refine byteAt_writeWords_other _ hwf fun x hx => ?_
    simp only [sourceWords, List.mem_cons, List.not_mem_nil, or_false] at hx
    have ha : a = Win.source c.dose.entry.source := rfl
    rcases hx with rfl | rfl | rfl | rfl <;> dsimp only <;> omega

/-! ### The final verify (R83) -/

/-- The trace a final verify offers, if any. -/
def verifyOffer (sc : Scale) (c : Channel) (actual : Int) (outcome : DoseOutcome) : List Offer :=
  if outcome = .short ∨ outcome = .overReject then [offerOf sc c (c.dose.cutoff.getD 0) actual outcome c.ring] else []

/-- What a final verify leaves beside the source record. -/
def verified (sc : Scale) (actual : Int) (outcome : DoseOutcome) (s : State) : State :=
  { addResult sc ⟨(s.chan sc).dose.entry.source, actual, outcome⟩ s with
    nu.offers := s.nu.offers ++ verifyOffer sc (s.chan sc) actual outcome }

/-- The result and the source record of a final verify. -/
def recorded (sc : Scale) (actual : Int) (outcome : DoseOutcome) (s : State) : State :=
  writeSource (s.chan sc).dose (actual - (s.chan sc).dose.entry.target)
    (addResult sc ⟨(s.chan sc).dose.entry.source, actual, outcome⟩ s)

theorem writeSource_offRam (d : Dose) (e : Int) (s : State) : (writeSource d e s).offRam = s.offRam := by
  unfold writeSource
  dsimp only
  rw [State.wr_offRam, gap_offRam, put_offRam, put_offRam, readAll_offRam, put_offRam]

theorem finalVerify_silent (sc : Scale) (actual : Int) {outcome : DoseOutcome} (s : State)
    (h : ¬(outcome = .short ∨ outcome = .overReject)) :
    finalVerify sc actual outcome s = recorded sc actual outcome s := if_neg h

theorem finalVerify_traced (sc : Scale) (actual : Int) {outcome : DoseOutcome} (s : State)
    (h : outcome = .short ∨ outcome = .overReject) : finalVerify sc actual outcome s =
      offerTrace sc (s.chan sc).dose.entry.target ((s.chan sc).dose.cutoff.getD 0) actual outcome
        (recorded sc actual outcome s) := if_pos h

theorem recorded_frame (sc : Scale) (actual : Int) (outcome : DoseOutcome) (s : State) :
    recorded sc actual outcome s = { addResult sc ⟨(s.chan sc).dose.entry.source, actual, outcome⟩ s with
      port := (recorded sc actual outcome s).port, mem := (recorded sc actual outcome s).mem } :=
  State.frame_of_offRam (writeSource_offRam _ _ _)

theorem finalVerify_frame (sc : Scale) (actual : Int) (outcome : DoseOutcome) (s : State) :
    finalVerify sc actual outcome s = { verified sc actual outcome s with
      port := (recorded sc actual outcome s).port, mem := (recorded sc actual outcome s).mem } := by
  unfold verified verifyOffer
  have hframe := recorded_frame sc actual outcome s
  by_cases h : outcome = .short ∨ outcome = .overReject
  · rw [finalVerify_traced sc actual s h, if_pos h]
    generalize recorded sc actual outcome s = r at hframe ⊢
    have hchan : r.chan sc = { s.chan sc with
        results := (s.chan sc).results ++ [⟨(s.chan sc).dose.entry.source, actual, outcome⟩] } := by
      rw [hframe]
      exact State.chan_modChan_same s sc fun c => { c with
        results := c.results ++ [⟨(s.chan sc).dose.entry.source, actual, outcome⟩] }
    unfold offerTrace
    dsimp only
    rw [hchan, hframe]
    rfl
  · rw [finalVerify_silent sc actual s h, if_neg h, List.append_nil]
    exact hframe

theorem finalVerify_mem (sc : Scale) (actual : Int) (outcome : DoseOutcome) {s : State}
    (hnone : s.port.waiting = []) (hwf : Memory.wf s.mem = true) : (finalVerify sc actual outcome s).mem =
      (writeWords (sourceWords (s.chan sc).dose (actual - (s.chan sc).dose.entry.target) s) s).mem := by
  rw [finalVerify_frame]
  unfold recorded
  dsimp only
  rw [writeSource_of_none (by exact hnone) (by exact hwf)]
  exact writeWords_mem_congr (by rfl) _

end Sys2Proof.Machine
end

section
/-! A component that ends (R56, R79, R82, R83, R86, R113): the verdict of a channel whose last component it was, by
its verify or by its stall, and the jog pulse a verify asks for. -/

namespace Sys2Proof.Machine

/-! ### The verdict of a channel -/

/-- The channel is WEIGHED with its outputs off and its results, its verdict with its net in the batch. -/
def weighedWith (sc : Scale) (results : List EntryResult) (net : Int) (s u : State) : Prop :=
  (u.chan sc).state = .weighed ∧ (u.chan sc).feed = none ∧ (u.chan sc).gate = false ∧
    (u.chan sc).results = results ∧
    ∀ b, s.co.weigh = some b → ∃ b', u.co.weigh = some b' ∧ b'.seq = b.seq ∧
      b'.reported.get sc = true ∧ b'.nets.get sc = net

/-- A channel as it reports WEIGHED. -/
def atWeighed (c : Channel) : Channel :=
  { c with state := .weighed, feed := none, gate := false, todo := [], gapHold := false, pauseHold := false,
           stopOrder := false }

theorem reachWeighed_eq (sc : Scale) (net : Int) (s : State) : reachWeighed sc net s =
    { s.setChan sc (atWeighed (s.chan sc)) with
      co.weigh := s.co.weigh.map (verdictIn sc (atWeighed (s.chan sc)) net) } := by
  unfold reachWeighed
  rw [enterVerdict_eq, State.chan_modChan_same]
  rfl

theorem reachWeighed_weighedWith (sc : Scale) (net : Int) (s : State) :
    weighedWith sc (s.chan sc).results net s (reachWeighed sc net s) := by
  have hchan : (reachWeighed sc net s).chan sc = atWeighed (s.chan sc) := by
    rw [reachWeighed_eq]
    exact State.chan_setChan_same s sc _
  unfold weighedWith
  rw [hchan]
  refine ⟨rfl, rfl, rfl, rfl, fun b hb => ⟨verdictIn sc (atWeighed (s.chan sc)) net b, ?_, rfl, ?_, ?_⟩⟩
  · rw [reachWeighed_eq]
    dsimp only
    rw [hb, Option.map_some]
  · exact PerScale.get_set_same b.reported sc true
  · exact PerScale.get_set_same b.nets sc net

/-! ### The last component (R79, R83, R113) -/

theorem afterComponent_bit (actual : Int) (outcome : DoseOutcome) (s : State) :
    let u := afterComponent .bit actual outcome s
    weighedWith .bit [⟨(s.chan .bit).dose.entry.source, actual, outcome⟩] actual s u ∧ u.mem = s.mem ∧ u.nu = s.nu := by
  have hreport : afterComponent .bit actual outcome s = bitReport actual outcome s := if_pos rfl
  rw [hreport]
  unfold bitReport
  dsimp only
  have hweighed := reachWeighed_weighedWith .bit actual { s.modChan .bit fun c => { c with
      results := [⟨(s.chan .bit).dose.entry.source, actual, outcome⟩] } with bit.target := .none }
  refine ⟨?_, rfl, rfl⟩
  exact hweighed

theorem afterComponent_last {sc : Scale} (hdry : sc ≠ .bit) (actual : Int) (outcome : DoseOutcome) {s : State}
    (hlast : (s.chan sc).todo = []) :
    let u := afterComponent sc actual outcome s
    weighedWith sc (s.chan sc).results (s.chan sc).net s u ∧ u.mem = s.mem ∧ u.nu = s.nu := by
  have hnext : afterComponent sc actual outcome s =
      reachWeighed sc (s.chan sc).net (s.modChan sc fun c => { c with base := c.net }) := by
    unfold afterComponent
    rw [if_neg hdry, hlast, startComponents_nil, State.chan_modChan_same]
  have hweighed := reachWeighed_weighedWith sc (s.chan sc).net (s.modChan sc fun c => { c with base := c.net })
  rw [State.chan_modChan_same] at hweighed
  rw [hnext]
  exact ⟨hweighed, rfl, rfl⟩

/-- A component that is the last reports its result behind the earlier ones. -/
theorem afterComponent_reports {sc : Scale} {c : Channel} {actual : Int} {outcome : DoseOutcome} {s t : State}
    (hlast : sc = .bit ∨ c.todo = []) (hnet : sc ≠ .bit → c.net = actual + c.base) (hweigh : t.co.weigh = s.co.weigh)
    (hchan : t.chan sc = { c with results := c.results ++ [⟨c.dose.entry.source, actual, outcome⟩] }) :
    let u := afterComponent sc actual outcome t
    reportsWeighed sc c actual outcome s u ∧ u.mem = t.mem ∧ u.nu = t.nu := by
  by_cases hbit : sc = .bit
  · subst hbit
    obtain ⟨hweighed, hmem, hnu⟩ := afterComponent_bit actual outcome t
    unfold weighedWith at hweighed
    rw [hchan, hweigh] at hweighed
    exact ⟨hweighed, hmem, hnu⟩
  · obtain ⟨hweighed, hmem, hnu⟩ := afterComponent_last hbit actual outcome (s := t) (by
      rw [hchan]
      exact hlast.resolve_left hbit)
    unfold weighedWith at hweighed
    rw [hchan, hweigh] at hweighed
    unfold reportsWeighed
    rw [if_neg hbit, if_neg hbit, ← hnet hbit]
    exact ⟨hweighed, hmem, hnu⟩

/-! ### The end by the verify (R82, R83) -/

section
variable {sc : Scale} {s : State}

theorem finalVerify_chan (sc : Scale) (actual : Int) (outcome : DoseOutcome) (s : State) :
    (finalVerify sc actual outcome s).chan sc = { s.chan sc with
      results := (s.chan sc).results ++ [⟨(s.chan sc).dose.entry.source, actual, outcome⟩] } := by
  rw [finalVerify_frame]
  exact State.chan_modChan_same s sc fun c => { c with
    results := c.results ++ [⟨(s.chan sc).dose.entry.source, actual, outcome⟩] }

theorem finalVerify_nu (sc : Scale) (actual : Int) (s : State) :
    (finalVerify sc actual (verdictAt (s.chan sc) actual) s).nu =
      { s.nu with offers := s.nu.offers ++ verifyOffers sc (s.chan sc) actual (s.chan sc).ring } := by
  rw [finalVerify_frame]
  rfl

theorem finalVerify_co (sc : Scale) (actual : Int) (outcome : DoseOutcome) (s : State) :
    (finalVerify sc actual outcome s).co = s.co := by
  rw [finalVerify_frame]
  rfl

theorem finalVerify_records (sc : Scale) (actual : Int) (outcome : DoseOutcome) (hnone : s.port.waiting = [])
    (hwf : Memory.wf s.mem = true) {u : State} (hmem : u.mem = (finalVerify sc actual outcome s).mem) :
    recordsVerify (s.chan sc) actual (newAllowance (s.chan sc).dose) s u :=
  sourceWords_recorded hwf (hmem.trans (finalVerify_mem sc actual outcome hnone hwf))

theorem verify_endsVerified (hnone : s.port.waiting = []) (hwf : Memory.wf s.mem = true)
    (hlast : sc = .bit ∨ (s.chan sc).todo = []) {actual : Int}
    (hnet : sc ≠ .bit → (s.chan sc).net = actual + (s.chan sc).base) :
    endsVerified sc (s.chan sc) actual (newAllowance (s.chan sc).dose) (s.chan sc).ring s
      (afterComponent sc actual (verdictAt (s.chan sc) actual)
        (finalVerify sc actual (verdictAt (s.chan sc) actual) s)) := by
  obtain ⟨hreports, hmem, hnu⟩ := afterComponent_reports (s := s) hlast hnet
    (congrArg Coord.weigh (finalVerify_co sc actual (verdictAt (s.chan sc) actual) s)) (finalVerify_chan sc actual _ s)
  exact ⟨hreports, finalVerify_records sc actual _ hnone hwf hmem, hnu.trans (finalVerify_nu sc actual s)⟩

/-! ### The end by stall (R86, R92) -/

/-- A stall as it is entered: its trace offered, FEED STALL posted and its result recorded. -/
def stallEntered (sc : Scale) (cutoff actual : Int) (s : State) : State :=
  let c := s.chan sc
  addResult sc ⟨c.dose.entry.source, actual, .stall⟩ (submit (attachedNotice c.batch
    (.feedStall sc c.dose.entry.source c.dose.entry.target actual))
      (offerTrace sc c.dose.entry.target cutoff actual .stall s))

theorem stallDone_dose (hfeed : isPrefeed s sc = false) (cutoff actual : Int) :
    stallDone sc cutoff actual s = afterComponent sc actual .stall (stallEntered sc cutoff actual s) := by
  have hsame : isPrefeed (submit (attachedNotice (s.chan sc).batch
      (.feedStall sc (s.chan sc).dose.entry.source (s.chan sc).dose.entry.target actual))
        (offerTrace sc (s.chan sc).dose.entry.target cutoff actual .stall s)) sc = false := by
    unfold isPrefeed
    rw [submit_bit]
    exact hfeed
  unfold stallDone
  dsimp only
  rw [hsame]
  rfl

theorem stallEntered_eq (hroom : s.nu.list.length < 16) (cutoff actual : Int) : stallEntered sc cutoff actual s =
    { s.setChan sc { s.chan sc with
        results := (s.chan sc).results ++ [⟨(s.chan sc).dose.entry.source, actual, .stall⟩] } with
      nu := { s.nu with
        offers := s.nu.offers ++ [offerOf sc (s.chan sc) cutoff actual .stall (s.chan sc).ring]
        list := s.nu.list ++ [attachedNotice (s.chan sc).batch
          (.feedStall sc (s.chan sc).dose.entry.source (s.chan sc).dose.entry.target actual)] } } := by
  unfold stallEntered
  dsimp only
  rw [submit_of_room (s := offerTrace sc _ cutoff actual .stall s) hroom]
  rfl

theorem stallDone_endsStalled (hfeed : isPrefeed s sc = false) (hroom : s.nu.list.length < 16)
    (hlast : sc = .bit ∨ (s.chan sc).todo = []) (cutoff : Int) {actual : Int}
    (hnet : sc ≠ .bit → (s.chan sc).net = actual + (s.chan sc).base) :
    endsStalled sc (s.chan sc) actual cutoff (s.chan sc).ring s (stallDone sc cutoff actual s) := by
  rw [stallDone_dose hfeed, stallEntered_eq hroom]
  exact afterComponent_reports (s := s) hlast hnet rfl (State.chan_setChan_same s sc _)

end

end Sys2Proof.Machine
end

section
/-! The next component of a dose list (R79, R83, R87, R90): the dose it begins, what its begin leaves unchanged, and
a component that ends with others behind it. -/

namespace Sys2Proof.Machine

/-! ### A dose begins to feed (R79, R90, R104) -/

/-- What the begin of a feed leaves on a channel. -/
structure FeedBegun (c d : Channel) : Prop where
  gate : d.gate = false
  tare : d.tare = c.tare
  net : d.net = c.net
  base : d.base = c.base
  todo : d.todo = c.todo
  ring : d.ring = c.ring
  results : d.results = c.results
  entry : d.dose.entry = c.dose.entry
  fine : d.dose.fine = c.dose.fine
  allow : d.dose.allow = c.dose.allow

theorem beginFeed_begun (barred : Bool) (first : Remembered) (c : Channel) : FeedBegun c (beginFeed barred first c) := by
  cases barred with
  | true => exact ⟨rfl, rfl, rfl, rfl, rfl, rfl, rfl, rfl, rfl, rfl⟩
  | false => cases first <;> exact ⟨rfl, rfl, rfl, rfl, rfl, rfl, rfl, rfl, rfl, rfl⟩

theorem beginFeed_beginsDose {src : Source} {level fine allow : Int} {c : Channel} {d : Dose}
    (hsource : c.dose.entry.source = src) (hfine : d.fine = fine) (hallow : d.allow = allow) :
    beginsDose (beginFeed false (firstSub level 0 d) c) src level fine allow := by
  subst hsource hfine hallow
  unfold firstSub
  refine ⟨fun hjog => ?_, fun hjog hfine => ?_, fun hjog hfast => ?_⟩
  · rw [if_pos (by omega)]
    exact ⟨rfl, rfl⟩
  · rw [if_neg (by omega), if_pos (by omega)]
    exact ⟨rfl, rfl⟩
  · rw [if_neg (by omega), if_neg (by omega)]
    exact ⟨rfl, rfl⟩

/-! ### The words of the source record (R43, R46) -/

/-- The fine band a dose of the entry reads. -/
def sourceFine (e : DoseEntry) (s : State) : Int := min (s.rd (Win.source e.source + 2)).toNat 5000

/-- The allowance a dose of the entry reads. -/
def sourceAllow (e : DoseEntry) (s : State) : Int :=
  clampTo 0 (sourceFine e s) (s.rd (Win.source e.source + 0x0E)).toNat

/-- The dose of the entry as it begins. -/
def sourceDose (e : DoseEntry) (s : State) : Dose := doseFrom e ((sourceAddrs e.source).map s.rd)

theorem sourceDose_fine (e : DoseEntry) (s : State) : (sourceDose e s).fine = sourceFine e s := rfl
theorem sourceDose_allow (e : DoseEntry) (s : State) : (sourceDose e s).allow = sourceAllow e s := rfl

theorem sourceEnabled_iff (src : Source) (s : State) :
    sourceEnabled ((sourceAddrs src).map s.rd) = true ↔ s.rd (Win.source src) = 1 := beq_iff_eq

/-! ### What the begin of a dose leaves as it is -/

/-- Notices were posted at most: memory, port and trace offers stand. -/
structure Noticed (s u : State) : Prop where
  mem : u.mem = s.mem
  port : u.port = s.port
  offers : u.nu.offers = s.nu.offers
  list : ∃ more, u.nu.list = s.nu.list ++ more

theorem Noticed.trans {s t u : State} (h : Noticed s t) (k : Noticed t u) : Noticed s u := by
  obtain ⟨more, hmore⟩ := h.list
  obtain ⟨rest, hrest⟩ := k.list
  exact ⟨k.mem.trans h.mem, k.port.trans h.port, k.offers.trans h.offers, more ++ rest, by
    rw [hrest, hmore, List.append_assoc]⟩

theorem Noticed.of_eq {s u : State} (hmem : u.mem = s.mem) (hport : u.port = s.port) (hnu : u.nu = s.nu) :
    Noticed s u := ⟨hmem, hport, by rw [hnu], [], by rw [hnu, List.append_nil]⟩

theorem submit_noticed {s : State} (hroom : s.nu.list.length < 16) (n : Notice) : Noticed s (submit n s) := by
  rw [submit_of_room hroom]
  exact ⟨rfl, rfl, rfl, [n], rfl⟩

section
variable {sc : Scale} {s : State}

theorem postBinLow_noticed (hroom : s.nu.list.length < 16) : Noticed s (postBinLow sc s) := by
  unfold postBinLow binLowNotice
  dsimp only
  rw [flagAttached_frame]
  exact (submit_noticed hroom _).trans (.of_eq rfl rfl rfl)

theorem beginWatch_noticed (hroom : s.nu.list.length < 16) : Noticed s (beginWatch sc s) := by
  unfold beginWatch
  dsimp only
  split
  · exact postBinLow_noticed hroom
  · exact .of_eq rfl rfl rfl

theorem postBinLow_chan (sc : Scale) (s : State) :
    (postBinLow sc s).chan sc = { s.chan sc with flags.binLow := true } := by
  unfold postBinLow binLowNotice
  dsimp only
  rw [flagAttached_frame]
  refine (State.chan_modChan_same _ sc fun c => { c with flags.binLow := true }).trans ?_
  unfold State.chan
  rw [submit_ch]

/-- A watch that begins changes no more of the channel than its flags. -/
theorem beginWatch_chan (sc : Scale) (s : State) : ∃ f, (beginWatch sc s).chan sc = { s.chan sc with flags := f } := by
  unfold beginWatch
  dsimp only
  split
  · exact ⟨_, postBinLow_chan sc s⟩
  · exact ⟨_, rfl⟩

/-- The channel whose dose begins with the words of the source record. -/
def feedBegun (sc : Scale) (e : DoseEntry) (s : State) : Channel :=
  beginFeed (feedsBarred s) (firstSub e.target 0 (sourceDose e s)) { s.chan sc with dose := sourceDose e s }

theorem componentBegun_of_none (hnone : s.port.waiting = []) (sc : Scale) (e : DoseEntry) :
    componentBegun sc e s = beginWatch sc (s.setChan sc (feedBegun sc e s)) := by
  unfold componentBegun
  rw [readAll_of_none hnone]
  rfl

theorem componentBegun_chan (hnone : s.port.waiting = []) (sc : Scale) (e : DoseEntry) :
    ∃ f, (componentBegun sc e s).chan sc = { feedBegun sc e s with flags := f } := by
  obtain ⟨f, hf⟩ := beginWatch_chan sc (s.setChan sc (feedBegun sc e s))
  rw [State.chan_setChan_same] at hf
  exact ⟨f, by rw [componentBegun_of_none hnone, hf]⟩

/-- A component whose dose begins (R79 steps 3 and 4): its words read, and its feed on or held. -/
structure DoseBegins (sc : Scale) (e : DoseEntry) (s u : State) : Prop where
  begun : FeedBegun { s.chan sc with dose := sourceDose e s } (u.chan sc)
  free : feedsBarred s = false → beginsDose (u.chan sc) e.source e.target (sourceFine e s) (sourceAllow e s)
  barred : feedsBarred s = true → (u.chan sc).feed = none ∧ (u.chan sc).pauseHold = true ∧
    ∃ back, (u.chan sc).state = .dosing (.held back)

theorem componentBegun_begins (hnone : s.port.waiting = []) (sc : Scale) (e : DoseEntry) :
    DoseBegins sc e s (componentBegun sc e s) := by
  obtain ⟨f, hchan⟩ := componentBegun_chan hnone sc e
  have hbegun : FeedBegun { s.chan sc with dose := sourceDose e s } (feedBegun sc e s) := beginFeed_begun _ _ _
  refine ⟨?_, fun hfree => ?_, fun hbarred => ?_⟩
  · rw [hchan]
    exact ⟨hbegun.gate, hbegun.tare, hbegun.net, hbegun.base, hbegun.todo, hbegun.ring, hbegun.results, hbegun.entry,
      hbegun.fine, hbegun.allow⟩
  · have hdose : beginsDose (feedBegun sc e s) e.source e.target (sourceFine e s) (sourceAllow e s) := by
      unfold feedBegun
      rw [hfree]
      exact beginFeed_beginsDose rfl (sourceDose_fine e s) (sourceDose_allow e s)
    rw [hchan]
    exact hdose
  · rw [hchan]
    unfold feedBegun
    rw [hbarred]
    exact ⟨rfl, rfl, _, rfl⟩

theorem componentBegun_noticed (hnone : s.port.waiting = []) (hroom : s.nu.list.length < 16) (sc : Scale)
    (e : DoseEntry) : Noticed s (componentBegun sc e s) := by
  rw [componentBegun_of_none hnone]
  exact Noticed.trans (t := s.setChan sc (feedBegun sc e s)) (.of_eq rfl rfl rfl) (beginWatch_noticed (s := s.setChan sc (feedBegun sc e s)) hroom)

theorem addResult_noticed (sc : Scale) (r : EntryResult) (s : State) : Noticed s (addResult sc r s) :=
  .of_eq rfl rfl rfl

theorem componentNext_noticed (sc : Scale) (first : Bool) (e : DoseEntry) (rest : List DoseEntry) (s : State) :
    Noticed s (componentNext sc first e rest s) := .of_eq rfl rfl rfl

theorem startComponents_noticed (sc : Scale) (es : List DoseEntry) : ∀ (first : Bool) {s : State},
    s.port.waiting = [] → s.nu.list.length < 16 → Noticed s (startComponents sc first es s) := by
  induction es with
  | nil => exact fun _ _ _ _ => .of_eq rfl rfl rfl
  | cons e rest ih =>
    intro first s hnone hroom
    have hnext := componentNext_noticed sc first e rest s
    by_cases htarget : e.target = 0
    · rw [startComponents_skipped first rest s htarget]
      exact (hnext.trans (addResult_noticed _ _ _)).trans (ih false hnone hroom)
    · have hread := readAll_of_none (s := componentNext sc first e rest s) hnone (sourceAddrs e.source)
      cases hon : sourceEnabled (readAll (sourceAddrs e.source) (componentNext sc first e rest s)).1 with
      | true =>
        rw [startComponents_enabled first rest s htarget hon]
        exact hnext.trans (componentBegun_noticed (s := componentNext sc first e rest s) hnone hroom sc e)
      | false =>
        rw [startComponents_disabled first rest s htarget hon, hread]
        exact (hnext.trans (addResult_noticed _ _ _)).trans (ih false hnone hroom)

/-! ### The list goes on (R79, R83, R90) -/

/-- A component not to be dosed: its target is 0, or its source not enabled. -/
def notToDose (e : DoseEntry) (s : State) : Prop := e.target = 0 ∨ s.rd (Win.source e.source) ≠ 1

/-- The result of a component not to be dosed. -/
def undosedResult (e : DoseEntry) : EntryResult := ⟨e.source, 0, if e.target = 0 then .skipped else .notDosed⟩

theorem startComponents_begun (hnone : s.port.waiting = []) (first : Bool) {e : DoseEntry} (rest : List DoseEntry)
    (htarget : e.target ≠ 0) (hon : s.rd (Win.source e.source) = 1) :
    startComponents sc first (e :: rest) s = componentBegun sc e (componentNext sc first e rest s) := by
  refine startComponents_enabled first rest s htarget ?_
  rw [readAll_of_none (s := componentNext sc first e rest s) hnone]
  exact (sourceEnabled_iff e.source (componentNext sc first e rest s)).mpr hon

theorem startComponents_undosed (hnone : s.port.waiting = []) (first : Bool) {e : DoseEntry} (rest : List DoseEntry)
    (h : notToDose e s) : startComponents sc first (e :: rest) s =
      startComponents sc false rest (addResult sc (undosedResult e) (componentNext sc first e rest s)) := by
  unfold undosedResult
  by_cases htarget : e.target = 0
  · rw [startComponents_skipped first rest s htarget, if_pos htarget]
  · have hread := readAll_of_none (s := componentNext sc first e rest s) hnone (sourceAddrs e.source)
    have hoff : sourceEnabled (readAll (sourceAddrs e.source) (componentNext sc first e rest s)).1 = false := by
      rw [hread, ← Bool.not_eq_true]
      exact fun hon => (h.resolve_left htarget) ((sourceEnabled_iff e.source _).mp hon)
    rw [startComponents_disabled first rest s htarget hoff, if_neg htarget, hread]

/-- A component whose turn it is. -/
def nextChannel (first : Bool) (e : DoseEntry) (rest : List DoseEntry) (c : Channel) : Channel :=
  { c with ring := [], base := if first then 0 else c.net, dose := { Dose.clear with entry := e }, stall := 0,
           winCount := none, todo := rest }

theorem componentNext_chan (sc : Scale) (first : Bool) (e : DoseEntry) (rest : List DoseEntry) (s : State) :
    (componentNext sc first e rest s).chan sc = nextChannel first e rest (s.chan sc) :=
  State.chan_modChan_same s sc (nextChannel first e rest)

theorem componentBegun_goesOn {t : State} {e : DoseEntry} {rest : List DoseEntry} (hnone : t.port.waiting = [])
    (hroom : t.nu.list.length < 16) (hbarred : feedsBarred t = feedsBarred s) :
    let a := Win.source e.source
    let u := componentBegun sc e (componentNext sc false e rest t)
    let d := u.chan sc
    let fine : Int := min (u.rd (a + 2)).toNat 5000
    let allow := clampTo 0 fine (u.rd (a + 0x0E)).toNat
    d.base = (t.chan sc).net ∧ d.todo = rest ∧ d.dose.entry = e ∧ d.dose.fine = fine ∧ d.dose.allow = allow ∧
      d.ring = [] ∧ d.results = (t.chan sc).results ∧ d.gate = false ∧
      (feedsBarred s = false → beginsDose d e.source e.target fine allow) ∧
      (feedsBarred s = true → d.feed = none ∧ d.pauseHold = true ∧ ∃ back, d.state = .dosing (.held back)) := by
  intro a u d fine allow
  have hmem : u.mem = t.mem := (componentBegun_noticed (s := componentNext sc false e rest t) hnone hroom sc e).mem
  obtain ⟨hbegun, hfree, hheld⟩ := componentBegun_begins (s := componentNext sc false e rest t) hnone sc e
  rw [componentNext_chan] at hbegun
  have hfine : fine = sourceFine e (componentNext sc false e rest t) :=
    congrArg (fun w : Word => min (w.toNat : Int) 5000) (State.rd_of_mem hmem (a + 2))
  have hallow : allow = sourceAllow e (componentNext sc false e rest t) := by
    unfold sourceAllow
    rw [← hfine]
    exact congrArg (fun w : Word => clampTo 0 fine w.toNat) (State.rd_of_mem hmem (a + 0x0E))
  rw [← hbarred, hallow, hfine]
  exact ⟨hbegun.base, hbegun.todo, hbegun.entry, hbegun.fine, hbegun.allow, hbegun.ring,
    hbegun.results, hbegun.gate, hfree, hheld⟩

/-- The list goes on behind a component that ended at the net accepted. -/
theorem startComponents_goesOn {t : State} {e : DoseEntry} {rest : List DoseEntry} (hnone : t.port.waiting = [])
    (hroom : t.nu.list.length < 16) (henable : t.rd (Win.source e.source) = s.rd (Win.source e.source))
    (hbarred : feedsBarred t = feedsBarred s) (hweigh : t.co.weigh = s.co.weigh) :
    goesOn sc e rest (t.chan sc).net (t.chan sc).results s (startComponents sc false (e :: rest) t) := by
  refine ⟨fun htarget hon => ?_, fun hundosed hlast => ?_⟩
  · rw [startComponents_begun hnone false rest htarget (henable.trans hon)]
    exact componentBegun_goesOn hnone hroom hbarred
  · subst hlast
    rw [startComponents_undosed hnone false [] (by unfold notToDose; rw [henable]; exact hundosed), startComponents_nil]
    have hchan : (addResult sc (undosedResult e) (componentNext sc false e [] t)).chan sc =
        { nextChannel false e [] (t.chan sc) with results := (t.chan sc).results ++ [undosedResult e] } := by
      refine (State.chan_modChan_same _ sc fun c => { c with results := c.results ++ [undosedResult e] }).trans ?_
      rw [componentNext_chan]
      rfl
    have hweighed := reachWeighed_weighedWith sc ((addResult sc (undosedResult e)
      (componentNext sc false e [] t)).chan sc).base (addResult sc (undosedResult e) (componentNext sc false e [] t))
    unfold weighedWith at hweighed
    rw [hchan] at hweighed ⊢
    obtain ⟨hstate, hfeed, hgate, hresults, hbatch⟩ := hweighed
    exact ⟨hstate, hfeed, hgate, hresults, fun b hb => hbatch b (hweigh.trans hb)⟩

end

end Sys2Proof.Machine
end

section
/-! The end of a settle (R82, R83, R86, R104), told of the state the event found: the jog pulse, the pre-feed, the last
component, and one with others behind it. -/

namespace Sys2Proof.Machine

/-! ### A component with others behind it -/

section
variable {sc : Scale} {s : State}

theorem afterComponent_dry (hdry : sc ≠ .bit) (actual : Int) (outcome : DoseOutcome) (s : State) :
    afterComponent sc actual outcome s =
      startComponents sc false (s.chan sc).todo (s.modChan sc fun c => { c with base := c.net }) := if_neg hdry

theorem afterComponent_goesOn (hdry : sc ≠ .bit) {c : Channel} {actual : Int} {outcome : DoseOutcome} {t : State}
    {e : DoseEntry} {rest : List DoseEntry} (htodo : c.todo = e :: rest) (hnone : t.port.waiting = [])
    (hroom : t.nu.list.length < 16)
    (hchan : t.chan sc = { c with results := c.results ++ [⟨c.dose.entry.source, actual, outcome⟩] })
    (henable : t.rd (Win.source e.source) = s.rd (Win.source e.source)) (hrc : t.rc = s.rc)
    (hweigh : t.co.weigh = s.co.weigh) :
    Noticed t (afterComponent sc actual outcome t) ∧ goesOn sc e rest c.net
      (c.results ++ [⟨c.dose.entry.source, actual, outcome⟩]) s (afterComponent sc actual outcome t) := by
  have hbarred : feedsBarred t = feedsBarred s := by
    unfold feedsBarred
    rw [hrc]
  have hgoes := startComponents_goesOn (sc := sc) (s := s) (t := t.modChan sc fun c => { c with base := c.net }) (e := e)
    (rest := rest) hnone hroom henable hbarred hweigh
  have hnoticed := startComponents_noticed sc (e :: rest) false (s := t.modChan sc fun c => { c with base := c.net })
    hnone hroom
  rw [State.chan_modChan_same, hchan] at hgoes
  have hlist : (t.chan sc).todo = e :: rest := by
    rw [hchan]
    exact htodo
  rw [afterComponent_dry hdry, hlist]
  exact ⟨Noticed.trans (t := t.modChan sc fun c => { c with base := c.net }) (.of_eq rfl rfl rfl) hnoticed, hgoes⟩

/-- The words a final verify writes lie apart from the enable setting of every source. -/
theorem finalVerify_enable (sc : Scale) (actual : Int) (outcome : DoseOutcome) (hnone : s.port.waiting = [])
    (hwf : Memory.wf s.mem = true) (x : Source) :
    (finalVerify sc actual outcome s).rd (Win.source x) = s.rd (Win.source x) := by
  rw [State.rd_of_mem (finalVerify_mem sc actual outcome hnone hwf)]
  refine rd_writeWords_other _ hwf fun w hw => ?_
  simp only [sourceWords, List.mem_cons, List.not_mem_nil, or_false] at hw
  rcases hw with rfl | rfl | rfl | rfl <;> simp only [Win.source] <;> omega

theorem finalVerify_port (sc : Scale) (actual : Int) (outcome : DoseOutcome) (hnone : s.port.waiting = [])
    (hwf : Memory.wf s.mem = true) : (finalVerify sc actual outcome s).port = s.port := by
  rw [finalVerify_frame]
  unfold recorded
  dsimp only
  rw [writeSource_of_none (by exact hnone) (by exact hwf), writeWords_port]
  rfl

theorem finalVerify_rc (sc : Scale) (actual : Int) (outcome : DoseOutcome) (s : State) :
    (finalVerify sc actual outcome s).rc = s.rc := by
  rw [finalVerify_frame]
  rfl

/-- A verify with others behind it. -/
theorem verify_goesOn (hdry : sc ≠ .bit) (hnone : s.port.waiting = []) (hwf : Memory.wf s.mem = true)
    (hroom : s.nu.list.length < 16) {e : DoseEntry} {rest : List DoseEntry} (htodo : (s.chan sc).todo = e :: rest)
    (actual : Int) :
    let c := s.chan sc
    let u := afterComponent sc actual (verdictAt c actual) (finalVerify sc actual (verdictAt c actual) s)
    recordsVerify c actual (newAllowance c.dose) s u ∧
      u.nu.offers = s.nu.offers ++ verifyOffers sc c actual c.ring ∧
      goesOn sc e rest c.net (c.results ++ [⟨c.dose.entry.source, actual, verdictAt c actual⟩]) s u := by
  intro c u
  have hnu := finalVerify_nu sc actual s
  obtain ⟨hnoticed, hgoes⟩ := afterComponent_goesOn (s := s) hdry (t := finalVerify sc actual (verdictAt c actual) s)
    htodo (by rw [finalVerify_port sc actual _ hnone hwf]; exact hnone) (by rw [hnu]; exact hroom)
    (finalVerify_chan sc actual _ s) (finalVerify_enable sc actual _ hnone hwf e.source)
    (finalVerify_rc sc actual _ s) (congrArg Coord.weigh (finalVerify_co sc actual _ s))
  exact ⟨finalVerify_records sc actual _ hnone hwf hnoticed.mem, hnoticed.offers.trans (by rw [hnu]), hgoes⟩

/-- A stall with others behind it. -/
theorem stallDone_goesOn (hdry : sc ≠ .bit) (hnone : s.port.waiting = []) (hroom : s.nu.list.length < 15)
    {e : DoseEntry} {rest : List DoseEntry} (htodo : (s.chan sc).todo = e :: rest) (cutoff actual : Int) :
    let c := s.chan sc
    let u := stallDone sc cutoff actual s
    u.mem = s.mem ∧ u.nu.offers = s.nu.offers ++ [offerOf sc c cutoff actual .stall c.ring] ∧
      (∃ more, u.nu.list = s.nu.list ++ attachedNotice c.batch
        (.feedStall sc c.dose.entry.source c.dose.entry.target actual) :: more) ∧
      goesOn sc e rest c.net (c.results ++ [⟨c.dose.entry.source, actual, .stall⟩]) s u := by
  intro c u
  have hentered := stallEntered_eq (sc := sc) (s := s) (by omega) cutoff actual
  have hfeed : isPrefeed s sc = false := by
    rw [← Bool.not_eq_true]
    exact fun h => hdry (isPrefeed_bit h)
  have hdone : u = afterComponent sc actual .stall (stallEntered sc cutoff actual s) := stallDone_dose hfeed _ _
  obtain ⟨hnoticed, hgoes⟩ := afterComponent_goesOn (s := s) hdry (outcome := .stall) (actual := actual)
    (t := stallEntered sc cutoff actual s) htodo (by rw [hentered]; exact hnone) (by
      rw [hentered]
      simp only [List.length_append, List.length_singleton]
      omega) (by rw [hentered]; exact State.chan_setChan_same s sc _) (by rw [hentered]; rfl) (by rw [hentered]; rfl)
    (by rw [hentered]; rfl)
  obtain ⟨more, hmore⟩ := hnoticed.list
  rw [hdone]
  refine ⟨hnoticed.mem.trans (by rw [hentered]; rfl), hnoticed.offers.trans (by rw [hentered]), ⟨more, ?_⟩, hgoes⟩
  rw [hmore, hentered]
  exact List.append_assoc _ _ _

end

/-! ### The state a settle ends in -/

/-- The state `t` is that of an event of the channel in `s` on its way to the end of a settle: what a verify reads and
the parts it changes stand, but the mass, the settle and the marks of the dose. -/
structure SettlesFrom (sc : Scale) (s t : State) : Prop where
  mem : t.mem = s.mem
  port : t.port = s.port
  nu : t.nu = s.nu
  rc : t.rc = s.rc
  bit : t.bit = s.bit
  weigh : ∀ b, s.co.weigh = some b → ∃ b', t.co.weigh = some b' ∧ b'.seq = b.seq
  entry : (t.chan sc).dose.entry = (s.chan sc).dose.entry
  gain : (t.chan sc).dose.gain = (s.chan sc).dose.gain
  cutoff : (t.chan sc).dose.cutoff = (s.chan sc).dose.cutoff
  stallAt : (t.chan sc).dose.stallAt = (s.chan sc).dose.stallAt
  jogsUsed : (t.chan sc).dose.jogsUsed = (s.chan sc).dose.jogsUsed
  jogLimit : (t.chan sc).dose.jogLimit = (s.chan sc).dose.jogLimit
  base : (t.chan sc).base = (s.chan sc).base
  batch : (t.chan sc).batch = (s.chan sc).batch
  todo : (t.chan sc).todo = (s.chan sc).todo
  results : (t.chan sc).results = (s.chan sc).results

section
variable {sc : Scale} {s t u : State} (h : SettlesFrom sc s t)
include h

theorem SettlesFrom.barred : feedsBarred t = feedsBarred s := by
  unfold feedsBarred
  rw [h.rc]

theorem SettlesFrom.verdictAt (actual : Int) : verdictAt (t.chan sc) actual = verdictAt (s.chan sc) actual := by
  unfold Machine.verdictAt
  rw [h.entry]

theorem SettlesFrom.verifyOffers (actual : Int) (ring : List Int) :
    verifyOffers sc (t.chan sc) actual ring = verifyOffers sc (s.chan sc) actual ring := by
  unfold Machine.verifyOffers offerOf
  rw [h.verdictAt, h.cutoff, h.entry, h.batch]

theorem SettlesFrom.offerOf (cutoff actual : Int) (outcome : DoseOutcome) (ring : List Int) :
    offerOf sc (t.chan sc) cutoff actual outcome ring = offerOf sc (s.chan sc) cutoff actual outcome ring := by
  unfold Machine.offerOf
  rw [h.entry, h.batch]

theorem SettlesFrom.weighed {k : Batch → Prop} (hk : ∀ b, t.co.weigh = some b →
    ∃ b', u.co.weigh = some b' ∧ b'.seq = b.seq ∧ k b') :
    ∀ b, s.co.weigh = some b → ∃ b', u.co.weigh = some b' ∧ b'.seq = b.seq ∧ k b' := by
  intro b hb
  obtain ⟨mid, hmid, hseq⟩ := h.weigh b hb
  obtain ⟨b', hb', hseq', hlast⟩ := hk mid hmid
  exact ⟨b', hb', hseq'.trans hseq, hlast⟩

theorem SettlesFrom.reportsWeighed {actual : Int} {outcome : DoseOutcome}
    (k : reportsWeighed sc (t.chan sc) actual outcome t u) : reportsWeighed sc (s.chan sc) actual outcome s u := by
  unfold Machine.reportsWeighed at k ⊢
  rw [h.entry, h.base, h.results] at k
  obtain ⟨hstate, hfeed, hgate, hresults, hbatch⟩ := k
  exact ⟨hstate, hfeed, hgate, hresults, h.weighed hbatch⟩

theorem SettlesFrom.recordsVerify {actual allow : Int} (k : recordsVerify (t.chan sc) actual allow t u) :
    recordsVerify (s.chan sc) actual allow s u := by
  unfold Machine.recordsVerify State.rd32 at k ⊢
  simp only [h.entry, h.gain, State.rd_of_mem h.mem, State.byteAt_of_mem h.mem] at k
  exact k

theorem SettlesFrom.endsVerified {actual allow : Int} {ring : List Int}
    (k : endsVerified sc (t.chan sc) actual allow ring t u) : endsVerified sc (s.chan sc) actual allow ring s u := by
  obtain ⟨hreports, hrecords, hnu⟩ := k
  rw [h.verifyOffers, h.nu] at hnu
  rw [h.verdictAt] at hreports
  exact ⟨h.reportsWeighed hreports, h.recordsVerify hrecords, hnu⟩

theorem SettlesFrom.endsStalled {actual mass : Int} {ring : List Int}
    (k : endsStalled sc (t.chan sc) actual mass ring t u) : endsStalled sc (s.chan sc) actual mass ring s u := by
  obtain ⟨hreports, hmem, hnu⟩ := k
  rw [h.offerOf, h.nu, h.entry, h.batch] at hnu
  exact ⟨h.reportsWeighed hreports, hmem.trans h.mem, hnu⟩

theorem SettlesFrom.goesOn {e : DoseEntry} {rest : List DoseEntry} {net : Int} {results : List EntryResult}
    (k : goesOn sc e rest net results t u) : goesOn sc e rest net results s u := by
  obtain ⟨hbegins, hends⟩ := k
  rw [h.barred, State.rd_of_mem h.mem] at hbegins
  rw [State.rd_of_mem h.mem] at hends
  refine ⟨hbegins, fun hundosed hlast => ?_⟩
  obtain ⟨hstate, hfeed, hgate, hresults, hbatch⟩ := hends hundosed hlast
  exact ⟨hstate, hfeed, hgate, hresults, h.weighed hbatch⟩

end

end Sys2Proof.Machine
end

section
/-! SETTLE_TIMEOUT (O33): what the end of a settle does in each of its cases, and the timeout that marks it UNSETTLED. -/

namespace Sys2Proof.Machine

/-! ### The end of a settle, case by case -/

/-- The net of the latest sample is the dosed mass above the base. -/
theorem dosed_add_base (c : Channel) : c.net = dosed c + c.base := by
  unfold dosed
  omega

theorem observeInflight_eq (actual : Int) (d : Dose) : ∃ o, observeInflight actual d = { d with observed := o } := by
  unfold observeInflight
  split
  · exact ⟨_, rfl⟩
  · exact ⟨_, rfl⟩

/-- A settle ended by a verify, its in-flight mass observed. -/
def inflightObserved (sc : Scale) (t : State) : State :=
  t.modChan sc fun c => { c with dose := observeInflight (dosed (t.chan sc)) c.dose }

theorem inflightObserved_chan (sc : Scale) (t : State) : (inflightObserved sc t).chan sc =
    { t.chan sc with dose := observeInflight (dosed (t.chan sc)) (t.chan sc).dose } :=
  State.chan_modChan_same t sc fun c => { c with dose := observeInflight (dosed (t.chan sc)) c.dose }

theorem bitActTarget_of_none {s : State} (h : s.bit.target = .none) : bitActTarget s = s := by
  unfold bitActTarget
  rw [h]
  exact ite_self s

section
variable {sc : Scale} {s t : State}

theorem settleDone_of_stall {m : Int} (h : (t.chan sc).dose.stallAt = some m) :
    settleDone sc t = stallDone sc m (dosed (t.chan sc)) t := by
  unfold settleDone
  dsimp only
  rw [h]

theorem settleDone_of_prefeed (h : (t.chan sc).dose.stallAt = none) (hprefeed : isPrefeed t sc = true) :
    settleDone sc t = bitEnterPrefed (dosed (t.chan sc)) (inflightObserved sc t) := by
  unfold settleDone
  dsimp only
  rw [h]
  exact if_pos hprefeed

/-- The error a verify judges. -/
def verifyError (sc : Scale) (t : State) : Int := dosed (t.chan sc) - (t.chan sc).dose.entry.target

theorem verifyOutcome_observed (actual : Int) (d : Dose) (error : Int) :
    verifyOutcome (observeInflight actual d) error = verifyOutcome d error := by
  obtain ⟨o, ho⟩ := observeInflight_eq actual d
  rw [ho]
  rfl

theorem observeInflight_target (actual : Int) (d : Dose) : (observeInflight actual d).entry = d.entry := by
  obtain ⟨o, ho⟩ := observeInflight_eq actual d
  rw [ho]

section
variable (hverify : (t.chan sc).dose.stallAt = none) (hdose : isPrefeed t sc = false)
include hverify hdose

theorem settleDone_of_jog (h : asksJog (t.chan sc).dose (verifyError sc t)) :
    settleDone sc t = (inflightObserved sc t).modChan sc (askJog (feedsBarred t)) := by
  have hjudged : verifyOutcome ((inflightObserved sc t).chan sc).dose
      (dosed (t.chan sc) - ((inflightObserved sc t).chan sc).dose.entry.target) = none := by
    rw [inflightObserved_chan]
    dsimp only
    rw [observeInflight_target, verifyOutcome_observed]
    exact verifyOutcome_jog h
  unfold settleDone
  dsimp only
  rw [hverify]
  refine (if_neg (Bool.eq_false_iff.mp hdose)).trans ?_
  unfold inflightObserved at hjudged
  rw [hjudged]
  rfl

theorem settleDone_of_verdict (h : ¬asksJog (t.chan sc).dose (verifyError sc t)) :
    let v := inflightObserved sc t
    let actual := dosed (t.chan sc)
    settleDone sc t = afterComponent sc actual (verdictAt (v.chan sc) actual)
      (finalVerify sc actual (verdictAt (v.chan sc) actual) v) := by
  intro v actual
  have hentry : (v.chan sc).dose.entry = (t.chan sc).dose.entry := by
    rw [inflightObserved_chan]
    exact observeInflight_target _ _
  have hjudged : verifyOutcome (v.chan sc).dose (actual - (v.chan sc).dose.entry.target) =
      some (verdictAt (v.chan sc) actual) := by
    unfold verdictAt
    rw [hentry, inflightObserved_chan]
    dsimp only
    rw [verifyOutcome_observed]
    exact verifyOutcome_final h
  unfold settleDone
  dsimp only
  rw [hverify]
  refine (if_neg (Bool.eq_false_iff.mp hdose)).trans ?_
  unfold v inflightObserved at hjudged
  rw [hjudged]
  rfl

end

/-! ### The cases, told of the state the event found -/

section
variable (h : SettlesFrom sc s t)
include h

theorem SettlesFrom.prefeed : isPrefeed t sc = isPrefeed s sc := by
  unfold isPrefeed
  rw [h.bit]

theorem SettlesFrom.observed : SettlesFrom sc s (inflightObserved sc t) := by
  have hchan := inflightObserved_chan sc t
  obtain ⟨o, ho⟩ := observeInflight_eq (dosed (t.chan sc)) (t.chan sc).dose
  rw [ho] at hchan
  obtain ⟨hmem, hport, hnu, hrc, hbit, hweigh, hentry, hgain, hcutoff, hstall, hused, hlimit, hbase, hbatch, htodo,
    hresults⟩ := h
  refine ⟨hmem, hport, hnu, hrc, hbit, hweigh, ?_, ?_, ?_, ?_, ?_, ?_, ?_, ?_, ?_, ?_⟩ <;> rw [hchan] <;> assumption

theorem SettlesFrom.asksJog : asksJog (t.chan sc).dose (verifyError sc t) ↔
    asksJog (s.chan sc).dose (dosed (t.chan sc) - (s.chan sc).dose.entry.target) := by
  unfold Machine.asksJog verifyError
  rw [h.entry, h.jogsUsed, h.jogLimit]

/-- The allowance the verify that ends the settle writes. -/
def settledAllowance (sc : Scale) (t : State) : Int :=
  newAllowance (observeInflight (dosed (t.chan sc)) (t.chan sc).dose)

theorem settleDone_endsVerified (hnone : s.port.waiting = []) (hwf : Memory.wf s.mem = true)
    (hlast : sc = .bit ∨ (s.chan sc).todo = []) (hdose : isPrefeed s sc = false)
    (hverify : (s.chan sc).dose.stallAt = none)
    (hfinal : ¬asksJog (s.chan sc).dose (dosed (t.chan sc) - (s.chan sc).dose.entry.target)) :
    endsVerified sc (s.chan sc) (dosed (t.chan sc)) (settledAllowance sc t) (t.chan sc).ring s (settleDone sc t) := by
  have hchan := inflightObserved_chan sc t
  have hk := h.observed
  rw [settleDone_of_verdict (h.stallAt.trans hverify) (h.prefeed.trans hdose) (mt h.asksJog.mp hfinal)]
  have hends := verify_endsVerified (sc := sc) (s := inflightObserved sc t) (actual := dosed (t.chan sc))
    (by rw [hk.port]; exact hnone) (by rw [hk.mem]; exact hwf) (by rw [hk.todo]; exact hlast)
    (fun _ => by rw [hchan]; exact dosed_add_base _)
  have hring : ((inflightObserved sc t).chan sc).ring = (t.chan sc).ring := by rw [hchan]
  have hallow : newAllowance ((inflightObserved sc t).chan sc).dose = settledAllowance sc t := by
    rw [hchan]
    rfl
  rw [hring, hallow] at hends
  exact hk.endsVerified hends

theorem settleDone_endsStalled (hlast : sc = .bit ∨ (s.chan sc).todo = []) (hdose : isPrefeed s sc = false)
    {m : Int} (hstall : (s.chan sc).dose.stallAt = some m) (hroom : s.nu.list.length < 16) :
    endsStalled sc (s.chan sc) (dosed (t.chan sc)) m (t.chan sc).ring s (settleDone sc t) := by
  rw [settleDone_of_stall (h.stallAt.trans hstall)]
  exact h.endsStalled (stallDone_endsStalled (h.prefeed.trans hdose) (by rw [h.nu]; exact hroom)
    (by rw [h.todo]; exact hlast) m fun _ => dosed_add_base _)

theorem settleDone_endsAndGoesOn (hdry : sc ≠ .bit) (hnone : s.port.waiting = []) (hwf : Memory.wf s.mem = true)
    (hroom : s.nu.list.length < 15) (hends : (s.chan sc).dose.stallAt ≠ none ∨
      ¬asksJog (s.chan sc).dose (dosed (t.chan sc) - (s.chan sc).dose.entry.target)) :
    endsAndGoesOn sc (s.chan sc) (t.chan sc).net (settledAllowance sc t) (t.chan sc).ring s (settleDone sc t) := by
  have hchan := inflightObserved_chan sc t
  have hk := h.observed
  have hdose : isPrefeed s sc = false := by
    rw [← Bool.not_eq_true]
    exact fun hp => hdry (isPrefeed_bit hp)
  have hactual : (t.chan sc).net - (s.chan sc).base = dosed (t.chan sc) := by
    rw [← h.base]
    rfl
  unfold endsAndGoesOn
  rw [hactual]
  intro actual e rest htodo
  refine ⟨fun hverify => ?_, fun m hstall => ?_⟩
  · have hfinal := hends.resolve_left (fun hne => hne hverify)
    rw [settleDone_of_verdict (h.stallAt.trans hverify) (h.prefeed.trans hdose) (mt h.asksJog.mp hfinal)]
    obtain ⟨hrecords, hoffers, hgoes⟩ := verify_goesOn (sc := sc) (s := inflightObserved sc t) hdry
      (by rw [hk.port]; exact hnone) (by rw [hk.mem]; exact hwf) (by rw [hk.nu]; omega) (by rw [hk.todo]; exact htodo)
      (dosed (t.chan sc))
    have hring : ((inflightObserved sc t).chan sc).ring = (t.chan sc).ring := by rw [hchan]
    have hnet : ((inflightObserved sc t).chan sc).net = (t.chan sc).net := by rw [hchan]
    have hallow : newAllowance ((inflightObserved sc t).chan sc).dose = settledAllowance sc t := by
      rw [hchan]
      rfl
    rw [hallow] at hrecords
    rw [hring, hk.verifyOffers, hk.nu] at hoffers
    rw [hnet, hk.results, hk.entry] at hgoes
    rw [hk.verdictAt] at hrecords hoffers hgoes ⊢
    exact ⟨hk.recordsVerify hrecords, hoffers, hk.goesOn hgoes⟩
  · rw [settleDone_of_stall (h.stallAt.trans hstall)]
    obtain ⟨hmem, hoffers, hlist, hgoes⟩ := stallDone_goesOn (sc := sc) (s := t) hdry (by rw [h.port]; exact hnone)
      (by rw [h.nu]; exact hroom) (h.todo.trans htodo) m (dosed (t.chan sc))
    rw [h.offerOf, h.nu] at hoffers
    rw [h.nu, h.batch, h.entry] at hlist
    rw [h.results, h.entry] at hgoes
    exact ⟨hmem.trans h.mem, hoffers, hlist, h.goesOn hgoes⟩

end

/-! ### The jog pulse and the pre-feed (R82, R104) -/

theorem askJog_jogs (c : Channel) : (askJog false c).state = .dosing .jogging ∧
    (askJog false c).feed = some (c.dose.entry.source, .fine) ∧ (askJog false c).jogTimer = 0 := ⟨rfl, rfl, rfl⟩

theorem askJog_holds (c : Channel) : (askJog true c).state = .dosing (.held .jogDue) ∧ (askJog true c).feed = none :=
  ⟨rfl, rfl⟩

theorem askJog_marks (barred : Bool) (c : Channel) : (askJog barred c).gate = false ∧
    (askJog barred c).dose.jogsUsed = c.dose.jogsUsed + 1 ∧ (askJog barred c).dose.unsettled = c.dose.unsettled ∧
    (askJog barred c).flags = c.flags := by
  cases barred <;> exact ⟨rfl, rfl, rfl, rfl⟩

section
variable (h : SettlesFrom sc s t) (hverify : (s.chan sc).dose.stallAt = none)
include h hverify

/-- A verify that asks for a jog pulse gives one, or holds it while the feeds are barred. -/
theorem settleDone_jogs (hdose : isPrefeed s sc = false)
    (hjog : asksJog (s.chan sc).dose (dosed (t.chan sc) - (s.chan sc).dose.entry.target)) :
    let u := settleDone sc t
    (feedsBarred s = false → (u.chan sc).state = .dosing .jogging ∧
      (u.chan sc).feed = some ((s.chan sc).dose.entry.source, .fine) ∧ (u.chan sc).jogTimer = 0) ∧
    (feedsBarred s = true → (u.chan sc).state = .dosing (.held .jogDue) ∧ (u.chan sc).feed = none) ∧
    (u.chan sc).gate = false ∧ (u.chan sc).dose.jogsUsed = (s.chan sc).dose.jogsUsed + 1 ∧
    (u.chan sc).dose.unsettled = (t.chan sc).dose.unsettled ∧ (u.chan sc).flags = (t.chan sc).flags ∧
    u.co = t.co ∧ u.mem = s.mem ∧ u.nu = s.nu := by
  intro u
  have hk := h.observed
  have hdone : u = (inflightObserved sc t).modChan sc (askJog (feedsBarred t)) :=
    settleDone_of_jog (h.stallAt.trans hverify) (h.prefeed.trans hdose) (h.asksJog.mpr hjog)
  have hchan : u.chan sc = askJog (feedsBarred s) ((inflightObserved sc t).chan sc) := by
    rw [hdone, State.chan_modChan_same, h.barred]
  obtain ⟨hgate, hused, hunsettled, hflags⟩ := askJog_marks (feedsBarred s) ((inflightObserved sc t).chan sc)
  obtain ⟨o, ho⟩ := observeInflight_eq (dosed (t.chan sc)) (t.chan sc).dose
  rw [hchan]
  refine ⟨fun hfree => ?_, fun hbarred => ?_, hgate, by rw [hused, hk.jogsUsed], ?_, ?_, ?_, ?_, ?_⟩
  · rw [hfree, ← hk.entry]
    exact askJog_jogs _
  · rw [hbarred]
    exact askJog_holds _
  · rw [hunsettled, inflightObserved_chan, ho]
  · rw [hflags, inflightObserved_chan]
  · rw [hdone]
    rfl
  · rw [hdone]
    exact hk.mem
  · rw [hdone]
    exact hk.nu

/-- A pre-feed that settles with no target held is PREFED at its dosed mass. -/
theorem settleDone_prefeeds (hprefeed : isPrefeed s sc = true) (htarget : s.bit.target = .none) :
    let u := settleDone sc t
    (u.chan sc).state = .prefed ∧ u.bit.prefed = dosed (t.chan sc) ∧ (u.chan sc).feed = none ∧
      (u.chan sc).flags = (t.chan sc).flags ∧ u.mem = s.mem ∧ u.nu = s.nu := by
  have hk := h.observed
  obtain rfl := isPrefeed_bit hprefeed
  rw [settleDone_of_prefeed (h.stallAt.trans hverify) (h.prefeed.trans hprefeed)]
  unfold bitEnterPrefed
  dsimp only
  rw [bitActTarget_of_none (by exact hk.bit.symm ▸ htarget)]
  refine ⟨?_, rfl, ?_, ?_, hk.mem, hk.nu⟩
  · rfl
  · rfl
  · rfl

end

/-! ### The timeout (R82) -/

end

/-- A channel as the settle timeout passes. -/
def timedOut (c : Channel) : Channel :=
  { c with settleTimer := max c.settleTimer ((c.work.map ScaleParams.settleTimeout).getD 0),
           dose.unsettled := true, flags.unsettled := true }

/-- The dose and its batch are marked UNSETTLED. -/
def timeoutMarked (sc : Scale) (s : State) : State :=
  flagAttached sc (fun f => { f with unsettled := true }) (s.setChan sc (timedOut (s.chan sc)))

section
variable {sc : Scale} {s : State}

theorem timeoutMarked_chan (sc : Scale) (s : State) : (timeoutMarked sc s).chan sc = timedOut (s.chan sc) := by
  unfold timeoutMarked
  rw [flagAttached_frame]
  exact State.chan_setChan_same s sc _

theorem settleTimeout_of_idle (h : s.rc.part ≠ .run ∨ (s.chan sc).state ≠ .dosing .settling) :
    settleTimeout sc s = s := if_neg fun hb => h.elim (· hb.1) (· hb.2)

theorem settleTimeout_of_settling (hrun : s.rc.part = .run) (hstate : (s.chan sc).state = .dosing .settling) :
    settleTimeout sc s = settleDone sc (timeoutMarked sc s) := if_pos ⟨hrun, hstate⟩

theorem flagAttached_keeps_seq (sc : Scale) (f : TicketFlags → TicketFlags) {s : State} {b : Batch}
    (hb : s.co.weigh = some b) : ∃ b', (flagAttached sc f s).co.weigh = some b' ∧ b'.seq = b.seq := by
  unfold flagAttached
  split
  · next a _ =>
    unfold flagBatch
    dsimp only
    rw [hb, Option.map_some]
    refine ⟨_, rfl, ?_⟩
    split <;> rfl
  · exact ⟨b, hb, rfl⟩

theorem timeoutMarked_settlesFrom (sc : Scale) (s : State) : SettlesFrom sc s (timeoutMarked sc s) := by
  have hchan := timeoutMarked_chan sc s
  have hframe := flagAttached_frame sc (fun f => { f with unsettled := true }) (s.setChan sc (timedOut (s.chan sc)))
  refine ⟨?_, ?_, ?_, ?_, ?_, fun b hb => flagAttached_keeps_seq sc _ (s := s.setChan sc _) hb, ?_, ?_, ?_, ?_, ?_, ?_,
    ?_, ?_, ?_, ?_⟩
  iterate 5
    · unfold timeoutMarked
      rw [hframe]
      rfl
  all_goals
    rw [hchan]
    rfl

theorem timeoutMarked_doseOnly (sc : Scale) (s : State) : DoseOnly sc s (timeoutMarked sc s) :=
  .trans (t := s.setChan sc (timedOut (s.chan sc))) (.of_set rfl (fun _ => rfl) rfl rfl rfl rfl rfl) (flagAttached_doseOnly sc _ _)

theorem timeoutMarked_batch {a : Attach} {b : Batch} (hbatch : (s.chan sc).batch = some a)
    (hb : s.co.weigh = some b) (hseq : b.seq = a.seq) :
    (timeoutMarked sc s).co.weigh = some { b with flags.unsettled := true } := by
  unfold timeoutMarked
  rw [flagAttached_of_batch (s := s.setChan sc _) (a := a) (by rw [State.chan_setChan_same]; exact hbatch)]
  exact flagBatch_weigh (s := s.setChan sc _) hb hseq _

/-- A dose marked UNSETTLED keeps its allowance. -/
theorem timeoutMarked_allowance (sc : Scale) (s : State) :
    settledAllowance sc (timeoutMarked sc s) = (s.chan sc).dose.allow := by
  unfold settledAllowance
  rw [timeoutMarked_chan]
  obtain ⟨o, ho⟩ := observeInflight_eq (dosed (timedOut (s.chan sc))) (timedOut (s.chan sc)).dose
  rw [ho]
  unfold newAllowance
  split
  · exact if_pos (.inr (.inr (.inl rfl)))
  · rfl

end

/-- Settles O33. -/
theorem settleTimeoutVerifies : Obligations.SettleTimeoutVerifies := by
  intro s sc hfree c actual e short
  obtain ⟨hhigh, hnone⟩ := (arbiterFree_iff s).mp hfree
  have hexec : exec (.settleTimeout sc) s = .next (settle (settleTimeout sc s)) := congrArg _ (event_of_high hhigh _)
  rw [hexec]
  refine ⟨fun hidle => by rw [settleTimeout_of_idle hidle], fun hrun hstate => ?_⟩
  rw [settleTimeout_of_settling hrun hstate]
  have hfrom := timeoutMarked_settlesFrom sc s
  have honly := (timeoutMarked_doseOnly sc s).trans (settleDone_doseOnly sc (timeoutMarked sc s))
  have hactual : dosed ((timeoutMarked sc s).chan sc) = actual := by
    rw [timeoutMarked_chan]
    rfl
  have hring : ((timeoutMarked sc s).chan sc).ring = c.ring := by
    rw [timeoutMarked_chan]
    rfl
  have hnet : ((timeoutMarked sc s).chan sc).net = c.net := by
    rw [timeoutMarked_chan]
    rfl
  have hflags : ((timeoutMarked sc s).chan sc).flags.unsettled = true := by
    rw [timeoutMarked_chan]
    rfl
  have hallow := timeoutMarked_allowance sc s
  refine ⟨⟨_, rfl, (settleDone_doseOnly sc _).unsettled hflags, honly.others, honly.rc, honly.oe, honly.mixer,
    honly.heat, honly.inp⟩, fun hverify hdose hshort => ⟨_, rfl, ?_⟩, fun hverify hprefeed htarget => ⟨_, rfl, ?_⟩,
    fun hdose hlast hwf => ⟨fun hverify hfinal => ⟨_, rfl, ?_⟩, fun m hstall hroom => ⟨_, rfl, ?_⟩⟩,
    fun hdry _ hwf hroom hends => ⟨_, rfl, ?_⟩⟩
  · obtain ⟨hjogs, hholds, hgate, hused, hunsettled, hsame, hco, hmem, hnu⟩ :=
      settleDone_jogs hfrom hverify hdose (by rw [hactual]; exact hshort)
    refine ⟨hjogs, hholds, hgate, hused, ?_, ?_, fun a b hbatch hb hseq => ?_, hmem, hnu⟩
    · rw [hunsettled, timeoutMarked_chan]
      rfl
    · rw [hsame]
      exact hflags
    · rw [hco]
      exact timeoutMarked_batch hbatch hb hseq
  · obtain ⟨hprefed, hmass, hfeed, hsame, hmem, hnu⟩ := settleDone_prefeeds hfrom hverify hprefeed htarget
    exact ⟨hprefed, hmass.trans hactual, hfeed, by rw [hsame]; exact hflags, hmem, hnu⟩
  · have hverified := settleDone_endsVerified hfrom hnone hwf hlast hdose hverify (by rw [hactual]; exact hfinal)
    rw [hactual, hallow, hring] at hverified
    exact hverified
  · have hstalled := settleDone_endsStalled hfrom hlast hdose hstall hroom
    rw [hactual, hring] at hstalled
    exact hstalled
  · have hgoes := settleDone_endsAndGoesOn hfrom hdry hnone hwf hroom (by rw [hactual]; exact hends)
    rw [hnet, hallow, hring] at hgoes
    exact hgoes

end Sys2Proof.Machine
end

section
/-! WEIGH_FRAME in a dose (O30): the cutoff, the fine band, the stall window, the settle count and the release of a held
dose (R80, R82, R84, R86, R88). -/

namespace Sys2Proof.Machine

/-! ### A sample of a dose as it arrives (R73, R80, R91) -/

/-- A channel with the sample taken. -/
def sampled (g : Int) (c : Channel) : Channel := { framed c with gross := g, net := g - c.tare, frameGood := true }

section
variable {s : State} {sc : Scale} {w : ScaleParams} {count : Int} (hwork : (s.chan sc).work = some w)
  (hcap : grossOf w count ≤ w.capacity)
include hwork hcap

theorem weighFrame_ok : weighFrame sc count .ok s =
    takeSample sc (grossOf w count) (s.setChan sc (framed (s.chan sc))) :=
  weighFrame_sample hwork (if_neg (by omega))

/-- A sample in DOSING reaches the sub-phase. -/
theorem weighFrame_dosing (hrun : s.rc.part ≠ .halted) {p : SubPhase} (hstate : (s.chan sc).state = .dosing p) :
    weighFrame sc count .ok s = sampleDosing sc p (s.chan sc).net (s.setChan sc (sampled (grossOf w count) (s.chan sc))) := by
  rw [weighFrame_ok hwork hcap]
  unfold takeSample
  dsimp only
  rw [State.modChan_setChan, State.chan_setChan_same, State.chan_setChan_same]
  refine (if_neg hrun).trans ?_
  split
  case h_2 q hq =>
    obtain rfl : q = p := ChanState.dosing.inj (hq.symm.trans hstate)
    rfl
  all_goals
    next hother => exact absurd (hother.symm.trans hstate) (by simp)

end

/-- A sample in FAST. -/
def fastSample (c : Channel) : Channel :=
  if atCutoff c then cutOff c else stallWindow (if atFine c then enterFine c else c)

/-- A sample in FINE. -/
def fineSample (c : Channel) : Channel := if atCutoff c then cutOff c else stallWindow c

/-- A sample in HELD. -/
def heldSample (barred : Bool) (c : Channel) : Channel :=
  if barred then { c with gapHold := false } else releaseIfFree { c with gapHold := false }

/-- The settle count behind a sample in SETTLING. -/
def settleCounted (prev : Int) (c : Channel) : Nat := if isStill c prev then c.dose.settleCount + 1 else 0

section
variable (sc : Scale) (prev : Int) (s : State) (c : Channel)

theorem sampleDosing_fast : sampleDosing sc .fast prev (s.setChan sc c) = s.setChan sc (fastSample (pushRing c)) := by
  unfold sampleDosing
  dsimp only
  rw [State.modChan_setChan, State.modChan_setChan]
  rfl

theorem sampleDosing_fine : sampleDosing sc .fine prev (s.setChan sc c) = s.setChan sc (fineSample (pushRing c)) := by
  unfold sampleDosing
  dsimp only
  rw [State.modChan_setChan, State.modChan_setChan]
  rfl

theorem sampleDosing_jogging : sampleDosing sc .jogging prev (s.setChan sc c) = s.setChan sc (pushRing c) := by
  unfold sampleDosing
  dsimp only
  rw [State.modChan_setChan]

theorem sampleDosing_held (back : Remembered) : sampleDosing sc (.held back) prev (s.setChan sc c) =
    s.setChan sc (heldSample (feedsBarred s) (pushRing c)) := by
  unfold sampleDosing
  dsimp only
  rw [State.modChan_setChan, State.modChan_setChan]
  rfl

theorem sampleDosing_settling : sampleDosing sc .settling prev (s.setChan sc c) =
    (let n := settleCounted prev (pushRing c)
     let t := s.setChan sc { pushRing c with dose.settleCount := n }
     if n < 10 then t else settleDone sc t) := by
  unfold sampleDosing
  dsimp only
  rw [State.modChan_setChan, State.modChan_setChan, State.chan_setChan_same]
  rfl

end

/-! ### The stall window (R86) -/

section
variable {c : Channel}

theorem stallWindow_runs (h : ∀ k, c.winCount = some k → k < 24) :
    ∃ start n, stallWindow c = { c with winStart := start, winCount := n } := by
  unfold stallWindow
  dsimp only
  split
  · exact ⟨_, _, rfl⟩
  · next k hk =>
    have := h k hk
    rw [if_pos (show k + 1 < Config.stallSamples by unfold Config.stallSamples; omega)]
    exact ⟨_, _, rfl⟩

/-- The dose grew by less than its least flow in the window that ends. -/
def windowStalls (c : Channel) : Prop := c.dose.minFlow ≠ 0 ∧ dosed c - c.winStart < c.dose.minFlow

theorem stallWindow_grown (h : c.winCount = some 24) (hgrown : ¬windowStalls c) :
    stallWindow c = { c with stall := 0, winStart := dosed c, winCount := some 0 } := by
  unfold windowStalls at hgrown
  unfold stallWindow
  dsimp only
  rw [h]
  dsimp only
  rw [if_neg (by decide), if_neg hgrown]
  exact if_pos (by decide)

theorem stallWindow_stalled (h : c.winCount = some 24) (hstalls : windowStalls c) (hearly : c.stall < 2) :
    stallWindow c = { c with stall := c.stall + 1, winStart := dosed c, winCount := some 0 } := by
  unfold windowStalls at hstalls
  unfold stallWindow
  dsimp only
  rw [h]
  dsimp only
  rw [if_neg (by decide), if_pos hstalls]
  exact if_pos (by unfold Config.stallLimit; omega)

theorem stallWindow_stallsOut (h : c.winCount = some 24) (hstalls : windowStalls c) (hlast : 2 ≤ c.stall) :
    stallWindow c = enterSettling { c with stall := c.stall + 1, winStart := dosed c, winCount := some 0,
                                           dose.stallAt := some (dosed c) } := by
  unfold windowStalls at hstalls
  unfold stallWindow
  dsimp only
  rw [h]
  dsimp only
  rw [if_neg (by decide), if_pos hstalls]
  exact if_neg (by unfold Config.stallLimit; omega)

end

/-! ### A sample in FAST and FINE (R80, R86) -/

section
variable {c : Channel}

theorem atCutoff_iff (c : Channel) : atCutoff c = true ↔ c.dose.entry.target - c.dose.allow ≤ dosed c := decide_eq_true_iff

theorem atFine_iff (c : Channel) : atFine c = true ↔ c.dose.entry.target - c.dose.fine ≤ dosed c := decide_eq_true_iff

theorem fastSample_cutoff (h : atCutoff c = true) : fastSample c = cutOff c := if_pos h

theorem fineSample_cutoff (h : atCutoff c = true) : fineSample c = cutOff c := if_pos h

theorem fastSample_fine (h : ¬atCutoff c = true) (hfine : atFine c = true) : fastSample c = stallWindow (enterFine c) := by
  unfold fastSample
  rw [if_neg h, if_pos hfine]

theorem fastSample_fast (h : ¬atCutoff c = true) (hfast : ¬atFine c = true) : fastSample c = stallWindow c := by
  unfold fastSample
  rw [if_neg h, if_neg hfast]

theorem fineSample_fine (h : ¬atCutoff c = true) : fineSample c = stallWindow c := if_neg h

/-! ### A sample in HELD (R88, R90) -/

/-- What a held dose that goes on keeps, its gap cause cleared. -/
structure GoesOnKept (c d : Channel) : Prop where
  gapHold : d.gapHold = false
  net : d.net = c.net
  results : d.results = c.results
  todo : d.todo = c.todo
  base : d.base = c.base
  batch : d.batch = c.batch

theorem cutOff_goesOnKept (c : Channel) : GoesOnKept c (cutOff c) := ⟨rfl, rfl, rfl, rfl, rfl, rfl⟩
theorem enterFine_goesOnKept (c : Channel) : GoesOnKept c (enterFine c) := ⟨rfl, rfl, rfl, rfl, rfl, rfl⟩
theorem enterFast_goesOnKept (c : Channel) : GoesOnKept c (enterFast c) := ⟨rfl, rfl, rfl, rfl, rfl, rfl⟩

theorem returnHeld_goesOnKept (back : Remembered) (c : Channel) : GoesOnKept c (returnHeld back c) := by
  cases back with
  | fast =>
    unfold returnHeld
    dsimp only
    split
    · exact cutOff_goesOnKept c
    · split
      · exact enterFine_goesOnKept c
      · exact enterFast_goesOnKept c
  | fine =>
    unfold returnHeld
    dsimp only
    split
    · exact cutOff_goesOnKept c
    · exact enterFine_goesOnKept c
  | jogCut => exact ⟨rfl, rfl, rfl, rfl, rfl, rfl⟩
  | jogDue => exact ⟨rfl, rfl, rfl, rfl, rfl, rfl⟩

theorem releaseIfFree_held {back : Remembered} (h : c.state = .dosing (.held back)) :
    releaseIfFree c = if c.gapHold || c.pauseHold then c else returnHeld back c := by
  unfold releaseIfFree
  rw [h]

/-- A held dose without the gap cause. -/
def gapCleared (c : Channel) : Channel := { c with gapHold := false }

theorem heldSample_waits {barred : Bool} {back : Remembered} (hstate : c.state = .dosing (.held back))
    (h : barred = true ∨ c.pauseHold = true) : heldSample barred c = gapCleared c := by
  cases barred with
  | true => rfl
  | false =>
    have hpause := h.resolve_left Bool.false_ne_true
    exact (releaseIfFree_held (c := gapCleared c) hstate).trans (if_pos hpause)

theorem heldSample_returns {back : Remembered} (hstate : c.state = .dosing (.held back)) (h : c.pauseHold = false) :
    heldSample false c = returnHeld back (gapCleared c) :=
  (releaseIfFree_held (c := gapCleared c) hstate).trans (if_neg (Bool.eq_false_iff.mp h))

theorem heldSample_goesOnKept {back : Remembered} (hstate : c.state = .dosing (.held back)) (barred : Bool) :
    GoesOnKept c (heldSample barred c) := by
  by_cases h : barred = true ∨ c.pauseHold = true
  · rw [heldSample_waits hstate h]
    exact ⟨rfl, rfl, rfl, rfl, rfl, rfl⟩
  · obtain ⟨hfree, hpause⟩ := not_or.mp h
    rw [Bool.not_eq_true] at hfree hpause
    subst hfree
    rw [heldSample_returns hstate hpause]
    have hkept := returnHeld_goesOnKept back (gapCleared c)
    exact ⟨hkept.gapHold, hkept.net, hkept.results, hkept.todo, hkept.base, hkept.batch⟩

theorem returnHeld_cutoff {back : Remembered} (hback : back = .fast ∨ back = .fine) (h : atCutoff c = true) :
    returnHeld back c = cutOff c := by
  rcases hback with rfl | rfl <;> exact if_pos h

theorem returnHeld_fine {back : Remembered} (hback : back = .fine ∨ (back = .fast ∧ atFine c = true))
    (h : ¬atCutoff c = true) : returnHeld back c = enterFine c := by
  rcases hback with rfl | ⟨rfl, hfine⟩
  · exact if_neg h
  · exact (if_neg h).trans (if_pos hfine)

theorem returnHeld_fast (h : ¬atCutoff c = true) (hfast : ¬atFine c = true) : returnHeld .fast c = enterFast c :=
  (if_neg h).trans (if_neg hfast)

end

end Sys2Proof.Machine
end

section
/-! WEIGH_FRAME in a dose (O30): each sub-phase as the obligation tells it. -/

namespace Sys2Proof.Machine

/-- A channel with the sample taken and in its trace ring. -/
def traced (g : Int) (c : Channel) : Channel := pushRing (sampled g c)

/-! ### The settle count (R82) -/

section
variable {sc : Scale} {s : State} {g : Int} {c : Channel} {w : ScaleParams}

/-- The channel counts the still sample it took. -/
def counted (prev g : Int) (c : Channel) : Channel :=
  { traced g c with dose.settleCount := settleCounted prev (traced g c) }

theorem isStill_traced (hwork : c.work = some w) (prev : Int) :
    isStill (traced g c) prev = decide ((g - c.tare - prev).natAbs ≤ w.motionBand) := by
  have hsame : isStill (traced g c) prev =
      decide ((g - c.tare - prev).natAbs ≤ (c.work.map ScaleParams.motionBand).getD 0) := rfl
  rw [hsame, hwork]
  rfl

theorem settleCounted_traced (hwork : c.work = some w) (prev : Int) : settleCounted prev (traced g c) =
    if w.motionBand < (g - c.tare - prev).natAbs then 0 else c.dose.settleCount + 1 := by
  unfold settleCounted
  rw [isStill_traced hwork]
  by_cases h : w.motionBand < (g - c.tare - prev).natAbs
  · rw [if_pos h, if_neg (by simpa using h)]
  · rw [if_neg h, if_pos (by simpa using h)]
    rfl

theorem counted_settlesFrom (prev : Int) (s : State) :
    SettlesFrom sc s (s.setChan sc (counted prev g (s.chan sc))) := by
  have hchan := State.chan_setChan_same s sc (counted prev g (s.chan sc))
  refine ⟨rfl, rfl, rfl, rfl, rfl, fun b hb => ⟨b, hb, rfl⟩, ?_, ?_, ?_, ?_, ?_, ?_, ?_, ?_, ?_, ?_⟩ <;>
  · rw [hchan]
    rfl

/-- The dose a verify learns from: the in-flight mass of its first settle observed (R84). -/
def learnedFrom (d : Int) (x : Dose) : Dose :=
  { x with observed := match x.cutoff, x.observed with
      | some m, none => some (d - m)
      | _, o => o }

theorem newAllowance_observed (d : Int) (x : Dose) (n : Nat) :
    newAllowance (observeInflight d { x with settleCount := n }) = newAllowance (learnedFrom d x) := by
  unfold observeInflight learnedFrom
  cases x.cutoff <;> cases x.observed <;> rfl

theorem pushRing_ring (c : Channel) :
    (pushRing c).ring = (c.ring ++ [dosed c]).drop (c.ring.length + 1 - 128) := by
  unfold pushRing Config.ringCapacity
  dsimp only

/-- What the end of a settle measures at the sample that completes the count. -/
theorem counted_measures (sc : Scale) (prev g : Int) (s : State) :
    let c := s.chan sc
    let d := g - c.tare - c.base
    let t := s.setChan sc (counted prev g c)
    dosed (t.chan sc) = d ∧ (t.chan sc).ring = (c.ring ++ [d]).drop (c.ring.length + 1 - 128) ∧
      (t.chan sc).net = g - c.tare ∧ settledAllowance sc t = newAllowance (learnedFrom d c.dose) := by
  intro c d t
  have hchan : t.chan sc = counted prev g c := State.chan_setChan_same s sc _
  have hring : (counted prev g c).ring = (c.ring ++ [d]).drop (c.ring.length + 1 - 128) := by
    have hsampled : (sampled g c).ring = c.ring := rfl
    have hdosed : dosed (sampled g c) = d := rfl
    unfold counted traced
    dsimp only
    rw [pushRing_ring, hsampled, hdosed]
  unfold settledAllowance
  rw [hchan]
  exact ⟨rfl, hring, rfl, newAllowance_observed d c.dose _⟩

end

section
variable {s : State} {sc : Scale} {count : Int} {w : ScaleParams} (hhigh : s.port.resetLow = false)
  (hrun : s.rc.part ≠ .halted) (hwork : (s.chan sc).work = some w) (hcap : grossOf w count ≤ w.capacity)
  (hstate : (s.chan sc).state = .dosing .settling)
include hhigh hrun hwork hcap hstate

theorem exec_weighFrame_settling : exec (.weighFrame sc count .ok) s =
    (let t := s.setChan sc (counted (s.chan sc).net (grossOf w count) (s.chan sc))
     .next (settle (if settleCounted (s.chan sc).net (traced (grossOf w count) (s.chan sc)) < 10 then t
       else settleDone sc t))) := by
  rw [exec_weighFrame hhigh, weighFrame_dosing hwork hcap hrun hstate, sampleDosing_settling]
  rfl

/-- A sample that moves, or that is short of the settle count. -/
theorem exec_weighFrame_counts (h : w.motionBand < (grossOf w count - (s.chan sc).tare - (s.chan sc).net).natAbs ∨
      (s.chan sc).dose.settleCount < 9) : exec (.weighFrame sc count .ok) s =
    .next (settle (s.setChan sc (counted (s.chan sc).net (grossOf w count) (s.chan sc)))) := by
  rw [exec_weighFrame_settling hhigh hrun hwork hcap hstate]
  dsimp only
  rw [if_pos]
  rw [settleCounted_traced hwork]
  split <;> omega

/-- A still sample that completes the settle count. -/
theorem exec_weighFrame_settled (hstill : (grossOf w count - (s.chan sc).tare - (s.chan sc).net).natAbs ≤ w.motionBand)
    (hcount : 9 ≤ (s.chan sc).dose.settleCount) : exec (.weighFrame sc count .ok) s =
    .next (settle (settleDone sc (s.setChan sc (counted (s.chan sc).net (grossOf w count) (s.chan sc))))) := by
  rw [exec_weighFrame_settling hhigh hrun hwork hcap hstate]
  dsimp only
  rw [if_neg]
  rw [settleCounted_traced hwork, if_neg (not_lt.mpr hstill)]
  omega

end

/-- Settles O30. -/
theorem weighFrameCutsOff : Obligations.WeighFrameCutsOff := by
  intro s sc count w hhigh hrun hwork hcap c net d threshold feeds
  have hexec {p : SubPhase} (hstate : c.state = .dosing p) : exec (.weighFrame sc count .ok) s =
      .next (settle (sampleDosing sc p c.net (s.setChan sc (sampled (grossOf w count) c)))) := by
    rw [exec_weighFrame hhigh, weighFrame_dosing hwork hcap hrun hstate]
  have hfast (hstate : c.state = .dosing .fast) : exec (.weighFrame sc count .ok) s =
      .next (settle (s.setChan sc (fastSample (traced (grossOf w count) c)))) := by
    rw [hexec hstate, sampleDosing_fast]
    rfl
  have hfine (hstate : c.state = .dosing .fine) : exec (.weighFrame sc count .ok) s =
      .next (settle (s.setChan sc (fineSample (traced (grossOf w count) c)))) := by
    rw [hexec hstate, sampleDosing_fine]
    rfl
  have hdosed : dosed (traced (grossOf w count) c) = d := rfl
  have hcutoff : atCutoff (traced (grossOf w count) c) = true ↔ threshold ≤ d := atCutoff_iff _
  have hband : atFine (traced (grossOf w count) c) = true ↔ c.dose.entry.target - c.dose.fine ≤ d := atFine_iff _
  refine ⟨fun hstate hreached => ⟨cutOff (traced (grossOf w count) c), ?_, rfl, rfl, rfl, rfl, rfl, rfl, rfl, rfl, rfl,
    rfl, rfl, rfl, rfl⟩, fun hstate hshort hreached hwindow => ?_, fun hfeeds hshort hwindow => ?_, fun hstate => ?_,
    fun hstate => ⟨traced (grossOf w count) c, ?_, rfl, rfl, rfl, rfl, rfl, rfl, rfl⟩, fun back hstate => ?_⟩
  · rcases hstate with hstate | hstate
    · rw [hfast hstate, fastSample_cutoff (hcutoff.mpr hreached)]
    · rw [hfine hstate, fineSample_cutoff (hcutoff.mpr hreached)]
  · obtain ⟨start, n, hruns⟩ := stallWindow_runs (c := enterFine (traced (grossOf w count) c)) hwindow
    refine ⟨stallWindow (enterFine (traced (grossOf w count) c)), ?_, ?_⟩
    · rw [hfast hstate, fastSample_fine (mt hcutoff.mp (by omega)) (hband.mpr hreached)]
    · rw [hruns]
      exact ⟨rfl, rfl, rfl, rfl, rfl, rfl, rfl, rfl⟩
  · have hwindow' : (traced (grossOf w count) c).winCount = some 24 := hwindow
    refine ⟨stallWindow (traced (grossOf w count) c), ?_, fun hgrown => ?_, fun hflow hslow => ?_⟩
    · rcases hfeeds with hstate | ⟨hstate, hbelow⟩
      · rw [hfine hstate, fineSample_fine (mt hcutoff.mp (by omega))]
      · rw [hfast hstate, fastSample_fast (mt hcutoff.mp (by omega)) (mt hband.mp (by omega))]
    · have hgrew : ¬windowStalls (traced (grossOf w count) c) := fun hstalls =>
        hgrown.elim hstalls.1 (not_le.mpr hstalls.2)
      rw [stallWindow_grown hwindow' hgrew]
      exact ⟨rfl, rfl, rfl, rfl, rfl, rfl, rfl⟩
    · have hstalls : windowStalls (traced (grossOf w count) c) := ⟨hflow, hslow⟩
      by_cases hearly : c.stall < 2
      · rw [stallWindow_stalled hwindow' hstalls hearly]
        exact ⟨rfl, fun _ => ⟨rfl, rfl, rfl⟩, fun hlast => absurd hearly (not_lt.mpr hlast)⟩
      · rw [stallWindow_stallsOut hwindow' hstalls (not_lt.mp hearly)]
        exact ⟨rfl, fun h => absurd h hearly, fun _ => ⟨rfl, rfl, rfl, rfl⟩⟩
  · intro moved
    refine ⟨fun hcounts => ⟨counted c.net (grossOf w count) c,
      exec_weighFrame_counts hhigh hrun hwork hcap hstate hcounts, hstate, rfl, rfl,
      congrArg (fun n => { c.dose with settleCount := n }) (settleCounted_traced hwork c.net)⟩, fun hstill hcount => ?_⟩
    rw [exec_weighFrame_settled hhigh hrun hwork hcap hstate hstill hcount]
    intro short ring learned
    have hfrom := counted_settlesFrom (sc := sc) (g := grossOf w count) c.net s
    obtain ⟨hactual, hring, hnet, hallow⟩ := counted_measures sc c.net (grossOf w count) s
    have hjogs : short ↔ asksJog c.dose (d - c.dose.entry.target) :=
      and_congr_left fun _ => ⟨fun h => by omega, fun h => by omega⟩
    refine ⟨fun hverify hdose hshort => ⟨_, rfl, ?_⟩, fun hverify hprefeed htarget => ⟨_, rfl, ?_⟩,
      fun hdose hlast hfree hwf => ⟨fun hverify hfinal => ⟨_, rfl, ?_⟩, fun m hstall hroom => ⟨_, rfl, ?_⟩⟩,
      fun hdry _ hfree hwf hroom hends => ⟨_, rfl, ?_⟩⟩
    · obtain ⟨hfed, hheld, -, hused, -, -, hco, hmem, hnu⟩ :=
        settleDone_jogs hfrom hverify hdose (by rw [hactual]; exact hjogs.mp hshort)
      exact ⟨hfed, hheld, hused, hmem, hnu, hco⟩
    · obtain ⟨hprefed, hmass, hfeed, -, hmem, hnu⟩ := settleDone_prefeeds hfrom hverify hprefeed htarget
      exact ⟨hprefed, hmass.trans hactual, hfeed, hmem, hnu⟩
    · have hends := settleDone_endsVerified hfrom ((arbiterFree_iff s).mp hfree).2 hwf hlast hdose hverify
        (by rw [hactual]; exact mt hjogs.mpr hfinal)
      rw [hactual, hring, hallow] at hends
      exact hends
    · have hends := settleDone_endsStalled hfrom hlast hdose hstall hroom
      rw [hactual, hring] at hends
      exact hends
    · have hgoes := settleDone_endsAndGoesOn hfrom hdry ((arbiterFree_iff s).mp hfree).2 hwf hroom
        (by rw [hactual]; exact hends.imp_right (mt hjogs.mpr))
      rw [hnet, hring, hallow] at hgoes
      exact hgoes
  · rw [hexec hstate, sampleDosing_jogging]
    rfl
  · have hexec' : exec (.weighFrame sc count .ok) s =
        .next (settle (s.setChan sc (heldSample (feedsBarred s) (traced (grossOf w count) c)))) := by
      rw [hexec hstate, sampleDosing_held]
      rfl
    have hstate' : (traced (grossOf w count) c).state = .dosing (.held back) := hstate
    have hkept := heldSample_goesOnKept hstate' (feedsBarred s)
    refine ⟨_, hexec', hkept.net, hkept.gapHold, hkept.results, hkept.todo, hkept.base, hkept.batch, fun hwaits => ?_,
      fun hfree hpause => ?_⟩
    · rw [heldSample_waits hstate' hwaits]
      exact ⟨rfl, rfl, rfl, rfl⟩
    · rw [hfree, heldSample_returns hstate' hpause]
      refine ⟨fun hback hreached => ?_, fun hback hshort => ?_, fun hback hbelow hshort => ?_, fun hback => ?_,
        fun hback => ?_⟩
      · rw [returnHeld_cutoff (c := gapCleared (traced (grossOf w count) c)) hback (hcutoff.mpr hreached)]
        exact ⟨rfl, rfl, rfl, rfl⟩
      · rw [returnHeld_fine (c := gapCleared (traced (grossOf w count) c)) (hback.imp_right fun h => ⟨h.1, hband.mpr h.2⟩) (mt hcutoff.mp (by omega))]
        exact ⟨rfl, rfl, rfl⟩
      · rw [hback, returnHeld_fast (c := gapCleared (traced (grossOf w count) c)) (mt hcutoff.mp (by omega)) (mt hband.mp (by omega))]
        exact ⟨rfl, rfl, rfl⟩
      · rw [hback]
        exact ⟨rfl, rfl, rfl, rfl⟩
      · rw [hback]
        exact ⟨rfl, rfl, rfl, rfl⟩

end Sys2Proof.Machine
end

section
/-! WEIGH_FRAME as a sample (O29): the states that only take it, the end of a discharge, and the tare (R73, R77,
R96). -/

namespace Sys2Proof.Machine

/-! ### A sample by the state of the channel (R73) -/

theorem grossOf_eq {w : ScaleParams} {count g : Int} (hspan : 0 < w.span)
    (hlo : 2 * w.span * g ≤ 2000 * (count - w.calZero) + w.span)
    (hhi : 2000 * (count - w.calZero) + w.span < 2 * w.span * (g + 1)) : grossOf w count = g := by
  refine roundDiv_eq (by exact_mod_cast hspan) ?_ ?_ <;> linarith

/-- A sample changes no more of the channel than the last sample. -/
def takesOnly (c : Channel) : Prop :=
  c.state = .idle ∨ c.state = .prefed ∨ c.state = .changeover ∨ c.state = .weighed ∨ c.state = .fault

section
variable {s : State} {sc : Scale} {c : Channel} (g : Int)

theorem takeSample_of_halted (h : s.rc.part = .halted) :
    takeSample sc g (s.setChan sc (framed c)) = s.setChan sc (sampled g c) := by
  unfold takeSample
  dsimp only
  rw [State.modChan_setChan]
  exact if_pos h

theorem takeSample_only (h : takesOnly c) :
    takeSample sc g (s.setChan sc (framed c)) = s.setChan sc (sampled g c) := by
  by_cases hhalted : s.rc.part = .halted
  · exact takeSample_of_halted g hhalted
  unfold takeSample
  dsimp only
  rw [State.modChan_setChan, State.chan_setChan_same, State.chan_setChan_same]
  refine (if_neg hhalted).trans ?_
  have hstate : (sampled g c).state = c.state := rfl
  unfold takesOnly at h
  split
  case h_1 hother => simp [hstate.symm.trans hother] at h
  case h_2 hother => simp [hstate.symm.trans hother] at h
  case h_3 hother => simp [hstate.symm.trans hother] at h
  all_goals rfl

section
variable (hrun : s.rc.part ≠ .halted)
include hrun

theorem takeSample_taring (h : c.state = .taring) :
    takeSample sc g (s.setChan sc (framed c)) = sampleTaring sc (s.setChan sc (sampled g c)) := by
  unfold takeSample
  dsimp only
  rw [State.modChan_setChan, State.chan_setChan_same, State.chan_setChan_same]
  refine (if_neg hrun).trans ?_
  split
  case h_1 => rfl
  all_goals
    next hother => exact absurd (hother.symm.trans h) (by simp)

theorem takeSample_discharging (h : c.state = .discharging) : takeSample sc g (s.setChan sc (framed c)) =
    if emptyThr c ≤ g - c.tare then s.setChan sc (sampled g c)
    else endDischarge sc .empty (s.setChan sc (sampled g c)) := by
  unfold takeSample
  dsimp only
  rw [State.modChan_setChan, State.chan_setChan_same, State.chan_setChan_same]
  refine (if_neg hrun).trans ?_
  have hholds : holdsMaterial (sampled g c) = decide (emptyThr c ≤ g - c.tare) := rfl
  split
  case h_3 =>
    refine ite_congr ?_ (fun _ => rfl) fun _ => rfl
    exact (congrArg (· = true) hholds).trans (decide_eq_true_eq)
  all_goals
    next hother => exact absurd (hother.symm.trans h) (by simp)

end

end

/-! ### The end of a discharge (R96) -/

section
variable {s : State} {sc : Scale} (c : Channel)

/-- A channel whose discharge ended. -/
def discharged (c : Channel) : Channel := { c with state := .idle, feed := none, gate := false, batch := none }

theorem endDischarge_setChan (k : EndKind) :
    endDischarge sc k (s.setChan sc c) = reportDischarge sc k (s.setChan sc (discharged c)) := by
  unfold endDischarge
  rw [State.modChan_setChan]
  rfl

end

/-! ### The tare (R77) -/

section
variable (s : State) (sc : Scale) (c : Channel) (g : Int)

/-- A channel whose tare takes the sample. -/
def tareSummed (g : Int) (c : Channel) : Channel :=
  { sampled g c with tareSum := c.tareSum + g, tareCount := c.tareCount + 1 }

/-- A channel whose tare is formed. -/
def tareFormed (g : Int) (c : Channel) : Channel :=
  { tareSummed g c with
    tare := roundDiv (c.tareSum + g) 8, net := g - roundDiv (c.tareSum + g) 8, base := 0 }

theorem sampleTaring_sampled : sampleTaring sc (s.setChan sc (sampled g c)) =
    if c.tareCount + 1 < 8 then s.setChan sc (tareSummed g c) else endTare sc (s.setChan sc (tareSummed g c)) := by
  unfold sampleTaring
  dsimp only
  rw [State.modChan_setChan, State.chan_setChan_same]
  rfl

variable {s} {sc} {c} {g} {w : ScaleParams} (hwork : c.work = some w)
include hwork

theorem endTare_beyond (h : w.zeroLimit < (roundDiv (c.tareSum + g) 8).natAbs) :
    endTare sc (s.setChan sc (tareSummed g c)) = scaleFault sc .zero (s.setChan sc (tareFormed g c)) := by
  unfold endTare
  dsimp only
  rw [State.modChan_setChan, State.chan_setChan_same]
  refine if_pos ?_
  change (c.work.map ScaleParams.zeroLimit).getD 0 < _
  rw [hwork]
  exact h

section
variable (hlimit : (roundDiv (c.tareSum + g) 8).natAbs ≤ w.zeroLimit) (hstop : c.stopOrder = false)
  {e : DoseEntry} {rest : List DoseEntry} (htodo : c.todo = e :: rest)
include hlimit hstop htodo

theorem endTare_dry (hdry : sc ≠ .bit) : endTare sc (s.setChan sc (tareSummed g c)) =
    startComponents sc true (e :: rest) (s.setChan sc (tareFormed g c)) := by
  have hwithin : ¬((tareFormed g c).work.map ScaleParams.zeroLimit).getD 0 < (tareFormed g c).tare.natAbs := by
    change ¬(c.work.map ScaleParams.zeroLimit).getD 0 < _
    rw [hwork]
    exact not_lt.mpr hlimit
  unfold endTare
  dsimp only
  rw [State.modChan_setChan, State.chan_setChan_same]
  refine (if_neg hwithin).trans ((if_neg (Bool.eq_false_iff.mp hstop)).trans ?_)
  have hlist : (tareFormed g c).todo = e :: rest := htodo
  have hgoal := congrArg (fun l => startComponents sc true l (s.setChan sc (tareFormed g c))) hlist
  cases sc with
  | bit => exact absurd rfl hdry
  | agg => exact hgoal
  | rap => exact hgoal
  | fil => exact hgoal

theorem endTare_bit : endTare .bit (s.setChan .bit (tareSummed g c)) =
      if s.bit.target = .noDose then bitUndosed e (s.setChan .bit (tareFormed g c))
      else bitAfterTare e (s.setChan .bit (tareFormed g c)) := by
  have hwithin : ¬((tareFormed g c).work.map ScaleParams.zeroLimit).getD 0 < (tareFormed g c).tare.natAbs := by
    change ¬(c.work.map ScaleParams.zeroLimit).getD 0 < _
    rw [hwork]
    exact not_lt.mpr hlimit
  unfold endTare
  dsimp only
  rw [State.modChan_setChan, State.chan_setChan_same]
  refine (if_neg hwithin).trans ((if_neg (Bool.eq_false_iff.mp hstop)).trans ?_)
  split
  case h_1 hlist =>
    obtain rfl : _ = e := (List.cons.inj (hlist.symm.trans htodo)).1
    rfl
  case h_2 hother => exact absurd htodo (hother e rest rfl)

end

end

end Sys2Proof.Machine
end

section
/-! The binder dose of a batch as it begins (R101 to R109, R111): what each of its acts keeps of the sample, the memory
and the notices. -/

namespace Sys2Proof.Machine

/-- What an act of BIT keeps of the channel and, with a target not below 0, of memory and notices. -/
structure BinderSettles (s u : State) : Prop where
  tare : (u.chan .bit).tare = (s.chan .bit).tare
  net : (u.chan .bit).net = (s.chan .bit).net
  gate : (u.chan .bit).gate = false
  quiet : (∀ bc, s.bit.target = .bc bc → 0 ≤ bc) → u.mem = s.mem ∧ u.nu = s.nu

/-- An act behind a step that keeps the sample, the memory, the notices and the target held. -/
theorem BinderSettles.after {s t u : State} (h : BinderSettles t u) (htare : (t.chan .bit).tare = (s.chan .bit).tare)
    (hnet : (t.chan .bit).net = (s.chan .bit).net) (hmem : t.mem = s.mem) (hnu : t.nu = s.nu)
    (htarget : t.bit.target = s.bit.target) : BinderSettles s u :=
  ⟨h.tare.trans htare, h.net.trans hnet, h.gate, fun hpos => by
    obtain ⟨hmem', hnu'⟩ := h.quiet (by rw [htarget]; exact hpos)
    exact ⟨hmem'.trans hmem, hnu'.trans hnu⟩⟩

/-! ### The verdict of BIT (R113) -/

theorem reachWeighed_chan (sc : Scale) (net : Int) (s : State) :
    (reachWeighed sc net s).chan sc = atWeighed (s.chan sc) := by
  rw [reachWeighed_eq]
  exact State.chan_setChan_same s sc _

theorem bitReport_chan (actual : Int) (outcome : DoseOutcome) (s : State) : (bitReport actual outcome s).chan .bit =
    atWeighed { s.chan .bit with results := [⟨(s.chan .bit).dose.entry.source, actual, outcome⟩] } := by
  unfold bitReport
  exact reachWeighed_chan _ _ _

theorem bitReport_bit (actual : Int) (outcome : DoseOutcome) (s : State) :
    (bitReport actual outcome s).bit = { s.bit with target := .none } := rfl

theorem bitReport_settles (actual : Int) (outcome : DoseOutcome) (s : State) :
    BinderSettles s (bitReport actual outcome s) := by
  have hchan := bitReport_chan actual outcome s
  refine ⟨?_, ?_, ?_, fun _ => ⟨rfl, rfl⟩⟩
  all_goals
    rw [hchan]
    rfl

/-! ### A held target (R106, R108, R109) -/

theorem bitContinue_settles (bc : Int) (s : State) : BinderSettles s (bitContinue bc s) := by
  unfold bitContinue
  refine ⟨?_, ?_, ?_, fun _ => ⟨rfl, rfl⟩⟩
  all_goals rw [State.chan_modChan_same]
  · exact (beginFeed_begun _ _ _).tare
  · exact (beginFeed_begun _ _ _).net
  · exact (beginFeed_begun _ _ _).gate

theorem bitContinue_bit (bc : Int) (s : State) :
    (bitContinue bc s).bit = { s.bit with target := .none, continuing := true } := rfl

/-- A direct verify keeps the sample; it writes a source record. -/
theorem bitDirectVerify_chan (bc : Int) (s : State) : ((bitDirectVerify bc s).chan .bit).tare = (s.chan .bit).tare ∧
    ((bitDirectVerify bc s).chan .bit).net = (s.chan .bit).net ∧ ((bitDirectVerify bc s).chan .bit).gate = false := by
  unfold bitDirectVerify
  dsimp only
  rw [bitReport_chan, finalVerify_chan]
  exact ⟨rfl, rfl, rfl⟩

theorem bitDirectVerify_bit (bc : Int) (s : State) :
    (bitDirectVerify bc s).bit = { s.bit with target := .none } := by
  unfold bitDirectVerify
  dsimp only
  rw [bitReport_bit, finalVerify_frame]
  rfl

/-- An act on a held target keeps the tank selected and whether the binder is dosed. -/
theorem bitActTarget_bit (s : State) : ∃ held more, (bitActTarget s).bit =
    { s.bit with target := held, continuing := more } := by
  unfold bitActTarget
  split
  · split
    · exact ⟨_, _, rfl⟩
    · exact ⟨_, _, rfl⟩
    · split
      · exact ⟨_, _, rfl⟩
      · split
        · exact ⟨_, _, rfl⟩
        · split
          · exact ⟨_, _, rfl⟩
          · split
            · exact ⟨_, _, bitDirectVerify_bit _ s⟩
            · exact ⟨_, _, bitContinue_bit _ s⟩
  · exact ⟨_, _, rfl⟩

theorem bitActTarget_settles {s : State} (hgate : (s.chan .bit).gate = false) (hprefed : s.bit.prefed = 0) :
    BinderSettles s (bitActTarget s) := by
  have hself : BinderSettles s s := ⟨rfl, rfl, hgate, fun _ => ⟨rfl, rfl⟩⟩
  unfold bitActTarget
  split
  · split
    · exact hself
    · exact bitReport_settles _ _ s
    · next bc hbc =>
      by_cases hnot : s.bit.notDosed = true
      · rw [if_pos hnot]
        exact bitReport_settles _ _ s
      · rw [if_neg hnot]
        by_cases hstall : s.bit.preStalled = true
        · rw [if_pos hstall]
          exact bitReport_settles _ _ s
        · rw [if_neg hstall]
          by_cases hzero : bc = 0
          · rw [if_pos hzero]
            exact bitReport_settles _ _ s
          · rw [if_neg hzero]
            split
            · next hreached =>
              obtain ⟨htare, hnet, hgate'⟩ := bitDirectVerify_chan bc s
              refine ⟨htare, hnet, hgate', fun hpos => ?_⟩
              have := hpos bc hbc
              omega
            · exact bitContinue_settles bc s
  · exact hself

/-! ### PREFED with nothing fed (R104, R106, R111) -/

/-- BIT as it is PREFED. -/
def prefedBit (c : Channel) : Channel :=
  { c with state := .prefed, feed := none, gate := false, gapHold := false, pauseHold := false }

/-- The state in which BIT acts on the target it holds. -/
def prefedAt (actual : Int) (s : State) : State :=
  { s.setChan .bit (prefedBit (s.chan .bit)) with bit.prefed := actual }

theorem bitEnterPrefed_eq (actual : Int) (s : State) : bitEnterPrefed actual s = bitActTarget (prefedAt actual s) := rfl

theorem bitEnterPrefed_settles (s : State) : BinderSettles s (bitEnterPrefed 0 s) := by
  rw [bitEnterPrefed_eq]
  exact (bitActTarget_settles (s := prefedAt 0 s) rfl rfl).after rfl rfl rfl rfl rfl

theorem bitEnterPrefed_bit (actual : Int) (s : State) : ∃ held more, (bitEnterPrefed actual s).bit =
    { s.bit with prefed := actual, target := held, continuing := more } := by
  rw [bitEnterPrefed_eq]
  exact bitActTarget_bit (prefedAt actual s)

/-! ### The pre-feed and the changeover (R101 to R104) -/

/-- The level of a pre-feed of the entry BIT holds. -/
def binderLevel (s : State) : Int :=
  prefeedLevel (s.chan .bit).dose.entry.target ((s.bit.work.map BinderVals.percent).getD 0)

/-- The pre-feed before it feeds. -/
def prefeedSet (s : State) : State :=
  { s.setChan .bit { s.chan .bit with dose.entry.target := binderLevel s, ring := [], stall := 0 } with
    bit.q := binderLevel s, bit.continuing := false }

theorem bitBeginPrefeed_eq (s : State) : bitBeginPrefeed s =
    if binderLevel s = 0 then bitEnterPrefed 0 (prefeedSet s)
    else (prefeedSet s).modChan .bit fun c =>
      beginFeed (feedsBarred s) (firstSub (binderLevel s) 0 c.dose) c := by
  unfold bitBeginPrefeed setBinderTarget
  dsimp only
  rw [State.modChan_modChan]
  rfl

/-- The channel of a pre-feed that feeds. -/
def prefeedChannel (s : State) : Channel :=
  beginFeed (feedsBarred s) (firstSub (binderLevel s) 0 (s.chan .bit).dose)
    { s.chan .bit with dose.entry.target := binderLevel s, ring := [], stall := 0 }

/-- A pre-feed to a level above 0 feeds. -/
theorem bitBeginPrefeed_feeds {s : State} (h : binderLevel s ≠ 0) : bitBeginPrefeed s =
    { s.setChan .bit (prefeedChannel s) with bit.q := binderLevel s, bit.continuing := false } := by
  rw [bitBeginPrefeed_eq, if_neg h]
  unfold prefeedSet State.modChan State.setChan State.chan
  dsimp only
  rw [PerScale.set_set, PerScale.get_set_same]
  rfl

theorem prefeedChannel_begun (s : State) : FeedBegun
    { s.chan .bit with dose.entry.target := binderLevel s, ring := [], stall := 0 } (prefeedChannel s) :=
  beginFeed_begun _ _ _

theorem bitBeginPrefeed_settles (s : State) : BinderSettles s (bitBeginPrefeed s) := by
  by_cases h : binderLevel s = 0
  · rw [bitBeginPrefeed_eq, if_pos h]
    exact (bitEnterPrefed_settles (prefeedSet s)).after rfl rfl rfl rfl rfl
  · have hbegun := prefeedChannel_begun s
    rw [bitBeginPrefeed_feeds h]
    exact ⟨hbegun.tare, hbegun.net, hbegun.gate, fun _ => ⟨rfl, rfl⟩⟩

theorem bitBeginPrefeed_tankSelect (s : State) : (bitBeginPrefeed s).bit.tankSelect = s.bit.tankSelect := by
  by_cases h : binderLevel s = 0
  · obtain ⟨held, more, hbit⟩ := bitEnterPrefed_bit 0 (prefeedSet s)
    rw [bitBeginPrefeed_eq, if_pos h, hbit]
    rfl
  · rw [bitBeginPrefeed_feeds h]
    rfl

/-- The changeover flag on the batch. -/
def changeoverFlagged (s : State) : State := flagAttached .bit (fun f => { f with changeover := true }) s

/-- The state in which a changeover begins. -/
def changeoverSet (tank : Tank) (s : State) : State :=
  { changeoverFlagged s with bit.tankSelect := decide (tank = .bt2), bit.purge := 0 }

theorem changeoverSet_frame (tank : Tank) (s : State) : changeoverSet tank s =
    { s with co := (changeoverFlagged s).co, bit.tankSelect := decide (tank = .bt2), bit.purge := 0 } := by
  unfold changeoverSet changeoverFlagged
  rw [flagAttached_frame]

/-- BIT in a changeover that takes its purge time. -/
def inChangeover (s : State) : State :=
  { s.setChan .bit { s.chan .bit with state := .changeover, feed := none, gate := false } with bit.circulate := true }

theorem bitBeginChangeover_purges {tank : Tank} {s : State}
    (h : (s.bit.work.map BinderVals.purge).getD 0 ≠ 0) :
    bitBeginChangeover tank s = inChangeover (changeoverSet tank s) := by
  have hwork : (changeoverSet tank s).bit.work = s.bit.work := by rw [changeoverSet_frame]
  unfold bitBeginChangeover
  refine if_neg ?_
  change ¬((changeoverSet tank s).bit.work.map BinderVals.purge).getD 0 = 0
  rw [hwork]
  exact h

theorem bitBeginChangeover_skips {tank : Tank} {s : State}
    (h : (s.bit.work.map BinderVals.purge).getD 0 = 0) :
    bitBeginChangeover tank s = bitEndChangeover (changeoverSet tank s) := by
  have hwork : (changeoverSet tank s).bit.work = s.bit.work := by rw [changeoverSet_frame]
  unfold bitBeginChangeover
  refine if_pos ?_
  change ((changeoverSet tank s).bit.work.map BinderVals.purge).getD 0 = 0
  rw [hwork]
  exact h

/-- The state behind a changeover that ends. -/
def changeoverEnded (s : State) : State :=
  { s with bit.circulate := false, bit.tankLast := tankOf (s.chan .bit).dose.entry.source }

theorem bitEndChangeover_eq (s : State) : bitEndChangeover s = bitBeginPrefeed (changeoverEnded s) := rfl

theorem bitBeginChangeover_settles (tank : Tank) (s : State) : BinderSettles s (bitBeginChangeover tank s) := by
  have hframe := changeoverSet_frame tank s
  by_cases h : (s.bit.work.map BinderVals.purge).getD 0 = 0
  · rw [bitBeginChangeover_skips h, bitEndChangeover_eq, hframe]
    exact (bitBeginPrefeed_settles _).after rfl rfl rfl rfl rfl
  · rw [bitBeginChangeover_purges h, hframe]
    exact ⟨rfl, rfl, rfl, fun _ => ⟨rfl, rfl⟩⟩

theorem bitBeginChangeover_tankSelect (tank : Tank) (s : State) :
    (bitBeginChangeover tank s).bit.tankSelect = decide (tank = .bt2) := by
  by_cases h : (s.bit.work.map BinderVals.purge).getD 0 = 0
  · rw [bitBeginChangeover_skips h, bitEndChangeover_eq]
    exact bitBeginPrefeed_tankSelect _
  · rw [bitBeginChangeover_purges h]
    rfl

end Sys2Proof.Machine
end

section
/-! WEIGH_FRAME as a sample (O29): the binder dose that begins at the end of the tare (R101, R111), and the
obligation. -/

namespace Sys2Proof.Machine

/-! ### The binder source as it is read (R101) -/

/-- BIT with the words of its source read. -/
def binderRead (e : DoseEntry) (s : State) : State :=
  s.setChan .bit { s.chan .bit with todo := [], dose := sourceDose e s }

section
variable {e : DoseEntry} {s : State}

theorem binderRead_chan (e : DoseEntry) (s : State) :
    (binderRead e s).chan .bit = { s.chan .bit with todo := [], dose := sourceDose e s } :=
  State.chan_setChan_same s .bit _

section
variable (hnone : s.port.waiting = [])
include hnone

theorem bitAfterTare_off (h : s.rd (Win.source e.source) ≠ 1) :
    bitAfterTare e s = bitEnterPrefed 0 { binderRead e s with bit.notDosed := true } := by
  unfold bitAfterTare
  rw [readAll_of_none hnone]
  exact if_neg (mt (sourceEnabled_iff e.source s).mp h)

theorem bitAfterTare_on (h : s.rd (Win.source e.source) = 1) : bitAfterTare e s =
    (tankOf e.source).elim (bitBeginPrefeed (binderRead e s)) fun tank =>
      if s.bit.tankLast = some tank then bitBeginPrefeed (binderRead e s)
      else bitBeginChangeover tank (binderRead e s) := by
  unfold bitAfterTare
  rw [readAll_of_none hnone]
  refine (if_pos ((sourceEnabled_iff e.source s).mpr h)).trans ?_
  cases tankOf e.source <;> rfl

theorem bitAfterTare_settles (e : DoseEntry) : BinderSettles s (bitAfterTare e s) := by
  have hread {u : State} (h : BinderSettles (binderRead e s) u) : BinderSettles s u := h.after rfl rfl rfl rfl rfl
  by_cases hon : s.rd (Win.source e.source) = 1
  · rw [bitAfterTare_on hnone hon]
    cases tankOf e.source with
    | none => exact hread (bitBeginPrefeed_settles _)
    | some tank =>
      dsimp only [Option.elim]
      split
      · exact hread (bitBeginPrefeed_settles _)
      · exact hread (bitBeginChangeover_settles tank _)
  · rw [bitAfterTare_off hnone hon]
    exact (bitEnterPrefed_settles _).after rfl rfl rfl rfl rfl

end

theorem bitUndosed_settles (e : DoseEntry) (s : State) : BinderSettles s (bitUndosed e s) :=
  (bitReport_settles 0 .notDosed _).after rfl rfl rfl rfl rfl

theorem bitUndosed_reports (e : DoseEntry) (s : State) : ((bitUndosed e s).chan .bit).state = .weighed ∧
    ((bitUndosed e s).chan .bit).results = [⟨e.source, 0, .notDosed⟩] := by
  unfold bitUndosed
  rw [bitReport_chan, State.chan_modChan_same]
  exact ⟨rfl, rfl⟩

/-! ### A binder that is not to be dosed (R111) -/

theorem bitEnterPrefed_of_none (actual : Int) (h : s.bit.target = .none) :
    bitEnterPrefed actual s = prefedAt actual s := by
  rw [bitEnterPrefed_eq]
  exact bitActTarget_of_none h

theorem bitEnterPrefed_notDosed {bc : Int} (hnot : s.bit.notDosed = true) (h : s.bit.target = .bc bc) (actual : Int) :
    bitEnterPrefed actual s = bitReport 0 .notDosed (prefedAt actual s) := by
  have hnot' : (prefedAt actual s).bit.notDosed = true := hnot
  have htarget : (prefedAt actual s).bit.target = .bc bc := h
  rw [bitEnterPrefed_eq]
  unfold bitActTarget
  refine (if_pos rfl).trans ?_
  rw [htarget]
  exact if_pos hnot'

/-! ### A binder to be dosed (R101, R102, R104) -/

/-- The pre-feed of the entry read, in a state that kept what was read. -/
theorem bitBeginPrefeed_read {x : State} {level : Int} {tank : Tank}
    (hlevel : level = prefeedLevel e.target ((s.bit.work.map BinderVals.percent).getD 0)) (hpos : 0 < level)
    (hchan : x.chan .bit = (binderRead e s).chan .bit) (hwork : x.bit.work = s.bit.work)
    (hlast : x.bit.tankLast = some tank) (hrc : x.rc = s.rc) :
    let u := bitBeginPrefeed x
    u.bit.tankLast = some tank ∧ u.bit.q = level ∧ (u.chan .bit).dose.entry.target = level ∧
      (u.chan .bit).ring = [] ∧
      (feedsBarred s = false → beginsDose (u.chan .bit) e.source level (sourceFine e s) (sourceAllow e s)) ∧
      u.co = x.co ∧ u.bit.tankSelect = x.bit.tankSelect ∧ u.bit.circulate = x.bit.circulate := by
  intro u
  have hat : binderLevel x = level := by
    unfold binderLevel
    rw [hchan, binderRead_chan, hwork, hlevel]
    rfl
  have hu : u = { x.setChan .bit (prefeedChannel x) with bit.q := binderLevel x, bit.continuing := false } :=
    bitBeginPrefeed_feeds (by omega)
  have hself : u.chan .bit = prefeedChannel x := by
    rw [hu]
    exact State.chan_setChan_same x .bit _
  have hbegun := prefeedChannel_begun x
  have hbarred : feedsBarred x = feedsBarred s := by
    unfold feedsBarred
    rw [hrc]
  rw [hself]
  refine ⟨?_, ?_, ?_, hbegun.ring, fun hfree => ?_, ?_, ?_, ?_⟩
  · rw [hu]
    exact hlast
  · rw [hu]
    exact hat
  · rw [hbegun.entry]
    exact hat
  · unfold prefeedChannel
    rw [hbarred, hfree, hat, hchan, binderRead_chan]
    exact beginFeed_beginsDose rfl (sourceDose_fine e s) (sourceDose_allow e s)
  · rw [hu]
    rfl
  · rw [hu]
    rfl
  · rw [hu]
    rfl

theorem changeoverSet_read (tank : Tank) : (changeoverSet tank (binderRead e s)).chan .bit = (binderRead e s).chan .bit := by
  rw [changeoverSet_frame]
  rfl

theorem changeoverSet_flags (tank : Tank) {a : Attach} {b : Batch} (hbatch : (s.chan .bit).batch = some a)
    (hb : s.co.weigh = some b) (hseq : b.seq = a.seq) :
    (changeoverSet tank (binderRead e s)).co.weigh = some { b with flags.changeover := true } := by
  unfold changeoverSet changeoverFlagged
  rw [flagAttached_of_batch (s := binderRead e s) (a := a) (by rw [binderRead_chan]; exact hbatch)]
  exact flagBatch_weigh (s := binderRead e s) hb hseq fun f => { f with changeover := true }

/-- A changeover without a purge ends at once in the pre-feed. -/
theorem bitBeginChangeover_reads {level : Int} {tank : Tank} (htank : tankOf e.source = some tank)
    (hlevel : level = prefeedLevel e.target ((s.bit.work.map BinderVals.percent).getD 0)) (hpos : 0 < level)
    (hpurge : (s.bit.work.map BinderVals.purge).getD 0 = 0) :
    let u := bitBeginChangeover tank (binderRead e s)
    u.bit.tankLast = some tank ∧ u.bit.q = level ∧ (u.chan .bit).dose.entry.target = level ∧
      (u.chan .bit).ring = [] ∧
      (feedsBarred s = false → beginsDose (u.chan .bit) e.source level (sourceFine e s) (sourceAllow e s)) ∧
      u.co = (changeoverSet tank (binderRead e s)).co := by
  have hchan := changeoverSet_read (e := e) (s := s) tank
  have hframe := changeoverSet_frame tank (binderRead e s)
  have hlast : (changeoverEnded (changeoverSet tank (binderRead e s))).bit.tankLast = some tank := by
    unfold changeoverEnded
    rw [hchan, binderRead_chan]
    exact htank
  obtain ⟨htank', hq, htarget, hring, hbegins, hco, -, -⟩ := bitBeginPrefeed_read (e := e) (s := s)
    (x := changeoverEnded (changeoverSet tank (binderRead e s))) hlevel hpos hchan (by rw [hframe]; rfl) hlast
    (by rw [hframe]; rfl)
  intro u
  have hu : u = bitBeginPrefeed (changeoverEnded (changeoverSet tank (binderRead e s))) :=
    bitBeginChangeover_skips (s := binderRead e s) hpurge
  rw [hu]
  exact ⟨htank', hq, htarget, hring, hbegins, hco⟩

/-- A changeover marks its batch, whether it takes a purge or not. -/
theorem bitBeginChangeover_flags {level : Int} {tank : Tank} (htank : tankOf e.source = some tank)
    (hlevel : level = prefeedLevel e.target ((s.bit.work.map BinderVals.percent).getD 0)) (hpos : 0 < level)
    {a : Attach} {b : Batch} (hbatch : (s.chan .bit).batch = some a) (hb : s.co.weigh = some b) (hseq : b.seq = a.seq) :
    (bitBeginChangeover tank (binderRead e s)).co.weigh = some { b with flags.changeover := true } := by
  by_cases hpurge : (s.bit.work.map BinderVals.purge).getD 0 = 0
  · obtain ⟨-, -, -, -, -, hco⟩ := bitBeginChangeover_reads htank hlevel hpos hpurge
    rw [hco]
    exact changeoverSet_flags tank hbatch hb hseq
  · rw [bitBeginChangeover_purges (s := binderRead e s) hpurge]
    exact changeoverSet_flags tank hbatch hb hseq

/-- A changeover that takes its purge. -/
theorem bitBeginChangeover_changes {tank : Tank} (hpurge : (s.bit.work.map BinderVals.purge).getD 0 ≠ 0) :
    let u := bitBeginChangeover tank (binderRead e s)
    (u.chan .bit).state = .changeover ∧ (u.chan .bit).feed = none ∧ u.bit.circulate = true ∧ u.bit.purge = 0 ∧
      (u.chan .bit).dose.entry = e := by
  intro u
  have hu : u = inChangeover (changeoverSet tank (binderRead e s)) := bitBeginChangeover_purges hpurge
  have hself : u.chan .bit = { (binderRead e s).chan .bit with state := .changeover, feed := none, gate := false } := by
    rw [hu, ← changeoverSet_read tank]
    rfl
  rw [hself, binderRead_chan, hu]
  exact ⟨rfl, rfl, rfl, rfl, rfl⟩

end

/-! ### The obligation -/

/-- A sample as it arrives, its tare formed, for the channel of the state. -/
def tared (g : Int) (sc : Scale) (s : State) : State := s.setChan sc (tareFormed g (s.chan sc))

section
variable {s : State} {sc : Scale} {w : ScaleParams} {count g q : Int} (hhigh : s.port.resetLow = false)
  (hwork : (s.chan sc).work = some w) (hgross : grossOf w count = g) (hcap : g ≤ w.capacity)
include hhigh hwork hgross hcap

theorem exec_weighFrame_ok : exec (.weighFrame sc count .ok) s =
    .next (settle (takeSample sc g (s.setChan sc (framed (s.chan sc))))) := by
  rw [exec_weighFrame hhigh, weighFrame_ok hwork (by rw [hgross]; exact hcap), hgross]

section
variable (hrun : s.rc.part ≠ .halted) (hstate : (s.chan sc).state = .taring)
include hrun hstate

theorem exec_weighFrame_sums (h : (s.chan sc).tareCount < 7) : exec (.weighFrame sc count .ok) s =
    .next (settle (s.setChan sc (tareSummed g (s.chan sc)))) := by
  rw [exec_weighFrame_ok hhigh hwork hgross hcap, takeSample_taring g hrun hstate, sampleTaring_sampled,
    if_pos (by omega)]

theorem exec_weighFrame_tares (h : 7 ≤ (s.chan sc).tareCount) : exec (.weighFrame sc count .ok) s =
    .next (settle (endTare sc (s.setChan sc (tareSummed g (s.chan sc))))) := by
  rw [exec_weighFrame_ok hhigh hwork hgross hcap, takeSample_taring g hrun hstate, sampleTaring_sampled,
    if_neg (by omega)]

end

end

section
variable {s : State} {sc : Scale} {g q : Int} (hq : roundDiv ((s.chan sc).tareSum + g) 8 = q)
include hq

theorem tared_chan : (tared g sc s).chan sc = { tareSummed g (s.chan sc) with tare := q, net := g - q, base := 0 } := by
  unfold tared
  rw [State.chan_setChan_same, ← hq]
  rfl

theorem tareFault_faults (hstate : (s.chan sc).state = .taring) :
    let u := scaleFault sc .zero (tared g sc s)
    (u.chan sc).state = .fault ∧ (u.chan sc).tare = q ∧ (u.chan sc).feed = none ∧ (u.chan sc).batch = none ∧
      (s.nu.list.length < 13 → heldNone s → ∃ more, u.nu.list = s.nu.list ++
        attachedNotice (s.chan sc).batch (.scaleFault sc .zero .taring g) :: more) := by
  intro u
  have hlive : (tareFormed g (s.chan sc)).state ≠ .fault := by
    change (s.chan sc).state ≠ .fault
    rw [hstate]
    simp
  obtain ⟨hkept, hbatch⟩ := scaleFault_set_chan (s := s) (sc := sc) (d := tareFormed g (s.chan sc)) .zero hlive
  have hnotice : faultNoticeOf sc .zero (tareFormed g (s.chan sc)) =
      attachedNotice (s.chan sc).batch (.scaleFault sc .zero .taring g) := by
    rw [← hstate]
    rfl
  refine ⟨hkept.state, (congrArg Channel.tare hkept).trans hq, hkept.feed, hbatch, fun hroom hheld => ?_⟩
  rw [← hnotice]
  exact scaleFault_set_appends .zero hlive hheld hroom

end

section
variable {s : State} {sc : Scale} {g q : Int} {e : DoseEntry} {rest : List DoseEntry} (hnone : s.port.waiting = [])
include hnone

/-- The first component of a dry scale begins from base 0. -/
theorem firstComponent_begins (hq : roundDiv ((s.chan sc).tareSum + g) 8 = q) (htarget : e.target ≠ 0)
    (hfeeds : feedsBarred s = false) (hon : s.rd (Win.source e.source) = 1) :
    let d := (startComponents sc true (e :: rest) (tared g sc s)).chan sc
    d.tare = q ∧ d.net = g - q ∧ d.base = 0 ∧ d.todo = rest ∧ d.dose.entry = e ∧ d.dose.fine = sourceFine e s ∧
      d.dose.allow = sourceAllow e s ∧ d.ring = [] ∧ d.gate = false ∧
      beginsDose d e.source e.target (sourceFine e s) (sourceAllow e s) := by
  intro d
  have hd : d = (componentBegun sc e (componentNext sc true e rest (tared g sc s))).chan sc :=
    congrArg (·.chan sc) (startComponents_begun (s := tared g sc s) hnone true rest htarget hon)
  obtain ⟨hbegun, hfree, -⟩ := componentBegun_begins (s := componentNext sc true e rest (tared g sc s)) hnone sc e
  rw [componentNext_chan, tared_chan hq] at hbegun
  rw [hd]
  exact ⟨hbegun.tare, hbegun.net, hbegun.base, hbegun.todo, hbegun.entry, hbegun.fine, hbegun.allow, hbegun.ring,
    hbegun.gate, hfree hfeeds⟩

/-- The binder dose of a batch as the tare ends. -/
def binderStarts (e : DoseEntry) (s : State) : State :=
  if s.bit.target = .noDose then bitUndosed e s else bitAfterTare e s

theorem binderStarts_settles (e : DoseEntry) : BinderSettles s (binderStarts e s) := by
  unfold binderStarts
  split
  · exact bitUndosed_settles e s
  · exact bitAfterTare_settles hnone e

/-- The source of the binder is not enabled. -/
theorem binderStarts_off (htarget : s.bit.target ≠ .noDose) (hoff : s.rd (Win.source e.source) ≠ 1) :
    let u := binderStarts e s
    u.bit.notDosed = true ∧ (s.bit.target = .none → (u.chan .bit).state = .prefed ∧ u.bit.prefed = 0) ∧
      (∀ bc, s.bit.target = .bc bc → (u.chan .bit).state = .weighed ∧
        (u.chan .bit).results = [⟨e.source, 0, .notDosed⟩]) := by
  intro u
  have hu : u = bitEnterPrefed 0 { binderRead e s with bit.notDosed := true } :=
    (if_neg htarget).trans (bitAfterTare_off hnone hoff)
  refine ⟨?_, fun hheld => ?_, fun bc hheld => ?_⟩
  · obtain ⟨held, more, hbit⟩ := bitEnterPrefed_bit 0 { binderRead e s with bit.notDosed := true }
    rw [hu, hbit]
  · rw [hu, bitEnterPrefed_of_none (s := { binderRead e s with bit.notDosed := true }) 0 hheld]
    exact ⟨rfl, rfl⟩
  · rw [hu, bitEnterPrefed_notDosed (s := { binderRead e s with bit.notDosed := true }) rfl hheld, bitReport_chan]
    exact ⟨rfl, rfl⟩

/-- The source of the binder is enabled and fed from a tank. -/
theorem binderStarts_on {tank : Tank} (htarget : s.bit.target ≠ .noDose) (hon : s.rd (Win.source e.source) = 1)
    (htank : tankOf e.source = some tank) : binderStarts e s =
      if s.bit.tankLast = some tank then bitBeginPrefeed (binderRead e s)
      else bitBeginChangeover tank (binderRead e s) := by
  unfold binderStarts
  rw [if_neg htarget, bitAfterTare_on hnone hon, htank]
  rfl

end

/-- Settles O29. -/
theorem weighFrameSample : Obligations.WeighFrameSample := by
  intro s sc count hhigh
  refine ⟨fun st hnone => ?_, fun w g hwork hspan hlo hhi hcap => ?_⟩
  · rw [exec_weighFrame hhigh, weighFrame_of_none hnone]
  intro c c'
  have hgross : grossOf w count = g := grossOf_eq hspan hlo hhi
  have hexec := exec_weighFrame_ok hhigh hwork hgross hcap
  refine ⟨fun honly => ?_, fun hrun hstate => ⟨fun hcount => exec_weighFrame_sums hhigh hwork hgross hcap hrun hstate hcount,
    fun q hcount hqlo hqhi => ?_⟩, fun hrun hstate => ?_⟩
  · rw [hexec]
    rcases honly with hhalted | honly
    · rw [takeSample_of_halted g hhalted]
      rfl
    · rw [takeSample_only g honly]
      rfl
  · have hq : roundDiv (c.tareSum + g) 8 = q := roundDiv_eq (by decide) (by linarith) (by linarith)
    rw [exec_weighFrame_tares hhigh hwork hgross hcap hrun hstate hcount]
    refine ⟨fun hbeyond => ⟨_, rfl, ?_⟩, fun e rest hlimit hstop hdry htodo hpos hfree hfeeds hon => ?_,
      fun e rest v hlimit hstop hbit htodo hfree hv => ?_⟩
    · rw [endTare_beyond hwork (by rw [hq]; exact hbeyond)]
      exact tareFault_faults hq hstate
    · intro fine allow
      rw [endTare_dry hwork (by rw [hq]; exact hlimit) hstop htodo hdry]
      exact ⟨_, rfl, firstComponent_begins ((arbiterFree_iff s).mp hfree).2 hq hpos.ne' hfeeds hon⟩
    · subst hbit
      intro enabled fine allow level
      rw [endTare_bit hwork (by rw [hq]; exact hlimit) hstop htodo]
      have hnone : (tared g .bit s).port.waiting = [] := ((arbiterFree_iff s).mp hfree).2
      have hsettles := binderStarts_settles hnone e
      have hchan := tared_chan (g := g) hq
      have hlevel : level = prefeedLevel e.target (((tared g .bit s).bit.work.map BinderVals.percent).getD 0) := by
        change _ = prefeedLevel e.target ((s.bit.work.map BinderVals.percent).getD 0)
        rw [hv]
        rfl
      have hpurge : ((tared g .bit s).bit.work.map BinderVals.purge).getD 0 = v.purge := by
        change (s.bit.work.map BinderVals.purge).getD 0 = v.purge
        rw [hv]
        rfl
      refine ⟨binderStarts e (tared g .bit s), rfl, hsettles.tare.trans (by rw [hchan]),
        hsettles.net.trans (by rw [hchan]), hsettles.gate, hsettles.quiet, fun hheld => ?_,
        fun hheld hoff => binderStarts_off hnone hheld hoff, fun hheld hon tank htank => ?_⟩
      · have hu : binderStarts e (tared g .bit s) = bitUndosed e (tared g .bit s) := if_pos hheld
        rw [hu]
        exact bitUndosed_reports e _
      have hstart := binderStarts_on hnone (e := e) (tank := tank) hheld hon htank
      by_cases hlast : s.bit.tankLast = some tank
      · rw [hstart.trans (if_pos hlast)]
        have hread (hpos : 0 < level) := bitBeginPrefeed_read (e := e) (s := tared g .bit s)
          (x := binderRead e (tared g .bit s)) hlevel hpos rfl rfl hlast rfl
        refine ⟨fun h => absurd hlast h, fun h => absurd hlast h, fun _ hpos => ?_, fun _ hpos => ?_⟩
        · obtain ⟨htank', hat, htarget, hring, hbegins, -, -, -⟩ := hread hpos
          exact ⟨htank', hat, htarget, hring, hbegins⟩
        · obtain ⟨-, -, -, -, -, hco, hselect, hcirculate⟩ := hread hpos
          exact ⟨hco, hselect, hcirculate⟩
      · rw [hstart.trans (if_neg hlast)]
        refine ⟨fun _ => ⟨bitBeginChangeover_tankSelect tank _, fun a b hbatch hb hseq hpos => ?_⟩,
          fun _ hpos => bitBeginChangeover_changes (by rw [hpurge]; exact hpos.ne'), fun hskip hpos => ?_,
          fun h => absurd h hlast⟩
        · exact bitBeginChangeover_flags (s := tared g .bit s) htank hlevel hpos (by rw [hchan]; exact hbatch) hb hseq
        · obtain ⟨htank', hat, htarget, hring, hbegins, -⟩ := bitBeginChangeover_reads (s := tared g .bit s) htank
            hlevel hpos (by rw [hpurge]; exact hskip.resolve_left hlast)
          exact ⟨htank', hat, htarget, hring, hbegins⟩
  · have hheld := takeSample_discharging (s := s) (sc := sc) (c := c) g hrun hstate
    refine ⟨fun hholds => ?_, fun hempty => ?_⟩
    · rw [hexec, hheld, if_pos hholds]
      rfl
    · intro e
      rw [hexec, hheld, if_neg (not_le.mpr hempty), endDischarge_setChan]
      refine ⟨fun hclear hasked => ?_, fun hclear => ?_⟩
      · rw [reportDischarge_asked (s := s.setChan sc _) hclear hasked]
        rfl
      · rw [reportDischarge_clear (s := s.setChan sc _) hclear]
        rfl

end Sys2Proof.Machine
end

section
/-! The end of a changeover and the dry shortfall test (O36): the pre-feed behind a purge (R102, R104), and what BIT
does with the corrected target or the instruction not to dose (R57, R106 to R111). -/

namespace Sys2Proof.Machine

/-! ### The end of the purge (R102) -/

theorem exec_purgeTimerExpiry {s : State} (h : s.port.resetLow = false) :
    exec .purgeTimerExpiry s = .next (settle (purgeExpired s)) := congrArg _ (event_of_high h _)

theorem purgeExpired_of_not_due {s : State}
    (h : s.rc.part ≠ .run ∨ s.rc.paused = true ∨ (s.chan .bit).state ≠ .changeover) : purgeExpired s = s := by
  refine if_neg fun ⟨hruns, hstate⟩ => ?_
  obtain ⟨hpart, hpaused⟩ := (mixerRuns_iff s).mp hruns
  rcases h with h | h | h
  · exact h hpart
  · exact Bool.false_ne_true (hpaused.symm.trans h)
  · exact h hstate

/-- The state in which the pre-feed behind a purge begins. -/
def purged (s : State) : State :=
  changeoverEnded { s with bit.purge := max s.bit.purge ((s.bit.work.map BinderVals.purge).getD 0) }

theorem purgeExpired_of_due {s : State} (hpart : s.rc.part = .run) (hpaused : s.rc.paused = false)
    (hstate : (s.chan .bit).state = .changeover) : purgeExpired s = bitBeginPrefeed (purged s) :=
  if_pos ⟨(mixerRuns_iff s).mpr ⟨hpart, hpaused⟩, hstate⟩

theorem purged_level {s : State} {v : BinderVals} (hv : s.bit.work = some v) {q : Int}
    (hlo : 200 * q ≤ 2 * (s.chan .bit).dose.entry.target * v.percent + 100)
    (hhi : 2 * (s.chan .bit).dose.entry.target * v.percent + 100 < 200 * (q + 1)) : binderLevel (purged s) = q := by
  have hlevel : binderLevel (purged s) = prefeedLevel (s.chan .bit).dose.entry.target
      ((s.bit.work.map BinderVals.percent).getD 0) := rfl
  have hrounded : roundDiv ((s.chan .bit).dose.entry.target * v.percent) 100 = q :=
    roundDiv_eq (by decide) (by linarith) (by linarith)
  rw [hlevel, hv]
  exact hrounded

/-! ### BIT reports (R113) -/

/-- BIT reports in a state whose weigh-stage batch is the one the test found. -/
theorem bitReport_reportsWeighed {s t : State} {c : Channel} (actual : Int) (outcome : DoseOutcome)
    (hsource : (t.chan .bit).dose.entry.source = c.dose.entry.source)
    (hweigh : ∀ b, s.co.weigh = some b → ∃ b', t.co.weigh = some b' ∧ b'.seq = b.seq) :
    reportsWeighed .bit c actual outcome s (bitReport actual outcome t) := by
  obtain ⟨⟨hstate, hfeed, hgate, hresults, hbatch⟩, -, -⟩ := afterComponent_bit actual outcome t
  refine ⟨hstate, hfeed, hgate, hresults.trans (by rw [hsource]; rfl), fun b hb => ?_⟩
  obtain ⟨mid, hmid, hseq⟩ := hweigh b hb
  obtain ⟨b', hb', hseq', hreported, hnets⟩ := hbatch mid hmid
  exact ⟨b', hb', hseq'.trans hseq, hreported, hnets⟩

/-! ### The instruction not to dose (R111) -/

section
variable {s : State}

theorem bitHandNoDose_of_dosing {p : SubPhase} (h : (s.chan .bit).state = .dosing p) :
    bitHandNoDose s = bitReport (s.chan .bit).net .notDosed s := by
  unfold bitHandNoDose
  rw [h]

theorem bitHandNoDose_of_changeover (h : (s.chan .bit).state = .changeover) :
    bitHandNoDose s = bitReport 0 .notDosed (cutChangeover s) := by
  unfold bitHandNoDose
  rw [h]

theorem bitHandNoDose_other (hdosing : ∀ p, (s.chan .bit).state ≠ .dosing p)
    (hchange : (s.chan .bit).state ≠ .changeover) : bitHandNoDose s = bitActTarget { s with bit.target := .noDose } := by
  unfold bitHandNoDose
  split
  · next p hp => exact absurd hp (hdosing p)
  · next hp => exact absurd hp hchange
  · rfl

theorem bitActTarget_waits (h : (s.chan .bit).state ≠ .prefed) : bitActTarget s = s := if_neg h

theorem bitActTarget_noDose (hstate : (s.chan .bit).state = .prefed) (h : s.bit.target = .noDose) :
    bitActTarget s = bitReport s.bit.prefed .notDosed s := by
  unfold bitActTarget
  rw [if_pos hstate, h]

/-! ### The corrected target (R106, R108, R109) -/

section
variable {bc : Int} (hstate : (s.chan .bit).state = .prefed) (h : s.bit.target = .bc bc)
include hstate h

theorem bitActTarget_notDosed (hnot : s.bit.notDosed = true) : bitActTarget s = bitReport 0 .notDosed s := by
  unfold bitActTarget
  rw [if_pos hstate, h]
  exact if_pos hnot

variable (hnot : s.bit.notDosed = false)
include hnot

theorem bitActTarget_stalled (hstall : s.bit.preStalled = true) : bitActTarget s = bitReport s.bit.prefed .stall s := by
  unfold bitActTarget
  rw [if_pos hstate, h]
  dsimp only
  rw [hnot, hstall]
  rfl

variable (hstall : s.bit.preStalled = false)
include hstall

theorem bitActTarget_dosed : bitActTarget s = if bc = 0 then bitReport s.bit.prefed .skipped s
    else if bc ≤ s.bit.prefed then bitDirectVerify bc s else bitContinue bc s := by
  unfold bitActTarget
  rw [if_pos hstate, h]
  dsimp only
  rw [hnot, hstall]
  rfl

end

end

/-! ### The dry shortfall test (R57) -/

/-- The batch found short. -/
def foundShort (b : Batch) : Batch := { b with dryTotal := some (b.nets.agg + b.nets.rap + b.nets.fil), short := true }

/-- The corrected target of a batch. -/
def correctedTarget (b : Batch) : Int := binderMass b.b b.r (b.nets.agg + b.nets.rap + b.nets.fil) b.nets.rap

/-- The batch with its binder target corrected. -/
def corrected (b : Batch) : Batch :=
  { b with dryTotal := some (b.nets.agg + b.nets.rap + b.nets.fil), comps := setLastTarget (correctedTarget b) b.comps }

section
variable {s : State} {b : Batch} (hb : s.co.weigh = some b) (hreported : dryReported b = true)
  (htotal : b.dryTotal = none) (hdiscard : b.discard = false) (haborted : b.aborted = false)
include hb hreported htotal hdiscard haborted

omit hb in
theorem dryTestDue_of : dryTestDue b = true := by
  unfold dryTestDue
  rw [hreported, htotal, hdiscard, haborted]
  rfl

theorem nextAtOnce_dryTest (hrun : s.rc.part = .run) : nextAtOnce s = some (dryTest s) := by
  have hdue : dryTestHere s = true := by
    unfold dryTestHere
    rw [hb]
    exact dryTestDue_of hreported htotal hdiscard haborted
  unfold nextAtOnce
  rw [if_pos hrun, if_pos hdue]

theorem dryTest_short (h : 10 * (b.nets.agg + b.nets.rap + b.nets.fil) < 9 * b.dn) :
    dryTest s = bitHandNoDose { s with co.weigh := some (foundShort b) } := by
  unfold dryTest
  rw [hb]
  dsimp only
  rw [if_pos (dryTestDue_of hreported htotal hdiscard haborted)]
  exact if_pos (decide_eq_true h)

theorem dryTest_corrects (h : 9 * b.dn ≤ 10 * (b.nets.agg + b.nets.rap + b.nets.fil)) :
    dryTest s = bitActTarget { s with co.weigh := some (corrected b), bit.target := .bc (correctedTarget b) } := by
  unfold dryTest
  rw [hb]
  dsimp only
  rw [if_pos (dryTestDue_of hreported htotal hdiscard haborted)]
  exact if_neg fun hshort => absurd (of_decide_eq_true hshort) (not_lt.mpr h)

end

/-! ### The direct verify (R108) -/

/-- BIT with the corrected target in its dose. -/
def targeted (bc : Int) (c : Channel) : Channel := { c with dose.entry.target := bc }

/-- A source record is told of the memory the verify found. -/
theorem recordsVerify_congr {s t u : State} (h : t.mem = s.mem) {c : Channel} {actual allow : Int}
    (k : recordsVerify c actual allow t u) : recordsVerify c actual allow s u := by
  unfold recordsVerify State.rd32 at k ⊢
  simp only [State.rd_of_mem h, State.byteAt_of_mem h] at k
  exact k

theorem afterComponent_eq_bitReport (actual : Int) (outcome : DoseOutcome) (s : State) :
    afterComponent .bit actual outcome s = bitReport actual outcome s := if_pos rfl

theorem setBinderTarget_chan (bc : Int) (s : State) : (setBinderTarget bc s).chan .bit = targeted bc (s.chan .bit) := rfl

section
variable {s t : State} {bc : Int} (hreached : bc ≤ t.bit.prefed)
include hreached

theorem bitDirectVerify_eq : bitDirectVerify bc t =
    (let v := verdictAt (targeted bc (t.chan .bit)) t.bit.prefed
     bitReport t.bit.prefed v (finalVerify .bit t.bit.prefed v (setBinderTarget bc t))) := by
  have hjudged : verifyOutcome ((setBinderTarget bc t).chan .bit).dose (t.bit.prefed - bc) =
      some (verdictAt (targeted bc (t.chan .bit)) t.bit.prefed) :=
    verifyOutcome_final fun ⟨hlow, _⟩ => by omega
  unfold bitDirectVerify
  dsimp only
  have hprefed : (setBinderTarget bc t).bit.prefed = t.bit.prefed := rfl
  rw [hprefed, hjudged]
  rfl

theorem bitDirectVerify_reportsWeighed
    (hweigh : ∀ b, s.co.weigh = some b → ∃ b', t.co.weigh = some b' ∧ b'.seq = b.seq) :
    let c := targeted bc (t.chan .bit)
    reportsWeighed .bit c t.bit.prefed (verdictAt c t.bit.prefed) s (bitDirectVerify bc t) := by
  intro c
  rw [bitDirectVerify_eq hreached]
  refine bitReport_reportsWeighed _ _ ?_ fun b hb => ?_
  · rw [finalVerify_chan]
    rfl
  · rw [finalVerify_co]
    exact hweigh b hb

theorem bitDirectVerify_endsVerified (hnone : t.port.waiting = []) (hwf : Memory.wf t.mem = true) (hmem : t.mem = s.mem)
    (hnu : t.nu = s.nu)
    (hweigh : ∀ b, s.co.weigh = some b → ∃ b', t.co.weigh = some b' ∧ b'.seq = b.seq) :
    let c := targeted bc (t.chan .bit)
    endsVerified .bit c t.bit.prefed (newAllowance c.dose) c.ring s (bitDirectVerify bc t) := by
  intro c
  have hreports := bitDirectVerify_reportsWeighed (s := s) hreached hweigh
  have hverified := verify_endsVerified (sc := .bit) (s := setBinderTarget bc t) hnone hwf (.inl rfl)
    (actual := t.bit.prefed) fun h => absurd rfl h
  rw [setBinderTarget_chan, afterComponent_eq_bitReport] at hverified
  rw [bitDirectVerify_eq hreached] at hreports ⊢
  dsimp only at hreports ⊢
  generalize bitReport t.bit.prefed (verdictAt (targeted bc (t.chan .bit)) t.bit.prefed) (finalVerify .bit t.bit.prefed
    (verdictAt (targeted bc (t.chan .bit)) t.bit.prefed) (setBinderTarget bc t)) = u at hreports hverified ⊢
  obtain ⟨-, hrecords, hoffers⟩ := hverified
  refine ⟨hreports, ?_, ?_⟩
  · exact recordsVerify_congr (t := setBinderTarget bc t) hmem hrecords
  · have hnu' : (setBinderTarget bc t).nu = s.nu := hnu
    rw [hnu'] at hoffers
    exact hoffers

end

end Sys2Proof.Machine
end

section
/-! The end of a changeover and the dry shortfall test (O36): the continuation to the corrected target, and the
obligation. -/

namespace Sys2Proof.Machine

/-! ### The continuation (R109) -/

/-- The sub-phase a dose goes on in from a mass. -/
theorem beginFeed_from (level from0 : Int) (d : Dose) (c : Channel) :
    let u := beginFeed false (firstSub level from0 d) c
    (level - d.allow ≤ from0 → u.state = .dosing .jogging ∧ u.feed = some (c.dose.entry.source, .fine)) ∧
      (from0 < level - d.allow → level - d.fine ≤ from0 →
        u.state = .dosing .fine ∧ u.feed = some (c.dose.entry.source, .fine)) ∧
      (from0 < level - d.allow → from0 < level - d.fine →
        u.state = .dosing .fast ∧ u.feed = some (c.dose.entry.source, .fast)) := by
  unfold firstSub
  refine ⟨fun hjog => ?_, fun hjog hfine => ?_, fun hjog hfast => ?_⟩
  · rw [if_pos hjog]
    exact ⟨rfl, rfl⟩
  · rw [if_neg (not_le.mpr hjog), if_pos hfine]
    exact ⟨rfl, rfl⟩
  · rw [if_neg (not_le.mpr hjog), if_neg (not_le.mpr hfast)]
    exact ⟨rfl, rfl⟩

/-- BIT as it goes on to the corrected target. -/
def continued (bc : Int) (c : Channel) : Channel := { targeted bc c with dose.jogsUsed := 0 }

theorem bitContinue_chan (bc : Int) (s : State) : (bitContinue bc s).chan .bit =
    beginFeed (feedsBarred s) (firstSub bc s.bit.prefed (continued bc (s.chan .bit)).dose)
      (continued bc (s.chan .bit)) := by
  unfold bitContinue
  rw [State.chan_modChan_same]
  rfl

theorem beginFeed_jogsUsed (barred : Bool) (first : Remembered) (c : Channel) :
    (beginFeed barred first c).dose.jogsUsed = c.dose.jogsUsed := by
  cases barred with
  | true => rfl
  | false => cases first <;> rfl

/-! ### The instruction not to dose, told of the batch found short (R57, R111) -/

theorem bitReport_batch {s : State} {b : Batch} (hb : s.co.weigh = some b) (actual : Int) (outcome : DoseOutcome) :
    ∃ c, (bitReport actual outcome s).co.weigh = some (verdictIn .bit c actual b) := by
  have hco : (bitReport actual outcome s).co.weigh = s.co.weigh.map (verdictIn .bit
      ((bitReport actual outcome s).chan .bit) actual) := rfl
  exact ⟨_, hco.trans (by rw [hb, Option.map_some])⟩

/-- The batch keeps what the test found, and memory and notices stand. -/
def testKept (b : Batch) (s u : State) : Prop :=
  (∃ b', u.co.weigh = some b' ∧ b'.short = b.short ∧ b'.dryTotal = b.dryTotal) ∧ u.mem = s.mem ∧ u.nu = s.nu

theorem bitReport_testKept {s : State} {b : Batch} (hb : s.co.weigh = some b) (actual : Int) (outcome : DoseOutcome) :
    testKept b s (bitReport actual outcome s) := by
  obtain ⟨c, hc⟩ := bitReport_batch hb actual outcome
  exact ⟨⟨_, hc, rfl, rfl⟩, rfl, rfl⟩

theorem bitHandNoDose_testKept {s : State} {b : Batch} (hb : s.co.weigh = some b) :
    testKept b s (bitHandNoDose s) := by
  by_cases hdosing : ∃ p, (s.chan .bit).state = .dosing p
  · obtain ⟨p, hp⟩ := hdosing
    rw [bitHandNoDose_of_dosing hp]
    exact bitReport_testKept hb _ _
  by_cases hchange : (s.chan .bit).state = .changeover
  · rw [bitHandNoDose_of_changeover hchange]
    exact bitReport_testKept (s := cutChangeover s) hb _ _
  rw [bitHandNoDose_other (fun p hp => hdosing ⟨p, hp⟩) hchange]
  by_cases hprefed : (s.chan .bit).state = .prefed
  · rw [bitActTarget_noDose (s := { s with bit.target := .noDose }) hprefed rfl]
    exact bitReport_testKept (s := { s with bit.target := .noDose }) hb _ _
  · rw [bitActTarget_waits (s := { s with bit.target := .noDose }) hprefed]
    exact ⟨⟨b, hb, rfl, rfl⟩, rfl, rfl⟩

/-- The verdict at a mass not below the corrected target. -/
theorem verdictAt_reached {c : Channel} {bc pf : Int} (h : bc ≤ pf) : verdictAt (targeted bc c) pf =
    if pf - bc ≤ c.dose.entry.tol then .inTol
    else if (c.dose.entry.reject : Int) < pf - bc then .overReject else .overTol := by
  have hpos : 0 ≤ pf - bc := by omega
  unfold verdictAt endOutcome targeted
  dsimp only
  by_cases hin : pf - bc ≤ c.dose.entry.tol
  · rw [if_pos ⟨by omega, hin⟩, if_pos hin]
  · rw [if_neg fun hboth => hin hboth.2, if_neg hin, if_neg (not_lt.mpr hpos)]

/-- Settles O36. -/
theorem purgeEndsChangeover : Obligations.PurgeEndsChangeover := by
  refine ⟨fun s hhigh => ?_, fun s b hrun hb hreported htotal hdiscard haborted => ?_⟩
  · intro c
    rw [exec_purgeTimerExpiry hhigh]
    refine ⟨fun hidle => by rw [purgeExpired_of_not_due hidle],
      fun v q hpart hpaused hstate hv hpos hlo hhi => ⟨_, rfl, ?_⟩⟩
    have hlevel := purged_level hv hlo hhi
    have hbegun := prefeedChannel_begun (purged s)
    have hbarred : feedsBarred (purged s) = decide (s.rc.clearStep ≠ .none) := feedsBarred_in_run (s := s) hpart hpaused
    rw [purgeExpired_of_due hpart hpaused hstate, bitBeginPrefeed_feeds (by omega)]
    refine ⟨rfl, rfl, hlevel, rfl, ?_, hbegun.ring, hbegun.gate, fun hclear => ?_, fun hclear => ?_, rfl, rfl, rfl, rfl⟩
    · exact (congrArg DoseEntry.target hbegun.entry).trans hlevel
    · have hfree : feedsBarred (purged s) = false := hbarred.trans (by rw [hclear]; rfl)
      have hbegins : beginsDose (prefeedChannel (purged s)) c.dose.entry.source q c.dose.fine c.dose.allow := by
        unfold prefeedChannel
        rw [hfree, hlevel]
        exact beginFeed_beginsDose rfl rfl rfl
      exact hbegins
    · have hheld : feedsBarred (purged s) = true := hbarred.trans (decide_eq_true hclear)
      have hfeed : (prefeedChannel (purged s)).feed = none := by
        unfold prefeedChannel
        rw [hheld]
        rfl
      exact hfeed
  · intro c total bc pf
    refine ⟨dryTest s, nextAtOnce_dryTest hb hreported htotal hdiscard haborted hrun, fun hshort => ?_,
      fun henough => ?_⟩
    · have hweigh : ∀ x, s.co.weigh = some x → ∃ b', some (foundShort b) = some b' ∧ b'.seq = x.seq := fun x hx => by
        obtain rfl := Option.some.inj (hb.symm.trans hx)
        exact ⟨_, rfl, rfl⟩
      obtain ⟨hbatch, hmem, hnu⟩ := bitHandNoDose_testKept (s := { s with co.weigh := some (foundShort b) })
        (b := foundShort b) rfl
      rw [dryTest_short hb hreported htotal hdiscard haborted hshort]
      refine ⟨hbatch, hmem, hnu, fun p hp => ?_, fun hprefed => ?_, fun hchange => ?_, fun htaring => ?_⟩
      · rw [bitHandNoDose_of_dosing (s := { s with co.weigh := some (foundShort b) }) hp]
        exact bitReport_reportsWeighed _ _ rfl hweigh
      · rw [bitHandNoDose_other (s := { s with co.weigh := some (foundShort b) })
          (fun p hp => absurd (hprefed.symm.trans hp) (by simp)) (fun hc => absurd (hprefed.symm.trans hc) (by simp)),
          bitActTarget_noDose (s := { s with co.weigh := some (foundShort b), bit.target := .noDose }) hprefed rfl]
        exact bitReport_reportsWeighed _ _ rfl hweigh
      · rw [bitHandNoDose_of_changeover (s := { s with co.weigh := some (foundShort b) }) hchange]
        exact ⟨bitReport_reportsWeighed _ _ rfl hweigh, rfl, rfl, rfl⟩
      · rw [bitHandNoDose_other (s := { s with co.weigh := some (foundShort b) })
          (fun p hp => absurd (htaring.symm.trans hp) (by simp)) (fun hc => absurd (htaring.symm.trans hc) (by simp)),
          bitActTarget_waits (s := { s with co.weigh := some (foundShort b), bit.target := .noDose })
            (fun hc => absurd (htaring.symm.trans hc) (by simp))]
        exact ⟨rfl, rfl⟩
    · intro held
      have hweigh : ∀ x, s.co.weigh = some x → ∃ b', some (corrected b) = some b' ∧ b'.seq = x.seq := fun x hx => by
        obtain rfl := Option.some.inj (hb.symm.trans hx)
        exact ⟨_, rfl, rfl⟩
      have hstart := dryTest_corrects hb hreported htotal hdiscard haborted henough
      generalize ht : ({ s with co.weigh := some (corrected b), bit.target := .bc (correctedTarget b) } : State) = t at hstart
      have hchan : t.chan .bit = c := by rw [← ht]; rfl
      have hprefed : t.bit.prefed = pf := by rw [← ht]
      have htarget : t.bit.target = .bc bc := by rw [← ht]; rfl
      have hmem : t.mem = s.mem := by rw [← ht]
      have hnu : t.nu = s.nu := by rw [← ht]
      have hheld : t.co.weigh = held := by rw [← ht]; rfl
      have hseq : ∀ x, s.co.weigh = some x → ∃ b', t.co.weigh = some b' ∧ b'.seq = x.seq := by rw [← ht]; exact hweigh
      rw [hstart]
      refine ⟨fun hstate => ?_, fun hstate hnot => ?_, fun hstate hnot hstall => ?_, fun hstate hnot hstall hzero => ?_,
        fun hstate hnot hstall hzero hreached hfree hwf => ?_, fun hstate hnot hstall hzero =>
          ⟨fun hbelow hpaused hclear => ?_, fun hreached => ?_⟩⟩
      · rw [bitActTarget_waits (by rw [hchan]; exact hstate)]
        exact ⟨htarget, hheld, by rw [← ht]⟩
      · rw [bitActTarget_notDosed (by rw [hchan]; exact hstate) htarget (by rw [← ht]; exact hnot)]
        exact ⟨bitReport_reportsWeighed _ _ (by rw [hchan]) hseq, hmem, hnu⟩
      · rw [bitActTarget_stalled (by rw [hchan]; exact hstate) htarget (by rw [← ht]; exact hnot)
          (by rw [← ht]; exact hstall), hprefed]
        exact ⟨bitReport_reportsWeighed _ _ (by rw [hchan]) hseq, hmem, hnu⟩
      all_goals
        rw [bitActTarget_dosed (by rw [hchan]; exact hstate) htarget (by rw [← ht]; exact hnot)
          (by rw [← ht]; exact hstall), hprefed]
      · rw [if_pos hzero]
        exact ⟨bitReport_reportsWeighed _ _ (by rw [hchan]) hseq, hmem, hnu⟩
      · have hends := bitDirectVerify_endsVerified (s := s) (t := t) (bc := bc) (by rw [hprefed]; exact hreached)
          (by rw [← ht]; exact ((arbiterFree_iff s).mp hfree).2) (by rw [hmem]; exact hwf) hmem hnu hseq
        rw [if_neg hzero, if_pos hreached]
        rw [hchan, hprefed] at hends
        exact hends
      · have hbarred : feedsBarred t = false := by
          have hsame : feedsBarred t = feedsBarred s := by rw [← ht]; rfl
          rw [hsame, feedsBarred_in_run hrun hpaused, hclear]
          rfl
        have hself := bitContinue_chan bc t
        rw [hbarred, hchan, hprefed] at hself
        rw [if_neg hzero, if_neg (not_le.mpr hbelow), hself]
        obtain ⟨hjog, hfine, hfast⟩ := beginFeed_from bc pf (continued bc c).dose (continued bc c)
        refine ⟨hheld, rfl, rfl, ?_, ?_, hmem, hjog, hfine, hfast⟩
        · rw [(beginFeed_begun _ _ _).entry]
          rfl
        · exact beginFeed_jogsUsed _ _ _
      · obtain ⟨hweighed, hfeed, -, hresults, hbatch⟩ := bitDirectVerify_reportsWeighed (s := s) (t := t) (bc := bc)
          (by rw [hprefed]; exact hreached) hseq
        obtain ⟨b', hb', -, hin, hnets⟩ := hbatch b hb
        rw [hchan, hprefed, verdictAt_reached hreached] at hresults
        rw [if_neg hzero, if_pos hreached]
        exact ⟨hweighed, hfeed, hresults, b', hb', hin, hnets.trans (by rw [if_pos rfl, hprefed])⟩

end Sys2Proof.Machine
end

section
/-! The chain walker (O23): a look point by the state of the walker (R5 to R11). -/

namespace Sys2Proof.Machine

/-! ### A look point as it is taken (R5) -/

theorem exec_lookPoint {s : State} (h : s.port.resetLow = false) :
    exec .lookPoint s = .next (settle (periodicLook s)) := congrArg _ (event_of_high h _)

/-- The state in which the periodic look point is taken. -/
def lookStarted (s : State) : State := { s with oe.lookMs := 0 }

theorem periodicLook_rests {s : State} (h : s.rc.part ≠ .run ∨ s.rc.finishing = true ∨ 3 ≤ s.oe.queue.length) :
    periodicLook s = lookStarted s := by
  unfold periodicLook lookStarted
  dsimp only
  split
  · next hroom =>
    refine if_neg fun hlooks => ?_
    unfold looksAllowed at hlooks
    rw [Bool.and_eq_true, beq_iff_eq, Bool.not_eq_true'] at hlooks
    obtain ⟨hrun, hfinishing⟩ := hlooks
    rcases h with h | h | h
    · exact h hrun
    · exact Bool.false_ne_true (hfinishing.symm.trans h)
    · exact absurd hroom (not_lt.mpr h)
  · rfl

/-- A look point whose withdraw watch finds nothing new is the walk. -/
theorem lookPoint_walks {s : State} (hrun : s.rc.part = .run) (hfinishing : s.rc.finishing = false)
    (hnone : s.port.waiting = []) (hlevels : ∀ o ∈ s.oe.queue, (requested s o).rank ≤ o.level.rank) :
    lookPoint s = walk s := by
  have hlooks : looksAllowed s = true := by
    unfold looksAllowed
    rw [hrun, hfinishing]
    rfl
  unfold lookPoint watchWithdraw
  rw [if_pos hlooks, readWithdraws_of_lower hnone _ hlevels]

theorem periodicLook_walks {s : State} (hrun : s.rc.part = .run) (hfinishing : s.rc.finishing = false)
    (hnone : s.port.waiting = []) (hroom : s.oe.queue.length < 3)
    (hlevels : ∀ o ∈ s.oe.queue, (requested s o).rank ≤ o.level.rank) : periodicLook s = walk (lookStarted s) := by
  have hlook : periodicLook s = lookPoint (lookStarted s) := if_pos hroom
  rw [hlook, lookPoint_walks (s := lookStarted s) hrun hfinishing hnone hlevels]

/-! ### A link or chain entry (R6, R8 to R10) -/

section
variable {s : State}

theorem followLink_end (k : Nat) (fromEntry : Bool) (visited : List Nat) :
    followLink (k + 1) fromEntry 255 visited s = s := if_pos rfl

theorem followLink_broken {v : Word} (hv : v ≠ 255) (hrange : 32 ≤ v.toNat) (hroom : s.nu.list.length < 16) (k : Nat)
    (fromEntry : Bool) (visited : List Nat) : followLink (k + 1) fromEntry v visited s =
      { s with oe.walker := .broken, nu.list := s.nu.list ++ [posNotice s (.chainBroken v fromEntry)] } :=
  (if_neg hv).trans ((if_pos hrange).trans (submit_of_room (s := { s with oe.walker := .broken }) hroom _))

theorem word_ne_end {v : Word} (h : v.toNat < 32) : v ≠ 255 := by
  rintro rfl
  exact absurd h (by decide)

section
variable (hnone : s.port.waiting = []) {v : Word} (hrange : v.toNat < 32)
include hnone hrange

theorem followLink_meets (hqueue : findOrder s v.toNat (s.rd (Win.slot v.toNat + 2)) = none) (k : Nat)
    (fromEntry : Bool) (visited : List Nat) :
    followLink (k + 1) fromEntry v visited s = meetSlot v.toNat (guardRead v.toNat s) s := by
  have hgap : findOrder (gap s) v.toNat (guardRead v.toNat (gap s)).2 = none := by
    rw [gap_of_none hnone]
    exact hqueue
  refine (if_neg (word_ne_end hrange)).trans ((if_neg (not_le.mpr hrange)).trans ?_)
  dsimp only
  rw [hgap, gap_of_none hnone]
  exact if_neg Bool.false_ne_true

theorem followLink_moves (hqueue : (findOrder s v.toNat (s.rd (Win.slot v.toNat + 2))).isSome = true)
    (hpos : atSlot s v.toNat = false) (k : Nat) (fromEntry : Bool) : followLink (k + 1) fromEntry v [] s =
      (let t := takePosition v.toNat (s.rd (Win.slot v.toNat + 2)) s
       followLink k false (t.rd (Win.slot v.toNat + Win.slotLink)) [v.toNat] t) := by
  have hgap : (findOrder (gap s) v.toNat (guardRead v.toNat (gap s)).2).isSome = true := by
    rw [gap_of_none hnone]
    exact hqueue
  have hstays : (atSlot (gap s) v.toNat || ([] : List Nat).contains v.toNat) = false := by
    rw [gap_of_none hnone, hpos]
    rfl
  refine (if_neg (word_ne_end hrange)).trans ((if_neg (not_le.mpr hrange)).trans ?_)
  dsimp only
  rw [if_pos hgap, hstays, if_neg Bool.false_ne_true, gap_of_none hnone]
  have htaken : (takePosition v.toNat (guardRead v.toNat s).2 s).port.waiting = [] := by
    unfold takePosition
    rw [put_of_none hnone]
    exact hnone
  rw [gap_of_none htaken]
  rfl

end

theorem meetSlot_early {n : Nat} {g : Word × Word} (hstate : g.1 ≠ 1) (hroom : s.nu.list.length < 16) :
    meetSlot n g s = if s.oe.linkEarly = some n then s
      else { s with oe.linkEarly := some n,
                    nu.list := s.nu.list ++ [posNotice s (.linkEarly (BitVec.ofNat 16 n) g.1)] } := by
  refine (if_neg hstate).trans ?_
  unfold linkEarly
  rw [submit_of_room (s := { s with oe.linkEarly := some n }) hroom]

/-! ### The walk (R6, R7, R11) -/

theorem walk_ended (h : s.oe.walker = .broken ∨ s.oe.walker = .lost) : walk s = s := by
  unfold walk
  rcases h with h | h <;> rw [h]

theorem walk_noEntry (hnone : s.port.waiting = []) (h : s.oe.walker = .noEntry) :
    walk s = followLink (s.oe.queue.length + 1) true (s.rd Win.chainEntry) [] s := by
  unfold walk
  rw [h]
  dsimp only
  rw [gap_of_none hnone]

/-- The slot of the walker's position is that of its order still. -/
def posStays (p : Position) (s : State) : Prop :=
  s.rd (Win.slot p.slot) ∈ [(2 : Word), 3, 4] ∧ s.rd (Win.slot p.slot + 2) = p.number

theorem guardOk_posStays (p : Position) (s : State) :
    guardOk [slotTaken, slotActive, slotClosed] p.number (guardRead p.slot s) = true ↔ posStays p s := by
  unfold guardOk posStays
  rw [Bool.and_eq_true, beq_iff_eq, List.contains_iff_mem]
  rfl

section
variable (hnone : s.port.waiting = []) (h : s.oe.walker = .walking) {p : Position} (hpos : s.oe.pos = some p)
include hnone h hpos

theorem walk_follows (hstays : posStays p s) :
    walk s = followLink (s.oe.queue.length + 1) false (s.rd (Win.slot p.slot + Win.slotLink)) [] s := by
  unfold walk
  rw [h, hpos]
  dsimp only
  rw [gap_of_none hnone, if_pos ((guardOk_posStays p s).mpr hstays), gap_of_none hnone]

theorem walk_lost (hlost : ¬posStays p s) (hroom : s.nu.list.length < 16) : walk s =
    { s with oe.walker := .lost,
             nu.list := s.nu.list ++ [⟨p.slot, p.number, 0,
               .chainLost (s.rd (Win.slot p.slot)) (s.rd (Win.slot p.slot + 2))⟩] } := by
  unfold walk
  rw [h, hpos]
  dsimp only
  rw [gap_of_none hnone, if_neg (mt (guardOk_posStays p s).mp hlost)]
  exact submit_of_room (s := { s with oe.walker := .lost }) hroom _

end

theorem posNotice_none (h : s.oe.pos = none) (d : Detail) : posNotice s d = ⟨255, 0, 0, d⟩ := by
  unfold posNotice
  rw [h]
  rfl

theorem posNotice_some {p : Position} (h : s.oe.pos = some p) (d : Detail) : posNotice s d = ⟨p.slot, p.number, 0, d⟩ := by
  unfold posNotice
  rw [h]

/-- A link or chain entry of an empty queue that is no slot to be examined (R8, R9). -/
theorem followLink_empty (hnone : s.port.waiting = []) (hqueue : s.oe.queue = []) (hroom : s.nu.list.length < 16)
    (k : Nat) (fromEntry : Bool) (v : Word) :
    let t := followLink (k + 1) fromEntry v [] s
    (v = 255 → t = s) ∧
    (v ≠ 255 → 32 ≤ v.toNat → t =
      { s with oe.walker := .broken, nu.list := s.nu.list ++ [posNotice s (.chainBroken v fromEntry)] }) ∧
    (v.toNat < 32 → s.rd (Win.slot v.toNat) ≠ 1 →
      (s.oe.linkEarly = some v.toNat → t = s) ∧
      (s.oe.linkEarly ≠ some v.toNat → t = { s with oe.linkEarly := some v.toNat, nu.list := s.nu.list ++
        [posNotice s (.linkEarly v (s.rd (Win.slot v.toNat)))] })) := by
  refine ⟨fun hv => ?_, fun hv hrange => followLink_broken hv hrange hroom k fromEntry [], fun hrange hstate => ?_⟩
  · subst hv
    exact followLink_end k fromEntry []
  · have hfind : findOrder s v.toNat (s.rd (Win.slot v.toNat + 2)) = none := by
      unfold findOrder
      rw [hqueue]
      rfl
    have hword : BitVec.ofNat 16 v.toNat = v := by rw [BitVec.ofNat_toNat, BitVec.setWidth_eq]
    dsimp only
    rw [followLink_meets hnone hrange hfind, meetSlot_early (g := guardRead v.toNat s) hstate hroom, hword]
    exact ⟨fun hheld => if_pos hheld, fun hheld => if_neg hheld⟩

end

/-- The walker moves to the slot of a queued order (R10). -/
theorem takePosition_of_none {s : State} (hnone : s.port.waiting = []) (n : Nat) (number : Word) :
    takePosition n number s = { s.wr Win.chainPosition (BitVec.ofNat 16 n) with
      oe.walker := .walking, oe.pos := some ⟨n, number⟩, oe.linkEarly := none } := by
  unfold takePosition
  rw [put_of_none hnone]

/-- Settles O23. -/
theorem lookPointReadsChain : Obligations.LookPointReadsChain := by
  intro s hfree u entry
  obtain ⟨hhigh, hnone⟩ := (arbiterFree_iff s).mp hfree
  rw [exec_lookPoint hhigh]
  refine ⟨fun hrests => by rw [periodicLook_rests hrests]; rfl, fun hrun hfinishing hqueue hroom => ?_,
    fun o hrun hfinishing hqueue hwalker hpos hslot hentry hnumber hlink hlevel hwf => ?_⟩
  · have hempty : u.oe.queue = [] := hqueue
    have hlook : periodicLook s = walk u := periodicLook_walks hrun hfinishing hnone (by rw [hqueue]; decide)
      fun o ho => by rw [hqueue] at ho; exact absurd ho (List.not_mem_nil)
    rw [hlook]
    refine ⟨fun hended => by rw [walk_ended (s := u) hended], fun hwalker hpos => ?_, fun p hwalker hpos => ?_⟩
    · have hnotice (d : Detail) : posNotice u d = ⟨255, 0, 0, d⟩ := posNotice_none (s := u) hpos d
      have hlinked := followLink_empty (s := u) hnone hempty hroom u.oe.queue.length true entry
      rw [walk_noEntry (s := u) hnone hwalker]
      simp only [hnotice] at hlinked
      obtain ⟨hend, hbroken, hearly⟩ := hlinked
      exact ⟨fun hv => congrArg (fun t => Host.Outcome.next (settle t)) (hend hv),
        fun hv hrange => congrArg (fun t => Host.Outcome.next (settle t)) (hbroken hv hrange),
        fun hrange hstate => ⟨fun hheld => congrArg (fun t => Host.Outcome.next (settle t)) ((hearly hrange hstate).1 hheld),
          fun hheld => congrArg (fun t => Host.Outcome.next (settle t)) ((hearly hrange hstate).2 hheld)⟩⟩
    · intro link stays
      have hnotice (d : Detail) : posNotice u d = ⟨p.slot, p.number, 0, d⟩ := posNotice_some (s := u) hpos d
      have hlinked := followLink_empty (s := u) hnone hempty hroom u.oe.queue.length false link
      simp only [hnotice] at hlinked
      obtain ⟨hend, hbroken, hearly⟩ := hlinked
      have hfollows (hstays : stays) : walk u = followLink (u.oe.queue.length + 1) false link [] u :=
        walk_follows (s := u) hnone hwalker hpos hstays
      refine ⟨fun hlost => by rw [walk_lost (s := u) hnone hwalker hpos hlost hroom]; rfl, fun hstays hv => ?_,
        fun hstays hv hrange => ?_, fun hstays hrange hstate => ⟨fun hheld => ?_, fun hheld => ?_⟩⟩ <;>
        rw [hfollows hstays]
      · exact congrArg (fun t => Host.Outcome.next (settle t)) (hend hv)
      · exact congrArg (fun t => Host.Outcome.next (settle t)) (hbroken hv hrange)
      · exact congrArg (fun t => Host.Outcome.next (settle t)) ((hearly hrange hstate).1 hheld)
      · exact congrArg (fun t => Host.Outcome.next (settle t)) ((hearly hrange hstate).2 hheld)
  · have hlook : periodicLook s = walk u := periodicLook_walks hrun hfinishing hnone (by rw [hqueue]; simp)
      fun x hx => by
        rw [hqueue, List.mem_singleton] at hx
        rw [hx]
        exact hlevel
    have hslotOf : entry.toNat = o.slot := by
      rw [hentry, BitVec.toNat_ofNat]
      exact Nat.mod_eq_of_lt (by omega)
    have hmoves := followLink_moves (s := u) hnone (v := entry) (by rw [hslotOf]; exact hslot) (by
      rw [hslotOf]
      unfold findOrder
      have hq : u.oe.queue = [o] := hqueue
      have hn : u.rd (Win.slot o.slot + 2) = o.number := hnumber
      rw [hq, hn, List.find?_cons]
      simp [isOrder]) (by
      unfold atSlot
      have hp : u.oe.pos = none := hpos
      rw [hp]) 1 true
    have hfuel : u.oe.queue.length + 1 = 1 + 1 := congrArg (fun q : List Order => q.length + 1) hqueue
    have hnumber' : u.rd (Win.slot o.slot + 2) = o.number := hnumber
    have hend : ({ u.wr Win.chainPosition entry with
        oe.walker := .walking, oe.pos := some ⟨o.slot, o.number⟩, oe.linkEarly := none } : State).rd
          (Win.slot o.slot + Win.slotLink) = 255 := by
      rw [← hlink]
      refine State.rd_wr_other (s := u) hwf entry (.inr ?_)
      unfold Win.chainPosition Win.slot
      omega
    rw [hslotOf, hnumber', takePosition_of_none (s := u) hnone, ← hentry] at hmoves
    dsimp only at hmoves
    rw [hend, followLink_end] at hmoves
    rw [hlook, walk_noEntry (s := u) hnone hwalker, hfuel]
    exact congrArg (fun t => Host.Outcome.next (settle t)) hmoves

end Sys2Proof.Machine
end

section
/-! The checks of an examination (O24), first part: the sources, the shares and the loads of a formula (R15, R34 to
R39). -/

namespace Sys2Proof.Machine

/-! ### Sources by their codes -/

/-- The source of a component code. -/
def componentSource (c : Nat) : Source := (Source.ofCode c).getD .hb1

theorem componentSource_spec {c : Nat} (h : c < 10) : (if c < 10 then Source.ofCode c else none) = some (componentSource c) ∧
    (componentSource c).code = c := by
  revert c
  decide

theorem componentSource_scale {c : Nat} (h : c < 10) :
    ((componentSource c).scale == .agg) = decide (0 ≤ c ∧ c < 6) ∧
      ((componentSource c).scale == .rap) = decide (6 ≤ c ∧ c < 8) ∧
      ((componentSource c).scale == .fil) = decide (8 ≤ c ∧ c < 10) := by
  revert c
  decide

theorem Win.source_eq (src : Source) : Win.source src = 0x200 + 64 * src.code := rfl

theorem mapM_of_some {α β : Type} {f : α → Option β} {g : α → β} {l : List α} (h : ∀ x ∈ l, f x = some (g x)) :
    l.mapM f = some (l.map g) := by
  induction l with
  | nil => rfl
  | cons x l ih =>
    rw [List.mapM_cons, h x List.mem_cons_self, ih fun y hy => h y (List.mem_cons_of_mem x hy)]
    rfl

theorem mapM_of_none {α β : Type} {f : α → Option β} {l : List α} {x : α} (hx : x ∈ l) (h : f x = none) :
    l.mapM f = none := by
  induction l with
  | nil => exact absurd hx List.not_mem_nil
  | cons y l ih =>
    rw [List.mapM_cons]
    rcases List.mem_cons.mp hx with rfl | hx
    · rw [h]
      rfl
    · rw [ih hx]
      cases f y <;> rfl

/-- The tank of a binder code. -/
def binderTank (binder : Nat) : Tank := if binder = 10 then .bt1 else .bt2

theorem checkSources_of_fit {codes : List Nat} {binder : Nat} (hcodes : ∀ c ∈ codes, c < 10)
    (hbinder : binder = 10 ∨ binder = 11) :
    checkSources codes binder = some (codes.map componentSource, binderTank binder) := by
  unfold checkSources
  rw [mapM_of_some fun c hc => (componentSource_spec (hcodes c hc)).1]
  rcases hbinder with rfl | rfl <;> rfl

theorem checkSources_of_unfit {codes : List Nat} {binder : Nat}
    (h : (∃ c ∈ codes, 10 ≤ c) ∨ (binder ≠ 10 ∧ binder ≠ 11)) : checkSources codes binder = none := by
  by_cases hcodes : ∃ c ∈ codes, 10 ≤ c
  · obtain ⟨c, hc, hrange⟩ := hcodes
    unfold checkSources
    rw [mapM_of_none hc (if_neg (not_lt.mpr hrange))]
  · obtain ⟨h10, h11⟩ := h.resolve_left hcodes
    have hfit : ∀ c ∈ codes, c < 10 := fun c hc => not_le.mp fun hrange => hcodes ⟨c, hc, hrange⟩
    unfold checkSources
    rw [mapM_of_some fun c hc => (componentSource_spec (hfit c hc)).1]
    dsimp only
    rw [if_neg h10, if_neg h11]

theorem binderTank_code {binder : Nat} (h : binder = 10 ∨ binder = 11) : (binderTank binder).source.code = binder := by
  rcases h with rfl | rfl <;> rfl

theorem hasDuplicate_iff (l : List Nat) : hasDuplicate l = true ↔ ¬l.Nodup := by
  induction l with
  | nil => simp [hasDuplicate]
  | cons x l ih =>
    unfold hasDuplicate
    rw [Bool.or_eq_true, ih, List.nodup_cons, List.contains_iff_mem]
    tauto

theorem foldl_add_eq_sum {α β : Type} [AddCommMonoid β] (g : α → β) (l : List α) :
    l.foldl (fun n c => n + g c) 0 = (l.map g).sum := by
  rw [List.sum_eq_foldl, List.foldl_map]

/-! ### The record of a formula (R32, R33) -/

section
variable (s : State) (n : Nat)

/-- The header of a slot as an examination reads it, the order number first. -/
def headerRead (n : Nat) (s : State) : List Word :=
  [2, 6, 8, 10, 12, 14, 16, 18, 20, 22].map fun o => s.rd (Win.slot n + o)

/-- A word of the formula record the slot names. -/
def formulaWord (n k : Nat) (s : State) : Word := s.rd (Win.formula (s.rd (Win.slot n + 6)).toNat + 2 * k)

/-- The record as it is copied. -/
def formulaCopy (n : Nat) (s : State) : List Word :=
  (List.range 64).map fun i => s.rd (Win.formula (s.rd (Win.slot n + 6)).toNat + 2 * i)

variable {n} {s}

theorem nthWord_formulaCopy {k : Nat} (h : k < 64) : nthWord (formulaCopy n s) k = formulaWord n k s := by
  unfold nthWord formulaCopy formulaWord
  rw [List.getD_eq_getElem _ _ (by simpa using h)]
  simp

/-- A component entry of the formula: source code, share, tolerance, reject limit. -/
def rawEntry (n : Nat) (s : State) (i : Nat) : Nat × Nat × Nat × Nat :=
  ((formulaWord n (24 + 4 * i) s).toNat, (formulaWord n (25 + 4 * i) s).toNat, (formulaWord n (26 + 4 * i) s).toNat,
    max (formulaWord n (26 + 4 * i) s).toNat (formulaWord n (27 + 4 * i) s).toNat)

/-- The source code of a component. -/
def rawSource (n : Nat) (s : State) (i : Nat) : Nat := (formulaWord n (24 + 4 * i) s).toNat

/-- The share of a component. -/
def rawShare (n : Nat) (s : State) (i : Nat) : Nat := (formulaWord n (25 + 4 * i) s).toNat

theorem rawComponents_eq {m : Nat} (h : m ≤ 10) :
    rawComponents (formulaCopy n s) m = (List.range m).map (rawEntry n s) := by
  unfold rawComponents
  refine List.map_congr_left fun i hi => ?_
  have hi := List.mem_range.mp hi
  unfold rawEntry
  dsimp only
  rw [nthWord_formulaCopy (by omega), nthWord_formulaCopy (by omega), nthWord_formulaCopy (by omega),
    nthWord_formulaCopy (by omega)]
  simp only [Nat.add_zero, Nat.add_right_comm]

theorem rawCodes_eq {m : Nat} (h : m ≤ 10) :
    ((rawComponents (formulaCopy n s) m).map fun c => c.1) = (List.range m).map (rawSource n s) := by
  rw [rawComponents_eq h, List.map_map]
  rfl

theorem rawShares_eq {m : Nat} (h : m ≤ 10) :
    (rawComponents (formulaCopy n s) m).foldl (fun k c => k + c.2.1) 0 = ((List.range m).map (rawShare n s)).sum := by
  rw [foldl_add_eq_sum, rawComponents_eq h, List.map_map]
  rfl

theorem rawSource_distinct (m : Nat) : ((List.range m).map (rawSource n s)).Nodup ↔
    ∀ i j, i < j → j < m → rawSource n s i ≠ rawSource n s j := by
  rw [List.nodup_map_iff_inj_on List.nodup_range]
  refine ⟨fun h i j hij hj heq => ?_, fun h x hx y hy heq => ?_⟩
  · exact absurd (h i (List.mem_range.mpr (hij.trans hj)) j (List.mem_range.mpr hj) heq) hij.ne
  · rw [List.mem_range] at hx hy
    rcases lt_trichotomy x y with hxy | hxy | hxy
    · exact absurd heq (h x y hxy hy)
    · exact hxy
    · exact absurd heq.symm (h y x hxy hx)

/-! ### The components and their loads (R36 to R39) -/

/-- A component of the formula with its target. -/
def rawComponent (n : Nat) (s : State) (dn : Int) (i : Nat) : Component :=
  componentOf dn (componentSource (rawSource n s i)) (rawEntry n s i)

/-- The components of the formula. -/
def rawList (n : Nat) (s : State) (dn : Int) (m : Nat) : List Component := (List.range m).map (rawComponent n s dn)

theorem components_eq {m : Nat} (dn : Int) (h : m ≤ 10) :
    ((((List.range m).map (rawSource n s)).map componentSource).zip (rawComponents (formulaCopy n s) m)).map
      (fun p => componentOf dn p.1 p.2) = rawList n s dn m := by
  rw [rawComponents_eq h, List.map_map, List.zip_map', List.map_map]
  rfl

/-- The places of the components of a range of source codes. -/
def among (n : Nat) (s : State) (m lo hi : Nat) : List Nat :=
  (List.range m).filter fun i => decide (lo ≤ rawSource n s i ∧ rawSource n s i < hi)

theorem filter_rawList {m : Nat} (dn : Int) (hcodes : ∀ i, i < m → rawSource n s i < 10) {sc : Scale} {lo hi : Nat}
    (hscale : ∀ c, c < 10 → ((componentSource c).scale == sc) = decide (lo ≤ c ∧ c < hi)) :
    (rawList n s dn m).filter (fun c => c.source.scale == sc) = (among n s m lo hi).map (rawComponent n s dn) := by
  unfold rawList among
  rw [List.filter_map]
  congr 1
  refine List.filter_congr fun i hi => ?_
  exact hscale _ (hcodes i (List.mem_range.mp hi))

theorem scaleLoad_eq {m : Nat} (dn : Int) (hcodes : ∀ i, i < m → rawSource n s i < 10) {sc : Scale} {lo hi : Nat}
    (hscale : ∀ c, c < 10 → ((componentSource c).scale == sc) = decide (lo ≤ c ∧ c < hi)) :
    scaleLoad (rawList n s dn m) sc = ((among n s m lo hi).map fun i => shareMass dn (rawShare n s i)).sum := by
  unfold scaleLoad
  rw [foldl_add_eq_sum, filter_rawList dn hcodes hscale, List.map_map]
  rfl

theorem reclaimedShare_eq {m : Nat} (dn : Int) (hcodes : ∀ i, i < m → rawSource n s i < 10) :
    reclaimedShare (rawList n s dn m) = ((among n s m 6 8).map (rawShare n s)).sum := by
  unfold reclaimedShare
  rw [foldl_add_eq_sum, filter_rawList dn hcodes fun c hc => (componentSource_scale hc).2.1, List.map_map]
  rfl

end

end Sys2Proof.Machine
end

section
/-! The checks of an examination (O24), second part: a refusal by its reason, and an order that passes (R15, R32 to
R41). -/

namespace Sys2Proof.Machine

section
variable (n : Nat) (s : State)

/-! ### What an examination reads of the slot and of the formula it names -/

def rawCount : Nat := (formulaWord n 14 s).toNat
def rawBinder : Nat := (formulaWord n 6 s).toNat
/-- The binder content, brought into range. -/
def rawContent : Nat := (clampTo 20 90 (formulaWord n 4 s).toInt).toNat
/-- The binder content of the reclaimed material, brought into range. -/
def rawReclaimedContent : Nat := min (formulaWord n 5 s).toNat 80
def slotCountRead : Nat := (s.rd (Win.slot n + 8)).toNat
def slotMassRead : Nat := (s.rd (Win.slot n + 10)).toNat

/-! ### The values it derives (R36 to R39) -/

def derivedDry : Int := dryMass (slotMassRead n s) (rawContent n s)
def derivedReclaimed : Nat := ((among n s (rawCount n s) 6 8).map (rawShare n s)).sum
def derivedPn : Int := shareMass (derivedDry n s) (derivedReclaimed n s)
def derivedBn : Int := binderMass (rawContent n s) (rawReclaimedContent n s) (derivedDry n s) (derivedPn n s)
/-- The load of the components of a range of source codes. -/
def derivedLoad (lo hi : Nat) : Int :=
  ((among n s (rawCount n s) lo hi).map fun i => shareMass (derivedDry n s) (rawShare n s i)).sum

/-- The capacity a scale record holds. -/
def capacityRead (sc : Scale) : Int := ((s.rd (Win.scale sc + 6)).toNat : Int)

/-- A load is above the capacity of its scale. -/
def tooHeavy : Prop :=
  capacityRead s .agg < derivedLoad n s 0 6 ∨ capacityRead s .rap < derivedPn n s ∨
    capacityRead s .fil < derivedLoad n s 8 10 ∨ capacityRead s .bit < derivedBn n s

/-- The source of a code is not enabled. -/
def sourceOff (c : Nat) : Prop := s.rd (0x200 + 64 * c) ≠ 1

/-- The components of a formula that may be dosed: each code a component source and none twice. -/
structure FormulaFits : Prop where
  count : 1 ≤ rawCount n s ∧ rawCount n s ≤ 10
  distinct : ∀ i j, i < j → j < rawCount n s → rawSource n s i ≠ rawSource n s j
  sources : ∀ i, i < rawCount n s → rawSource n s i < 10 ∧ ¬sourceOff s (rawSource n s i)
  binder : rawBinder n s = 10 ∨ rawBinder n s = 11
  tank : ¬sourceOff s (rawBinder n s)
  shares : ((List.range (rawCount n s)).map (rawShare n s)).sum = 1000

/-- Why an examination refuses, with the revision it records. -/
inductive RefusalReason : RefusalCode → Word → Prop
  | orderNumber (h : s.rd (Win.slot n + 2) = 0) : RefusalReason .orderNumber 0
  | formulaRange (h0 : s.rd (Win.slot n + 2) ≠ 0) (h : 23 < (s.rd (Win.slot n + 6)).toNat) :
      RefusalReason .formulaRange 0
  | formulaNotReady (h0 : s.rd (Win.slot n + 2) ≠ 0) (h : formulaWord n 0 s ≠ 2) :
      RefusalReason .formulaNotReady (formulaWord n 1 s)
  | componentCount (h0 : s.rd (Win.slot n + 2) ≠ 0) (h : rawCount n s < 1 ∨ 10 < rawCount n s) :
      RefusalReason .componentCount (formulaWord n 1 s)
  | duplicateSource (h0 : s.rd (Win.slot n + 2) ≠ 0)
      (h : ∃ i j, i < j ∧ j < rawCount n s ∧ rawSource n s i = rawSource n s j) :
      RefusalReason .duplicateSource (formulaWord n 1 s)
  | sourceDisabled (h0 : s.rd (Win.slot n + 2) ≠ 0)
      (h : (∃ i, i < rawCount n s ∧ (10 ≤ rawSource n s i ∨ sourceOff s (rawSource n s i))) ∨
        (rawBinder n s ≠ 10 ∧ rawBinder n s ≠ 11) ∨ sourceOff s (rawBinder n s)) :
      RefusalReason .sourceDisabled (formulaWord n 1 s)
  | shareSum (h0 : s.rd (Win.slot n + 2) ≠ 0) (h : ((List.range (rawCount n s)).map (rawShare n s)).sum ≠ 1000) :
      RefusalReason .shareSum (formulaWord n 1 s)
  | batchCount (h0 : s.rd (Win.slot n + 2) ≠ 0) (h : slotCountRead n s < 1 ∨ 8 < slotCountRead n s) :
      RefusalReason .batchCount (formulaWord n 1 s)
  | massRange (h0 : s.rd (Win.slot n + 2) ≠ 0) (h : slotMassRead n s < 5000 ∨ 60000 < slotMassRead n s) :
      RefusalReason .massRange (formulaWord n 1 s)
  | scaleCapacity (h0 : s.rd (Win.slot n + 2) ≠ 0) (h : tooHeavy n s) :
      RefusalReason .scaleCapacity (formulaWord n 1 s)
  | destination (h0 : s.rd (Win.slot n + 2) ≠ 0) (h : 3 < (s.rd (Win.slot n + 12)).toNat) :
      RefusalReason .destination (formulaWord n 1 s)

/-- The snapshot taken. -/
def snapRead : Snapshot :=
  snapshotOf (formulaWord n 1 s) (formulaCopy n s) (binderTank (rawBinder n s))
    (rawList n s (derivedDry n s) (rawCount n s))

/-- An order that passes all checks. -/
structure OrderPasses (o : Order) : Prop where
  number : s.rd (Win.slot n + 2) ≠ 0
  formula : (s.rd (Win.slot n + 6)).toNat ≤ 23
  valid : formulaWord n 0 s = 2
  fits : FormulaFits n s
  count : 1 ≤ slotCountRead n s ∧ slotCountRead n s ≤ 8
  mass : 5000 ≤ slotMassRead n s ∧ slotMassRead n s ≤ 60000
  light : ¬tooHeavy n s
  dest : Route.ofDest (s.rd (Win.slot n + 12)).toNat = some o.dest
  order : o = { orderOf n (headerRead n s) (snapRead n s) .truck (derivedDry n s) (s.rd Win.dryerMax).toInt with
    dest := o.dest }

/-- How the checks of the slot end. -/
def Examines (x : Examined) : Prop :=
  (∃ code revision, x = .inl (code, revision) ∧ RefusalReason n s code revision) ∨ ∃ o, x = .inr o ∧ OrderPasses n s o

end

/-! ### The checks (R15) -/

section
variable {n : Nat} {s : State}

theorem ofDest_none {d : Nat} (h : Route.ofDest d = none) : 3 < d := by
  by_contra hd
  have hd : d < 4 := by omega
  interval_cases d <;> simp [Route.ofDest] at h

/-- The order as its context is formed, but for its destination. -/
def orderRead (n : Nat) (s : State) : Order :=
  orderOf n (headerRead n s) (snapRead n s) .truck (derivedDry n s) (s.rd Win.dryerMax).toInt

theorem snapRead_b (n : Nat) (s : State) : (snapRead n s).b = rawContent n s := by
  unfold snapRead snapshotOf rawContent
  dsimp only
  rw [nthWord_formulaCopy (by decide)]

theorem snapRead_r (n : Nat) (s : State) : (snapRead n s).r = rawReclaimedContent n s := by
  unfold snapRead snapshotOf rawReclaimedContent
  dsimp only
  rw [nthWord_formulaCopy (by decide)]

section
variable (hcodes : ∀ i, i < rawCount n s → rawSource n s i < 10)
include hcodes

theorem orderRead_s : (orderRead n s).s = derivedReclaimed n s := reclaimedShare_eq (derivedDry n s) hcodes

theorem orderRead_pn : (orderRead n s).pn = derivedPn n s := congrArg (shareMass (derivedDry n s)) (orderRead_s hcodes)

theorem orderRead_bn : (orderRead n s).bn = derivedBn n s := by
  have hpn := orderRead_pn hcodes
  have hbn : (orderRead n s).bn =
      binderMass (snapRead n s).b (snapRead n s).r (derivedDry n s) (orderRead n s).pn := rfl
  rw [hbn, hpn, snapRead_b, snapRead_r]
  rfl

/-- The loads fit their scales. -/
theorem loads_fit_iff : (scaleLoad (snapRead n s).comps .agg ≤ capacityRead s .agg ∧
      (orderRead n s).pn ≤ capacityRead s .rap ∧ scaleLoad (snapRead n s).comps .fil ≤ capacityRead s .fil ∧
      (orderRead n s).bn ≤ capacityRead s .bit) ↔ ¬tooHeavy n s := by
  have hagg : scaleLoad (snapRead n s).comps .agg = derivedLoad n s 0 6 :=
    scaleLoad_eq (derivedDry n s) hcodes fun c hc => (componentSource_scale hc).1
  have hfil : scaleLoad (snapRead n s).comps .fil = derivedLoad n s 8 10 :=
    scaleLoad_eq (derivedDry n s) hcodes fun c hc => (componentSource_scale hc).2.2
  rw [hagg, hfil, orderRead_pn hcodes, orderRead_bn hcodes]
  unfold tooHeavy
  simp only [not_or, not_lt]

end

/-- The enabled words read are those of the components and of the tank. -/
theorem sources_enabled_iff (hcodes : ∀ i, i < rawCount n s → rawSource n s i < 10)
    (hbinder : rawBinder n s = 10 ∨ rawBinder n s = 11) :
    (((((List.range (rawCount n s)).map (rawSource n s)).map componentSource ++ [(binderTank (rawBinder n s)).source]).map
      Win.source).map s.rd).all (fun w => w == 1) = true ↔
      (∀ i, i < rawCount n s → ¬sourceOff s (rawSource n s i)) ∧ ¬sourceOff s (rawBinder n s) := by
  have haddr {i : Nat} (hi : i < rawCount n s) :
      Win.source (componentSource (rawSource n s i)) = 0x200 + 64 * rawSource n s i := by
    rw [Win.source_eq, (componentSource_spec (hcodes i hi)).2]
  have htank : Win.source (binderTank (rawBinder n s)).source = 0x200 + 64 * rawBinder n s := by
    rw [Win.source_eq, binderTank_code hbinder]
  unfold sourceOff
  simp only [List.all_map, List.map_append, List.all_append, List.map_cons, List.map_nil, List.all_cons, List.all_nil,
    Bool.and_true, Bool.and_eq_true, List.all_eq_true, List.mem_range, Function.comp_apply, beq_iff_eq, not_not, htank]
  exact and_congr_left fun _ => forall₂_congr fun i hi => by rw [haddr hi]

section
variable (hnone : s.port.waiting = []) (h0 : s.rd (Win.slot n + 2) ≠ 0)
include hnone h0

/-- Checks 8 to 11. -/
theorem examineLoads_examines (hrange : (s.rd (Win.slot n + 6)).toNat ≤ 23) (hvalid : formulaWord n 0 s = 2)
    (hfits : FormulaFits n s) :
    Examines n s (examineLoads n (headerRead n s) (snapRead n s) (derivedDry n s) s).1 := by
  have hloads := loads_fit_iff (fun i hi => (hfits.sources i hi).1)
  have hcount : (nthWord (headerRead n s) 2).toNat = slotCountRead n s := rfl
  have hmass : (nthWord (headerRead n s) 3).toNat = slotMassRead n s := rfl
  have hdest : (nthWord (headerRead n s) 4).toNat = (s.rd (Win.slot n + 12)).toNat := rfl
  have hrevision : (snapRead n s).revision = formulaWord n 1 s := rfl
  unfold examineLoads
  dsimp only
  rw [hcount, hmass, hrevision]
  by_cases hc : slotCountRead n s < 1 ∨ 8 < slotCountRead n s
  · rw [if_pos hc]
    exact .inl ⟨_, _, rfl, .batchCount h0 hc⟩
  rw [if_neg hc]
  by_cases hm : slotMassRead n s < 5000 ∨ 60000 < slotMassRead n s
  · rw [if_pos hm]
    exact .inl ⟨_, _, rfl, .massRange h0 hm⟩
  rw [if_neg hm, readAll_of_none hnone, readAll_of_none (by exact hnone)]
  dsimp only
  by_cases hheavy : tooHeavy n s
  · rw [if_neg fun hfit => ?_]
    · exact .inl ⟨.scaleCapacity, _, rfl, .scaleCapacity h0 hheavy⟩
    · simp only [Bool.and_eq_true] at hfit
      obtain ⟨⟨⟨hagg, hrap⟩, hfil⟩, hbit⟩ := hfit
      exact hloads.mp ⟨of_decide_eq_true hagg, of_decide_eq_true hrap, of_decide_eq_true hfil,
        of_decide_eq_true hbit⟩ hheavy
  · obtain ⟨hagg, hrap, hfil, hbit⟩ := hloads.mpr hheavy
    rw [if_pos (by
      simp only [Bool.and_eq_true]
      exact ⟨⟨⟨decide_eq_true hagg, decide_eq_true hrap⟩, decide_eq_true hfil⟩, decide_eq_true hbit⟩), hdest]
    split
    · next d hd =>
      exact .inr ⟨_, rfl, h0, hrange, hvalid, hfits, by omega, by omega, hheavy, hd, rfl⟩
    · next hd => exact .inl ⟨_, _, rfl, .destination h0 (ofDest_none hd)⟩

/-- Checks 4 to 11. -/
theorem examineFormula_examines (hrange : (s.rd (Win.slot n + 6)).toNat ≤ 23) (hvalid : formulaWord n 0 s = 2) :
    Examines n s (examineFormula n (headerRead n s) (formulaWord n 1 s) (formulaCopy n s) s).1 := by
  have hcountWord : (nthWord (formulaCopy n s) 14).toNat = rawCount n s :=
    congrArg BitVec.toNat (nthWord_formulaCopy (by decide))
  have hbinderWord : (nthWord (formulaCopy n s) 6).toNat = rawBinder n s :=
    congrArg BitVec.toNat (nthWord_formulaCopy (by decide))
  have hcontent : (clampTo 20 90 (nthWord (formulaCopy n s) 4).toInt).toNat = rawContent n s := by
    rw [nthWord_formulaCopy (by decide)]
    rfl
  unfold examineFormula
  dsimp only
  rw [hcountWord, hbinderWord, hcontent]
  by_cases hcount : rawCount n s < 1 ∨ 10 < rawCount n s
  · rw [if_pos hcount]
    exact .inl ⟨_, _, rfl, .componentCount h0 hcount⟩
  have hten : rawCount n s ≤ 10 := by omega
  rw [if_neg hcount, rawCodes_eq hten, rawShares_eq hten]
  by_cases hdistinct : ∀ i j, i < j → j < rawCount n s → rawSource n s i ≠ rawSource n s j
  case neg =>
    rw [if_pos ((hasDuplicate_iff _).mpr (mt (rawSource_distinct _).mp hdistinct))]
    simp only [not_forall, not_not] at hdistinct
    obtain ⟨i, j, hij, hj, heq⟩ := hdistinct
    exact .inl ⟨_, _, rfl, .duplicateSource h0 ⟨i, j, hij, hj, heq⟩⟩
  rw [if_neg fun hdup => (hasDuplicate_iff _).mp hdup ((rawSource_distinct _).mpr hdistinct)]
  have hmem (c : Nat) : c ∈ (List.range (rawCount n s)).map (rawSource n s) ↔
      ∃ i, i < rawCount n s ∧ rawSource n s i = c := by simp
  by_cases hunfit : (∃ i, i < rawCount n s ∧ 10 ≤ rawSource n s i) ∨ (rawBinder n s ≠ 10 ∧ rawBinder n s ≠ 11)
  · rw [checkSources_of_unfit (hunfit.imp_left fun ⟨i, hi, hcode⟩ => ⟨_, (hmem _).mpr ⟨i, hi, rfl⟩, hcode⟩)]
    exact .inl ⟨_, _, rfl, .sourceDisabled h0 (hunfit.imp (fun ⟨i, hi, hcode⟩ => ⟨i, hi, .inl hcode⟩) .inl)⟩
  have hcodes : ∀ i, i < rawCount n s → rawSource n s i < 10 := fun i hi =>
    not_le.mp fun hcode => hunfit (.inl ⟨i, hi, hcode⟩)
  have hbinder : rawBinder n s = 10 ∨ rawBinder n s = 11 := by
    by_contra hb
    exact hunfit (.inr (not_or.mp hb))
  rw [checkSources_of_fit (fun c hc => by obtain ⟨i, hi, rfl⟩ := (hmem c).mp hc; exact hcodes i hi) hbinder]
  dsimp only
  rw [readAll_of_none hnone]
  dsimp only
  have henabled := sources_enabled_iff hcodes hbinder
  by_cases hon : (∀ i, i < rawCount n s → ¬sourceOff s (rawSource n s i)) ∧ ¬sourceOff s (rawBinder n s)
  case neg =>
    rw [if_neg (mt henabled.mp hon)]
    refine .inl ⟨_, _, rfl, .sourceDisabled h0 ?_⟩
    rcases not_and_or.mp hon with hoff | hoff
    · simp only [not_forall, not_not] at hoff
      obtain ⟨i, hi, hoff⟩ := hoff
      exact .inl ⟨i, hi, .inr hoff⟩
    · exact .inr (.inr (not_not.mp hoff))
  rw [if_pos (henabled.mpr hon)]
  by_cases hshares : ((List.range (rawCount n s)).map (rawShare n s)).sum = 1000
  case neg =>
    rw [if_neg hshares]
    exact .inl ⟨_, _, rfl, .shareSum h0 hshares⟩
  rw [if_pos hshares, components_eq _ hten]
  exact examineLoads_examines hnone h0 hrange hvalid
    ⟨⟨by omega, hten⟩, hdistinct, fun i hi => ⟨hcodes i hi, hon.1 i hi⟩, hbinder, hon.2, hshares⟩

/-- Checks 3 to 11. -/
theorem examineCopy_examines (hrange : (s.rd (Win.slot n + 6)).toNat ≤ 23) :
    Examines n s (examineCopy n (headerRead n s) (s.rd (Win.slot n + 6)).toNat s).1 := by
  have hguard := readAll_of_none hnone [Win.formula (s.rd (Win.slot n + 6)).toNat,
    Win.formula (s.rd (Win.slot n + 6)).toNat + 2]
  have hcopy : readAll ((List.range 64).map fun i => Win.formula (s.rd (Win.slot n + 6)).toNat + 2 * i) s =
      (formulaCopy n s, s) := by
    rw [readAll_of_none hnone, List.map_map]
    rfl
  unfold examineCopy
  simp only [hguard, hcopy]
  by_cases hvalid : formulaWord n 0 s = 2
  · rw [if_pos (by exact hvalid), if_pos ⟨by exact hvalid, trivial⟩]
    exact examineFormula_examines hnone h0 hrange hvalid
  · rw [if_neg (by exact hvalid)]
    exact .inl ⟨_, _, rfl, .formulaNotReady h0 hvalid⟩

omit h0 in
/-- The checks of an examination with no host access waiting. -/
theorem examineChecks_examines : Examines n s (examineChecks n (headerRead n s) s).1 := by
  unfold examineChecks
  by_cases h0 : s.rd (Win.slot n + 2) = 0
  · rw [if_pos (by exact h0)]
    exact .inl ⟨_, _, rfl, .orderNumber h0⟩
  rw [if_neg (by exact h0)]
  by_cases hrange : 23 < (s.rd (Win.slot n + 6)).toNat
  · rw [if_pos (by exact hrange)]
    exact .inl ⟨_, _, rfl, .formulaRange h0 hrange⟩
  rw [if_neg (by exact hrange)]
  exact examineCopy_examines hnone h0 (not_lt.mp hrange)

end
end

end Sys2Proof.Machine
end

section
/-! The checks of an examination (O24), third part: what a refusal and an accepted order tell (R15, R33, R40). -/

namespace Sys2Proof.Machine

section
variable {n : Nat} {s : State}

/-- What a refusal names is so. -/
theorem RefusalReason.told {code : RefusalCode} {revision : Word} (h : RefusalReason n s code revision) :
    (s.rd (Win.slot n + 2) = 0 ↔ code = .orderNumber) ∧ code ≠ .none ∧
      (code = .orderNumber ∨ code = .formulaRange → revision = 0) ∧
      (code ≠ .orderNumber → code ≠ .formulaRange → revision = formulaWord n 1 s) ∧
      (code = .formulaRange → 23 < (s.rd (Win.slot n + 6)).toNat) ∧
      (code = .formulaNotReady → formulaWord n 0 s ≠ 2) ∧
      (code = .componentCount → rawCount n s < 1 ∨ 10 < rawCount n s) ∧
      (code = .duplicateSource → ∃ i j, i < j ∧ j < rawCount n s ∧ rawSource n s i = rawSource n s j) ∧
      (code = .sourceDisabled →
        (∃ i, i < rawCount n s ∧ (10 ≤ rawSource n s i ∨ sourceOff s (rawSource n s i))) ∨
          (rawBinder n s ≠ 10 ∧ rawBinder n s ≠ 11) ∨ sourceOff s (rawBinder n s)) ∧
      (code = .shareSum → ((List.range (rawCount n s)).map (rawShare n s)).sum ≠ 1000) ∧
      (code = .batchCount → slotCountRead n s < 1 ∨ 8 < slotCountRead n s) ∧
      (code = .massRange → slotMassRead n s < 5000 ∨ 60000 < slotMassRead n s) ∧
      (code = .scaleCapacity → tooHeavy n s) ∧
      (code = .destination → 3 < (s.rd (Win.slot n + 12)).toNat) := by
  cases h with
  | orderNumber h => simp [h]
  | _ h0 h => simp_all

/-! ### The snapshot (R33) -/

theorem snapRead_values (n : Nat) (s : State) :
    let snap := snapRead n s
    snap.mixTemp = clampTo 1000 1900 (formulaWord n 2 s).toInt ∧
      snap.superheat = clampTo 0 300 (formulaWord n 3 s).toInt ∧ snap.binderTol = (formulaWord n 7 s).toNat ∧
      snap.binderReject = max (formulaWord n 7 s).toNat (formulaWord n 8 s).toNat ∧
      snap.winMin = (formulaWord n 9 s).toInt ∧ snap.winMax = (formulaWord n 10 s).toInt ∧
      snap.dryTime = min (formulaWord n 11 s).toNat 300 ∧
      snap.wetTime = max 50 (min (formulaWord n 12 s).toNat 900) ∧
      snap.overLimit = min (formulaWord n 13 s).toNat 600 := by
  unfold snapRead snapshotOf
  dsimp only
  refine ⟨?_, ?_, ?_, ?_, ?_, ?_, ?_, ?_, ?_⟩
  case refine_4 => rw [nthWord_formulaCopy (by decide), nthWord_formulaCopy (by decide)]
  all_goals rw [nthWord_formulaCopy (by decide)]

theorem snapRead_length (n : Nat) (s : State) : (snapRead n s).comps.length = rawCount n s := by
  have hcomps : (snapRead n s).comps = (List.range (rawCount n s)).map (rawComponent n s (derivedDry n s)) := rfl
  rw [hcomps, List.length_map, List.length_range]

theorem snapRead_component {i : Nat} (hi : i < rawCount n s) (hcode : rawSource n s i < 10) :
    ∃ c, (snapRead n s).comps[i]? = some c ∧ c.source.code = rawSource n s i ∧ c.share = rawShare n s i ∧
      c.tol = (formulaWord n (26 + 4 * i) s).toNat ∧
      c.reject = max (formulaWord n (26 + 4 * i) s).toNat (formulaWord n (27 + 4 * i) s).toNat ∧
      c.target = shareMass (derivedDry n s) (rawShare n s i) := by
  refine ⟨rawComponent n s (derivedDry n s) i, ?_, (componentSource_spec hcode).2, rfl, rfl, rfl, rfl⟩
  have hcomps : (snapRead n s).comps = (List.range (rawCount n s)).map (rawComponent n s (derivedDry n s)) := rfl
  rw [hcomps, List.getElem?_map, List.getElem?_range hi]
  rfl

/-! ### The order accepted (R15 to R17, R33 to R41) -/

section
variable {o : Order} (h : OrderPasses n s o)
include h

theorem OrderPasses.snap : o.snap = snapRead n s := congrArg Order.snap h.order

theorem OrderPasses.codes : ∀ i, i < rawCount n s → rawSource n s i < 10 := fun i hi => (h.fits.sources i hi).1

theorem OrderPasses.context : o.slot = n ∧ o.number = s.rd (Win.slot n + 2) ∧ o.count = slotCountRead n s ∧
    o.mass = slotMassRead n s ∧ o.started = 0 ∧ o.charged = 0 ∧ o.finished = 0 ∧ o.tickets = 0 ∧ o.level = .none ∧
    o.held = [] :=
  ⟨congrArg Order.slot h.order, congrArg Order.number h.order, congrArg Order.count h.order,
    congrArg Order.mass h.order, congrArg Order.started h.order, congrArg Order.charged h.order,
    congrArg Order.finished h.order, congrArg Order.tickets h.order, congrArg Order.level h.order,
    congrArg Order.held h.order⟩

theorem OrderPasses.derived : o.dn = derivedDry n s ∧ o.s = derivedReclaimed n s ∧ o.pn = derivedPn n s ∧
    o.bn = derivedBn n s :=
  ⟨congrArg Order.dn h.order, (congrArg Order.s h.order).trans (orderRead_s h.codes),
    (congrArg Order.pn h.order).trans (orderRead_pn h.codes), (congrArg Order.bn h.order).trans (orderRead_bn h.codes)⟩

theorem OrderPasses.temperature :
    let raw := aggTemp o.snap.mixTemp o.snap.superheat (derivedReclaimed n s)
    let top := (s.rd Win.dryerMax).toInt
    o.tAggRaw = raw ∧ o.tAgg = min raw top ∧ o.clamped = decide (top < raw) := by
  rw [h.snap]
  have hreclaimed : reclaimedShare (snapRead n s).comps = derivedReclaimed n s := orderRead_s h.codes
  rw [← hreclaimed]
  exact ⟨congrArg Order.tAggRaw h.order, congrArg Order.tAgg h.order, congrArg Order.clamped h.order⟩

end

end

end Sys2Proof.Machine
end

section
/-! Admission (O24): an examination with no host access waiting, the close at admission and the take (R2, R15 to
R17). -/

namespace Sys2Proof.Machine

/-! ### The checks read and change nothing -/

section
variable {s t : State} (hs : s.port.waiting = []) (ht : t.port.waiting = []) (hmem : t.mem = s.mem)
include hs ht hmem

omit hs ht in
theorem rd_of_mem_eq : t.rd = s.rd := funext (State.rd_of_mem hmem)

theorem examineLoads_of_mem (n : Nat) (hdr : List Word) (snap : Snapshot) (dn : Int) :
    examineLoads n hdr snap dn t = ((examineLoads n hdr snap dn s).1, t) := by
  unfold examineLoads
  simp only [readAll_of_none hs, readAll_of_none ht, rd_of_mem_eq hmem]
  repeat' split
  all_goals rfl

theorem examineFormula_of_mem (n : Nat) (hdr : List Word) (revision : Word) (ws : List Word) :
    examineFormula n hdr revision ws t = ((examineFormula n hdr revision ws s).1, t) := by
  unfold examineFormula
  simp only [readAll_of_none hs, readAll_of_none ht, rd_of_mem_eq hmem]
  split
  · rfl
  · split
    · rfl
    · split
      · rfl
      · split
        · split
          · exact examineLoads_of_mem hs ht hmem _ _ _ _
          · rfl
        · rfl

theorem examineCopy_of_mem (n : Nat) (hdr : List Word) (f : Nat) :
    examineCopy n hdr f t = ((examineCopy n hdr f s).1, t) := by
  unfold examineCopy
  simp only [readAll_of_none hs, readAll_of_none ht, rd_of_mem_eq hmem]
  split
  · split
    · exact examineFormula_of_mem hs ht hmem _ _ _ _
    · rfl
  · rfl

theorem examineChecks_of_mem (n : Nat) (hdr : List Word) :
    examineChecks n hdr t = ((examineChecks n hdr s).1, t) := by
  unfold examineChecks
  split
  · rfl
  · split
    · rfl
    · exact examineCopy_of_mem hs ht hmem _ _ _

end

/-! ### The examination (R15 to R17) -/

section
variable {s : State} (hnone : s.port.waiting = []) {n : Nat}
include hnone

theorem headerRead_eq : readAll (headerAddrs n) s = ((headerAddrs n).map s.rd, s) ∧
    s.rd (Win.slot n + 2) :: (headerAddrs n).map s.rd = headerRead n s := ⟨readAll_of_none hnone _, rfl⟩

theorem examine_refused {code : RefusalCode} {revision : Word}
    (h : (examineChecks n (headerRead n s) s).1 = .inl (code, revision)) :
    examine n (s.rd (Win.slot n + 2)) s = closeAtAdmission n (headerRead n s) .refused code revision s := by
  have hchecks := examineChecks_of_mem hnone hnone rfl n (headerRead n s)
  obtain ⟨hread, hheader⟩ := headerRead_eq hnone (n := n)
  unfold examine
  rw [hread]
  dsimp only
  rw [hheader, hchecks, h]

section
variable {o : Order} (h : (examineChecks n (headerRead n s) s).1 = .inr o)
include h

theorem examine_withdrawn (hlevel : Level.ofWord (s.rd (Win.slot n + 14)) ≠ .none) :
    examine n (s.rd (Win.slot n + 2)) s =
      closeAtAdmission n (headerRead n s) .withdrawn .none o.snap.revision s := by
  have hchecks := examineChecks_of_mem hnone hnone rfl n (headerRead n s)
  obtain ⟨hread, hheader⟩ := headerRead_eq hnone (n := n)
  unfold examine
  rw [hread]
  dsimp only
  rw [hheader, hchecks, h]
  exact if_neg hlevel

theorem examine_taken (hlevel : Level.ofWord (s.rd (Win.slot n + 14)) = .none) :
    examine n (s.rd (Win.slot n + 2)) s = takeOrder o s := by
  have hchecks := examineChecks_of_mem hnone hnone rfl n (headerRead n s)
  obtain ⟨hread, hheader⟩ := headerRead_eq hnone (n := n)
  unfold examine
  rw [hread]
  dsimp only
  rw [hheader, hchecks, h]
  exact if_pos hlevel

end

/-! ### The close at admission (R2, R16) -/

/-- The words between the guards of a close at admission. -/
def closingWords (n : Nat) (outcome : OrderOutcome) (code : RefusalCode) (revision : Word) (stamp : DWord) :
    List (Nat × Word) :=
  let a := Win.slot n
  [(a + 0x40, BitVec.ofNat 16 outcome.code), (a + 0x42, BitVec.ofNat 16 code.code), (a + 0x44, revision),
    (a + 0x46, 0), (a + 0x48, DWord.lowWord stamp), (a + 0x4A, DWord.highWord stamp),
    (a + 0x4C, DWord.lowWord stamp), (a + 0x4E, DWord.highWord stamp)]

/-- The position taken behind the words written. -/
def positioned (n : Nat) (number : Word) (l : List (Nat × Word)) (s : State) : State :=
  { s with mem := (writeWords (l ++ [(Win.chainPosition, BitVec.ofNat 16 n)]) s).mem
           oe := { s.oe with walker := .walking, pos := some ⟨n, number⟩, linkEarly := none } }

theorem takePosition_written (number : Word) (l : List (Nat × Word)) (unit : NoticeUnit) (e : OrderEngine) :
    takePosition n number { s with mem := (writeWords l s).mem, nu := unit, oe := e } =
      { s with mem := (writeWords (l ++ [(Win.chainPosition, BitVec.ofNat 16 n)]) s).mem, nu := unit,
               oe := { e with walker := .walking, pos := some ⟨n, number⟩, linkEarly := none } } := by
  rw [takePosition_of_none (by exact hnone), writeWords_append]
  rfl

theorem takePosition_noticed (hroom : s.nu.list.length < 16) (number : Word) (l : List (Nat × Word)) (x : Notice) :
    takePosition n number (submit x (writeWords l s)) =
      { positioned n number l s with nu.list := s.nu.list ++ [x] } := by
  have hsubmitted : submit x (writeWords l s) =
      { s with mem := (writeWords l s).mem, nu := { s.nu with list := s.nu.list ++ [x] }, oe := s.oe } := by
    rw [writeWords_frame l]
    exact submit_of_room (s := { s with mem := (writeWords l s).mem }) hroom x
  rw [hsubmitted, takePosition_written hnone]
  rfl

omit hnone in
theorem guardOk_posted {number : Word} (hstate : s.rd (Win.slot n) = 1) (hnumber : s.rd (Win.slot n + 2) = number) :
    guardOk [slotPosted] number (guardRead n s) = true := by
  unfold guardOk guardRead
  have hstate' : s.rd (Win.slot n + Win.slotState) = 1 := hstate
  have hnumber' : s.rd (Win.slot n + Win.slotNumber) = number := hnumber
  rw [hstate', hnumber']
  simp [slotPosted]

theorem closeAtAdmission_closes (hwf : Memory.wf s.mem = true) (hroom : s.nu.list.length < 16)
    (hstate : s.rd (Win.slot n) = 1) (outcome : OrderOutcome) (code : RefusalCode) (revision : Word) :
    closeAtAdmission n (headerRead n s) outcome code revision s =
      { positioned n (s.rd (Win.slot n + 2)) (closingWords n outcome code revision s.seconds ++ [(Win.slot n, 4)]) s with
        nu.list := s.nu.list ++ [⟨n, s.rd (Win.slot n + 2), 0,
          .orderClosed (loadOf (headerRead n s)) outcome code 0⟩] } := by
  have hseq := guardedSeq_of_pass hnone hwf (guardOk_posted hstate rfl)
    (between := closingWords n outcome code revision s.seconds)
    (fun x hx => by
      simp only [closingWords, List.mem_cons, List.not_mem_nil, or_false] at hx
      rcases hx with rfl | rfl | rfl | rfl | rfl | rfl | rfl | rfl <;> dsimp only <;> omega)
    (Win.slot n + Win.slotState, slotClosed)
  have hseq' : guardedSeq n [slotPosted] (nthWord (headerRead n s) 0)
      ([(Win.slot n + Win.slotOutcome, BitVec.ofNat 16 outcome.code),
        (Win.slot n + Win.slotRefusal, BitVec.ofNat 16 code.code), (Win.slot n + Win.slotRevision, revision),
        (Win.slot n + Win.slotTickets, 0)] ++ stampWrites (Win.slot n + Win.slotTakenAt) s.seconds ++
          stampWrites (Win.slot n + Win.slotClosedAt) s.seconds) (Win.slot n + Win.slotState, slotClosed) s =
      (writeWords (closingWords n outcome code revision s.seconds ++ [(Win.slot n, 4)]) s, none) := hseq
  unfold closeAtAdmission
  dsimp only
  rw [hseq']
  exact takePosition_noticed hnone hroom _ _ _

/-! ### The take (R2, R17) -/

/-- The words between the guards of a take. -/
def takingWords (n : Nat) (revision : Word) (stamp : DWord) : List (Nat × Word) :=
  let a := Win.slot n
  [(a + 0x44, revision), (a + 0x46, 0), (a + 0x48, DWord.lowWord stamp), (a + 0x4A, DWord.highWord stamp)]

/-- The state in which an order is taken, but for SETPOINT CLAMP. -/
def orderTaken (n : Nat) (o : Order) (s : State) : State :=
  followQueue (positioned n o.number (takingWords n o.snap.revision s.seconds ++ [(Win.slot n, 2)])
    { s with oe.queue := s.oe.queue ++ [o] })

theorem takeOrder_takes (hwf : Memory.wf s.mem = true) (hroom : s.nu.list.length < 16) (hstate : s.rd (Win.slot n) = 1)
    {o : Order} (hslot : o.slot = n) (hnumber : o.number = s.rd (Win.slot n + 2)) : takeOrder o s =
      if o.clamped then { orderTaken n o s with
        nu.list := s.nu.list ++ [⟨n, o.number, 0, .setpointClamp o.load o.tAggRaw o.tAgg⟩] }
      else orderTaken n o s := by
  subst hslot
  have hseq := guardedSeq_of_pass hnone hwf (guardOk_posted hstate hnumber.symm)
    (between := takingWords o.slot o.snap.revision s.seconds)
    (fun x hx => by
      simp only [takingWords, List.mem_cons, List.not_mem_nil, or_false] at hx
      rcases hx with rfl | rfl | rfl | rfl <;> dsimp only <;> omega)
    (Win.slot o.slot + Win.slotState, slotTaken)
  have hseq' : guardedSeq o.slot [slotPosted] o.number
      ([(Win.slot o.slot + Win.slotRevision, o.snap.revision), (Win.slot o.slot + Win.slotTickets, 0)] ++
        stampWrites (Win.slot o.slot + Win.slotTakenAt) s.seconds) (Win.slot o.slot + Win.slotState, slotTaken) s =
      (writeWords (takingWords o.slot o.snap.revision s.seconds ++ [(Win.slot o.slot, 2)]) s, none) := hseq
  have htaken : followQueue (takePosition o.slot o.number
      { writeWords (takingWords o.slot o.snap.revision s.seconds ++ [(Win.slot o.slot, 2)]) s with
        oe.queue := (writeWords (takingWords o.slot o.snap.revision s.seconds ++ [(Win.slot o.slot, 2)]) s).oe.queue ++
          [o] }) = orderTaken o.slot o s := by
    rw [writeWords_frame]
    refine congrArg followQueue ((takePosition_written hnone o.number _ s.nu
      { s.oe with queue := s.oe.queue ++ [o] }).trans ?_)
    unfold positioned
    rw [writeWords_mem_congr (s := s) (t := { s with oe.queue := s.oe.queue ++ [o] }) rfl]
  unfold takeOrder
  dsimp only
  rw [hseq']
  dsimp only
  rw [htaken]
  split
  · have hnu : (orderTaken o.slot o s).nu = s.nu := followQueue_nu _
    rw [submit_of_room (by rw [hnu]; exact hroom), hnu]
  · rfl

end

/-! ### What the slot holds behind an admission -/

section
variable {s : State} (hwf : Memory.wf s.mem = true) (n : Nat)
include hwf

theorem positioned_rd {number : Word} {l : List (Nat × Word)}
    (hapart : (l ++ [(Win.chainPosition, BitVec.ofNat 16 n)]).Pairwise wordsApart) {b : Nat} {w : Word}
    (h : (b, w) ∈ l ++ [(Win.chainPosition, BitVec.ofNat 16 n)]) : (positioned n number l s).rd b = w := by
  have hmem : (positioned n number l s).mem = (writeWords (l ++ [(Win.chainPosition, BitVec.ofNat 16 n)]) s).mem := rfl
  rw [State.rd_of_mem hmem]
  exact rd_writeWords_of_mem _ hwf hapart h

theorem positioned_byteAt {number : Word} {l : List (Nat × Word)} {b : Nat}
    (h : ∀ x ∈ l ++ [(Win.chainPosition, BitVec.ofNat 16 n)], b < x.1 ∨ x.1 + 2 ≤ b) :
    (positioned n number l s).byteAt b = s.byteAt b := by
  have hmem : (positioned n number l s).mem = (writeWords (l ++ [(Win.chainPosition, BitVec.ofNat 16 n)]) s).mem := rfl
  rw [State.byteAt_of_mem hmem]
  exact byteAt_writeWords_other _ hwf h

theorem positioned_rd32 {number : Word} {l : List (Nat × Word)}
    (hapart : (l ++ [(Win.chainPosition, BitVec.ofNat 16 n)]).Pairwise wordsApart) {b : Nat} {d : DWord}
    (hlow : (b, DWord.lowWord d) ∈ l ++ [(Win.chainPosition, BitVec.ofNat 16 n)])
    (hhigh : (b + 2, DWord.highWord d) ∈ l ++ [(Win.chainPosition, BitVec.ofNat 16 n)]) :
    (positioned n number l s).rd32 b = d := by
  unfold State.rd32
  rw [positioned_rd hwf n hapart hlow, positioned_rd hwf n hapart hhigh, highWord_append_lowWord]

/-- The bytes outside the slot header and the chain position. -/
def besideSlot (n b : Nat) : Prop :=
  b ≠ Win.chainPosition ∧ b ≠ Win.chainPosition + 1 ∧ (b < Win.slot n ∨ Win.slot n + 0x80 ≤ b)

theorem positioned_beside {number : Word} {l : List (Nat × Word)}
    (h : ∀ x ∈ l, Win.slot n ≤ x.1 ∧ x.1 + 2 ≤ Win.slot n + 0x80) {b : Nat} (hb : besideSlot n b) :
    (positioned n number l s).byteAt b = s.byteAt b := by
  obtain ⟨hlow, hhigh, hslot⟩ := hb
  refine positioned_byteAt hwf n fun x hx => ?_
  rcases List.mem_append.mp hx with hx | hx
  · obtain ⟨hfrom, hto⟩ := h x hx
    omega
  · obtain rfl := List.mem_singleton.mp hx
    dsimp only
    omega

theorem closed_told (outcome : OrderOutcome) (code : RefusalCode) (revision number : Word) (stamp : DWord) :
    let a := Win.slot n
    let t := positioned n number (closingWords n outcome code revision stamp ++ [(Win.slot n, 4)]) s
    t.rd a = 4 ∧ t.rd (a + 0x40) = BitVec.ofNat 16 outcome.code ∧ t.rd (a + 0x42) = BitVec.ofNat 16 code.code ∧
      t.rd (a + 0x44) = revision ∧ t.rd (a + 0x46) = 0 ∧ t.rd32 (a + 0x48) = stamp ∧ t.rd32 (a + 0x4C) = stamp ∧
      t.rd Win.chainPosition = BitVec.ofNat 16 n ∧ ∀ b, besideSlot n b → t.byteAt b = s.byteAt b := by
  intro a t
  have hapart : ((closingWords n outcome code revision stamp ++ [(Win.slot n, 4)]) ++
      [(Win.chainPosition, BitVec.ofNat 16 n)]).Pairwise wordsApart := by
    simp [closingWords, wordsApart, Win.slot, Win.chainPosition]
    omega
  refine ⟨positioned_rd hwf n hapart ?_, positioned_rd hwf n hapart ?_, positioned_rd hwf n hapart ?_,
    positioned_rd hwf n hapart ?_, positioned_rd hwf n hapart ?_, positioned_rd32 hwf n hapart ?_ ?_,
    positioned_rd32 hwf n hapart ?_ ?_, positioned_rd hwf n hapart ?_, fun b hb => positioned_beside hwf n (fun x hx => ?_) hb⟩
  case refine_11 =>
    simp only [closingWords, List.mem_append, List.mem_cons, List.not_mem_nil, or_false] at hx
    rcases hx with (rfl | rfl | rfl | rfl | rfl | rfl | rfl | rfl) | rfl <;> dsimp only <;> omega
  all_goals simp [closingWords, a]

theorem taken_told (revision number : Word) (stamp : DWord) :
    let a := Win.slot n
    let t := positioned n number (takingWords n revision stamp ++ [(Win.slot n, 2)]) s
    t.rd a = 2 ∧ t.rd (a + 0x44) = revision ∧ t.rd (a + 0x46) = 0 ∧ t.rd32 (a + 0x48) = stamp ∧
      t.rd Win.chainPosition = BitVec.ofNat 16 n ∧ ∀ b, besideSlot n b → t.byteAt b = s.byteAt b := by
  intro a t
  have hapart : ((takingWords n revision stamp ++ [(Win.slot n, 2)]) ++
      [(Win.chainPosition, BitVec.ofNat 16 n)]).Pairwise wordsApart := by
    simp [takingWords, wordsApart, Win.slot, Win.chainPosition]
    omega
  refine ⟨positioned_rd hwf n hapart ?_, positioned_rd hwf n hapart ?_, positioned_rd hwf n hapart ?_,
    positioned_rd32 hwf n hapart ?_ ?_, positioned_rd hwf n hapart ?_, fun b hb => positioned_beside hwf n (fun x hx => ?_) hb⟩
  case refine_7 =>
    simp only [takingWords, List.mem_append, List.mem_cons, List.not_mem_nil, or_false] at hx
    rcases hx with (rfl | rfl | rfl | rfl) | rfl <;> dsimp only <;> omega
  all_goals simp [takingWords, a]

end

end Sys2Proof.Machine
end

section
/-! Admission as the look point reaches it (O24): the slot the walker meets, and what the close and the take tell. -/

namespace Sys2Proof.Machine

/-! ### The load identifier -/

theorem lowByte_joinBytes (lo hi : Byte) : Word.lowByte (joinBytes lo hi) = lo := by
  apply BitVec.eq_of_getLsbD_eq
  intro i hi'
  simp only [joinBytes, Word.lowByte, BitVec.getLsbD_setWidth, BitVec.getLsbD_append]
  simp [hi']

theorem highByte_joinBytes (lo hi : Byte) : Word.highByte (joinBytes lo hi) = hi := by
  apply BitVec.eq_of_getLsbD_eq
  intro i hi'
  simp only [joinBytes, Word.highByte, BitVec.getLsbD_setWidth, BitVec.getLsbD_ushiftRight, BitVec.getLsbD_append]
  simp [hi']

theorem loadOf_headerRead (n : Nat) (s : State) :
    loadOf (headerRead n s) = (List.range 8).map fun i => s.byteAt (Win.slot n + 0x10 + i) := by
  have hwords : loadOf (headerRead n s) = [Word.lowByte (s.rd (Win.slot n + 16)), Word.highByte (s.rd (Win.slot n + 16)),
      Word.lowByte (s.rd (Win.slot n + 18)), Word.highByte (s.rd (Win.slot n + 18)),
      Word.lowByte (s.rd (Win.slot n + 20)), Word.highByte (s.rd (Win.slot n + 20)),
      Word.lowByte (s.rd (Win.slot n + 22)), Word.highByte (s.rd (Win.slot n + 22))] := rfl
  rw [hwords]
  unfold State.rd
  simp only [lowByte_joinBytes, highByte_joinBytes]
  rfl

/-! ### The slot the walker meets (R6, R7, R10) -/

section
variable {s : State} {n : Nat}

/-- The walker is led to the slot, by the chain entry or by the link of its position. -/
def ledTo (n : Nat) (s : State) : Prop :=
  (s.oe.walker = .noEntry ∧ s.rd Win.chainEntry = BitVec.ofNat 16 n) ∨
    (s.oe.walker = .walking ∧ ∃ p, s.oe.pos = some p ∧ s.rd (Win.slot p.slot) ∈ [(2 : Word), 3, 4] ∧
      s.rd (Win.slot p.slot + 2) = p.number ∧ s.rd (Win.slot p.slot + Win.slotLink) = BitVec.ofNat 16 n)

theorem walk_examines (hnone : s.port.waiting = []) (hn : n < 32) (hroom : s.oe.queue.length < 3)
    (hqueue : findOrder s n (s.rd (Win.slot n + 2)) = none) (hled : ledTo n s) (hstate : s.rd (Win.slot n) = 1) :
    walk s = examine n (s.rd (Win.slot n + 2)) s := by
  have hword : (BitVec.ofNat 16 n).toNat = n := by
    rw [BitVec.toNat_ofNat]
    exact Nat.mod_eq_of_lt (by omega)
  have hmeets (fromEntry : Bool) : followLink (s.oe.queue.length + 1) fromEntry (BitVec.ofNat 16 n) [] s =
      examine n (s.rd (Win.slot n + 2)) s := by
    rw [followLink_meets hnone (by rw [hword]; exact hn) (by rw [hword]; exact hqueue), hword]
    exact (if_pos hstate).trans (if_pos hroom)
  rcases hled with ⟨hwalker, hentry⟩ | ⟨hwalker, p, hpos, hstays, hnumber, hlink⟩
  · rw [walk_noEntry hnone hwalker, hentry, hmeets]
  · rw [walk_follows hnone hwalker hpos ⟨hstays, hnumber⟩, hlink, hmeets]

end

/-! ### What an admission leaves -/

theorem positioned_frame (n : Nat) (number : Word) (l : List (Nat × Word)) (s : State) :
    let t := positioned n number l s
    t.oe.walker = .walking ∧ t.oe.pos = some ⟨n, number⟩ ∧ t.oe.linkEarly = none ∧ t.oe.queue = s.oe.queue ∧
      t.rc = s.rc ∧ t.co = s.co ∧ t.ch = s.ch ∧ t.mixer = s.mixer ∧ t.heat = s.heat ∧ t.nu = s.nu :=
  ⟨rfl, rfl, rfl, rfl, rfl, rfl, rfl, rfl, rfl, rfl⟩

section
variable {s : State} (hnone : s.port.waiting = []) (hwf : Memory.wf s.mem = true) {n : Nat}
  (hstate : s.rd (Win.slot n) = 1) (hroom : s.nu.list.length < 16)
include hnone hwf hstate hroom

/-- An admission that closes the slot. -/
theorem closeAtAdmission_told (outcome : OrderOutcome) (code : RefusalCode) (revision : Word) :
    let a := Win.slot n
    let number := s.rd (a + 2)
    let u := closeAtAdmission n (headerRead n s) outcome code revision s
    (u.rd a = 4 ∧ u.rd (a + 0x40) = BitVec.ofNat 16 outcome.code ∧ u.rd (a + 0x42) = BitVec.ofNat 16 code.code ∧
      u.rd (a + 0x44) = revision ∧ u.rd (a + 0x46) = 0 ∧ u.rd32 (a + 0x48) = s.seconds ∧
      u.rd32 (a + 0x4C) = s.seconds ∧ u.oe.queue = s.oe.queue ∧
      u.nu = { s.nu with list := s.nu.list ++ [⟨n, number, 0,
        .orderClosed ((List.range 8).map fun i => s.byteAt (a + 0x10 + i)) outcome code 0⟩] }) ∧
    (u.rd Win.chainPosition = BitVec.ofNat 16 n ∧ u.oe.walker = .walking ∧ u.oe.pos = some ⟨n, number⟩ ∧
      u.oe.linkEarly = none ∧ u.rc = s.rc ∧ u.co = s.co ∧ u.ch = s.ch ∧ u.mixer = s.mixer ∧
      ∀ b, b ≠ Win.chainPosition → b ≠ Win.chainPosition + 1 → (b < a ∨ a + 0x80 ≤ b) →
        u.byteAt b = s.byteAt b) ∧ u.heat = s.heat := by
  intro a number u
  obtain ⟨h0, h40, h42, h44, h46, h48, h4C, hpos, hbeside⟩ :=
    closed_told hwf n outcome code revision number s.seconds
  have hu : u = { positioned n number (closingWords n outcome code revision s.seconds ++ [(Win.slot n, 4)]) s with
      nu.list := s.nu.list ++ [⟨n, number, 0, .orderClosed (loadOf (headerRead n s)) outcome code 0⟩] } :=
    closeAtAdmission_closes hnone hwf hroom hstate outcome code revision
  rw [loadOf_headerRead] at hu
  have hframe := positioned_frame n number (closingWords n outcome code revision s.seconds ++ [(Win.slot n, 4)]) s
  generalize positioned n number (closingWords n outcome code revision s.seconds ++ [(Win.slot n, 4)]) s = t at *
  obtain ⟨hwalker, hposition, hearly, hqueue, hrc, hco, hch, hmixer, hheat, hnu⟩ := hframe
  rw [hu]
  exact ⟨⟨h0, h40, h42, h44, h46, h48, h4C, hqueue, by dsimp only; rw [hnu]⟩, ⟨hpos, hwalker, hposition, hearly, hrc, hco, hch,
    hmixer, fun b hlow hhigh hb => hbeside b ⟨hlow, hhigh, hb⟩⟩, hheat⟩

/-- An admission that takes the order. -/
theorem takeOrder_told {o : Order} (hslot : o.slot = n) (hnumber : o.number = s.rd (Win.slot n + 2)) :
    let a := Win.slot n
    let u := takeOrder o s
    (u.rd Win.chainPosition = BitVec.ofNat 16 n ∧ u.oe.walker = .walking ∧ u.oe.pos = some ⟨n, o.number⟩ ∧
      u.oe.linkEarly = none ∧ u.rc = s.rc ∧ u.co = s.co ∧ u.ch = s.ch ∧ u.mixer = s.mixer ∧
      ∀ b, b ≠ Win.chainPosition → b ≠ Win.chainPosition + 1 → (b < a ∨ a + 0x80 ≤ b) →
        u.byteAt b = s.byteAt b) ∧
    u.rd a = 2 ∧ u.rd (a + 0x44) = o.snap.revision ∧ u.rd (a + 0x46) = 0 ∧ u.rd32 (a + 0x48) = s.seconds ∧
      u.oe.queue = s.oe.queue ++ [o] ∧ (o.clamped = false → u.nu = s.nu) ∧
      (o.clamped = true → u.nu = { s.nu with list := s.nu.list ++
        [⟨n, o.number, 0, .setpointClamp o.load o.tAggRaw o.tAgg⟩] }) := by
  intro a u
  obtain ⟨h0, h44, h46, h48, hpos, hbeside⟩ := taken_told (s := { s with oe.queue := s.oe.queue ++ [o] }) hwf n
    o.snap.revision o.number s.seconds
  have hframe := positioned_frame n o.number (takingWords n o.snap.revision s.seconds ++ [(Win.slot n, 2)])
    { s with oe.queue := s.oe.queue ++ [o] }
  have hu : u = if o.clamped then { orderTaken n o s with
      nu.list := s.nu.list ++ [⟨n, o.number, 0, .setpointClamp o.load o.tAggRaw o.tAgg⟩] }
      else orderTaken n o s := takeOrder_takes hnone hwf hroom hstate hslot hnumber
  unfold orderTaken at hu
  generalize positioned n o.number (takingWords n o.snap.revision s.seconds ++ [(Win.slot n, 2)])
    { s with oe.queue := s.oe.queue ++ [o] } = t at *
  obtain ⟨hwalker, hposition, hearly, hqueue, hrc, hco, hch, hmixer, -, hnu⟩ := hframe
  have hmem : u.mem = t.mem := by
    rw [hu]
    split <;> exact followQueue_mem t
  have hoe : u.oe = t.oe := by
    rw [hu]
    split <;> exact followQueue_oe t
  have hrest : u.rc = t.rc ∧ u.co = t.co ∧ u.ch = t.ch ∧ u.mixer = t.mixer := by
    rw [hu]
    split <;> exact ⟨followQueue_rc t, followQueue_co t, followQueue_ch t, followQueue_mixer t⟩
  obtain ⟨hrc', hco', hch', hmixer'⟩ := hrest
  rw [hoe]
  refine ⟨⟨(State.rd_of_mem hmem _).trans hpos, hwalker, hposition, hearly, hrc'.trans hrc, hco'.trans hco,
    hch'.trans hch, hmixer'.trans hmixer, fun b hlow hhigh hb =>
      (State.byteAt_of_mem hmem b).trans (hbeside b ⟨hlow, hhigh, hb⟩)⟩, (State.rd_of_mem hmem _).trans h0,
    (State.rd_of_mem hmem _).trans h44, (State.rd_of_mem hmem _).trans h46, ?_, hqueue, fun hclamped => ?_,
    fun hclamped => ?_⟩
  · rw [← h48]
    unfold State.rd32
    rw [State.rd_of_mem hmem, State.rd_of_mem hmem]
  · rw [hu, hclamped, if_neg Bool.false_ne_true, followQueue_nu, hnu]
  · rw [hu, hclamped, if_pos rfl]
    dsimp only
    rw [followQueue_nu, hnu]

end

theorem orderPasses_of {s : State} (hnone : s.port.waiting = []) {n : Nat} {o : Order}
    (h : (examineChecks n (headerRead n s) s).1 = .inr o) : OrderPasses n s o := by
  rcases examineChecks_examines (n := n) hnone with ⟨code, revision, heq, -⟩ | ⟨o', heq, hpasses⟩
  · exact absurd (heq.symm.trans h) (by simp)
  · obtain rfl := Sum.inr.inj (heq.symm.trans h)
    exact hpasses

end Sys2Proof.Machine
end

section
/-! An examination with one host write waiting (O24): the write is served between two part accesses of it, and the
guard behind it fails (R2, R19, R180). -/

namespace Sys2Proof.Machine

/-! ### One host write, some part accesses away -/

/-- The state in which `k` part accesses have come nearer the host write's turn, or it is served. -/
def awaiting (h : HostAccess) (k : Nat) (s : State) : State :=
  if k ≤ h.behind then { s with port.waiting := [{ h with behind := h.behind - k }] }
  else { s.wr h.addr h.data with port.waiting := [] }

section
variable {h : HostAccess} {k : Nat} {s : State}

theorem awaiting_waits (hk : k ≤ h.behind) :
    awaiting h k s = { s with port.waiting := [{ h with behind := h.behind - k }] } := if_pos hk

theorem awaiting_served (hk : h.behind < k) :
    awaiting h k s = { s.wr h.addr h.data with port.waiting := [] } := if_neg (not_le.mpr hk)

theorem gap_awaiting (hwrite : h.write = true) : gap (awaiting h k s) = awaiting h (k + 1) s := by
  rcases lt_trichotomy k h.behind with hk | hk | hk
  · obtain ⟨m, hm⟩ : ∃ m, h.behind - k = m + 1 := ⟨h.behind - k - 1, by omega⟩
    have hm' : h.behind - (k + 1) = m := by omega
    rw [awaiting_waits hk.le, awaiting_waits (show k + 1 ≤ h.behind by omega), hm, hm']
    rfl
  · have hzero : h.behind - k = 0 := by omega
    rw [awaiting_waits hk.le, awaiting_served (show h.behind < k + 1 by omega), hzero]
    unfold gap serveDue serveAccess
    dsimp only
    rw [if_pos hwrite]
    rfl
  · rw [awaiting_served hk, awaiting_served (show h.behind < k + 1 by omega)]
    exact gap_of_none rfl

theorem awaiting_rd_waits (hk : k ≤ h.behind) (b : Nat) : (awaiting h k s).rd b = s.rd b := by
  rw [awaiting_waits hk]
  rfl

theorem awaiting_rd_apart (hwf : Memory.wf s.mem = true) {b : Nat} (hb : b + 2 ≤ h.addr ∨ h.addr + 2 ≤ b) :
    (awaiting h k s).rd b = s.rd b := by
  by_cases hk : k ≤ h.behind
  · exact awaiting_rd_waits hk b
  · rw [awaiting_served (not_le.mp hk)]
    exact State.rd_wr_other (s := s) hwf h.data hb

theorem awaiting_oe : (awaiting h k s).oe = s.oe := by
  unfold awaiting
  split <;> rfl

theorem readAll_awaiting (hwrite : h.write = true) (hwf : Memory.wf s.mem = true) (l : List Nat) :
    ∀ k, (∀ b ∈ l, b + 2 ≤ h.addr ∨ h.addr + 2 ≤ b) →
      readAll l (awaiting h k s) = (l.map s.rd, awaiting h (k + l.length) s) := by
  induction l with
  | nil => exact fun k _ => rfl
  | cons a l ih =>
    intro k hl
    unfold readAll
    dsimp only
    rw [gap_awaiting hwrite, awaiting_rd_apart hwf (hl a List.mem_cons_self),
      ih (k + 1) fun b hb => hl b (List.mem_cons_of_mem a hb)]
    dsimp only [List.map_cons, List.length_cons]
    rw [Nat.add_assoc, Nat.add_comm 1]
    rfl

end

/-! ### What the part accesses of the checks keep -/

section
variable {P : State → Prop} (hP : ∀ t, P t → P (gap t))
include hP

theorem readAll_keeps (l : List Nat) : ∀ {s : State}, P s → P (readAll l s).2 := by
  induction l with
  | nil => exact fun h => h
  | cons a l ih => exact fun {s} h => ih (s := gap s) (hP s h)

theorem examineLoads_keeps (n : Nat) (hdr : List Word) (snap : Snapshot) (dn : Int) {s : State} (h : P s) :
    P (examineLoads n hdr snap dn s).2 := by
  have hread := readAll_keeps hP (Scale.all.map fun sc => Win.scale sc + 6) (readAll_keeps hP [Win.dryerMax] h)
  unfold examineLoads
  dsimp only
  split
  · exact h
  · split
    · exact h
    · split
      · split <;> exact hread
      · exact hread

theorem examineFormula_keeps (n : Nat) (hdr : List Word) (revision : Word) (ws : List Word) {s : State} (h : P s) :
    P (examineFormula n hdr revision ws s).2 := by
  unfold examineFormula
  dsimp only
  split
  · exact h
  · split
    · exact h
    · split
      · exact h
      · next srcs tank _ =>
        have hread := readAll_keeps hP ((srcs ++ [tank.source]).map Win.source) h
        split
        · split
          · exact examineLoads_keeps hP _ _ _ _ hread
          · exact hread
        · exact hread

theorem examineCopy_keeps (n : Nat) (hdr : List Word) (f : Nat) {s : State} (h : P s) :
    P (examineCopy n hdr f s).2 := by
  unfold examineCopy
  dsimp only
  generalize (List.range 64).map (fun i => Win.formula f + 2 * i) = copied
  generalize [Win.formula f, Win.formula f + 2] = guarded
  have hguard := readAll_keeps hP guarded h
  have hagain := readAll_keeps hP guarded (readAll_keeps hP copied hguard)
  split
  · split
    · exact examineFormula_keeps hP _ _ _ _ hagain
    · exact hagain
  · exact hguard

theorem examineChecks_keeps (n : Nat) (hdr : List Word) {s : State} (h : P s) : P (examineChecks n hdr s).2 := by
  unfold examineChecks
  split
  · exact h
  · split
    · exact h
    · exact examineCopy_keeps hP _ _ _ h

end

/-! ### An order accepted is that of the slot -/

/-- A result of the checks that accepts only an order of the slot and the number examined. -/
def AcceptsOf (n : Nat) (number : Word) (x : Examined) : Prop :=
  ∀ o, x = .inr o → o.slot = n ∧ o.number = number

theorem acceptsOf_refused (n : Nat) (number : Word) (x : RefusalCode × Word) : AcceptsOf n number (.inl x) :=
  fun _ h => absurd h (by simp)

theorem acceptsOf_order (n : Nat) (hdr : List Word) (snap : Snapshot) (dest d : Route) (dn maximum : Int) :
    AcceptsOf n (nthWord hdr 0) (.inr { orderOf n hdr snap dest dn maximum with dest := d }) := by
  intro o h
  obtain rfl := Sum.inr.inj h
  exact ⟨rfl, rfl⟩

section
variable (n : Nat) (hdr : List Word) (s : State)

theorem examineLoads_accepts (snap : Snapshot) (dn : Int) :
    AcceptsOf n (nthWord hdr 0) (examineLoads n hdr snap dn s).1 := by
  unfold examineLoads
  dsimp only
  split
  · exact acceptsOf_refused _ _ _
  · split
    · exact acceptsOf_refused _ _ _
    · split
      · split
        · exact acceptsOf_order _ _ _ _ _ _ _
        · exact acceptsOf_refused _ _ _
      · exact acceptsOf_refused _ _ _

theorem examineFormula_accepts (revision : Word) (ws : List Word) :
    AcceptsOf n (nthWord hdr 0) (examineFormula n hdr revision ws s).1 := by
  unfold examineFormula
  dsimp only
  split
  · exact acceptsOf_refused _ _ _
  · split
    · exact acceptsOf_refused _ _ _
    · split
      · exact acceptsOf_refused _ _ _
      · split
        · split
          · exact examineLoads_accepts n hdr _ _ _
          · exact acceptsOf_refused _ _ _
        · exact acceptsOf_refused _ _ _

theorem examineCopy_accepts (f : Nat) : AcceptsOf n (nthWord hdr 0) (examineCopy n hdr f s).1 := by
  unfold examineCopy
  dsimp only
  generalize (List.range 64).map (fun i => Win.formula f + 2 * i) = copied
  generalize [Win.formula f, Win.formula f + 2] = guarded
  split
  · split
    · exact examineFormula_accepts n hdr _ _ _
    · exact acceptsOf_refused _ _ _
  · exact acceptsOf_refused _ _ _

theorem examineChecks_accepts : AcceptsOf n (nthWord hdr 0) (examineChecks n hdr s).1 := by
  unfold examineChecks
  split
  · exact acceptsOf_refused _ _ _
  · split
    · exact acceptsOf_refused _ _ _
    · exact examineCopy_accepts n hdr s _

end

end Sys2Proof.Machine
end

section
/-! An examination with one host write waiting (O24), second part: the examination abandoned, and the close that the
host write overtakes (R2, R19, R180). -/

namespace Sys2Proof.Machine

/-- The header of a slot is struck: its state is no longer POSTED, or its order number another. -/
def strikes (h : HostAccess) (n : Nat) (s : State) : Prop :=
  (h.addr = Win.slot n ∧ h.data ≠ 1) ∨ (h.addr = Win.slot n + 2 ∧ h.data ≠ s.rd (Win.slot n + 2))

/-- The host write is served. -/
def served (h : HostAccess) (s : State) : State := { s.wr h.addr h.data with port.waiting := [] }

section
variable {h : HostAccess} {n : Nat} {s : State}

theorem strikes_addr (hstrikes : strikes h n s) : h.addr = Win.slot n ∨ h.addr = Win.slot n + 2 :=
  hstrikes.imp And.left And.left

theorem guardOk_struck {mem : State} (hread : mem.rd h.addr = h.data) (hstrikes : strikes h n s) :
    guardOk [slotPosted] (s.rd (Win.slot n + 2)) (guardRead n mem) = false := by
  unfold guardOk guardRead
  rcases hstrikes with ⟨haddr, hdata⟩ | ⟨haddr, hdata⟩
  · have hstate : mem.rd (Win.slot n + Win.slotState) = h.data := haddr ▸ hread
    rw [hstate]
    simpa [slotPosted] using fun hone => absurd hone hdata
  · have hnumber : mem.rd (Win.slot n + Win.slotNumber) = h.data := haddr ▸ hread
    rw [hnumber, beq_eq_false_iff_ne.mpr hdata, Bool.and_false]

theorem served_rd (hwf : Memory.wf s.mem = true) : (served h s).rd h.addr = h.data :=
  State.rd_wr_same (s := s) hwf h.addr h.data

/-! ### To the slot (R6, R10) -/

section
variable (hwrite : h.write = true) (hbehind : 2 ≤ h.behind)
include hwrite hbehind

theorem walk_awaiting (hn : n < 32) (hqueue : s.oe.queue = []) (hwalker : s.oe.walker = .noEntry)
    (hentry : s.rd Win.chainEntry = BitVec.ofNat 16 n) (hstate : s.rd (Win.slot n) = 1) :
    walk (awaiting h 0 s) = examine n (s.rd (Win.slot n + 2)) (awaiting h 2 s) := by
  have hword : (BitVec.ofNat 16 n).toNat = n := by
    rw [BitVec.toNat_ofNat]
    exact Nat.mod_eq_of_lt (by omega)
  have hguard : guardRead n (awaiting h 2 s) = (s.rd (Win.slot n), s.rd (Win.slot n + 2)) :=
    Prod.ext (awaiting_rd_waits hbehind _) (awaiting_rd_waits hbehind _)
  have hqueue' (k : Nat) : (awaiting h k s).oe.queue = [] := by rw [awaiting_oe, hqueue]
  have hfind : findOrder (awaiting h 2 s) n (s.rd (Win.slot n + 2)) = none := by
    unfold findOrder
    rw [hqueue']
    rfl
  unfold walk
  rw [awaiting_oe, hwalker]
  dsimp only
  rw [gap_awaiting hwrite, awaiting_rd_waits (by omega), hentry]
  unfold followLink
  rw [if_neg (word_ne_end (by omega)), if_neg (by omega), hword]
  dsimp only
  rw [gap_awaiting hwrite, hguard, hfind]
  dsimp only [Option.isSome_none]
  rw [if_neg Bool.false_ne_true]
  unfold meetSlot
  dsimp only
  have hposted : s.rd (Win.slot n) = slotPosted := hstate
  rw [if_pos hposted, if_pos (by rw [hqueue']; decide)]

end

theorem periodicLook_awaiting (hwaiting : s.port.waiting = [h]) (hrun : s.rc.part = .run)
    (hfinishing : s.rc.finishing = false) (hqueue : s.oe.queue = []) :
    periodicLook s = walk (awaiting h 0 (lookStarted s)) := by
  have hzero : awaiting h 0 (lookStarted s) = lookStarted s := by
    rw [awaiting_waits (Nat.zero_le _)]
    have hsame : { h with behind := h.behind - 0 } = h := rfl
    rw [hsame, ← hwaiting]
    rfl
  have hwatch : watchWithdraw (lookStarted s) = lookStarted s := by
    unfold watchWithdraw
    have hempty : (lookStarted s).oe.queue = [] := hqueue
    rw [hempty]
    rfl
  have hlooks : looksAllowed (lookStarted s) = true := by
    unfold looksAllowed
    have hpart : (lookStarted s).rc.part = .run := hrun
    have hnot : (lookStarted s).rc.finishing = false := hfinishing
    rw [hpart, hnot]
    rfl
  have hlook : periodicLook s = lookPoint (lookStarted s) := if_pos (by
    have hempty : (lookStarted s).oe.queue = [] := hqueue
    exact hempty ▸ (by decide))
  rw [hzero, hlook]
  unfold lookPoint
  rw [if_pos hlooks, hwatch]

/-! ### The examination (R15, R19) -/

section
variable (hwrite : h.write = true) (hwf : Memory.wf s.mem = true) (hstrikes : strikes h n s)
include hwrite hwf hstrikes

theorem headerRead_awaiting : readAll (headerAddrs n) (awaiting h 2 s) = ((headerAddrs n).map s.rd, awaiting h 11 s) := by
  refine readAll_awaiting hwrite hwf (headerAddrs n) 2 fun b hb => .inr ?_
  have haddr := strikes_addr hstrikes
  simp only [headerAddrs, List.map_cons, List.map_nil, List.mem_cons, List.not_mem_nil, or_false] at hb
  rcases haddr with haddr | haddr <;> rcases hb with rfl | rfl | rfl | rfl | rfl | rfl | rfl | rfl | rfl <;> omega

/-- The opening guard finds the slot struck. -/
theorem guardedSeq_struck (hbehind : h.behind ≤ 11) {k : Nat} (hk : 11 ≤ k) (between : List (Nat × Word))
    (last : Nat × Word) :
    guardedSeq n [slotPosted] (s.rd (Win.slot n + 2)) between last (awaiting h k s) =
      (served h s, some (guardRead n (served h s))) := by
  have hserved : awaiting h (k + 1) s = served h s := awaiting_served (by omega)
  have hguard := guardOk_struck (served_rd hwf) hstrikes
  unfold guardedSeq
  dsimp only
  rw [gap_awaiting hwrite, hserved, hguard, if_neg Bool.false_ne_true]

theorem closeAtAdmission_struck (hbehind : h.behind ≤ 11) {k : Nat} (hk : 11 ≤ k) (outcome : OrderOutcome)
    (code : RefusalCode) (revision : Word) :
    closeAtAdmission n (headerRead n s) outcome code revision (awaiting h k s) = served h s := by
  have hnumber : nthWord (headerRead n s) 0 = s.rd (Win.slot n + 2) := rfl
  unfold closeAtAdmission
  dsimp only
  rw [hnumber, guardedSeq_struck hwrite hwf hstrikes hbehind hk]

theorem takeOrder_struck (hbehind : h.behind ≤ 11) {k : Nat} (hk : 11 ≤ k) {o : Order} (hslot : o.slot = n)
    (hnumber : o.number = s.rd (Win.slot n + 2)) : takeOrder o (awaiting h k s) = served h s := by
  unfold takeOrder
  dsimp only
  rw [hslot, hnumber, guardedSeq_struck hwrite hwf hstrikes hbehind hk]

/-- The host write falls before the opening guard: the examination is abandoned. -/
theorem examine_struck (hbehind : h.behind ≤ 11) :
    examine n (s.rd (Win.slot n + 2)) (awaiting h 2 s) = served h s := by
  have hkeeps : ∃ k, 11 ≤ k ∧ (examineChecks n (headerRead n s) (awaiting h 11 s)).2 = awaiting h k s := by
    refine examineChecks_keeps (P := fun t => ∃ k, 11 ≤ k ∧ t = awaiting h k s) ?_ n (headerRead n s) ⟨11, le_rfl, rfl⟩
    rintro t ⟨k, hk, rfl⟩
    exact ⟨k + 1, by omega, gap_awaiting hwrite⟩
  have haccepts := examineChecks_accepts n (headerRead n s) (awaiting h 11 s)
  have hheader : s.rd (Win.slot n + 2) :: (headerAddrs n).map s.rd = headerRead n s := rfl
  unfold examine
  rw [headerRead_awaiting hwrite hwf hstrikes]
  dsimp only
  rw [hheader]
  generalize examineChecks n (headerRead n s) (awaiting h 11 s) = x at hkeeps haccepts
  obtain ⟨r, t⟩ := x
  obtain ⟨k, hk, rfl⟩ := hkeeps
  cases r with
  | inl refusal => exact closeAtAdmission_struck hwrite hwf hstrikes hbehind hk _ _ _
  | inr o =>
    obtain ⟨hslot, hnumber⟩ := haccepts o rfl
    dsimp only
    split
    · exact takeOrder_struck hwrite hwf hstrikes hbehind hk hslot hnumber
    · exact closeAtAdmission_struck hwrite hwf hstrikes hbehind hk _ _ _

/-- Order number 0 is refused by the first check, without a part access. -/
theorem examine_zero (hzero : s.rd (Win.slot n + 2) = 0) :
    examine n (s.rd (Win.slot n + 2)) (awaiting h 2 s) =
      closeAtAdmission n (headerRead n s) .refused .orderNumber 0 (awaiting h 11 s) := by
  have hheader : s.rd (Win.slot n + 2) :: (headerAddrs n).map s.rd = headerRead n s := rfl
  have hchecks : examineChecks n (headerRead n s) (awaiting h 11 s) = (.inl (.orderNumber, 0), awaiting h 11 s) :=
    if_pos hzero
  unfold examine
  rw [headerRead_awaiting hwrite hwf hstrikes]
  dsimp only
  rw [hheader, hchecks]

end

/-! ### The host write among the words of a close -/

theorem writeWords_served (l : List (Nat × Word)) :
    writeWords l (served h s) = { writeWords ((h.addr, h.data) :: l) s with port.waiting := [] } := by
  unfold served
  rw [writeWords_frame l { s.wr h.addr h.data with port.waiting := [] }, writeWords_frame ((h.addr, h.data) :: l) s]
  rw [writeWords_mem_congr (s := s.wr h.addr h.data) (t := { s.wr h.addr h.data with port.waiting := [] }) rfl]
  rfl

theorem putAll_awaiting (hwrite : h.write = true) (l : List (Nat × Word)) : ∀ {k : Nat} {s : State}, k ≤ h.behind →
    h.behind ≤ k + l.length → ∃ pre post, l = pre ++ post ∧
      gap (putAll l (awaiting h k s)) = { writeWords (pre ++ (h.addr, h.data) :: post) s with port.waiting := [] } := by
  induction l with
  | nil =>
    intro k s hk hbehind
    refine ⟨[], [], rfl, ?_⟩
    exact (gap_awaiting hwrite).trans (awaiting_served (by simp only [List.length_nil] at hbehind; omega))
  | cons x l ih =>
    intro k s hk hbehind
    rw [List.length_cons] at hbehind
    by_cases hnow : k = h.behind
    · refine ⟨[], x :: l, rfl, ?_⟩
      have hserved : gap (awaiting h k s) = served h s :=
        (gap_awaiting hwrite).trans (awaiting_served (by omega))
      unfold putAll put
      rw [hserved, putAll_of_none l (s := (served h s).wr x.1 x.2) rfl]
      refine (gap_of_none (s := writeWords (x :: l) (served h s)) ?_).trans (writeWords_served (x :: l))
      rw [writeWords_port]
      rfl
    · have hlater : put x.1 x.2 (awaiting h k s) = awaiting h (k + 1) (s.wr x.1 x.2) := by
        unfold put
        rw [gap_awaiting hwrite, awaiting_waits (show k + 1 ≤ h.behind by omega),
          awaiting_waits (show k + 1 ≤ h.behind by omega)]
        rfl
      obtain ⟨pre, post, rfl, heq⟩ := ih (k := k + 1) (s := s.wr x.1 x.2) (by omega) (by omega)
      refine ⟨x :: pre, post, rfl, ?_⟩
      unfold putAll
      rw [hlater, heq]
      rfl

theorem awaiting_seconds (k : Nat) : (awaiting h k s).seconds = s.seconds := by
  unfold awaiting
  split <;> rfl

/-- The words of a close and the host's do not overlap. -/
theorem overtaken_apart (hstrikes : strikes h n s) (outcome : OrderOutcome) (code : RefusalCode) (revision : Word)
    (stamp : DWord) {l : List (Nat × Word)} (hl : l.Perm ((h.addr, h.data) :: closingWords n outcome code revision stamp)) :
    l.Pairwise wordsApart := by
  have haddr := strikes_addr hstrikes
  refine (hl.pairwise_iff fun h => h.symm).mpr ?_
  simp [closingWords, wordsApart]
  omega

/-- A close at admission that the host write overtakes leaves its words and the host's. -/
theorem closeAtAdmission_overtaken (hwrite : h.write = true) (hwf : Memory.wf s.mem = true)
    (hstrikes : strikes h n s) (hstate : s.rd (Win.slot n) = 1) (hfrom : 12 ≤ h.behind) (hto : h.behind ≤ 20)
    (outcome : OrderOutcome) (code : RefusalCode) (revision : Word) :
    ∃ l, l.Perm ((h.addr, h.data) :: closingWords n outcome code revision s.seconds) ∧
      closeAtAdmission n (headerRead n s) outcome code revision (awaiting h 11 s) =
        { writeWords l s with port.waiting := [] } := by
  obtain ⟨pre, post, hwords, hgap⟩ := putAll_awaiting (s := s) hwrite
    (closingWords n outcome code revision s.seconds) hfrom hto
  have hl : (pre ++ (h.addr, h.data) :: post).Perm
      ((h.addr, h.data) :: closingWords n outcome code revision s.seconds) :=
    hwords ▸ List.perm_middle
  refine ⟨_, hl, ?_⟩
  have hread : (writeWords (pre ++ (h.addr, h.data) :: post) s).rd h.addr = h.data :=
    rd_writeWords_of_mem _ hwf (overtaken_apart hstrikes _ _ _ _ hl) (by simp)
  have hnumber : nthWord (headerRead n s) 0 = s.rd (Win.slot n + 2) := rfl
  have hopens : guardOk [slotPosted] (s.rd (Win.slot n + 2)) (guardRead n (awaiting h 12 s)) = true :=
    guardOk_posted ((awaiting_rd_waits hfrom _).trans hstate) (awaiting_rd_waits hfrom _)
  have hseq : guardedSeq n [slotPosted] (s.rd (Win.slot n + 2)) (closingWords n outcome code revision s.seconds)
      (Win.slot n + Win.slotState, slotClosed) (awaiting h 11 s) =
      ({ writeWords (pre ++ (h.addr, h.data) :: post) s with port.waiting := [] },
        some (guardRead n { writeWords (pre ++ (h.addr, h.data) :: post) s with port.waiting := [] })) := by
    unfold guardedSeq
    dsimp only
    rw [gap_awaiting hwrite, hopens, if_pos rfl, hgap]
    generalize writeWords (pre ++ (h.addr, h.data) :: post) s = t at hread
    rw [guardOk_struck (mem := { t with port.waiting := [] }) hread hstrikes, if_neg Bool.false_ne_true]
  have hseq' : guardedSeq n [slotPosted] (s.rd (Win.slot n + 2))
      ([(Win.slot n + Win.slotOutcome, BitVec.ofNat 16 outcome.code),
        (Win.slot n + Win.slotRefusal, BitVec.ofNat 16 code.code), (Win.slot n + Win.slotRevision, revision),
        (Win.slot n + Win.slotTickets, 0)] ++ stampWrites (Win.slot n + Win.slotTakenAt) s.seconds ++
          stampWrites (Win.slot n + Win.slotClosedAt) s.seconds) (Win.slot n + Win.slotState, slotClosed)
      (awaiting h 11 s) = _ := hseq
  unfold closeAtAdmission
  dsimp only
  rw [hnumber, awaiting_seconds, hseq']

/-- What a slot holds when the host write overtakes its close. -/
theorem overtaken_told (hwf : Memory.wf s.mem = true) (hstrikes : strikes h n s) (outcome : OrderOutcome)
    (code : RefusalCode) (revision : Word) (stamp : DWord) {l : List (Nat × Word)}
    (hl : l.Perm ((h.addr, h.data) :: closingWords n outcome code revision stamp)) :
    let a := Win.slot n
    let u := writeWords l s
    u.rd h.addr = h.data ∧ u.rd (a + 0x40) = BitVec.ofNat 16 outcome.code ∧
      u.rd (a + 0x42) = BitVec.ofNat 16 code.code ∧ u.rd (a + 0x44) = revision ∧ u.rd (a + 0x46) = 0 ∧
      u.rd32 (a + 0x48) = stamp ∧ u.rd32 (a + 0x4C) = stamp ∧
      ∀ b, (b < h.addr ∨ h.addr + 2 ≤ b) → (b < a + 0x40 ∨ a + 0x50 ≤ b) → u.byteAt b = s.byteAt b := by
  intro a u
  have hread {b : Nat} {w : Word} (hmem : (b, w) ∈ (h.addr, h.data) :: closingWords n outcome code revision stamp) :
      u.rd b = w := rd_writeWords_of_mem l hwf (overtaken_apart hstrikes _ _ _ _ hl) (hl.mem_iff.mpr hmem)
  have hread32 {b : Nat} {d : DWord}
      (hlow : (b, DWord.lowWord d) ∈ (h.addr, h.data) :: closingWords n outcome code revision stamp)
      (hhigh : (b + 2, DWord.highWord d) ∈ (h.addr, h.data) :: closingWords n outcome code revision stamp) :
      u.rd32 b = d := by
    unfold State.rd32
    rw [hread hlow, hread hhigh, highWord_append_lowWord]
  refine ⟨hread ?_, hread ?_, hread ?_, hread ?_, hread ?_, hread32 ?_ ?_, hread32 ?_ ?_,
    fun b hhost hslot => byteAt_writeWords_other l hwf fun x hx => ?_⟩
  case refine_10 =>
    have hmem := hl.mem_iff.mp hx
    simp only [closingWords, List.mem_cons, List.not_mem_nil, or_false] at hmem
    rcases hmem with rfl | rfl | rfl | rfl | rfl | rfl | rfl | rfl | rfl <;> dsimp only <;> omega
  all_goals simp [closingWords, a]

end

end Sys2Proof.Machine
end

section
/-! Admission (O24): the obligation. -/

namespace Sys2Proof.Machine

/-- Settles O24. -/
theorem orderNumberZeroRefused : Obligations.OrderNumberZeroRefused := by
  refine ⟨?_, ?_, fun s n hnone => ?_⟩
  · intro s n hfree hwf hn hrun hfinishing hqueue hfind hlevels hled hroom hstate a number load hdr closed arrived
    obtain ⟨hhigh, hnone⟩ := (arbiterFree_iff s).mp hfree
    have hexec : exec .lookPoint s = .next (settle (examine n number (lookStarted s))) := by
      rw [exec_lookPoint hhigh, periodicLook_walks hrun hfinishing hnone hqueue hlevels,
        walk_examines (s := lookStarted s) hnone hn hqueue hfind hled hstate]
      rfl
    have hchecks : (examineChecks n hdr s).1 = (examineChecks n (headerRead n (lookStarted s)) (lookStarted s)).1 :=
      (congrArg Prod.fst (examineChecks_of_mem (s := s) (t := lookStarted s) hnone hnone rfl n hdr)).symm
    have hrefused {code : RefusalCode} {revision : Word} (h : (examineChecks n hdr s).1 = .inl (code, revision)) :
        ∃ u, exec .lookPoint s = .next (settle u) ∧ closed u .refused code revision ∧ arrived u ∧ u.heat = s.heat := by
      rw [hexec]
      exact ⟨_, congrArg (fun t => Host.Outcome.next (settle t))
        (examine_refused (s := lookStarted s) hnone (hchecks.symm.trans h)),
        closeAtAdmission_told (s := lookStarted s) hnone hwf hstate hroom .refused code revision⟩
    refine ⟨fun hzero => hrefused (congrArg Prod.fst
      (if_pos hzero : examineChecks n hdr s = (.inl (.orderNumber, 0), s))), fun code revision h => hrefused h,
      fun o h hlevel => ?_, fun o h hlevel => ?_⟩
    · rw [hexec]
      exact ⟨_, congrArg (fun t => Host.Outcome.next (settle t))
        (examine_withdrawn (s := lookStarted s) hnone (hchecks.symm.trans h) hlevel),
        closeAtAdmission_told (s := lookStarted s) hnone hwf hstate hroom .withdrawn .none o.snap.revision⟩
    · have hpasses : OrderPasses n (lookStarted s) o := orderPasses_of (s := lookStarted s) hnone (hchecks.symm.trans h)
      obtain ⟨hslot, hnumber, -⟩ := hpasses.context
      have htold := takeOrder_told (s := lookStarted s) hnone hwf hstate hroom hslot hnumber
      rw [hnumber] at htold
      rw [hexec]
      exact ⟨_, congrArg (fun t => Host.Outcome.next (settle t))
        (examine_taken (s := lookStarted s) hnone (hchecks.symm.trans h) hlevel), htold⟩
  · intro s n h hhigh hwaiting hwf hn hrun hfinishing hqueue hwalker hentry hstate a hwrite hstrikes
    have hexec (hbehind : 2 ≤ h.behind) : exec .lookPoint s =
        .next (settle (examine n (s.rd (Win.slot n + 2)) (awaiting h 2 (lookStarted s)))) := by
      rw [exec_lookPoint hhigh, periodicLook_awaiting hwaiting hrun hfinishing hqueue,
        walk_awaiting (s := lookStarted s) hwrite hbehind hn hqueue hwalker hentry hstate]
      rfl
    refine ⟨fun hfrom hto => ?_, fun hfrom hto hzero => ?_⟩
    · rw [hexec hfrom]
      exact congrArg (fun t => Host.Outcome.next (settle t))
        (examine_struck (s := lookStarted s) hwrite hwf hstrikes hto)
    · obtain ⟨l, hl, hclosed⟩ := closeAtAdmission_overtaken (s := lookStarted s) hwrite hwf hstrikes hstate hfrom hto
        .refused .orderNumber 0
      obtain ⟨hhost, h40, h42, h44, h46, h48, h4C, hbeside⟩ :=
        overtaken_told (s := lookStarted s) hwf hstrikes .refused .orderNumber 0 s.seconds hl
      have hexamine := (examine_zero (s := lookStarted s) hwrite hwf hstrikes hzero).trans hclosed
      rw [hexec (by omega)]
      refine ⟨_, congrArg (fun t => Host.Outcome.next (settle t)) hexamine, ?_⟩
      have hframe := writeWords_frame l (lookStarted s)
      generalize writeWords l (lookStarted s) = t at *
      rw [hframe]
      exact ⟨hhost, h40, h42, h44, h46, h48, h4C, rfl, rfl, rfl, rfl, rfl, hbeside⟩
  · intro a hdr f w m source share binder b r count mass dn among load reclaimed pn cap heavy off
    have hhdr : hdr = headerRead n s := rfl
    rcases examineChecks_examines (n := n) hnone with ⟨code, revision, heq, hreason⟩ | ⟨o, heq, hpasses⟩
    · rw [hhdr, heq]
      exact hreason.told
    · rw [hhdr, heq]
      obtain ⟨hslot, hnumber, hcount, hmass, hstarted, hcharged, hfinished, htickets, hlevel, hheld⟩ := hpasses.context
      obtain ⟨hdn, hs, hpn, hbn⟩ := hpasses.derived
      obtain ⟨hmix, hsuper, htol, hreject, hmin, hmax, hdry, hwet, hover⟩ := snapRead_values n s
      have hsnap := hpasses.snap
      have htemp := hpasses.temperature
      have hcodes := hpasses.codes
      obtain ⟨hnum0, hformula, hvalid, hfits, hcount', hmass', hlight, hdest, -⟩ := hpasses
      obtain ⟨hcomps, hdistinct, hsources, hbinder, htank, hshares⟩ := hfits
      refine ⟨hnum0, hformula, hvalid, hcomps.1, hcomps.2, hdistinct, hsources, hbinder, htank, hshares, hcount'.1,
        hcount'.2, hmass'.1, hmass'.2, hlight, hdest, hslot, hnumber, hcount, hmass, hstarted, hcharged, hfinished,
        htickets, hlevel, hheld, ?_⟩
      rw [hsnap] at htemp ⊢
      exact ⟨rfl, hmix, hsuper, snapRead_b n s, snapRead_r n s, binderTank_code hbinder, htol, hreject, hmin, hmax, hdry,
        hwet, hover, snapRead_length n s, fun i hi => snapRead_component hi (hcodes i hi), hdn, hs, hpn, hbn, htemp⟩

end Sys2Proof.Machine
end

section
/-! The configuration check (O14), first part: the words it reads, and the fields that pass (R184). -/

namespace Sys2Proof.Machine

/-- The words of a field. -/
def fieldWords (rd : Nat → Word) (f : CheckField) : List Word := (List.range f.words).map fun i => rd (f.addr + 2 * i)

/-! ### The fields in order -/

section
variable {rd : Nat → Word}

theorem firstFailing_cons (f : CheckField) (fs : List CheckField) (ws : List Word) : firstFailing rd (f :: fs) ws =
    if fieldPasses f (rd f.addr) ws then firstFailing rd fs ((fieldWords rd f).reverse ++ ws) else some f := rfl

theorem firstFailing_cons_none {f : CheckField} {fs : List CheckField} {ws : List Word} :
    firstFailing rd (f :: fs) ws = none ↔
      fieldPasses f (rd f.addr) ws = true ∧ firstFailing rd fs ((fieldWords rd f).reverse ++ ws) = none := by
  rw [firstFailing_cons]
  split
  · next h => simp [h]
  · next h => simp [h]

/-- The words read before a list of fields. -/
def wordsBefore (rd : Nat → Word) (fs : List CheckField) (ws : List Word) : List Word :=
  (fs.flatMap (fieldWords rd)).reverse ++ ws

theorem wordsBefore_cons (f : CheckField) (fs : List CheckField) (ws : List Word) :
    wordsBefore rd (f :: fs) ws = wordsBefore rd fs ((fieldWords rd f).reverse ++ ws) := by
  simp [wordsBefore]

theorem firstFailing_append_none {l r : List CheckField} : ∀ {ws : List Word},
    firstFailing rd (l ++ r) ws = none → firstFailing rd r (wordsBefore rd l ws) = none := by
  induction l with
  | nil => exact fun h => h
  | cons f l ih =>
    intro ws h
    rw [wordsBefore_cons]
    exact ih (firstFailing_cons_none.mp h).2

/-- Every field passes, judged with the words before it. -/
theorem passes_at {fs : List CheckField} : ∀ {ws : List Word}, firstFailing rd fs ws = none →
    ∀ {i : Nat} {f : CheckField}, fs[i]? = some f → fieldPasses f (rd f.addr) (wordsBefore rd (fs.take i) ws) = true := by
  induction fs with
  | nil => exact fun _ _ _ hf => absurd hf (by simp)
  | cons g fs ih =>
    intro ws h i f hf
    obtain ⟨hpasses, hrest⟩ := firstFailing_cons_none.mp h
    cases i with
    | zero =>
      obtain rfl := Option.some.inj hf
      exact hpasses
    | succ i =>
      rw [List.take_succ_cons, wordsBefore_cons]
      exact ih hrest hf

theorem range_of_passes {f : CheckField} {w : Word} {before : List Word} (h : fieldPasses f w before = true) :
    f.lo ≤ wordValue f.signed w ∧ wordValue f.signed w ≤ f.hi := by
  unfold fieldPasses inRange at h
  simp only [Bool.and_eq_true, decide_eq_true_iff] at h
  exact h.1

theorem exceeds_of_passes {f : CheckField} {w : Word} {before : List Word} (h : fieldPasses f w before = true)
    {r : Nat × Int} (hr : r ∈ f.atLeast) :
    wordValue f.signed (nthWord before (r.1 - 1)) + r.2 ≤ wordValue f.signed w := by
  unfold fieldPasses at h
  rw [Bool.and_eq_true, List.all_eq_true] at h
  exact of_decide_eq_true (h.2 r hr)

theorem range_of_mem {fs : List CheckField} {ws : List Word} (h : firstFailing rd fs ws = none) {f : CheckField}
    (hf : f ∈ fs) : f.lo ≤ wordValue f.signed (rd f.addr) ∧ wordValue f.signed (rd f.addr) ≤ f.hi := by
  obtain ⟨i, hi⟩ := List.mem_iff_getElem?.mp hf
  exact range_of_passes (passes_at h hi)

theorem takeRanged_checked {fs : List CheckField} {ws : List Word} (h : firstFailing rd fs ws = none)
    {record base off lo hi : Nat} (hf : unsignedField record base off lo hi ∈ fs) (old : Nat) :
    takeRanged lo hi (rd (base + off)) old = (rd (base + off)).toNat := by
  obtain ⟨hlo, hhi⟩ := range_of_mem h hf
  exact if_pos ⟨Int.ofNat_le.mp hlo, Int.ofNat_le.mp hhi⟩

theorem takeSigned_checked {fs : List CheckField} {ws : List Word} (h : firstFailing rd fs ws = none)
    {record base off : Nat} {lo hi : Int} (hf : signedField record base off lo hi ∈ fs) (old : Int) :
    takeSigned lo hi (rd (base + off)) old = (rd (base + off)).toInt := by
  obtain ⟨hlo, hhi⟩ := range_of_mem h hf
  refine if_pos ?_
  unfold inRange
  simp only [Bool.and_eq_true, decide_eq_true_iff]
  exact ⟨hlo, hhi⟩

end

/-! ### The run of the check -/

section
variable {s : State} (hnone : s.port.waiting = [])
include hnone

theorem readField_fieldWords (f : CheckField) : readField f.addr f.words s = (fieldWords s.rd f, s) := by
  unfold readField
  dsimp only
  rw [gap_of_none hnone]
  rfl

omit hnone in
theorem nthWord_fieldWords {f : CheckField} (h : 0 < f.words) : nthWord (fieldWords s.rd f) 0 = s.rd f.addr := by
  unfold nthWord fieldWords
  simp [List.getD_eq_getElem?_getD, List.getElem?_range h]

theorem runCheck_cons {f : CheckField} (h : 0 < f.words) (fs : List CheckField) (ws : List Word) :
    runCheck (f :: fs) ws s = if fieldPasses f (s.rd f.addr) ws then runCheck fs ((fieldWords s.rd f).reverse ++ ws) s
      else (some f, ws, s) := by
  conv_lhs => unfold runCheck
  rw [readField_fieldWords hnone]
  dsimp only
  rw [nthWord_fieldWords h]

theorem runCheck_passes {fs : List CheckField} : ∀ {ws : List Word}, (∀ f ∈ fs, 0 < f.words) →
    firstFailing s.rd fs ws = none → runCheck fs ws s = (none, wordsBefore s.rd fs ws, s) := by
  induction fs with
  | nil => exact fun _ _ => rfl
  | cons f fs ih =>
    intro ws hwords h
    obtain ⟨hpasses, hrest⟩ := firstFailing_cons_none.mp h
    rw [runCheck_cons hnone (hwords f List.mem_cons_self), if_pos hpasses, wordsBefore_cons,
      ih (fun g hg => hwords g (List.mem_cons_of_mem f hg)) hrest]

theorem runCheck_fails {fs : List CheckField} {g : CheckField} : ∀ {ws : List Word}, (∀ f ∈ fs, 0 < f.words) →
    firstFailing s.rd fs ws = some g → ∃ read, runCheck fs ws s = (some g, read, s) := by
  induction fs with
  | nil => exact fun _ h => absurd h (by simp [firstFailing])
  | cons f fs ih =>
    intro ws hwords h
    rw [runCheck_cons hnone (hwords f List.mem_cons_self)]
    rw [firstFailing_cons] at h
    split
    · next hpasses => exact ih (fun g hg => hwords g (List.mem_cons_of_mem f hg)) ((if_pos hpasses).symm.trans h)
    · next hfails =>
      obtain rfl := Option.some.inj ((if_neg hfails).symm.trans h)
      exact ⟨ws, rfl⟩

end

/-! ### The words of the whole check -/

/-- The addresses of the words read, in order. -/
def checkAddrs : List Nat := checkFields.flatMap fun f => (List.range f.words).map fun i => f.addr + 2 * i

theorem checkFields_words : ∀ f ∈ checkFields, 0 < f.words := by decide +kernel

theorem wordsBefore_checkFields (rd : Nat → Word) : (wordsBefore rd checkFields []).reverse = checkAddrs.map rd := by
  unfold wordsBefore checkAddrs fieldWords
  rw [List.append_nil, List.reverse_reverse, List.map_flatMap]
  simp only [List.map_map]
  rfl

theorem nthWord_checked (rd : Nat → Word) {i k b : Nat} (h : checkAddrs[i + k]? = some b) :
    nthWord ((checkAddrs.map rd).drop i) k = rd b := by
  unfold nthWord
  rw [List.getD_eq_getElem?_getD, List.getElem?_drop, List.getElem?_map, h]
  rfl

theorem checkAddrs_scale (sc : Scale) : ∀ k < 9, checkAddrs[1 + 9 * sc.code + k]? = some (Win.scale sc + 2 * k) := by
  cases sc <;> decide +kernel

theorem checkAddrs_config : ∀ k < 33, checkAddrs[1 + 36 + 132 + k]? = some (Win.config + 2 * k) := by
  decide +kernel

/-! ### The scale records -/

section
variable {rd : Nat → Word} (h : firstFailing rd checkFields [] = none)
include h

theorem scaleParamsFrom_checked (sc : Scale) :
    scaleParamsFrom ((checkAddrs.map rd).drop (1 + 9 * sc.code)) blankScale =
      let a := Win.scale sc
      ⟨(rd (a + 2) ++ rd a : DWord).toInt, (rd (a + 4)).toNat, (rd (a + 6)).toNat, (rd (a + 8)).toNat,
        (rd (a + 10)).toNat, (rd (a + 12)).toNat, (rd (a + 14)).toNat, (rd (a + 16)).toNat⟩ := by
  have hfield {off lo hi : Nat} (hmem : (off, lo, hi) ∈ scaleRanges) (old : Nat) :
      takeRanged lo hi (rd (Win.scale sc + off)) old = (rd (Win.scale sc + off)).toNat := by
    refine takeRanged_checked (record := 2 + sc.code) h ?_ old
    unfold checkFields scaleFields
    refine List.mem_cons_of_mem _ (List.mem_append_left _ (List.mem_append_left _ (List.mem_flatMap.mpr
      ⟨sc, by cases sc <;> decide, List.mem_cons_of_mem _ (List.mem_map.mpr ⟨_, hmem, rfl⟩)⟩)))
  have hword (k : Nat) (hk : k < 9) := nthWord_checked rd (checkAddrs_scale sc k hk)
  unfold scaleParamsFrom
  rw [hword 0 (by decide), hword 1 (by decide), hword 2 (by decide), hword 3 (by decide), hword 4 (by decide),
    hword 5 (by decide), hword 6 (by decide), hword 7 (by decide), hword 8 (by decide), hfield (by decide),
    hfield (by decide), hfield (by decide), hfield (by decide), hfield (by decide), hfield (by decide),
    hfield (by decide)]
  rfl

end

end Sys2Proof.Machine
end

section
/-! The configuration check (O14), second part: the configuration record, and the values each block takes (R139, R184,
R185). -/

namespace Sys2Proof.Machine

/-! ### The fields of the configuration record -/

/-- The three values of a tank pass. -/
theorem takeTank_of_passes {a b c : Word} {atA atB atC : Nat} {beforeA beforeB rest : List Word}
    (ha : fieldPasses (signedField 18 Win.config atA 1000 2200) a beforeA = true)
    (hb : fieldPasses (signedField 18 Win.config atB 1000 2200) b beforeB = true)
    (hc : fieldPasses { signedField 18 Win.config atC (-32768) 2500 with atLeast := [(1, 1), (2, 1)] } c
      (b :: a :: rest) = true) (old : TankVals) :
    takeTank a b c old = ⟨a.toInt, b.toInt, c.toInt⟩ := by
  obtain ⟨-, hmost⟩ := range_of_passes hc
  have hone := exceeds_of_passes hc (r := (1, 1)) List.mem_cons_self
  have htwo := exceeds_of_passes hc (r := (2, 1)) (List.mem_cons_of_mem _ List.mem_cons_self)
  refine if_pos ?_
  simp only [inRange, Bool.and_eq_true, decide_eq_true_iff]
  exact ⟨⟨⟨⟨range_of_passes ha, range_of_passes hb⟩, hmost⟩, htwo⟩, hone⟩


section
variable {rd : Nat → Word} (h : firstFailing rd checkFields [] = none)
include h

theorem configFields_pass : ∃ ws, firstFailing rd configFields ws = none := by
  have hcons : checkFields = (⟨1, 2, Win.layoutVersion, 1, false, Config.layoutVersion, Config.layoutVersion, []⟩
    :: (Scale.all.flatMap scaleFields ++ (List.range 12).flatMap sourceFields)) ++ configFields := rfl
  exact ⟨_, firstFailing_append_none (hcons ▸ h)⟩

/-- A word of the configuration record within the range of its field. -/
theorem takeRanged_config {k lo hi : Nat} (hf : unsignedField 18 Win.config (2 * k) lo hi ∈ configFields) (old : Nat) :
    takeRanged lo hi (rd (Win.config + 2 * k)) old = (rd (Win.config + 2 * k)).toNat := by
  obtain ⟨ws, hpass⟩ := configFields_pass h
  exact takeRanged_checked hpass hf old

theorem takeSigned_config {k : Nat} {lo hi : Int} (hf : signedField 18 Win.config (2 * k) lo hi ∈ configFields)
    (old : Int) : takeSigned lo hi (rd (Win.config + 2 * k)) old = (rd (Win.config + 2 * k)).toInt := by
  obtain ⟨ws, hpass⟩ := configFields_pass h
  exact takeSigned_checked hpass hf old

theorem setpoints_config : (inRange 200 2500 (rd (Win.config + 2 * 0)).toInt && inRange 1000 2500 (rd (Win.config + 2 * 1)).toInt
    && decide ((rd (Win.config + 2 * 0)).toInt ≤ (rd (Win.config + 2 * 1)).toInt)) = true := by
  obtain ⟨ws, hpass⟩ := configFields_pass h
  have hmaximum := passes_at hpass (i := 1) rfl
  have hexceeds := exceeds_of_passes hmaximum (r := (1, 0)) (by exact List.mem_singleton.mpr rfl)
  simp only [inRange, Bool.and_eq_true, decide_eq_true_iff]
  exact ⟨⟨range_of_passes (passes_at hpass (i := 0) rfl), range_of_passes hmaximum⟩, (add_zero _).symm.trans_le hexceeds⟩

theorem fires_config : (inRange 50 300 (rd (Win.config + 2 * 9)).toNat && decide ((rd (Win.config + 2 * 10)).toNat ≤ 1000)
    && decide ((rd (Win.config + 2 * 9)).toNat ≤ (rd (Win.config + 2 * 10)).toNat)) = true := by
  obtain ⟨ws, hpass⟩ := configFields_pass h
  have hmaximum := passes_at hpass (i := 10) rfl
  obtain ⟨-, hmost⟩ := range_of_passes hmaximum
  have hexceeds := exceeds_of_passes hmaximum (r := (1, 0)) (by exact List.mem_singleton.mpr rfl)
  simp only [inRange, Bool.and_eq_true, decide_eq_true_iff]
  exact ⟨⟨range_of_passes (passes_at hpass (i := 9) rfl), Int.ofNat_le.mp hmost⟩,
    Int.ofNat_le.mp ((add_zero _).symm.trans_le hexceeds)⟩

theorem takeTank_bt1 (old : TankVals) :
    takeTank (rd (Win.config + 2 * 14)) (rd (Win.config + 2 * 15)) (rd (Win.config + 2 * 16)) old =
      ⟨(rd (Win.config + 2 * 14)).toInt, (rd (Win.config + 2 * 15)).toInt, (rd (Win.config + 2 * 16)).toInt⟩ := by
  obtain ⟨ws, hpass⟩ := configFields_pass h
  exact takeTank_of_passes (passes_at hpass (i := 14) rfl) (passes_at hpass (i := 15) rfl)
    (passes_at hpass (i := 16) rfl) old

theorem takeTank_bt2 (old : TankVals) :
    takeTank (rd (Win.config + 2 * 17)) (rd (Win.config + 2 * 18)) (rd (Win.config + 2 * 19)) old =
      ⟨(rd (Win.config + 2 * 17)).toInt, (rd (Win.config + 2 * 18)).toInt, (rd (Win.config + 2 * 19)).toInt⟩ := by
  obtain ⟨ws, hpass⟩ := configFields_pass h
  exact takeTank_of_passes (passes_at hpass (i := 17) rfl) (passes_at hpass (i := 18) rfl)
    (passes_at hpass (i := 19) rfl) old

/-! ### The values taken -/

/-- The heat values of a configuration record. -/
def heatValsOf (rd : Nat → Word) : HeatVals :=
  let word := fun k : Nat => (rd (Win.config + 2 * k)).toNat
  let value := fun k : Nat => (rd (Win.config + 2 * k)).toInt
  { standby := value 0, maximum := value 1, idleTime := word 2, ramp := word 3, period := word 4, kp := word 5,
    ki := word 6, kd := word 7, deadband := word 8, minFire := word 9, maxFire := word 10,
    ignitionTimeout := word 11, lowFireHold := word 12, baghouse := value 13, bt1 := ⟨value 14, value 15, value 16⟩,
    bt2 := ⟨value 17, value 18, value 19⟩, hysteresis := word 20, lowBand := word 21, highBand := word 22,
    lineMin := value 23 }

/-- The mixer values of a configuration record. -/
def mixValsOf (rd : Nat → Word) : MixVals :=
  let word := fun k : Nat => (rd (Win.config + 2 * k)).toNat
  ⟨word 27, word 28, word 29, MarkPhase.ofCode (word 30), word 31, word 32⟩

omit h in
theorem nthWord_config {k : Nat} (hk : k < 33) :
    nthWord ((checkAddrs.map rd).drop (1 + 36 + 132)) k = rd (Win.config + 2 * k) :=
  nthWord_checked rd (checkAddrs_config k hk)

theorem heatValsFrom_checked :
    heatValsFrom ((checkAddrs.map rd).drop (1 + 36 + 132)) blankHeat = heatValsOf rd := by
  unfold heatValsFrom heatValsOf
  simp (disch := decide) only [nthWord_config, setpoints_config h, fires_config h, takeRanged_config h,
    takeSigned_config h, takeTank_bt1 h, takeTank_bt2 h, if_true]

omit h in
theorem nthWord_drop (l : List Word) (i k : Nat) : nthWord (l.drop i) k = nthWord l (i + k) := by
  unfold nthWord
  rw [List.getD_eq_getElem?_getD, List.getD_eq_getElem?_getD, List.getElem?_drop]

theorem mixValsFrom_checked :
    { mixValsFrom (((checkAddrs.map rd).drop (1 + 36 + 132)).drop 27) blankMixer with
      clearMixTime := (nthWord ((checkAddrs.map rd).drop (1 + 36 + 132)) 32).toNat } = mixValsOf rd := by
  have hphase : (rd (Win.config + 2 * (27 + 3))).toNat ≤ 6 := by
    obtain ⟨ws, hpass⟩ := configFields_pass h
    obtain ⟨-, hhi⟩ := range_of_passes (passes_at hpass (i := 30) rfl)
    exact Int.ofNat_le.mp hhi
  unfold mixValsFrom mixValsOf
  simp (disch := decide) only [nthWord_drop _ 27, nthWord_config, takeRanged_config h, hphase, if_true]

end

end Sys2Proof.Machine
end

section
/-! The configuration check (O14), third part: how it ends (R147, R184, R185). -/

namespace Sys2Proof.Machine

/-! ### What a configuration taken changes -/

section
variable (ws : List Word) (s : State)

theorem takeConfig_frame : takeConfig ws s = { s with
    ch := (takeConfig ws s).ch, bit := (takeConfig ws s).bit, mixer := (takeConfig ws s).mixer,
    heat := (takeConfig ws s).heat } := by
  unfold takeConfig
  dsimp only
  split <;> rfl

theorem takeConfig_chan (sc : Scale) :
    (takeConfig ws s).chan sc = takeScale (ws.drop (1 + 9 * sc.code)) (s.chan sc) := by
  unfold takeConfig
  dsimp only
  split <;> cases sc <;> rfl

theorem takeConfig_bit : (takeConfig ws s).bit = { s.bit with
    work := some ⟨(nthWord (ws.drop (1 + 36 + 132)) 25).toNat, (nthWord (ws.drop (1 + 36 + 132)) 26).toNat⟩ } := by
  unfold takeConfig
  dsimp only
  split <;> rfl

theorem takeConfig_mixer : (takeConfig ws s).mixer = { s.mixer with
    work := some { mixValsFrom ((ws.drop (1 + 36 + 132)).drop 27) blankMixer with
      clearMixTime := (nthWord (ws.drop (1 + 36 + 132)) 32).toNat } } := by
  unfold takeConfig
  dsimp only
  split <;> rfl

/-- The heat controller with values taken, but for its target. -/
def heatTaken (v : HeatVals) (h : Heat) : Heat := testClamp (clampFire v { h with vals := some v })

theorem heatTaken_vals (v : HeatVals) (h : Heat) : (heatTaken v h).vals = some v :=
  (testClamp_same _).1.trans (clampFire_same v _).1

theorem heatTaken_target (v : HeatVals) (h : Heat) :
    (heatTaken v h).target = h.target ∧ (heatTaken v h).atStandby = h.atStandby := by
  unfold heatTaken
  rw [testClamp_frame, clampFire_frame]
  exact ⟨rfl, rfl⟩

theorem takeConfig_heat_first (h : s.heat.target = none) :
    let v := heatValsFrom (ws.drop (1 + 36 + 132)) blankHeat
    (takeConfig ws s).heat = { heatTaken v s.heat with target := some v.standby, idle := 0 } := by
  intro v
  have htarget : (heatTaken v s.heat).target = none := (heatTaken_target v s.heat).1.trans h
  unfold takeConfig
  dsimp only
  split
  · rfl
  · next t ht => exact absurd (ht.symm.trans htarget) (by simp)

theorem takeConfig_heat_later (h : s.heat.target ≠ none) :
    (takeConfig ws s).heat = heatTaken (heatValsFrom (ws.drop (1 + 36 + 132)) blankHeat) s.heat := by
  have htarget := (heatTaken_target (heatValsFrom (ws.drop (1 + 36 + 132)) blankHeat) s.heat).1
  unfold takeConfig
  dsimp only
  split
  · next ht => exact absurd (htarget.symm.trans ht) h
  · rfl

theorem takeConfig_vals : (takeConfig ws s).heat.vals = some (heatValsFrom (ws.drop (1 + 36 + 132)) blankHeat) := by
  by_cases h : s.heat.target = none
  · rw [takeConfig_heat_first ws s h]
    exact heatTaken_vals _ _
  · rw [takeConfig_heat_later ws s h]
    exact heatTaken_vals _ _

end

/-! ### The dryer target behind a check that passes (R147) -/

theorem followTank_offTanks (k : Tank) (s : State) : (followTank k s).heat.offTanks = s.heat.offTanks := by
  unfold followTank
  dsimp only
  split
  · rfl
  · rw [testTankBetween_offTanks]
    exact setTank_offTanks _ _ _

theorem followQueue_target (s : State) : (followQueue s).heat.target = (followDryer s).heat.target := by
  have hoff : (followQueue s).heat.offTanks = (followDryer s).heat.offTanks := by
    unfold followQueue
    rw [followTank_offTanks, followTank_offTanks]
  exact (congrArg Heat.target hoff : (followQueue s).heat.offTanks.target = (followDryer s).heat.offTanks.target)

theorem followQueue_vals (s : State) : (followQueue s).heat.vals = s.heat.vals :=
  (congrArg Heat.vals (followQueue_core s) : (followQueue s).heat.core.vals = s.heat.core.vals)

section
variable {s : State} {v : HeatVals} (hv : s.heat.vals = some v) (hruns : dryerRuns s.rc.part = true)
include hv hruns

/-- With no head order a standby target stays the working standby setpoint. -/
theorem followDryer_keepsStandby (ho : headOrder s = none)
    (h : s.heat.target = some v.standby ∨ s.heat.atStandby = true) :
    (followDryer s).heat.target = some v.standby := by
  unfold followDryer
  simp only [hv, hruns, ho, if_true]
  split
  · split
    · rfl
    · next htest =>
      refine h.resolve_right fun hstandby => htest ?_
      rw [hstandby, Bool.true_or]
  · rcases h with h | h
    · rw [h, ite_self]
    · rw [h, if_pos rfl]

end

/-! ### The check -/

theorem checkComplete_elsewhere {s : State} (h : s.rc.part ≠ .checking) : checkComplete s = s := if_neg h

section
variable {s : State} (hnone : s.port.waiting = []) (hpart : s.rc.part = .checking)
include hnone hpart

theorem checkComplete_passes (h : firstFailing s.rd checkFields [] = none) : checkComplete s =
    { (takeConfig (checkAddrs.map s.rd) s).wr Win.partState 2 with rc.part := .standby } := by
  have hport : (takeConfig (checkAddrs.map s.rd) s).port.waiting = [] := by
    rw [takeConfig_frame]
    exact hnone
  unfold checkComplete
  rw [if_pos hpart, runCheck_passes hnone checkFields_words h]
  dsimp only
  rw [wordsBefore_checkFields, setPart_of_none hport]
  rfl

theorem checkComplete_fails {f : CheckField} (h : firstFailing s.rd checkFields [] = some f) : checkComplete s =
    { writeWords [(Win.checkField, BitVec.ofNat 16 f.offset), (Win.partState, 0)] s with
      rc := { s.rc with part := .unconfigured }, port := { s.port with checkRecord := f.record } } := by
  obtain ⟨read, hrun⟩ := runCheck_fails hnone checkFields_words h
  unfold checkComplete
  rw [if_pos hpart, hrun]
  dsimp only
  rw [put_of_none hnone, setPart_of_none (by exact hnone)]
  rfl

end

/-- Another layout version fails first. -/
theorem firstFailing_layout {rd : Nat → Word} (h : rd Win.layoutVersion ≠ 3) :
    ∃ f, firstFailing rd checkFields [] = some f ∧ f.record = 1 ∧ f.offset = 2 := by
  refine ⟨⟨1, 2, Win.layoutVersion, 1, false, Config.layoutVersion, Config.layoutVersion, []⟩, if_neg fun hpass => ?_,
    rfl, rfl⟩
  obtain ⟨hlo, hhi⟩ := range_of_passes hpass
  refine h (BitVec.eq_of_toNat_eq (le_antisymm (Int.ofNat_le.mp hhi) (Int.ofNat_le.mp hlo)))

section
variable {s : State} (hfree : arbiterFree s = true) (howed : s.oe.lookOwed = 0) (hpart : s.rc.part = .checking)
include hfree howed hpart

/-- The state in which a check that passes ends, but for what follows the queue. -/
def checkPassed (s : State) : State :=
  { (takeConfig (checkAddrs.map s.rd) s).wr Win.partState 2 with rc.part := .standby }

omit hfree howed hpart in
theorem checkPassed_frame (s : State) : (checkPassed s).rc = { s.rc with part := .standby } ∧
    (checkPassed s).port = s.port ∧ (checkPassed s).oe = s.oe ∧ (checkPassed s).co = s.co ∧
    (checkPassed s).nu = s.nu ∧ (checkPassed s).mem = (s.wr Win.partState 2).mem := by
  unfold checkPassed
  rw [takeConfig_frame]
  exact ⟨rfl, rfl, rfl, rfl, rfl, rfl⟩

theorem exec_checkPassed (h : firstFailing s.rd checkFields [] = none) :
    exec .checkComplete s = .next (followQueue (checkPassed s)) := by
  obtain ⟨hhigh, hnone⟩ := (arbiterFree_iff s).mp hfree
  obtain ⟨hrc, -, hoe, -⟩ := checkPassed_frame s
  have hsettle : settle (checkPassed s) = followQueue (checkPassed s) :=
    settle_outside_run (by rw [hrc]; exact nofun) (by rw [hoe]; exact howed)
  rw [← hsettle]
  exact congrArg Host.Outcome.next ((event_of_high hhigh checkComplete).trans
    (congrArg settle (checkComplete_passes hnone hpart h)))

/-- The state in which a check that fails ends, but for what follows the queue. -/
def checkFailed (f : CheckField) (s : State) : State :=
  { writeWords [(Win.checkField, BitVec.ofNat 16 f.offset), (Win.partState, 0)] s with
    rc := { s.rc with part := .unconfigured }, port := { s.port with checkRecord := f.record } }

theorem exec_checkFailed {f : CheckField} (h : firstFailing s.rd checkFields [] = some f) :
    exec .checkComplete s = .next (followQueue (checkFailed f s)) := by
  obtain ⟨hhigh, hnone⟩ := (arbiterFree_iff s).mp hfree
  have hsettle : settle (checkFailed f s) = followQueue (checkFailed f s) :=
    settle_outside_run (s := checkFailed f s) (nofun : PartState.unconfigured ≠ .run) howed
  rw [← hsettle]
  exact congrArg Host.Outcome.next ((event_of_high hhigh checkComplete).trans
    (congrArg settle (checkComplete_fails hnone hpart h)))

end

end Sys2Proof.Machine
end

section
/-! The configuration check (O14): the obligation. -/

namespace Sys2Proof.Machine

section
variable {s : State} (h : firstFailing s.rd checkFields [] = none)
include h

/-- The blocks of a check that passes hold the values of the window. -/
theorem checkPassed_values :
    (∀ sc, let a := Win.scale sc
      ((checkPassed s).chan sc).work = some ⟨(s.rd32 a).toInt, (s.rd (a + 4)).toNat, (s.rd (a + 6)).toNat,
        (s.rd (a + 8)).toNat, (s.rd (a + 10)).toNat, (s.rd (a + 12)).toNat, (s.rd (a + 14)).toNat,
        (s.rd (a + 16)).toNat⟩ ∧
      ((checkPassed s).chan sc).state = (s.chan sc).state ∧ ((checkPassed s).chan sc).tare = (s.chan sc).tare) ∧
    (checkPassed s).heat.vals = some (heatValsOf s.rd) ∧
    (checkPassed s).bit.work = some ⟨(s.rd (Win.config + 2 * 25)).toNat, (s.rd (Win.config + 2 * 26)).toNat⟩ ∧
    (checkPassed s).mixer = { s.mixer with work := some (mixValsOf s.rd) } := by
  refine ⟨fun sc => ?_, ?_, ?_, ?_⟩
  · have hchan : (checkPassed s).chan sc = takeScale ((checkAddrs.map s.rd).drop (1 + 9 * sc.code)) (s.chan sc) :=
      takeConfig_chan (checkAddrs.map s.rd) s sc
    rw [hchan]
    unfold takeScale
    dsimp only
    rw [scaleParamsFrom_checked h sc]
    exact ⟨rfl, rfl, rfl⟩
  · rw [← heatValsFrom_checked h]
    exact takeConfig_vals (checkAddrs.map s.rd) s
  · have hbit := takeConfig_bit (checkAddrs.map s.rd) s
    rw [nthWord_config (by decide), nthWord_config (by decide)] at hbit
    exact congrArg BitState.work hbit
  · rw [← mixValsFrom_checked h]
    exact takeConfig_mixer (checkAddrs.map s.rd) s

/-- The dryer target behind a check that passes. -/
theorem checkPassed_target :
    (∀ o, headOrder s = some o →
      (followQueue (checkPassed s)).heat.target = some (min o.tAgg (heatValsOf s.rd).maximum)) ∧
    (headOrder s = none → s.heat.target = none ∨ s.heat.atStandby = true →
      (followQueue (checkPassed s)).heat.target = some (heatValsOf s.rd).standby) := by
  obtain ⟨-, hvals, -, -⟩ := checkPassed_values h
  obtain ⟨hrc, -, hoe, -⟩ := checkPassed_frame s
  have hruns : dryerRuns (checkPassed s).rc.part = true := by rw [hrc]; rfl
  have hhead : headOrder (checkPassed s) = headOrder s := by
    unfold headOrder
    rw [hoe]
  rw [followQueue_target]
  refine ⟨fun o ho => ?_, fun ho hstandby => ?_⟩
  · rw [followDryer_of_head hvals hruns (hhead.trans ho)]
  · refine followDryer_keepsStandby hvals hruns (hhead.trans ho) ?_
    have hheat : (checkPassed s).heat = (takeConfig (checkAddrs.map s.rd) s).heat := rfl
    rw [hheat, ← heatValsFrom_checked h]
    by_cases hfirst : s.heat.target = none
    · rw [takeConfig_heat_first _ s hfirst]
      exact .inl rfl
    · rw [takeConfig_heat_later _ s hfirst]
      exact .inr ((heatTaken_target _ _).2.trans (hstandby.resolve_left hfirst))

end

/-- Settles O14. -/
theorem checkEnds : Obligations.CheckEnds := by
  refine ⟨fun s hhigh hpart => ?_, fun s hfree howed hpart hwf => ?_⟩
  · exact congrArg Host.Outcome.next ((event_of_high hhigh checkComplete).trans
      (congrArg settle (checkComplete_elsewhere hpart)))
  intro word value
  refine ⟨fun h => ?_, fun f h => ?_, firstFailing_layout⟩
  · obtain ⟨hscales, hvals, hbit, hmixer⟩ := checkPassed_values h
    obtain ⟨htarget, hstandby⟩ := checkPassed_target h
    obtain ⟨hrc, hport, hoe, hco, hnu, hmem⟩ := checkPassed_frame s
    refine ⟨_, exec_checkPassed hfree howed hpart h, ?_⟩
    have hvals' := (followQueue_vals (checkPassed s)).trans hvals
    have hmem' := (followQueue_mem (checkPassed s)).trans hmem
    generalize checkPassed s = u at *
    have hchan (sc : Scale) : (followQueue u).chan sc = u.chan sc := congrArg (PerScale.get · sc) (followQueue_ch u)
    rw [followQueue_rc, followQueue_port, followQueue_bit, followQueue_mixer, followQueue_co, followQueue_nu,
      followQueue_oe, hmixer]
    refine ⟨hrc, hport, ?_, fun sc => ?_, hvals', htarget, hstandby, hbit, rfl, rfl, hco, hnu, hoe, fun b hlow hhigh => ?_⟩
    · exact (State.rd_of_mem hmem' _).trans (State.rd_wr_same hwf _ _)
    · rw [hchan]
      exact hscales sc
    · exact (State.byteAt_of_mem hmem' b).trans (State.byteAt_wr_other hwf _ hlow hhigh)
  · refine ⟨_, exec_checkFailed hfree howed hpart h, ?_⟩
    have hmem : (followQueue (checkFailed f s)).mem =
        (writeWords [(Win.checkField, BitVec.ofNat 16 f.offset), (Win.partState, 0)] s).mem := followQueue_mem _
    have happart : [(Win.checkField, BitVec.ofNat 16 f.offset), (Win.partState, (0 : Word))].Pairwise wordsApart := by
      simp [wordsApart, Win.checkField, Win.partState]
    rw [followQueue_rc, followQueue_port, followQueue_bit, followQueue_mixer, followQueue_co, followQueue_nu,
      followQueue_oe, followQueue_ch, followQueue_vals]
    refine ⟨rfl, rfl, ?_, ?_, rfl, rfl, rfl, rfl, rfl, rfl, rfl, fun b hlow hhigh hlow' hhigh' => ?_⟩
    · exact (State.rd_of_mem hmem _).trans (rd_writeWords_of_mem _ hwf happart (by simp))
    · exact (State.rd_of_mem hmem _).trans (rd_writeWords_of_mem _ hwf happart (by simp))
    · refine (State.byteAt_of_mem hmem b).trans (byteAt_writeWords_other _ hwf fun x hx => ?_)
      simp only [List.mem_cons, List.not_mem_nil, or_false] at hx
      rcases hx with rfl | rfl <;> dsimp only <;> omega

end Sys2Proof.Machine
end
